-- ==== Sys2Proof/Word.lean ====
section
/-! DEFINITION. The plain words of the SX-410: bytes, 16-bit values, and the numbers of ports, streams, blocks and
descriptors (00 Table 0.4). -/

namespace Sys2Proof

/-- A byte on the SPI lines or in a block. -/
abbrev Byte := BitVec 8

/-- A stream sequence number: 16 bits, the successor of 65535 is 0 (00, Sequence arithmetic). -/
abbrev Seq := BitVec 16

/-- A port number, P0 to P3. -/
abbrev Port := Fin 4

/-- A stream number, 0 to 63. -/
abbrev StreamId := Fin 64

/-- A block number, 0 to 2047. -/
abbrev BlockId := Fin 2048

/-- A message descriptor number, 0 to 511. -/
abbrev DescId := Fin 512

end Sys2Proof
end

