-- ==== Sys2Proof/Syntax.lean ====
section
/-! DEFINITION. The commands of the SX-410: one constructor for each row of spec/opcode_table.json. -/

namespace Sys2Proof

/-- A command or event of the part. A request row is a good request frame of that command, with its request id, its
parameter bytes and its payload bytes, reaching the link of port `p` (log 1). In the two ATTACH rows the mode byte is
given by the row, so `params` holds the parameters after it. -/
inductive Instr where
  /-- ATTACH with mode FRESH (R138); `params` are lease period, flush period, attention mask. -/
  | attachFresh (p : Port) (id : Byte) (params payload : List Byte)
  /-- ATTACH with mode RESUME (R136, R137); `params` are lease period, flush period, attention mask. -/
  | attachResume (p : Port) (id : Byte) (params payload : List Byte)
  /-- DETACH (R141). -/
  | detach (p : Port) (id : Byte) (params payload : List Byte)
  /-- PING (R145). -/
  | ping (p : Port) (id : Byte) (params payload : List Byte)
  /-- PORT_INFO (R146). -/
  | portInfo (p : Port) (id : Byte) (params payload : List Byte)
  /-- DEFINE (R21, R22). -/
  | define (p : Port) (id : Byte) (params payload : List Byte)
  /-- DISSOLVE (R33, R34). -/
  | dissolve (p : Port) (id : Byte) (params payload : List Byte)
  /-- STREAM_INFO (R36). -/
  | streamInfo (p : Port) (id : Byte) (params payload : List Byte)
  /-- CLAIM (R38, R39). -/
  | claim (p : Port) (id : Byte) (params payload : List Byte)
  /-- UNCLAIM (R42). -/
  | unclaim (p : Port) (id : Byte) (params payload : List Byte)
  /-- OPEN (R48, R49). -/
  | openMessage (p : Port) (id : Byte) (params payload : List Byte)
  /-- APPEND (R51, R52). -/
  | append (p : Port) (id : Byte) (params payload : List Byte)
  /-- COMMIT (R53 to R56). -/
  | commit (p : Port) (id : Byte) (params payload : List Byte)
  /-- ABORT (R59). -/
  | abort (p : Port) (id : Byte) (params payload : List Byte)
  /-- JOIN (R85, R86). -/
  | join (p : Port) (id : Byte) (params payload : List Byte)
  /-- LEAVE (R91). -/
  | leave (p : Port) (id : Byte) (params payload : List Byte)
  /-- EVICT (R92, R93). -/
  | evict (p : Port) (id : Byte) (params payload : List Byte)
  /-- READ (R95 to R98). -/
  | read (p : Port) (id : Byte) (params payload : List Byte)
  /-- RELEASE (R99, R100). -/
  | release (p : Port) (id : Byte) (params payload : List Byte)
  /-- SUB_INFO (R103, R104). -/
  | subInfo (p : Port) (id : Byte) (params payload : List Byte)
  /-- TAKE_NOTICES (R122, R123). -/
  | takeNotices (p : Port) (id : Byte) (params payload : List Byte)
  /-- POOL_INFO (R17). -/
  | poolInfo (p : Port) (id : Byte) (params payload : List Byte)
  /-- SCRUB (R14 to R16). -/
  | scrub (p : Port) (id : Byte) (params payload : List Byte)
  /-- A frame whose command code names no command (R128): `code` is a byte outside Table 9.3, or `none` when the code and
  its complement disagree (R161). -/
  | badCommand (p : Port) (id : Byte) (code : Option Byte) (params payload : List Byte)
  /-- A fall of CSn (R149). -/
  | csFall (p : Port)
  /-- A rise of CSn (R151): the whole bytes received on MOSIn, and the bits of a last byte that was not completed. -/
  | csRise (p : Port) (received : List Byte) (lastBits : List Bool)
  /-- A taken assertion of PRSTn (R142, R159). -/
  | portReset (p : Port)
  /-- A taken assertion of RESETn (R171). -/
  | resetAssert
  /-- A taken release of RESETn (R18). -/
  | resetRelease
  /-- The end of the pool initialisation pass (R18). -/
  | initPassEnd
  /-- The 1 ms tick (R131). -/
  | tick
  /-- The expiry of a port's lease timer (R133). -/
  | leaseExpiry (p : Port)
  /-- The expiry of a port's flush timer (R117). -/
  | flushExpiry (p : Port)
  /-- The Exchange Core completes the command it executes (R157, R160). -/
  | commandCompletion
  /-- A taken release of PRSTn (R171). -/
  | portResetRelease (p : Port)
  /-- The stamp counter's microsecond (R130). -/
  | stampCounterRise
  /-- REFCLK stops (R171). -/
  | refclkStop
  /-- REFCLK returns (R171). -/
  | refclkReturn
  deriving DecidableEq, Repr

end Sys2Proof
end

