-- ==== Sys2Proof/Decode.lean ====
section
/-! DEFINITION. Reading a command from a word of the opcode table. No row of spec/opcode_table.json has bits: the part
takes commands as request frames, pin events and time events, so no word spells a command (log 23). The coding of request
frames is in Sys2Proof/Machine/Frames.lean. -/

namespace Sys2Proof

/-- The command that a word spells by the table's bits: none, for no row of the table has bits. -/
def decodeTableWord (_nbits _w : Nat) : Option Instr := none

end Sys2Proof
end

