-- ==== Sys2Proof/Config.lean ====
section
/-! DEFINITION. The free values of the model: what the spec leaves to the condition of the storage or does not state.
Each is a constant without a body, so no proof can see what it is. -/

namespace Sys2Proof.Config

/-- R12: whether the block tested by a READ has met a fault of its storage cells. The argument is the model's count of
draws, so every test has an outcome of its own (log 10). -/
opaque cellFault : Nat → Bool

/-- R15: whether a quarantined block passes the test of a SCRUB (log 11). -/
opaque scrubPasses : Nat → Bool

/-- R15: the byte that a failed SCRUB test leaves at an offset of the block; the test writes fixed patterns that the spec
does not give (log 12). -/
opaque scrubResidue : Nat → Nat → Byte

/-- R12: the stored check over the 64 byte positions of a block, whose function and width the spec does not give
(log 13). -/
opaque storedCheck : List Byte → Nat

end Sys2Proof.Config
end

