-- ==== Sys2Proof/Machine/State.lean ====
section
/-! DEFINITION. The state of the SX-410 as plain data, its reset value, and the reasons a step can stop. -/

namespace Sys2Proof.Machine

/-- No step of the part ends in a fault: a wrong frame sets a link flag (R153) and a command that cannot be taken answers
with a status (00 Table 0.3). So there is no fault to name. -/
inductive Fault where
  deriving DecidableEq, Repr

/-- Why a step can be refused. -/
inductive Refusal where
  /-- Raised by an arm of `exec` whose command has no meaning yet; safe, since nothing can be proved of a next state. -/
  | notModelled (mnemonic : String)
  deriving DecidableEq, Repr

/-! ### Block Pool and Descriptor Pool (chapter 1) -/

/-- R1: the five states of a block. -/
inductive BlockState where
  | free
  | staged
  | committed
  | quarantined
  | retired
  deriving DecidableEq, Repr

/-- R1, Table 1.1: the record of one block, with its stored check (R12). -/
structure BlockRecord where
  state : BlockState
  next : Option BlockId
  fill : Nat
  failed : Bool
  scrubFailures : Nat
  owner : Option DescId
  check : Nat
  deriving DecidableEq, Repr

/-- R6, Table 1.2, column STAGED. -/
structure StagedMessage where
  stream : StreamId
  declaredLength : Nat
  fill : Nat
  firstBlock : BlockId
  blockCount : Nat
  tag : BitVec 16
  urgent : Bool
  damaged : Bool
  deriving DecidableEq, Repr

/-- R6, Table 1.2, column COMMITTED. -/
structure CommittedMessage where
  stream : StreamId
  sequence : Seq
  declaredLength : Nat
  committedLength : Nat
  firstBlock : BlockId
  blockCount : Nat
  tag : BitVec 16
  urgent : Bool
  stamp : BitVec 24
  readers : Nat
  damaged : Bool
  next : Option DescId
  deriving DecidableEq, Repr

/-- R6: a message descriptor; the fields absent in a state are not there. -/
inductive Descriptor where
  | free
  | staged (m : StagedMessage)
  | committed (m : CommittedMessage)
  deriving DecidableEq, Repr

/-- The payload bytes of the Block Pool, in one canonical form: byte `o` of block `b` at address `64 * b + o`, addresses
strictly rising, no entry equal to 0, which is what an unlisted address reads as (R18). -/
abbrev Memory := List Host.Cell

/-- The Block Pool and the Descriptor Pool (R1 to R7). -/
structure Pool where
  bytes : Memory
  blocks : Vector BlockRecord 2048
  descriptors : Vector Descriptor 512
  freeBlocks : List BlockId
  quarantine : List BlockId
  freeDescriptors : List DescId
  deriving DecidableEq, Repr

/-! ### Stream Table (chapter 2) -/

/-- R20: the policy of a stream. -/
inductive Policy where
  | hold
  | shed
  deriving DecidableEq, Repr

/-- R20: the four settings that DEFINE writes. -/
structure Settings where
  policy : Policy
  blockLimit : Nat
  maxLength : Nat
  retainDepth : Nat
  deriving DecidableEq, Repr

/-- R37: the claim of a stream. -/
inductive Claim where
  | none
  | held (p : Port)
  | stale (p : Port)
  deriving DecidableEq, Repr

/-- R19, Table 2.1: a stream record; the stream is UNDEFINED when its settings are absent. -/
structure StreamRecord where
  settings : Option Settings
  claim : Claim
  assembly : Option DescId
  oldest : Option DescId
  newest : Option DescId
  committedCount : Nat
  oldestSeq : Seq
  nextSeq : Seq
  heldBlocks : Nat
  starvedNeed : Option Nat
  commitTotal : BitVec 32
  shedTotal : BitVec 32
  deriving DecidableEq, Repr

/-! ### Subscription Table (chapter 5) -/

/-- R81: the state of a present subscription. -/
inductive SubState where
  | active
  | lapsed
  deriving DecidableEq, Repr

/-- R81, Table 5.1: the record of a present subscription; an ABSENT slot holds none. -/
structure Subscription where
  state : SubState
  cursor : Seq
  readOffset : Nat
  damagedStop : Bool
  lostSinceRead : Bool
  lossTotal : Nat
  lossQueued : Bool
  lagMark : Nat
  lagArmed : Bool
  arrivalBatch : Nat
  unannounced : Nat
  arrivalQueued : Bool
  deriving DecidableEq, Repr

/-! ### Notice Queues (chapter 6) -/

/-- R110: the six kinds of notice. -/
inductive NoticeKind where
  | arrival
  | lag
  | loss
  | room
  | claimLost
  | evicted
  deriving DecidableEq, Repr

/-- R110: a notice record. -/
structure Notice where
  kind : NoticeKind
  stream : StreamId
  sequence : BitVec 16
  count : BitVec 16
  aux : BitVec 16
  deriving DecidableEq, Repr

/-- R109: a port's notice queue, oldest first, and its dropped-notice count. -/
structure NoticeQueue where
  records : List Notice
  dropped : Nat
  deriving DecidableEq, Repr

/-! ### Port Session units (chapters 6 and 7) -/

/-- R127: the session states. -/
inductive SessionState where
  | detached
  | attached
  | lapsed
  deriving DecidableEq, Repr

/-- R115, R132: a timer. `expired` is the model's own value (log 4): the tick that brings the count to 0 has come, and
the expiry is the Port Session unit's next event. -/
inductive Timer where
  | idle
  | running (remaining : Nat)
  | expired
  deriving DecidableEq, Repr

/-- R125: the attention mask. -/
structure AttentionMask where
  response : Bool
  notice : Bool
  deriving DecidableEq, Repr

/-- R127, Table 7.1: the session record of a port. -/
structure Session where
  state : SessionState
  leasePeriod : Nat
  leaseTimer : Timer
  flushPeriod : Nat
  flushTimer : Timer
  mask : AttentionMask
  claimsLost : Nat
  evicted : Nat
  deriving DecidableEq, Repr

/-! ### Port Links (chapters 8 and 9) -/

/-- 00 Table 0.3, Table 9.4: the statuses. -/
inductive Status where
  | ok
  | notReady
  | notAttached
  | lapsed
  | badCommand
  | badArgument
  | noStream
  | alreadyDefined
  | inUse
  | heldByOther
  | staleByOther
  | notWriter
  | assemblyOpen
  | noAssembly
  | tooLong
  | overlength
  | emptyAssembly
  | full
  | poolEmpty
  | noDescriptor
  | notSubscribed
  | alreadySubscribed
  | nothing
  | gone
  | damaged
  | notLapsed
  | quarantineEmpty
  deriving DecidableEq, Repr

/-- R153: the four link flags. -/
structure LinkFlags where
  truncated : Bool
  badcheck : Bool
  collided : Bool
  superseded : Bool
  deriving DecidableEq, Repr

/-- R161: what the request buffer receives of a frame; `code` is `none` when the code and its complement disagree. -/
structure Request where
  id : Byte
  code : Option Byte
  params : List Byte
  payload : List Byte
  deriving DecidableEq, Repr

/-- What a command answers: its status, result fields and payload. -/
structure Reply where
  status : Status
  result : List Byte
  payload : List Byte
  deriving DecidableEq, Repr

/-- R164: a response as it was placed in the slot, with the flags copied and the CRC computed at the placement. -/
structure Response where
  id : Byte
  flags : LinkFlags
  reply : Reply
  crc : BitVec 16
  deriving DecidableEq, Repr

/-- R147: the link state. WAITING and EXECUTING hold the request buffer, READY holds the response slot (log 25). -/
inductive LinkState where
  | idle
  | waiting (request : Request)
  | executing (request : Request)
  | ready (response : Response)
  deriving DecidableEq, Repr

/-- R149: what a transaction sends, decided at the fall of CSn for the whole transaction. -/
structure Transaction where
  linkByte : Byte
  response : Option Response
  deriving DecidableEq, Repr

/-- R147, Table 8.1: the record of a Port Link, with its receive area (R148). -/
structure Link where
  state : LinkState
  flags : LinkFlags
  lastId : Byte
  transaction : Option Transaction
  discardMark : Bool
  receiveArea : List Byte
  deriving DecidableEq, Repr

/-- R157: the command the Exchange Core is executing, with the reply it places at its completion (log 2). -/
structure Executing where
  port : Port
  reply : Reply
  deriving DecidableEq, Repr

/-! ### The part -/

/-- R18, R171: RESETn asserted, the initialisation pass running, or operating. -/
inductive Phase where
  | inReset
  | initialising
  | operating
  deriving DecidableEq, Repr

/-- R148, R171: the levels of CSn and PRSTn of a port, as the part has taken them. -/
structure PortPins where
  csLow : Bool
  prstAsserted : Bool
  deriving DecidableEq, Repr

/-- The state of the SX-410. -/
structure State where
  /-- Block Pool and Descriptor Pool. -/
  pool : Pool
  /-- Stream Table. -/
  streams : Vector StreamRecord 64
  /-- Subscription Table: a row for each stream, a slot for each port. -/
  subs : Vector (Vector (Option Subscription) 4) 64
  /-- Notice Queues. -/
  queues : Vector NoticeQueue 4
  /-- Port Session units. -/
  sessions : Vector Session 4
  /-- Port Links. -/
  links : Vector Link 4
  /-- CSn and PRSTn. -/
  pins : Vector PortPins 4
  /-- Round-robin pointer of the Exchange Arbiter (R156). -/
  pointer : Port
  /-- The Exchange Core: free, or executing a command. -/
  core : Option Executing
  /-- Stamp counter (R130). -/
  stamp : BitVec 24
  /-- Microseconds counted since the last tick (R131). -/
  tickCount : Nat
  /-- RESETn and the initialisation pass. -/
  phase : Phase
  /-- Whether REFCLK runs (R171). -/
  refclk : Bool
  /-- The model's own: how many free values have been drawn (log 14). -/
  draws : Nat
  /-- The model's own: the commands that wait, first in, first out. -/
  pending : List Instr
  deriving DecidableEq, Repr

/-! ### Reset values -/

/-- R1, R18: a block at power-on; its check is that of 64 zero bytes. -/
def BlockRecord.powerOn : BlockRecord :=
  { state := .free, next := none, fill := 0, failed := false, scrubFailures := 0, owner := none,
    check := Config.storedCheck (List.replicate 64 0#8) }

/-- R18: the pool at the end of the initialisation pass. -/
def Pool.powerOn : Pool :=
  { bytes := []
    blocks := Vector.replicate 2048 BlockRecord.powerOn
    descriptors := Vector.replicate 512 .free
    freeBlocks := List.finRange 2048
    quarantine := []
    freeDescriptors := List.finRange 512 }

/-- R19, Table 2.1, column UNDEFINED. -/
def StreamRecord.undefined : StreamRecord :=
  { settings := none, claim := .none, assembly := none, oldest := none, newest := none, committedCount := 0,
    oldestSeq := 0, nextSeq := 0, heldBlocks := 0, starvedNeed := none, commitTotal := 0, shedTotal := 0 }

/-- R109: an empty queue. -/
def NoticeQueue.empty : NoticeQueue := { records := [], dropped := 0 }

/-- R125: response bit set, notice bit clear. -/
def AttentionMask.default : AttentionMask := { response := true, notice := false }

/-- R127, Table 7.1, column power-on reset. -/
def Session.powerOn : Session :=
  { state := .detached, leasePeriod := 0, leaseTimer := .idle, flushPeriod := 0, flushTimer := .idle,
    mask := .default, claimsLost := 0, evicted := 0 }

/-- R153: all flags clear. -/
def LinkFlags.clear : LinkFlags :=
  { truncated := false, badcheck := false, collided := false, superseded := false }

/-- R147, Table 8.1, column power-on reset; the receive area empty (log 20). -/
def Link.powerOn : Link :=
  { state := .idle, flags := .clear, lastId := 0, transaction := none, discardMark := false, receiveArea := [] }

/-- The machine right after the release of RESETn: every field at its power-on value, the initialisation pass running
(log 7), CSn high, PRSTn released and REFCLK running (log 8). -/
def State.reset : State :=
  { pool := .powerOn
    streams := Vector.replicate 64 .undefined
    subs := Vector.replicate 64 (Vector.replicate 4 none)
    queues := Vector.replicate 4 .empty
    sessions := Vector.replicate 4 .powerOn
    links := Vector.replicate 4 .powerOn
    pins := Vector.replicate 4 { csLow := false, prstAsserted := false }
    pointer := 0
    core := none
    stamp := 0
    tickCount := 0
    phase := .initialising
    refclk := true
    draws := 0
    pending := [] }

end Sys2Proof.Machine
end

