-- ==== Sys2Proof/Machine/Access.lean ====
section
/-! DEFINITION. The one way in and out of each table of the state: accessors and setters. -/

namespace Sys2Proof.Machine

/-! ### Pool -/

/-- The record of block `b`. -/
def Pool.block (q : Pool) (b : BlockId) : BlockRecord := q.blocks.get b

/-- The pool with the record of block `b` replaced. -/
def Pool.setBlock (q : Pool) (b : BlockId) (r : BlockRecord) : Pool :=
  { q with blocks := q.blocks.set b.val r b.isLt }

/-- The descriptor `d`. -/
def Pool.desc (q : Pool) (d : DescId) : Descriptor := q.descriptors.get d

/-- The pool with descriptor `d` replaced. -/
def Pool.setDesc (q : Pool) (d : DescId) (r : Descriptor) : Pool :=
  { q with descriptors := q.descriptors.set d.val r d.isLt }

/-! ### Tables -/

/-- The state with another pool. -/
def State.setPool (s : State) (q : Pool) : State := { s with pool := q }

/-- The record of stream `i`. -/
def State.stream (s : State) (i : StreamId) : StreamRecord := s.streams.get i

/-- The state with the record of stream `i` replaced. -/
def State.setStream (s : State) (i : StreamId) (r : StreamRecord) : State :=
  { s with streams := s.streams.set i.val r i.isLt }

/-- The slot of stream `i` and port `p`; `none` when ABSENT. -/
def State.sub (s : State) (i : StreamId) (p : Port) : Option Subscription := (s.subs.get i).get p

/-- The state with the slot of stream `i` and port `p` replaced. -/
def State.setSub (s : State) (i : StreamId) (p : Port) (u : Option Subscription) : State :=
  { s with subs := s.subs.set i.val ((s.subs.get i).set p.val u p.isLt) i.isLt }

/-- The notice queue of port `p`. -/
def State.queue (s : State) (p : Port) : NoticeQueue := s.queues.get p

/-- The state with the notice queue of port `p` replaced. -/
def State.setQueue (s : State) (p : Port) (q : NoticeQueue) : State :=
  { s with queues := s.queues.set p.val q p.isLt }

/-- The session record of port `p`. -/
def State.session (s : State) (p : Port) : Session := s.sessions.get p

/-- The state with the session record of port `p` replaced. -/
def State.setSession (s : State) (p : Port) (r : Session) : State :=
  { s with sessions := s.sessions.set p.val r p.isLt }

/-- The link record of port `p`. -/
def State.link (s : State) (p : Port) : Link := s.links.get p

/-- The state with the link record of port `p` replaced. -/
def State.setLink (s : State) (p : Port) (l : Link) : State :=
  { s with links := s.links.set p.val l p.isLt }

/-- The pins of port `p`. -/
def State.pinsOf (s : State) (p : Port) : PortPins := s.pins.get p

/-- The state with the pins of port `p` replaced. -/
def State.setPins (s : State) (p : Port) (x : PortPins) : State :=
  { s with pins := s.pins.set p.val x p.isLt }

/-- The state with the Exchange Core free or executing. -/
def State.setCore (s : State) (c : Option Executing) : State := { s with core := c }

/-- The state with the round-robin pointer moved. -/
def State.setPointer (s : State) (p : Port) : State := { s with pointer := p }

/-- The state after one more draw of a free value. -/
def State.drawn (s : State) : State := { s with draws := s.draws + 1 }

/-! ### Views -/

/-- R1, R2: whether a stream is DEFINED. -/
def StreamRecord.defined (r : StreamRecord) : Bool := r.settings.isSome

/-- The streams in ascending order. -/
def allStreams : List StreamId := List.finRange 64

/-- The ports in ascending order. -/
def allPorts : List Port := List.finRange 4

/-- R147: the request buffer. -/
def Link.requestBuffer (l : Link) : Option Request :=
  match l.state with
  | .waiting r => some r
  | .executing r => some r
  | _ => none

/-- R147: the response slot. -/
def Link.responseSlot (l : Link) : Option Response :=
  match l.state with
  | .ready r => some r
  | _ => none

/-- R147: whether the link is WAITING. -/
def Link.isWaiting (l : Link) : Bool :=
  match l.state with
  | .waiting _ => true
  | _ => false

/-- R147: whether the link is EXECUTING. -/
def Link.isExecuting (l : Link) : Bool :=
  match l.state with
  | .executing _ => true
  | _ => false

/-- R5: the number of blocks in a state. -/
def Pool.countBlocks (q : Pool) (x : BlockState) : Nat := q.blocks.toList.countP (fun r => r.state = x)

/-- R4: the retired set. -/
def Pool.retiredSet (q : Pool) : List BlockId := (List.finRange 2048).filter (fun b => (q.block b).state = .retired)

/-- R17: whether a descriptor is STAGED. -/
def Descriptor.isStaged : Descriptor → Bool
  | .staged _ => true
  | _ => false

/-- R17: whether a descriptor is COMMITTED. -/
def Descriptor.isCommitted : Descriptor → Bool
  | .committed _ => true
  | _ => false

end Sys2Proof.Machine
end

