-- ==== Sys2Proof/Machine/Ops.lean ====
section
/-! DEFINITION. The shared operations over the tables: block memory, the pool's taking and returning of storage, posting
of notices, retirement, removal, ROOM re-evaluation, teardown, lapse and the timers. -/

namespace Sys2Proof.Machine

/-! ### Block memory -/

/-- The number of payload bytes of the Block Pool. -/
def memorySize : Nat := 131072

/-- The byte at an address; an unlisted address reads 0 (R18). -/
def Memory.read : Memory → Nat → Byte
  | [], _ => 0#8
  | (b, w) :: rest, a => if a = b then w else Memory.read rest a

/-- The memory with one byte written, in canonical form: writing 0 removes the entry. -/
def Memory.write : Memory → Nat → Byte → Memory
  | [], a, v => if v = 0#8 then [] else [(a, v)]
  | (b, w) :: rest, a, v =>
    if a < b then
      (if v = 0#8 then (b, w) :: rest else (a, v) :: (b, w) :: rest)
    else if a = b then
      (if v = 0#8 then rest else (a, v) :: rest)
    else (b, w) :: Memory.write rest a v

/-- The canonical form: addresses strictly rising, no entry equal to 0, every address inside the Block Pool. -/
abbrev Memory.wf (m : Memory) : Prop :=
  m.Pairwise (fun x y => x.1 < y.1) ∧ ∀ c ∈ m, c.2 ≠ 0 ∧ c.1 < memorySize

/-- The address of byte `o` of block `b`. -/
def blockAddress (b : BlockId) (o : Nat) : Nat := 64 * b.val + o

/-- The 64 bytes of a block. -/
def Pool.blockBytes (q : Pool) (b : BlockId) : List Byte :=
  (List.range 64).map (fun o => q.bytes.read (blockAddress b o))

/-- Writes the bytes `f 0` to `f (n - 1)` of block `b`. -/
def Memory.writeBlock (b : BlockId) (f : Nat → Byte) : Nat → Memory → Memory
  | 0, m => m
  | n + 1, m => Memory.write (Memory.writeBlock b f n m) (blockAddress b n) (f n)

/-- 00 Rounding: the blocks that a message of `n` bytes occupies, ceil(n / 64). -/
def blocksFor (n : Nat) : Nat := (n + 63) / 64

/-! ### Chains and lists -/

/-- R2: at most `n` blocks of the chain that starts at a link. -/
def Pool.chainFrom (q : Pool) : Nat → Option BlockId → List BlockId
  | 0, _ => []
  | _ + 1, none => []
  | n + 1, some b => b :: Pool.chainFrom q n (q.block b).next

/-- R2: the chain of a message, from its first block, as long as its block count. -/
def Pool.chain (q : Pool) (first : BlockId) (count : Nat) : List BlockId := q.chainFrom count (some first)

/-- R23: the next newer descriptor of the stream. -/
def Pool.nextInStream (q : Pool) (d : DescId) : Option DescId :=
  match q.desc d with
  | .committed m => m.next
  | _ => none

/-- R23: at most `n` descriptors of a committed list from a link on. -/
def Pool.listFrom (q : Pool) : Nat → Option DescId → List DescId
  | 0, _ => []
  | _ + 1, none => []
  | n + 1, some d => d :: Pool.listFrom q n (q.nextInStream d)

/-- R23: the committed list of a stream, oldest first. -/
def State.messages (s : State) (i : StreamId) : List DescId :=
  s.pool.listFrom (s.stream i).committedCount (s.stream i).oldest

/-- R25: whether the stream holds a sequence. -/
def StreamRecord.holds (r : StreamRecord) (x : Seq) : Bool :=
  r.committedCount ≠ 0 && (x - r.oldestSeq).toNat < r.committedCount

/-- R25: the descriptor of a held sequence, by its position in the committed list. -/
def State.messageAt (s : State) (i : StreamId) (x : Seq) : Option DescId :=
  if (s.stream i).holds x then (s.messages i)[(x - (s.stream i).oldestSeq).toNat]? else none

/-- 00 Sequence arithmetic, R81: the unread count of a subscription. -/
def unread (r : StreamRecord) (u : Subscription) : Nat := (r.nextSeq - u.cursor).toNat

/-- R26: the headroom of a stream. -/
def StreamRecord.headroom (r : StreamRecord) : Nat :=
  match r.settings with
  | some x => x.blockLimit - r.heldBlocks
  | none => 0

/-! ### Taking and returning storage -/

/-- R8: chains the blocks taken, in the order taken, as STAGED blocks of descriptor `d`. -/
def Pool.stageChain (d : DescId) : List BlockId → Pool → Pool
  | [], q => q
  | b :: rest, q =>
    Pool.stageChain d rest
      (q.setBlock b { q.block b with
        state := .staged, next := rest.head?, fill := 0, failed := false, owner := some d })

/-- R8: allocation for an assembly: a descriptor and the blocks for `length` bytes, from the fronts of the free lists. The
room decision has made sure that they are there; were they not, nothing is taken (log 17). -/
def Pool.allocate (q : Pool) (i : StreamId) (length : Nat) (tag : BitVec 16) (urgent : Bool) : Option (DescId × Pool) :=
  let blocks := q.freeBlocks.take (blocksFor length)
  if q.freeBlocks.length < blocksFor length then none
  else
    match q.freeDescriptors, blocks with
    | d :: rest, b :: _ =>
      some (d, (Pool.stageChain d blocks
        { q with freeBlocks := q.freeBlocks.drop (blocksFor length), freeDescriptors := rest }).setDesc d
          (.staged { stream := i, declaredLength := length, fill := 0, firstBlock := b,
                     blockCount := blocksFor length, tag := tag, urgent := urgent, damaged := false }))
    | _, _ => none

/-- R9: writes one payload byte into a block and advances the block's fill. -/
def Pool.storeByte (q : Pool) (b : BlockId) (o : Nat) (v : Byte) : Pool :=
  { q with bytes := q.bytes.write (blockAddress b o) v }.setBlock b { q.block b with fill := (q.block b).fill + 1 }

/-- R9: writes payload bytes from message offset `pos` on, across block boundaries as needed. -/
def Pool.storeBytes (chain : List BlockId) : Nat → List Byte → Pool → Pool
  | _, [], q => q
  | pos, v :: rest, q =>
    Pool.storeBytes chain (pos + 1) rest
      (match chain[pos / 64]? with
       | some b => q.storeByte b (pos % 64) v
       | none => q)

/-- R12: recomputes the stored check of a block over its bytes as they stand. -/
def Pool.recheck (q : Pool) (b : BlockId) : Pool :=
  q.setBlock b { q.block b with check := Config.storedCheck (q.blockBytes b) }

/-- The part of a chain that holds message offsets `o` to `o + n - 1`, for `n` at least 1. -/
def coveredBlocks (chain : List BlockId) (o n : Nat) : List BlockId :=
  (chain.drop (o / 64)).take ((o + n - 1) / 64 - o / 64 + 1)

/-- R9: stores the bytes of an APPEND into the assembly `d`. -/
def Pool.storePayload (q : Pool) (d : DescId) (m : StagedMessage) (data : List Byte) : Pool :=
  let chain := q.chain m.firstBlock m.blockCount
  let written := Pool.storeBytes chain m.fill data q
  ((coveredBlocks chain m.fill data.length).foldl Pool.recheck written).setDesc d
    (.staged { m with fill := m.fill + data.length })

/-- R3, R11: returns a held block: to the quarantine list when its failed flag is set, else to the block free list. -/
def Pool.returnBlock (q : Pool) (b : BlockId) : Pool :=
  let r := q.block b
  if r.state = .staged ∨ r.state = .committed then
    if r.failed then
      { q.setBlock b { r with state := .quarantined, next := none, fill := 0, owner := none } with
        quarantine := q.quarantine ++ [b] }
    else
      { q.setBlock b { r with state := .free, next := none, fill := 0, failed := false, owner := none } with
        freeBlocks := q.freeBlocks ++ [b] }
  else q

/-- R7: returns a descriptor to the back of the descriptor free list. -/
def Pool.returnDescriptor (q : Pool) (d : DescId) : Pool :=
  { q.setDesc d .free with freeDescriptors := q.freeDescriptors ++ [d] }

/-- R11: release of the storage of a staged or committed message, in chain order, then of its descriptor. -/
def Pool.releaseMessage (q : Pool) (d : DescId) : Pool :=
  match q.desc d with
  | .free => q
  | .staged m => ((q.chain m.firstBlock m.blockCount).foldl Pool.returnBlock q).returnDescriptor d
  | .committed m => ((q.chain m.firstBlock m.blockCount).foldl Pool.returnBlock q).returnDescriptor d

/-- R10: a staged block becomes COMMITTED. -/
def Pool.commitBlock (q : Pool) (b : BlockId) : Pool :=
  if (q.block b).state = .staged then q.setBlock b { q.block b with state := .committed } else q

/-- R10: ends the chain of a committed message at its last block. -/
def Pool.endChain (q : Pool) : Option BlockId → Pool
  | some b => q.setBlock b { q.block b with next := none }
  | none => q

/-- R10, R54: commit of the storage of assembly `d`, and the committed descriptor. -/
def Pool.commitMessage (q : Pool) (d : DescId) (m : StagedMessage) (x : Seq) (stamp : BitVec 24) (readers : Nat) : Pool :=
  let chain := q.chain m.firstBlock m.blockCount
  let kept := chain.take (blocksFor m.fill)
  let surplus := chain.drop (blocksFor m.fill)
  (surplus.foldl Pool.returnBlock ((kept.foldl Pool.commitBlock q).endChain kept.getLast?)).setDesc d
    (.committed { stream := m.stream, sequence := x, declaredLength := m.declaredLength, committedLength := m.fill,
                  firstBlock := m.firstBlock, blockCount := blocksFor m.fill, tag := m.tag, urgent := m.urgent,
                  stamp := stamp, readers := readers, damaged := m.damaged, next := none })

/-- Changes a committed descriptor; a descriptor in another state stays. -/
def Pool.updateCommitted (q : Pool) (d : DescId) (f : CommittedMessage → CommittedMessage) : Pool :=
  match q.desc d with
  | .committed m => q.setDesc d (.committed (f m))
  | _ => q

/-- R84: lowers readers remaining of each listed message by one. -/
def Pool.lowerReaders (q : Pool) (ds : List DescId) : Pool :=
  ds.foldl (fun q d => q.updateCommitted d (fun m => { m with readers := m.readers - 1 })) q

/-- R84, R87: raises readers remaining of each listed message by one. -/
def Pool.raiseReaders (q : Pool) (ds : List DescId) : Pool :=
  ds.foldl (fun q d => q.updateCommitted d (fun m => { m with readers := m.readers + 1 })) q

/-- R76: whether an event that led from one pool to another has returned a block or descriptor to a free list. No event
that may return storage also takes some, so a longer free list says it (log 21). -/
def Pool.returnedStorage (before after : Pool) : Bool :=
  before.freeBlocks.length < after.freeBlocks.length || before.freeDescriptors.length < after.freeDescriptors.length

/-! ### Notices -/

/-- R111: whether a notice posted to port `p` is appended; otherwise it is dropped. -/
def State.hasRoomForNotice (s : State) (p : Port) : Bool := (s.queue p).records.length < 32

/-- R111: posts a notice to port `p`'s queue. -/
def State.post (s : State) (p : Port) (n : Notice) : State :=
  if s.hasRoomForNotice p then s.setQueue p { s.queue p with records := (s.queue p).records ++ [n] }
  else s.setQueue p { s.queue p with dropped := min 255 ((s.queue p).dropped + 1) }

/-- R115: a subscription is pending when it is ACTIVE, has messages unannounced and no ARRIVAL queued. -/
def Subscription.isPending (u : Subscription) : Bool :=
  u.state = .active && 0 < u.unannounced && !u.arrivalQueued

/-- R115: whether port `p`'s subscription to stream `i` is pending. -/
def State.subPending (s : State) (p : Port) (i : StreamId) : Bool :=
  match s.sub i p with
  | some u => u.isPending
  | none => false

/-- R115: whether any subscription of port `p` is pending. -/
def State.anyPending (s : State) (p : Port) : Bool := allStreams.any (s.subPending p)

/-- R116: starts port `p`'s flush timer when it is IDLE and the flush period is not 0. -/
def State.startFlush (s : State) (p : Port) : State :=
  if (s.session p).flushTimer = .idle ∧ (s.session p).flushPeriod ≠ 0 then
    s.setSession p { s.session p with flushTimer := .running (s.session p).flushPeriod }
  else s

/-- Posts an ARRIVAL for the subscription of port `p` to stream `i`: when it is appended, unannounced becomes 0 and
arrival-queued is set; when it is dropped, both stay (R111, R113). -/
def State.postArrival (s : State) (p : Port) (i : StreamId) (u : Subscription) (x : Seq) (cause : BitVec 16) : State :=
  let posted := s.post p { kind := .arrival, stream := i, sequence := x, count := BitVec.ofNat 16 u.unannounced,
                           aux := cause }
  if s.hasRoomForNotice p then posted.setSub i p (some { u with unannounced := 0, arrivalQueued := true })
  else posted

/-! ### Subscriptions -/

/-- R120: the lag re-arm, on the unread count that an advance leaves. -/
def Subscription.rearmLag (u : Subscription) (left : Nat) : Subscription :=
  if u.lagMark ≠ 0 ∧ left ≤ u.lagMark / 2 then { u with lagArmed := true } else u

/-- R55: the number of present subscriptions of a stream. -/
def State.presentCount (s : State) (i : StreamId) : Nat := allPorts.countP (fun p => (s.sub i p).isSome)

/-- R146: the number of present subscriptions of a port. -/
def State.subsOfPort (s : State) (p : Port) : Nat := allStreams.countP (fun i => (s.sub i p).isSome)

/-- R146: whether a claim is port `p`'s, HELD or STALE. -/
def Claim.belongsTo (c : Claim) (p : Port) : Bool :=
  match c with
  | .held q => q = p
  | .stale q => q = p
  | .none => false

/-- R146: the number of streams whose claim port `p` holds. -/
def State.claimsOfPort (s : State) (p : Port) : Nat := allStreams.countP (fun i => (s.stream i).claim.belongsTo p)

/-- R90: whether a notice is an ARRIVAL, LAG or LOSS naming stream `i`. -/
def Notice.belongsToSub (n : Notice) (i : StreamId) : Bool :=
  (n.kind = .arrival || n.kind = .lag || n.kind = .loss) && n.stream = i

/-- R83, R90: the messages that a subscription still counts, from its cursor to the newest. -/
def State.countedBy (s : State) (i : StreamId) (u : Subscription) : List DescId :=
  (s.messages i).drop (u.cursor - (s.stream i).oldestSeq).toNat

/-- R90, steps 1 to 3: removal of port `p`'s subscription to stream `i`, before its retirement check. -/
def State.dropSub (s : State) (i : StreamId) (p : Port) : State :=
  match s.sub i p with
  | none => s
  | some u =>
    let lowered := s.setPool (s.pool.lowerReaders (s.countedBy i u))
    let unqueued := lowered.setQueue p
      { lowered.queue p with records := (lowered.queue p).records.filter (fun n => !n.belongsToSub i) }
    unqueued.setSub i p none

/-! ### Removal and retirement -/

/-- R29: removal of the oldest committed message of a stream. -/
def State.removeOldest (s : State) (i : StreamId) : State :=
  match (s.stream i).oldest with
  | none => s
  | some d =>
    match s.pool.desc d with
    | .committed m =>
      (s.setPool (s.pool.releaseMessage d)).setStream i
        { s.stream i with
          oldest := m.next
          newest := if m.next.isNone then none else (s.stream i).newest
          committedCount := (s.stream i).committedCount - 1
          oldestSeq := (s.stream i).oldestSeq + 1
          heldBlocks := (s.stream i).heldBlocks - m.blockCount }
    | _ => s

/-- Removes the `n` oldest messages of a stream, one at a time. -/
def State.removeMany (i : StreamId) : Nat → State → State
  | 0, s => s
  | n + 1, s => State.removeMany i n (s.removeOldest i)

/-- R30: whether the retirement check's test holds: the oldest message has readers remaining 0 and the committed count
exceeds the retain depth. -/
def State.mayRetire (s : State) (i : StreamId) : Bool :=
  match (s.stream i).settings, (s.stream i).oldest with
  | some x, some d =>
    match s.pool.desc d with
    | .committed m => m.readers = 0 && x.retainDepth < (s.stream i).committedCount
    | _ => false
  | _, _ => false

/-- R30: the retirement check, at most `n` removals long. -/
def State.retireLoop (i : StreamId) : Nat → State → State
  | 0, s => s
  | n + 1, s => if s.mayRetire i then State.retireLoop i n (s.removeOldest i) else s

/-- R30: the retirement check of a stream; it can remove no more than the committed count. -/
def State.retirementCheck (s : State) (i : StreamId) : State :=
  State.retireLoop i (s.stream i).committedCount s

/-! ### ROOM re-evaluation -/

/-- R77: whether a need is satisfiable as the state stands. -/
def State.needMet (s : State) (i : StreamId) (need : Nat) : Bool :=
  need ≤ (s.stream i).headroom && need ≤ s.pool.freeBlocks.length && 1 ≤ s.pool.freeDescriptors.length

/-- R77, R78: the port that holds a claim, HELD or STALE. -/
def Claim.holder (c : Claim) : Option Port :=
  match c with
  | .held p => some p
  | .stale p => some p
  | .none => Option.none

/-- R77: re-evaluation of one stream. -/
def State.reevaluateStream (s : State) (i : StreamId) : State :=
  match (s.stream i).settings, (s.stream i).starvedNeed, (s.stream i).claim.holder with
  | some _, some need, some p =>
    if s.needMet i need then
      (s.post p { kind := .room, stream := i, sequence := (s.stream i).nextSeq,
                  count := BitVec.ofNat 16 s.pool.freeBlocks.length, aux := BitVec.ofNat 16 need }).setStream i
        { s.stream i with starvedNeed := none }
    else s
  | _, _, _ => s

/-- R77: ROOM re-evaluation, in ascending stream number. -/
def State.roomReevaluation (s : State) : State := allStreams.foldl State.reevaluateStream s

/-- R76: ROOM re-evaluation, once, when the event that led from pool `before` to `s` returned storage. -/
def State.reevaluateAfter (before : Pool) (s : State) : State :=
  if Pool.returnedStorage before s.pool then s.roomReevaluation else s

/-! ### Abort, release of a claim, teardown -/

/-- R58: abort of a stream's assembly, when it has one. -/
def State.abortAssembly (s : State) (i : StreamId) : State :=
  match (s.stream i).assembly with
  | none => s
  | some d =>
    match s.pool.desc d with
    | .staged m =>
      (s.setPool (s.pool.releaseMessage d)).setStream i
        { s.stream i with assembly := none, heldBlocks := (s.stream i).heldBlocks - m.blockCount }
    | _ => s.setStream i { s.stream i with assembly := none }

/-- R43: release of a stream's claim. -/
def State.releaseClaim (s : State) (i : StreamId) : State :=
  let aborted := s.abortAssembly i
  aborted.setStream i { aborted.stream i with starvedNeed := none, claim := .none }

/-- R140, step 1, for one stream. -/
def State.teardownClaim (p : Port) (s : State) (i : StreamId) : State :=
  if (s.stream i).claim.belongsTo p then s.releaseClaim i else s

/-- R140, step 2, for one stream: removal of the subscription, then the retirement check. -/
def State.teardownSub (p : Port) (s : State) (i : StreamId) : State :=
  if (s.sub i p).isSome then (s.dropSub i p).retirementCheck i else s

/-- R140: the teardown of port `p`. -/
def State.teardown (s : State) (p : Port) : State :=
  let claims := allStreams.foldl (State.teardownClaim p) s
  let subs := allStreams.foldl (State.teardownSub p) claims
  let emptied := subs.setQueue p .empty
  let cleared := emptied.setSession p { emptied.session p with claimsLost := 0, evicted := 0 }
  State.reevaluateAfter s.pool cleared

/-! ### Sessions and timers -/

/-- R132: the lease timer as loaded with a period. -/
def loadLease (period : Nat) : Timer := if period = 0 then .idle else .running (10 * period)

/-- R129: the restart of the lease timer when the core takes a command from an ATTACHED port. -/
def State.restartLease (s : State) (p : Port) : State :=
  s.setSession p { s.session p with leaseTimer := loadLease (s.session p).leasePeriod }

/-- R131: one tick of a timer; the tick that brings the count to 0 leaves it `expired` (log 4). -/
def Timer.tick : Timer → Timer
  | .idle => .idle
  | .running n => if n ≤ 1 then .expired else .running (n - 1)
  | .expired => .expired

/-- R146: the count remaining, 0 while no count is held. -/
def Timer.remaining : Timer → Nat
  | .running n => n
  | _ => 0

/-- R28: HELD by the port becomes STALE. -/
def Claim.toStale (p : Port) (c : Claim) : Claim := if c = .held p then .stale p else c

/-- R28: STALE of the port becomes HELD. -/
def Claim.toHeld (p : Port) (c : Claim) : Claim := if c = .stale p then .held p else c

/-- R105: an ACTIVE subscription becomes LAPSED with every field kept. -/
def Subscription.lapse (u : Subscription) : Subscription := { u with state := .lapsed }

/-- R106: a LAPSED subscription becomes ACTIVE with every field kept. -/
def Subscription.resume (u : Subscription) : Subscription := { u with state := .active }

/-- R28, R105: the claims and subscriptions of port `p` move to STALE and LAPSED. -/
def State.lapseHoldings (s : State) (p : Port) : State :=
  { s with
    streams := s.streams.map (fun r => { r with claim := r.claim.toStale p })
    subs := s.subs.map (fun row => row.set p.val ((row.get p).map Subscription.lapse) p.isLt) }

/-- R28, R106: the claims and subscriptions of port `p` move back to HELD and ACTIVE. -/
def State.restoreHoldings (s : State) (p : Port) : State :=
  { s with
    streams := s.streams.map (fun r => { r with claim := r.claim.toHeld p })
    subs := s.subs.map (fun row => row.set p.val ((row.get p).map Subscription.resume) p.isLt) }

end Sys2Proof.Machine
end

