-- ==== Sys2Proof/Machine/Flags.lean ====
section
/-! DEFINITION. Codes and flag bytes: status codes, link flags, the codes of the link byte, and the coded result fields of chapter 9. -/

namespace Sys2Proof.Machine

/-! ### Bytes of numbers, big-endian (00 Conventions) -/

/-- One byte of a number. -/
def byte1 (n : Nat) : List Byte := [BitVec.ofNat 8 n]

/-- Two bytes, most significant first. -/
def bytes16 (w : BitVec 16) : List Byte := [w.extractLsb' 8 8, w.extractLsb' 0 8]

/-- Two bytes of a number. -/
def byte2 (n : Nat) : List Byte := bytes16 (BitVec.ofNat 16 n)

/-- Three bytes, most significant first. -/
def bytes24 (w : BitVec 24) : List Byte := [w.extractLsb' 16 8, w.extractLsb' 8 8, w.extractLsb' 0 8]

/-- Four bytes, most significant first. -/
def bytes32 (w : BitVec 32) : List Byte :=
  [w.extractLsb' 24 8, w.extractLsb' 16 8, w.extractLsb' 8 8, w.extractLsb' 0 8]

/-- A byte of flags, the first at bit 0. -/
def flagsByte : List Bool → Byte
  | [] => 0
  | b :: rest => (flagsByte rest <<< 1) ||| (if b then 1 else 0)

/-! ### Codes -/

/-- Table 9.4: the status codes. -/
def Status.code : Status → Byte
  | .ok => 0x00
  | .notReady => 0x01
  | .notAttached => 0x02
  | .lapsed => 0x03
  | .badCommand => 0x04
  | .badArgument => 0x05
  | .noStream => 0x10
  | .alreadyDefined => 0x11
  | .inUse => 0x12
  | .heldByOther => 0x18
  | .staleByOther => 0x19
  | .notWriter => 0x1A
  | .assemblyOpen => 0x20
  | .noAssembly => 0x21
  | .tooLong => 0x22
  | .overlength => 0x23
  | .emptyAssembly => 0x24
  | .full => 0x28
  | .poolEmpty => 0x29
  | .noDescriptor => 0x2A
  | .notSubscribed => 0x30
  | .alreadySubscribed => 0x31
  | .nothing => 0x32
  | .gone => 0x33
  | .damaged => 0x34
  | .notLapsed => 0x35
  | .quarantineEmpty => 0x38

/-- Table 9.3a: the link flags byte of a response. -/
def LinkFlags.byte (f : LinkFlags) : Byte := flagsByte [f.truncated, f.badcheck, f.collided, f.superseded]

/-- Table 9.5b: the session state code. -/
def SessionState.code : SessionState → Nat
  | .detached => 0
  | .attached => 1
  | .lapsed => 2

/-- Table 9.5b: the policy code. -/
def Policy.code : Policy → Nat
  | .hold => 0
  | .shed => 1

/-- Table 9.5b: the claim code: bits 3-2 the kind, bits 1-0 the port. -/
def Claim.code : Claim → Nat
  | .none => 0
  | .held p => 4 + p.val
  | .stale p => 8 + p.val

/-- Table 9.5b: the code of a slot of the Subscription Table. -/
def subStateCode : Option Subscription → Nat
  | none => 0
  | some u =>
    match u.state with
    | .active => 1
    | .lapsed => 2

/-- Table 9.5b: the subscription states of a stream, two bits a port, port 0 lowest. -/
def State.subStates (s : State) (i : StreamId) : Nat :=
  subStateCode (s.sub i 0) + 4 * subStateCode (s.sub i 1) + 16 * subStateCode (s.sub i 2) +
    64 * subStateCode (s.sub i 3)

/-- Table 9.5b: the attention mask byte. -/
def AttentionMask.byte (m : AttentionMask) : Byte := flagsByte [m.response, m.notice]

/-- Table 9.5b: the subscription flags byte of SUB_INFO. -/
def Subscription.flagsByte (u : Subscription) : Byte :=
  Machine.flagsByte [u.damagedStop, u.lostSinceRead, u.lossQueued, u.lagArmed, u.arrivalQueued]

/-- Table 9.6: the read flags byte. -/
def readFlags (urgent damaged atEnd lost : Bool) : Byte := flagsByte [urgent, damaged, atEnd, lost]

/-- Table 9.7: the notice kind code. -/
def NoticeKind.code : NoticeKind → Nat
  | .arrival => 1
  | .lag => 2
  | .loss => 3
  | .room => 4
  | .claimLost => 5
  | .evicted => 6

/-- Table 9.2: the code of the link state in the link byte. -/
def LinkState.code : LinkState → Nat
  | .idle => 0
  | .waiting _ => 1
  | .executing _ => 2
  | .ready _ => 3

/-! ### Replies -/

/-- A refusal or an answer without result fields. -/
def replyStatus (x : Status) : Reply := { status := x, result := [], payload := [] }

/-- An answer with result fields and no payload. -/
def replyFields (x : Status) (result : List Byte) : Reply := { status := x, result := result, payload := [] }

/-! ### Placing flags on a link -/

/-- R153: sets TRUNCATED. -/
def Link.setTruncated (l : Link) : Link := { l with flags := { l.flags with truncated := true } }

/-- R153: sets BADCHECK. -/
def Link.setBadcheck (l : Link) : Link := { l with flags := { l.flags with badcheck := true } }

/-- R153: sets COLLIDED. -/
def Link.setCollided (l : Link) : Link := { l with flags := { l.flags with collided := true } }

/-- R153: sets SUPERSEDED. -/
def Link.setSuperseded (l : Link) : Link := { l with flags := { l.flags with superseded := true } }

end Sys2Proof.Machine
end

