-- ==== Sys2Proof/Machine/Operands.lean ====
section
/-! DEFINITION. The operands of every command: codes (Table 9.3) and parameter layouts, each with the argument checks
that its own rule makes. A layout answers none where the rule says BAD_ARGUMENT. -/

namespace Sys2Proof.Machine

/-- Table 9.3: the commands. -/
inductive Command where
  | attach
  | detach
  | ping
  | portInfo
  | define
  | dissolve
  | streamInfo
  | claim
  | unclaim
  | openMessage
  | append
  | commit
  | abort
  | join
  | leave
  | evict
  | read
  | release
  | subInfo
  | takeNotices
  | poolInfo
  | scrub
  deriving DecidableEq, Repr

/-- Table 9.3: the command code. -/
def Command.code : Command → Byte
  | .attach => 0x01
  | .detach => 0x02
  | .ping => 0x03
  | .portInfo => 0x04
  | .define => 0x10
  | .dissolve => 0x11
  | .streamInfo => 0x12
  | .claim => 0x20
  | .unclaim => 0x21
  | .openMessage => 0x22
  | .append => 0x23
  | .commit => 0x24
  | .abort => 0x25
  | .join => 0x30
  | .leave => 0x31
  | .evict => 0x32
  | .read => 0x33
  | .release => 0x34
  | .subInfo => 0x35
  | .takeNotices => 0x40
  | .poolInfo => 0x50
  | .scrub => 0x51

/-- Every command, in the order of Table 9.3. -/
def allCommands : List Command :=
  [.attach, .detach, .ping, .portInfo, .define, .dissolve, .streamInfo, .claim, .unclaim, .openMessage, .append,
   .commit, .abort, .join, .leave, .evict, .read, .release, .subInfo, .takeNotices, .poolInfo, .scrub]

/-- R165: the command that a code names, if any. -/
def Command.ofCode (c : Byte) : Option Command := allCommands.find? (fun x => x.code = c)

/-- R128, R161: the command of a request; none when its code and complement disagree or name no command. -/
def Request.command (r : Request) : Option Command := r.code.bind Command.ofCode

/-! ### Fields -/

/-- A two-byte field, big-endian. -/
def word16 (hi lo : Byte) : BitVec 16 := hi ++ lo

/-- A stream number, 0 to 63. -/
def streamField (b : Byte) : Option StreamId := if h : b.toNat < 64 then some ⟨b.toNat, h⟩ else none

/-- A port number, 0 to 3. -/
def portField (b : Byte) : Option Port := if h : b.toNat < 4 then some ⟨b.toNat, h⟩ else none

/-- Table 9.3b: a two-way code, false for 00 and true for 01. -/
def twoWay (b : Byte) : Option Bool := if b = 0 then some false else if b = 1 then some true else none

/-- A number within a range. -/
def inRange (lo hi n : Nat) : Option Nat := if lo ≤ n ∧ n ≤ hi then some n else none

/-- R165: a command without payload. -/
def noPayload (r : Request) : Option Unit := if r.payload = [] then some () else none

/-- R141, R145, R146, R17: a command with neither parameters nor payload. -/
def noOperands (r : Request) : Option Unit := if r.params = [] ∧ r.payload = [] then some () else none

/-! ### Layouts -/

/-- R135: the operands of ATTACH. -/
structure AttachArgs where
  resume : Bool
  leasePeriod : Nat
  flushPeriod : Nat
  mask : AttentionMask
  deriving DecidableEq, Repr

/-- R135: the attention mask byte; bits 7-2 must be 0. -/
def maskField (b : Byte) : Option AttentionMask :=
  if b.toNat < 4 then some { response := b.getLsbD 0, notice := b.getLsbD 1 } else none

/-- R135: ATTACH. -/
def Request.attachArgs (r : Request) : Option AttachArgs :=
  match r.params with
  | [mode, lease, flush, mask] => do
    noPayload r
    let resume ← twoWay mode
    let m ← maskField mask
    pure { resume := resume, leasePeriod := lease.toNat, flushPeriod := flush.toNat, mask := m }
  | _ => none

/-- The operand of a command that names a stream and nothing else (R33, R36, R42, R47, R91). -/
def Request.streamArg (r : Request) : Option StreamId :=
  match r.params with
  | [a] => do
    noPayload r
    streamField a
  | _ => none

/-- R47, R51, R165: APPEND: its stream, with a payload of at least one byte. -/
def Request.appendArg (r : Request) : Option StreamId :=
  match r.params with
  | [a] => if r.payload = [] then none else streamField a
  | _ => none

/-- R21: the operands of DEFINE. -/
structure DefineArgs where
  stream : StreamId
  settings : Settings
  deriving DecidableEq, Repr

/-- R21: DEFINE, with its seven argument checks. -/
def Request.defineArgs (r : Request) : Option DefineArgs :=
  match r.params with
  | [a, policy, l1, l0, m1, m0, depth] => do
    noPayload r
    let i ← streamField a
    let shed ← twoWay policy
    let limit ← inRange 1 2048 (word16 l1 l0).toNat
    let longest ← inRange 1 4096 (word16 m1 m0).toNat
    let keep ← inRange 0 15 depth.toNat
    let _ ← inRange 0 limit (blocksFor longest)
    pure { stream := i, settings := { policy := if shed then .shed else .hold, blockLimit := limit,
                                      maxLength := longest, retainDepth := keep } }
  | _ => none

/-- The operands of a command that names a stream and a two-way flag (R38, R103). -/
structure StreamFlagArgs where
  stream : StreamId
  flag : Bool
  deriving DecidableEq, Repr

/-- R38: CLAIM. R103: SUB_INFO. -/
def Request.streamFlagArgs (r : Request) : Option StreamFlagArgs :=
  match r.params with
  | [a, f] => do
    noPayload r
    let i ← streamField a
    let flag ← twoWay f
    pure { stream := i, flag := flag }
  | _ => none

/-- R48: the operands of OPEN. -/
structure OpenArgs where
  stream : StreamId
  length : Nat
  tag : BitVec 16
  urgent : Bool
  deriving DecidableEq, Repr

/-- R48: OPEN. -/
def Request.openArgs (r : Request) : Option OpenArgs :=
  match r.params with
  | [a, l1, l0, t1, t0, u] => do
    noPayload r
    let i ← streamField a
    let length ← inRange 1 4096 (word16 l1 l0).toNat
    let urgent ← twoWay u
    pure { stream := i, length := length, tag := word16 t1 t0, urgent := urgent }
  | _ => none

/-- R85: the operands of JOIN. -/
structure JoinArgs where
  stream : StreamId
  atNext : Bool
  lagMark : Nat
  batch : Nat
  deriving DecidableEq, Repr

/-- R85: JOIN. -/
def Request.joinArgs (r : Request) : Option JoinArgs :=
  match r.params with
  | [a, start, l1, l0, b] => do
    noPayload r
    let i ← streamField a
    let atNext ← twoWay start
    let lag ← inRange 0 511 (word16 l1 l0).toNat
    let batch ← inRange 1 8 b.toNat
    pure { stream := i, atNext := atNext, lagMark := lag, batch := batch }
  | _ => none

/-- R92: the operands of EVICT. -/
structure EvictArgs where
  stream : StreamId
  port : Port
  deriving DecidableEq, Repr

/-- R92: EVICT. -/
def Request.evictArgs (r : Request) : Option EvictArgs :=
  match r.params with
  | [a, b] => do
    noPayload r
    let i ← streamField a
    let p ← portField b
    pure { stream := i, port := p }
  | _ => none

/-- R95: the operands of READ. -/
structure ReadArgs where
  stream : StreamId
  most : Nat
  deriving DecidableEq, Repr

/-- R95: READ. -/
def Request.readArgs (r : Request) : Option ReadArgs :=
  match r.params with
  | [a, m1, m0] => do
    noPayload r
    let i ← streamField a
    let most ← inRange 1 256 (word16 m1 m0).toNat
    pure { stream := i, most := most }
  | _ => none

/-- R99: the operands of RELEASE. -/
structure ReleaseArgs where
  stream : StreamId
  sequence : Seq
  deriving DecidableEq, Repr

/-- R99: RELEASE. -/
def Request.releaseArgs (r : Request) : Option ReleaseArgs :=
  match r.params with
  | [a, s1, s0] => do
    noPayload r
    let i ← streamField a
    pure { stream := i, sequence := word16 s1 s0 }
  | _ => none

/-- R122: TAKE_NOTICES. -/
def Request.takeArg (r : Request) : Option Nat :=
  match r.params with
  | [k] => do
    noPayload r
    inRange 1 8 k.toNat
  | _ => none

/-- R14: SCRUB. -/
def Request.scrubArg (r : Request) : Option Nat :=
  match r.params with
  | [n] => do
    noPayload r
    inRange 1 16 n.toNat
  | _ => none

end Sys2Proof.Machine
end

