-- ==== Sys2Proof/Machine/Frames.lean ====
section
/-! DEFINITION. The bytes of frames and records (chapter 9): the CRC-16, the request frame and how the link judges it, the
response frame, the bytes a transaction sends, and what ATTn and MISOn of a port show. -/

namespace Sys2Proof.Machine

/-! ### CRC-16 (R162) -/

/-- R162: one shift of the register. -/
def crcShift (r : BitVec 16) : BitVec 16 := if r.getLsbD 15 then (r <<< 1) ^^^ 0x1021#16 else r <<< 1

/-- R162: `n` shifts of the register. -/
def crcShifts : Nat → BitVec 16 → BitVec 16
  | 0, r => r
  | n + 1, r => crcShifts n (crcShift r)

/-- R162: one byte, combined into the upper eight bits, then eight shifts. -/
def crcByte (r : BitVec 16) (b : Byte) : BitVec 16 := crcShifts 8 (r ^^^ (b ++ 0#8))

/-- R162: the CRC-16 of bytes in the order they are sent. -/
def crc16 (bytes : List Byte) : BitVec 16 := bytes.foldl crcByte 0xFFFF#16

/-! ### Request frames (R161) -/

/-- R161: the sync value. -/
def syncValue : Byte := 0x5A

/-- R161: the filler value. -/
def fillerValue : Byte := 0xFF

/-- R161: byte `k` of received bytes. -/
def byteOf (bytes : List Byte) (k : Nat) : Byte := bytes.getD k 0

/-- R161: the guarded length field at offset `k`: its value, or FFFF hex when the complement disagrees. -/
def guardedLength (bytes : List Byte) (k : Nat) : Nat :=
  let v := word16 (byteOf bytes k) (byteOf bytes (k + 1))
  let c := word16 (byteOf bytes (k + 2)) (byteOf bytes (k + 3))
  if c = ~~~v then v.toNat else 0xFFFF

/-- R161: the guarded command code: none when the complement disagrees. -/
def guardedCode (bytes : List Byte) : Option Byte :=
  if byteOf bytes 3 = ~~~(byteOf bytes 2) then some (byteOf bytes 2) else none

/-- R151: what the link finds of the bytes a transaction received. -/
inductive Judgement where
  | noFrame
  | truncated
  | badcheck
  | good (r : Request)
  deriving DecidableEq, Repr

/-- R151, tests 5 and 6 and the good frame, once the length fields `pl` (parameters) and `dl` (payload) are known and the
declared length has been received. `beyond` are the bytes past the receive area (R148). -/
def judgeFrame (area beyond : List Byte) (pl dl : Nat) : Judgement :=
  let crc := word16 (byteOf area (12 + pl + dl)) (byteOf area (13 + pl + dl))
  let crcComplement := word16 (byteOf area (14 + pl + dl)) (byteOf area (15 + pl + dl))
  if (area.drop (16 + pl + dl) ++ beyond).any (fun b => b ≠ fillerValue) then .badcheck
  else if crc ≠ crc16 ((area.take (12 + pl + dl)).drop 1) ∨ crcComplement ≠ ~~~crc then .badcheck
  else .good { id := byteOf area 1, code := guardedCode area, params := (area.drop 8).take pl,
               payload := (area.drop (12 + pl)).take dl }

/-- R151: the tests of the received bytes, in order. -/
def judge (area beyond : List Byte) : Judgement :=
  let n := area.length + beyond.length
  let pl := guardedLength area 4
  let dl := guardedLength area (8 + pl)
  if area = [] ∨ byteOf area 0 ≠ syncValue then .noFrame
  else if n < 8 then .truncated
  else if pl ≤ 16 ∧ n < 12 + pl then .truncated
  else if 16 < pl ∨ 256 < dl then .badcheck
  else if n < 16 + pl + dl then .truncated
  else judgeFrame area beyond pl dl

/-- R161, Table 9.1: the request frame that carries a command, for writing frames out. -/
def requestFrame (id code : Byte) (params payload : List Byte) : List Byte :=
  let covered := [id, code, ~~~code] ++ bytes16 (BitVec.ofNat 16 params.length) ++
    bytes16 (~~~(BitVec.ofNat 16 params.length)) ++ params ++ bytes16 (BitVec.ofNat 16 payload.length) ++
    bytes16 (~~~(BitVec.ofNat 16 payload.length)) ++ payload
  [syncValue] ++ covered ++ bytes16 (crc16 covered) ++ bytes16 (~~~(crc16 covered))

/-! ### Response frames (R164) -/

/-- R164, Table 9.3a: the bytes of a response that its CRC covers. -/
def responseBody (id : Byte) (flags : LinkFlags) (reply : Reply) : List Byte :=
  [id, reply.status.code, flags.byte] ++ byte1 reply.result.length ++ byte2 reply.payload.length ++ reply.result ++
    reply.payload

/-- R154, R162: the response placed in the slot, its CRC computed at the placement. -/
def Response.make (id : Byte) (flags : LinkFlags) (reply : Reply) : Response :=
  { id := id, flags := flags, reply := reply, crc := crc16 (responseBody id flags reply) }

/-- R164: the bytes of a response frame. -/
def Response.bytes (r : Response) : List Byte := responseBody r.id r.flags r.reply ++ bytes16 r.crc

/-! ### What a port's lines show (R126, R149, R163) -/

/-- R122, R126: a TAKE_NOTICES of port `p` has taken records, and its response is not placed yet. -/
def State.takingNotices (s : State) (p : Port) : Bool :=
  match (s.link p).state, s.core with
  | .executing r, some e => r.command = some .takeNotices && e.port = p && !e.reply.payload.isEmpty
  | _, _ => false

/-- R126, R149: whether the port's lines show a notice waiting. A TAKE_NOTICES that empties the queue shows when its response
is placed (R126), so until then the records it has taken count (log 2). -/
def State.noticesWaiting (s : State) (p : Port) : Bool := !(s.queue p).records.isEmpty || s.takingNotices p

/-- R126: ATTn of port `p`, asserted (low) or released. It follows its inputs at all times, so it is computed and held
nowhere (log 15). -/
def State.attnAsserted (s : State) (p : Port) : Bool :=
  s.phase != .inReset &&
    (((s.session p).mask.response && (s.link p).responseSlot.isSome) ||
      ((s.session p).mask.notice && s.noticesWaiting p))

/-- R163, Table 9.2: the link byte: marker 10100, notice waiting, link state. -/
def State.linkByte (s : State) (p : Port) : Byte :=
  BitVec.ofNat 8 (0xA0 + (if s.noticesWaiting p then 4 else 0) + (s.link p).state.code)

/-- R148: MISOn is at high impedance when no transaction is in progress. R148 says so for CSn high and for a reset asserted;
that it is so too while CSn is still low after the release of the reset, with no transaction taken, is the model's choice
(log 27). -/
def State.misoHighImpedance (s : State) (p : Port) : Bool := (s.link p).transaction.isNone

/-! ### Transactions (R149, R150) -/

/-- R149: byte `k` that the link sends in a transaction: the link byte, the response if there is one, then filler. -/
def Transaction.misoByte (t : Transaction) (k : Nat) : Byte :=
  (t.linkByte :: (match t.response with
    | some r => r.bytes
    | none => [])).getD k fillerValue

/-- R150: whether a transaction that clocked `n` whole bytes collected its response. -/
def Transaction.collected (t : Transaction) (n : Nat) : Bool :=
  match t.response with
  | some r => 1 + r.bytes.length ≤ n
  | none => false

/-! ### Notice records (R168) -/

/-- R168, Table 9.7: the eight bytes of a notice record. -/
def Notice.bytes (n : Notice) : List Byte :=
  byte1 n.kind.code ++ byte1 n.stream.val ++ bytes16 n.sequence ++ bytes16 n.count ++ bytes16 n.aux

end Sys2Proof.Machine
end

