-- ==== Sys2Proof/Machine/Notices.lean ====
section
/-! DEFINITION. TAKE_NOTICES as the Exchange Core runs it (chapter 6). -/

namespace Sys2Proof.Machine

/-- R123: processing of one record that TAKE_NOTICES has taken from port `p`'s queue. -/
def State.processNotice (p : Port) (s : State) (n : Notice) : State :=
  match s.sub n.stream p with
  | none => s
  | some u =>
    match n.kind with
    | .arrival =>
      let cleared := s.setSub n.stream p (some { u with arrivalQueued := false })
      if u.arrivalBatch ≤ u.unannounced then
        cleared.postArrival p n.stream { u with arrivalQueued := false } ((s.stream n.stream).nextSeq - 1) 3
      else cleared
    | .loss => s.setSub n.stream p (some { u with lossQueued := false })
    | .lag => s
    | .room => s
    | .claimLost => s
    | .evicted => s

/-- R116, R122, step 4: the flush start of a take, when a taken ARRIVAL has left its subscription pending. -/
def State.flushAfterTake (s : State) (p : Port) (taken : List Notice) : State :=
  if taken.any (fun n => n.kind = .arrival && s.subPending p n.stream) then s.startFlush p else s

/-- R122, steps 1 to 4. -/
def State.takeNotices (s : State) (p : Port) (k : Nat) : State :=
  let taken := (s.queue p).records.take k
  let removed := s.setQueue p { records := (s.queue p).records.drop k, dropped := 0 }
  (taken.foldl (State.processNotice p) removed).flushAfterTake p taken

/-- R122: TAKE_NOTICES. -/
def runTakeNotices (p : Port) (r : Request) (s : State) : State × Reply :=
  match r.takeArg with
  | none => (s, replyStatus .badArgument)
  | some k =>
    let taken := (s.queue p).records.take k
    let after := s.takeNotices p k
    (after,
      { status := .ok
        result := byte1 taken.length ++ byte1 (s.queue p).dropped ++ byte1 (after.queue p).records.length
        payload := taken.flatMap Notice.bytes })

end Sys2Proof.Machine
end

