-- ==== Sys2Proof/Machine/PoolCommands.lean ====
section
/-! DEFINITION. The pool commands as the Exchange Core runs them (chapter 1): POOL_INFO, SCRUB. -/

namespace Sys2Proof.Machine

/-- R17, Table 9.5: the result of POOL_INFO. -/
def poolInfoResult (q : Pool) : List Byte :=
  byte2 q.freeBlocks.length ++ byte2 (q.countBlocks .staged) ++ byte2 (q.countBlocks .committed) ++
    byte2 q.quarantine.length ++ byte2 (q.countBlocks .retired) ++ byte2 q.freeDescriptors.length ++
    byte2 (q.descriptors.toList.countP Descriptor.isStaged) ++
    byte2 (q.descriptors.toList.countP Descriptor.isCommitted)

/-- R17: POOL_INFO. -/
def runPoolInfo (_p : Port) (r : Request) (s : State) : State × Reply :=
  match noOperands r with
  | none => (s, replyStatus .badArgument)
  | some _ => (s, replyFields .ok (poolInfoResult s.pool))

/-! ### SCRUB -/

/-- R16: the three counts of a SCRUB. -/
structure ScrubCounts where
  passed : Nat
  failed : Nat
  retired : Nat
  deriving DecidableEq, Repr

/-- R15: a block that passes: bytes zero with a matching check, FREE at the back of the free list. -/
def Pool.scrubPass (q : Pool) (b : BlockId) : Pool :=
  let zeroed : Pool := { q with bytes := Memory.writeBlock b (fun _ => 0) 64 q.bytes }
  { zeroed.setBlock b { state := .free, next := none, fill := 0, failed := false, scrubFailures := 0, owner := none,
                        check := Config.storedCheck (zeroed.blockBytes b) } with
    quarantine := q.quarantine.erase b
    freeBlocks := q.freeBlocks ++ [b] }

/-- R15: a block that fails: its failures rise, and it is RETIRED at the fourth or goes to the back of the quarantine list.
The test's patterns stay in its bytes, as free values (log 12). -/
def Pool.scrubFail (q : Pool) (b : BlockId) (draw : Nat) : Pool :=
  let patterned : Pool := { q with bytes := Memory.writeBlock b (Config.scrubResidue draw) 64 q.bytes }
  let failures := (q.block b).scrubFailures + 1
  if failures = 4 then
    { patterned.setBlock b { q.block b with state := .retired, scrubFailures := failures } with
      quarantine := q.quarantine.erase b }
  else
    { patterned.setBlock b { q.block b with scrubFailures := failures } with
      quarantine := q.quarantine.erase b ++ [b] }

/-- R15: the tests of a SCRUB, one block at a time, with the counts so far. Whether a block passes is a free value
(log 11). -/
def scrubBlocks : List BlockId → State → ScrubCounts → State × ScrubCounts
  | [], s, c => (s, c)
  | b :: rest, s, c =>
    if Config.scrubPasses s.draws then
      scrubBlocks rest (s.setPool (s.pool.scrubPass b)).drawn { c with passed := c.passed + 1 }
    else if (s.pool.block b).scrubFailures + 1 = 4 then
      scrubBlocks rest (s.setPool (s.pool.scrubFail b s.draws)).drawn { c with retired := c.retired + 1 }
    else
      scrubBlocks rest (s.setPool (s.pool.scrubFail b s.draws)).drawn { c with failed := c.failed + 1 }

/-- R16: the three counts as result fields. -/
def ScrubCounts.fields (c : ScrubCounts) : List Byte := byte1 c.passed ++ byte1 c.failed ++ byte1 c.retired

/-- R15, R16: a SCRUB that is taken; its batch is fixed at the start. -/
def State.scrubBatch (s : State) (n : Nat) : State × Reply :=
  let tested := scrubBlocks (s.pool.quarantine.take n) s { passed := 0, failed := 0, retired := 0 }
  (State.reevaluateAfter s.pool tested.1, replyFields .ok tested.2.fields)

/-- R14 to R16: SCRUB; its own refusals carry three counts of 0. -/
def runScrub (_p : Port) (r : Request) (s : State) : State × Reply :=
  match r.scrubArg with
  | none => (s, replyFields .badArgument (ScrubCounts.fields { passed := 0, failed := 0, retired := 0 }))
  | some n =>
    if s.pool.quarantine = [] then
      (s, replyFields .quarantineEmpty (ScrubCounts.fields { passed := 0, failed := 0, retired := 0 }))
    else s.scrubBatch n

end Sys2Proof.Machine
end

