-- ==== Sys2Proof/Machine/Reading.lean ====
section
/-! DEFINITION. The reading commands as the Exchange Core runs them (chapter 5): JOIN, LEAVE, EVICT, READ, RELEASE,
SUB_INFO. -/

namespace Sys2Proof.Machine

/-! ### JOIN -/

/-- R86, Table 5.1: a subscription as JOIN creates it. -/
def Subscription.fresh (cursor : Seq) (lagMark batch : Nat) : Subscription :=
  { state := .active, cursor := cursor, readOffset := 0, damagedStop := false, lostSinceRead := false, lossTotal := 0,
    lossQueued := false, lagMark := lagMark, lagArmed := true, arrivalBatch := batch, unannounced := 0,
    arrivalQueued := false }

/-- The cursor and unread count of a subscription, as JOIN and RELEASE report them (Table 9.5). -/
def cursorFields (r : StreamRecord) (u : Subscription) : List Byte := bytes16 u.cursor ++ byte2 (unread r u)

/-- R86 to R88: creates the subscription of port `p`. -/
def State.joinStream (s : State) (p : Port) (a : JoinArgs) : State × Reply :=
  let r := s.stream a.stream
  let cursor := if a.atNext then r.nextSeq else r.oldestSeq
  let u := Subscription.fresh cursor a.lagMark a.batch
  let pool := if a.atNext then s.pool else s.pool.raiseReaders (s.messages a.stream)
  ((s.setPool pool).setSub a.stream p (some u), replyFields .ok (cursorFields r u))

/-- R85, R86: JOIN. -/
def runJoin (p : Port) (r : Request) (s : State) : State × Reply :=
  match r.joinArgs with
  | none => (s, replyStatus .badArgument)
  | some a =>
    if !(s.stream a.stream).defined then (s, replyStatus .noStream)
    else if (s.sub a.stream p).isSome then (s, replyStatus .alreadySubscribed)
    else s.joinStream p a

/-! ### LEAVE and EVICT -/

/-- R90, R91: removal of the port's own subscription, retirement, re-evaluation. -/
def State.leaveStream (s : State) (i : StreamId) (p : Port) : State :=
  State.reevaluateAfter s.pool ((s.dropSub i p).retirementCheck i)

/-- R91: LEAVE. -/
def runLeave (p : Port) (r : Request) (s : State) : State × Reply :=
  match r.streamArg with
  | none => (s, replyStatus .badArgument)
  | some i =>
    if !(s.stream i).defined then (s, replyStatus .noStream)
    else
      match s.sub i p with
      | none => (s, replyStatus .notSubscribed)
      | some u => (s.leaveStream i p, replyFields .ok (byte2 (unread (s.stream i) u)))

/-- R93, steps 3 and 4: the evicted count of port `p` rises and an EVICTED notice is posted to it. -/
def State.noteEviction (s : State) (i : StreamId) (p evictor : Port) (cursor : Seq) (left : Nat) : State :=
  (s.setSession p { s.session p with evicted := (s.session p).evicted + 1 }).post p
    { kind := .evicted, stream := i, sequence := cursor, count := BitVec.ofNat 16 left,
      aux := BitVec.ofNat 16 evictor.val }

/-- R93: eviction by port `q` of port `p`'s LAPSED subscription `u`. -/
def State.evictSub (s : State) (i : StreamId) (p q : Port) (u : Subscription) : State :=
  let noted := (s.dropSub i p).noteEviction i p q u.cursor (unread (s.stream i) u)
  State.reevaluateAfter s.pool (noted.retirementCheck i)

/-- R92, R93: EVICT. -/
def runEvict (q : Port) (r : Request) (s : State) : State × Reply :=
  match r.evictArgs with
  | none => (s, replyStatus .badArgument)
  | some a =>
    if !(s.stream a.stream).defined then (s, replyStatus .noStream)
    else
      match s.sub a.stream a.port with
      | none => (s, replyStatus .notSubscribed)
      | some u =>
        match u.state with
        | .active => (s, replyStatus .notLapsed)
        | .lapsed =>
          (s.evictSub a.stream a.port q u, replyFields .ok (byte2 (unread (s.stream a.stream) u)))

/-! ### READ -/

/-- R12, R13: whether a tested block mismatches: its bytes no longer agree with its check, or a storage cell has failed,
which is a free value (log 10). -/
def State.blockMismatches (s : State) (b : BlockId) : Bool :=
  Config.cellFault s.draws || (s.pool.block b).check ≠ Config.storedCheck (s.pool.blockBytes b)

/-- R13: tests blocks in chain order and answers the position of the first that mismatches; a block whose failed flag is
set counts as mismatching without a test. -/
def testBlocks : List BlockId → State → State × Option (Nat × BlockId)
  | [], s => (s, none)
  | b :: rest, s =>
    if (s.pool.block b).failed then (s, some (0, b))
    else if s.blockMismatches b then (s.drawn, some (0, b))
    else
      let t := testBlocks rest s.drawn
      (t.1, t.2.map (fun x => (x.1 + 1, x.2)))

/-- R2: byte `k` of a message, by its chain. -/
def Pool.messageByte (q : Pool) (chain : List BlockId) (k : Nat) : Byte :=
  match chain[k / 64]? with
  | some b => q.bytes.read (blockAddress b (k % 64))
  | none => 0

/-- R2, R96: `n` bytes of a message from offset `o` on. -/
def Pool.messageBytes (q : Pool) (chain : List BlockId) (o n : Nat) : List Byte :=
  (List.range n).map (fun j => q.messageByte chain (o + j))

/-- R97, Table 9.6: the READ header. -/
def readHeader (m : CommittedMessage) (damaged atEnd lost : Bool) (offset count : Nat) : List Byte :=
  bytes16 m.sequence ++ byte2 m.committedLength ++ bytes16 m.tag ++ bytes24 m.stamp ++
    [readFlags m.urgent damaged atEnd lost] ++ byte2 offset ++ byte2 count

/-- R97: what every READ answer with status OK, DAMAGED or NOTHING does to the lost-since-read flag. -/
def Subscription.lostReported (u : Subscription) : Subscription := { u with lostSinceRead := false }

/-- R98, step 2: sets the block's failed flag and the message's damaged flag. -/
def State.markFailed (s : State) (d : DescId) (b : BlockId) : State :=
  s.setPool ((s.pool.setBlock b { s.pool.block b with failed := true }).updateCommitted d
    (fun m => { m with damaged := true }))

/-- R98: a damaged stop at chain position `k`, block `b`, in state `s` after the tests. -/
def State.damagedStop (s : State) (i : StreamId) (p : Port) (u : Subscription) (d : DescId) (m : CommittedMessage)
    (chain : List BlockId) (k : Nat) (b : BlockId) : State × Reply :=
  let count := 64 * k - u.readOffset
  ((s.markFailed d b).setSub i p
      (some { u.lostReported with readOffset := u.readOffset + count, damagedStop := true }),
    { status := .damaged
      result := readHeader m true false u.lostSinceRead u.readOffset count
      payload := s.pool.messageBytes chain u.readOffset count })

/-- R96: one piece of at most `most` bytes of message `d` for subscription `u`. -/
def State.readPiece (s : State) (i : StreamId) (p : Port) (u : Subscription) (d : DescId) (m : CommittedMessage)
    (most : Nat) : State × Reply :=
  let chain := s.pool.chain m.firstBlock m.blockCount
  let count := min most (m.committedLength - u.readOffset)
  if m.committedLength ≤ u.readOffset then
    (s.setSub i p (some u.lostReported),
      replyFields .ok (readHeader m m.damaged true u.lostSinceRead u.readOffset 0))
  else
    let tested := testBlocks (coveredBlocks chain u.readOffset count) s
    match tested.2 with
    | some (k, b) => tested.1.damagedStop i p u d m chain (u.readOffset / 64 + k) b
    | none =>
      (tested.1.setSub i p (some { u.lostReported with readOffset := u.readOffset + count }),
        { status := .ok
          result := readHeader m m.damaged (u.readOffset + count = m.committedLength) u.lostSinceRead u.readOffset count
          payload := s.pool.messageBytes chain u.readOffset count })

/-- R95: a READ that finds no message: NOTHING, with the lost flag. -/
def State.readNothing (s : State) (i : StreamId) (p : Port) (u : Subscription) : State × Reply :=
  (s.setSub i p (some u.lostReported), replyFields .nothing [readFlags false false false u.lostSinceRead])

/-- R95 to R98: a READ of a present subscription. -/
def State.readSub (s : State) (i : StreamId) (p : Port) (u : Subscription) (most : Nat) : State × Reply :=
  if unread (s.stream i) u = 0 then s.readNothing i p u
  else
    match s.messageAt i u.cursor with
    | none => s.readNothing i p u
    | some d =>
      match s.pool.desc d with
      | .committed m =>
        if u.damagedStop then
          (s.setSub i p (some u.lostReported),
            replyFields .damaged (readHeader m true false u.lostSinceRead u.readOffset 0))
        else s.readPiece i p u d m most
      | _ => s.readNothing i p u

/-- R95, R96: READ. -/
def runRead (p : Port) (r : Request) (s : State) : State × Reply :=
  match r.readArgs with
  | none => (s, replyStatus .badArgument)
  | some a =>
    if !(s.stream a.stream).defined then (s, replyStatus .noStream)
    else
      match s.sub a.stream p with
      | none => (s, replyStatus .notSubscribed)
      | some u => s.readSub a.stream p u a.most

/-! ### RELEASE -/

/-- R100, steps 2 to 5: the subscription after its cursor's message is released; `next` is the stream's next sequence. -/
def Subscription.advance (u : Subscription) (next : Seq) : Subscription :=
  let left := (next - (u.cursor + 1)).toNat
  ({ u with
     cursor := u.cursor + 1, readOffset := 0, damagedStop := false,
     unannounced := if left = 0 then 0 else u.unannounced }).rearmLag left

/-- R100: gives up the message at the cursor, then retirement and re-evaluation. -/
def State.releaseCursor (s : State) (i : StreamId) (p : Port) (u : Subscription) : State :=
  let lowered := s.setPool (s.pool.lowerReaders (s.messageAt i u.cursor).toList)
  let advanced := lowered.setSub i p (some (u.advance (s.stream i).nextSeq))
  State.reevaluateAfter s.pool (advanced.retirementCheck i)

/-- R99, R100: RELEASE. -/
def runRelease (p : Port) (r : Request) (s : State) : State × Reply :=
  match r.releaseArgs with
  | none => (s, replyStatus .badArgument)
  | some a =>
    if !(s.stream a.stream).defined then (s, replyStatus .noStream)
    else
      match s.sub a.stream p with
      | none => (s, replyStatus .notSubscribed)
      | some u =>
        if a.sequence ≠ u.cursor then (s, replyFields .gone (cursorFields (s.stream a.stream) u))
        else if unread (s.stream a.stream) u = 0 then (s, replyFields .nothing (cursorFields (s.stream a.stream) u))
        else (s.releaseCursor a.stream p u,
              replyFields .ok (cursorFields (s.stream a.stream) (u.advance (s.stream a.stream).nextSeq)))

/-! ### SUB_INFO -/

/-- R103, Table 9.5: the result of SUB_INFO. -/
def subInfoResult (r : StreamRecord) (u : Subscription) : List Byte :=
  byte1 (subStateCode (some u)) ++ bytes16 u.cursor ++ byte2 (unread r u) ++ byte2 u.readOffset ++ [u.flagsByte] ++
    byte2 u.lossTotal ++ byte2 u.lagMark ++ byte1 u.arrivalBatch ++ byte2 u.unannounced

/-- R103, R104: SUB_INFO. -/
def runSubInfo (p : Port) (r : Request) (s : State) : State × Reply :=
  match r.streamFlagArgs with
  | none => (s, replyStatus .badArgument)
  | some a =>
    if !(s.stream a.stream).defined then (s, replyStatus .noStream)
    else
      match s.sub a.stream p with
      | none => (s, replyStatus .notSubscribed)
      | some u =>
        (if a.flag then s.setSub a.stream p (some { u with lossTotal := 0 }) else s,
          replyFields .ok (subInfoResult (s.stream a.stream) u))

end Sys2Proof.Machine
end

