-- ==== Sys2Proof/Machine/Session.lean ====
section
/-! DEFINITION. The session commands as the Exchange Core runs them (chapter 7): ATTACH, DETACH, PING, PORT_INFO. The
session gate has passed them and the lease has been restarted. -/

namespace Sys2Proof.Machine

/-- R139: the result of an ATTACH, after it. `before` is the session state the port had, `lost` and `evicted` the counts
as noted. -/
def attachResult (s : State) (p : Port) (before : SessionState) (lost evicted : Nat) : List Byte :=
  byte1 before.code ++ byte1 lost ++ byte1 evicted ++ byte1 (s.claimsOfPort p) ++ byte1 (s.subsOfPort p) ++
    byte1 (s.queue p).records.length ++ byte1 (s.queue p).dropped

/-- R136 to R138: the session becomes ATTACHED with the settings of the request, the lease timer is loaded and the flush
timer stopped. -/
def State.writeSettings (s : State) (p : Port) (a : AttachArgs) : State :=
  s.setSession p { s.session p with
    state := .attached, leasePeriod := a.leasePeriod, leaseTimer := loadLease a.leasePeriod,
    flushPeriod := a.flushPeriod, flushTimer := .idle, mask := a.mask }

/-- R138: ATTACH FRESH. -/
def runAttachFresh (p : Port) (a : AttachArgs) (s : State) : State × Reply :=
  let before := (s.session p).state
  let attached := (s.teardown p).writeSettings p a
  (attached, replyFields .ok (attachResult attached p before 0 0))

/-- R136, step 1, R137, R144: notes and clears the claims-lost and evicted counts. -/
def State.clearCounts (s : State) (p : Port) : State :=
  s.setSession p { s.session p with claimsLost := 0, evicted := 0 }

/-- R116, R136, R137: the flush start of an ATTACH RESUME. -/
def State.startFlushIfPending (s : State) (p : Port) : State := if s.anyPending p then s.startFlush p else s

/-- R136, R137: ATTACH RESUME. From ATTACHED it changes the settings only. -/
def runAttachResume (p : Port) (a : AttachArgs) (s : State) : State × Reply :=
  let before := s.session p
  let cleared := s.clearCounts p
  let restored := if before.state = .attached then cleared else cleared.restoreHoldings p
  let attached := (restored.writeSettings p a).startFlushIfPending p
  (attached, replyFields .ok (attachResult attached p before.state before.claimsLost before.evicted))

/-- R135: ATTACH. -/
def runAttach (p : Port) (r : Request) (s : State) : State × Reply :=
  match r.attachArgs with
  | none => (s, replyStatus .badArgument)
  | some a => if a.resume then runAttachResume p a s else runAttachFresh p a s

/-- R141, steps 3 to 5: DETACHED, periods 0, timers IDLE, default mask. R142, steps 1, 4 and 5, are the same. -/
def State.detachSession (s : State) (p : Port) : State :=
  s.setSession p { s.session p with
    state := .detached, leasePeriod := 0, leaseTimer := .idle, flushPeriod := 0, flushTimer := .idle,
    mask := .default }

/-- R141: DETACH. -/
def runDetach (p : Port) (r : Request) (s : State) : State × Reply :=
  match noOperands r with
  | none => (s, replyStatus .badArgument)
  | some _ =>
    ((s.teardown p).detachSession p, replyFields .ok (byte1 (s.claimsOfPort p) ++ byte1 (s.subsOfPort p)))

/-- R145: PING. -/
def runPing (_p : Port) (r : Request) (s : State) : State × Reply :=
  match noOperands r with
  | none => (s, replyStatus .badArgument)
  | some _ => (s, replyFields .ok (bytes24 s.stamp))

/-- R146: the result of PORT_INFO. -/
def portInfoResult (s : State) (p : Port) : List Byte :=
  let x := s.session p
  byte1 x.state.code ++ byte1 x.leasePeriod ++ byte2 x.leaseTimer.remaining ++ byte1 x.flushPeriod ++
    byte1 x.flushTimer.remaining ++ [x.mask.byte] ++ byte1 x.claimsLost ++ byte1 x.evicted ++
    byte1 (s.claimsOfPort p) ++ byte1 (s.subsOfPort p) ++ byte1 (s.queue p).records.length ++
    byte1 (s.queue p).dropped

/-- R146: PORT_INFO. -/
def runPortInfo (p : Port) (r : Request) (s : State) : State × Reply :=
  match noOperands r with
  | none => (s, replyStatus .badArgument)
  | some _ => (s, replyFields .ok (portInfoResult s p))

end Sys2Proof.Machine
end

