-- ==== Sys2Proof/Machine/Streams.lean ====
section
/-! DEFINITION. The stream commands as the Exchange Core runs them (chapter 2): DEFINE, DISSOLVE, STREAM_INFO. -/

namespace Sys2Proof.Machine

/-- R22: a stream as DEFINE leaves it. -/
def StreamRecord.fresh (x : Settings) : StreamRecord := { StreamRecord.undefined with settings := some x }

/-- R21, R22: DEFINE. -/
def runDefine (_p : Port) (r : Request) (s : State) : State × Reply :=
  match r.defineArgs with
  | none => (s, replyStatus .badArgument)
  | some a =>
    if (s.stream a.stream).defined then (s, replyStatus .alreadyDefined)
    else (s.setStream a.stream (.fresh a.settings), replyStatus .ok)

/-- R33: whether a stream is in use: a claim that is not NONE, or a present subscription. -/
def State.streamInUse (s : State) (i : StreamId) : Bool :=
  (s.stream i).claim != .none || s.presentCount i != 0

/-- R34: removes every committed message and makes the stream UNDEFINED. -/
def State.dissolveStream (s : State) (i : StreamId) : State :=
  let emptied := State.removeMany i (s.stream i).committedCount s
  State.reevaluateAfter s.pool (emptied.setStream i .undefined)

/-- R33, R34: DISSOLVE. -/
def runDissolve (_p : Port) (r : Request) (s : State) : State × Reply :=
  match r.streamArg with
  | none => (s, replyStatus .badArgument)
  | some i =>
    if !(s.stream i).defined then (s, replyStatus .noStream)
    else if s.streamInUse i then (s, replyStatus .inUse)
    else (s.dissolveStream i, replyStatus .ok)

/-- R36, Table 9.5: the result of STREAM_INFO. -/
def streamInfoResult (s : State) (i : StreamId) (x : Settings) : List Byte :=
  let r := s.stream i
  byte1 x.policy.code ++ byte2 x.blockLimit ++ byte2 x.maxLength ++ byte1 x.retainDepth ++ byte1 r.claim.code ++
    byte1 (if r.assembly.isSome then 1 else 0) ++ byte2 r.committedCount ++ bytes16 r.nextSeq ++ byte2 r.heldBlocks ++
    byte1 (r.starvedNeed.getD 0) ++ bytes32 r.commitTotal ++ bytes32 r.shedTotal ++ byte1 (s.subStates i)

/-- R36: STREAM_INFO. -/
def runStreamInfo (_p : Port) (r : Request) (s : State) : State × Reply :=
  match r.streamArg with
  | none => (s, replyStatus .badArgument)
  | some i =>
    match (s.stream i).settings with
    | none => (s, replyStatus .noStream)
    | some x => (s, replyFields .ok (streamInfoResult s i x))

end Sys2Proof.Machine
end

