-- ==== Sys2Proof/Machine/Room.lean ====
section
/-! DEFINITION. The room decision at OPEN, its removals, forced advances and LOSS notices (chapter 4). -/

namespace Sys2Proof.Machine

/-! ### The decision (R63 to R67) -/

/-- R64: how many messages precede the cursor of an ACTIVE subscription of port `p`, at most `e`. -/
def State.activeBound (s : State) (i : StreamId) (e : Nat) (p : Port) : Nat :=
  match s.sub i p with
  | some u => if u.state = .active then min e (u.cursor - (s.stream i).oldestSeq).toNat else e
  | none => e

/-- R64: the eligible count E of a stream. -/
def State.eligibleCount (s : State) (i : StreamId) (policy : Policy) : Nat :=
  match policy with
  | .shed => (s.stream i).committedCount
  | .hold => allPorts.foldl (s.activeBound i) (s.stream i).committedCount

/-- R65: the block count of a committed message. -/
def Pool.messageBlocks (q : Pool) (d : DescId) : Nat :=
  match q.desc d with
  | .committed m => m.blockCount
  | _ => 0

/-- R65: the number of blocks of a committed message whose failed flag is clear. -/
def Pool.unfailedBlocks (q : Pool) (d : DescId) : Nat :=
  match q.desc d with
  | .committed m => (q.chain m.firstBlock m.blockCount).countP (fun b => !(q.block b).failed)
  | _ => 0

/-- R65: headroom once the `k` oldest messages are removed. -/
def State.headroomAfter (s : State) (i : StreamId) (k : Nat) : Nat :=
  (s.stream i).headroom + (((s.messages i).take k).map s.pool.messageBlocks).sum

/-- R65: free blocks once the `k` oldest messages are removed. -/
def State.freeBlocksAfter (s : State) (i : StreamId) (k : Nat) : Nat :=
  s.pool.freeBlocks.length + (((s.messages i).take k).map s.pool.unfailedBlocks).sum

/-- R63, R66: whether the need of `n` blocks and one descriptor is covered after the `k` oldest messages are removed. -/
def State.needCovered (s : State) (i : StreamId) (n k : Nat) : Bool :=
  n ≤ s.headroomAfter i k && n ≤ s.freeBlocksAfter i k && 1 ≤ s.pool.freeDescriptors.length + k

/-- R66: the smallest number of removals, from 0 to E, that covers the need. -/
def State.removalsNeeded (s : State) (i : StreamId) (n e : Nat) : Option Nat :=
  (List.range (e + 1)).find? (s.needCovered i n)

/-- R67: the status of a refused OPEN. -/
def State.roomRefusal (s : State) (i : StreamId) (n e : Nat) : Status :=
  if s.headroomAfter i e < n then .full
  else if s.freeBlocksAfter i e < n then .poolEmpty
  else .noDescriptor

/-! ### Removal to make room (R69 to R73) -/

/-- R70: the forced advance of a subscription, to the sequence after its cursor; `next` is the stream's next sequence. -/
def Subscription.forceAdvance (u : Subscription) (next : Seq) : Subscription :=
  let left := (next - (u.cursor + 1)).toNat
  ({ u with
     lossTotal := min 65535 (u.lossTotal + 1), lostSinceRead := true, cursor := u.cursor + 1, readOffset := 0,
     damagedStop := false, unannounced := min u.unannounced left }).rearmLag left

/-- R69, step 2, for one port: forces the port's subscription when its cursor is sequence `x`, and lowers the readers
remaining of message `d`. -/
def State.forcePort (i : StreamId) (d : DescId) (x : Seq) (s : State) (p : Port) : State :=
  match s.sub i p with
  | some u =>
    if u.cursor = x then
      (s.setPool (s.pool.lowerReaders [d])).setSub i p (some (u.forceAdvance (s.stream i).nextSeq))
    else s
  | none => s

/-- R69, step 1: the shed total rises when a subscription still counts the message. -/
def State.countShed (s : State) (i : StreamId) (m : CommittedMessage) : State :=
  if 0 < m.readers then s.setStream i { s.stream i with shedTotal := (s.stream i).shedTotal + 1 } else s

/-- R69: one removal made by the room decision. -/
def State.shedOldest (s : State) (i : StreamId) : State :=
  match (s.stream i).oldest with
  | none => s
  | some d =>
    match s.pool.desc d with
    | .committed m => (allPorts.foldl (State.forcePort i d m.sequence) (s.countShed i m)).removeOldest i
    | _ => s

/-- R68, step 1: the `k` removals, oldest first. -/
def State.shedMany (i : StreamId) : Nat → State → State
  | 0, s => s
  | k + 1, s => State.shedMany i k (s.shedOldest i)

/-- R73, for one port: the LOSS notice of a subscription that the OPEN of port `opener` forced past at least one message;
`before` is the state before the removals. -/
def State.postLoss (before : State) (i : StreamId) (opener : Port) (s : State) (p : Port) : State :=
  match before.sub i p, s.sub i p with
  | some old, some u =>
    if u.cursor ≠ old.cursor ∧ u.lossQueued = false then
      let posted := s.post p { kind := .loss, stream := i, sequence := old.cursor, count := u.cursor - old.cursor,
                               aux := BitVec.ofNat 16 opener.val }
      if s.hasRoomForNotice p then posted.setSub i p (some { u with lossQueued := true }) else posted
    else s
  | _, _ => s

/-- R68, steps 1 to 3: the removals, the LOSS notices, the retirement check. -/
def State.makeRoom (s : State) (i : StreamId) (opener : Port) (k : Nat) : State :=
  (allPorts.foldl (State.postLoss s i opener) (State.shedMany i k s)).retirementCheck i

/-- R49: allocation of the assembly; the starved need is cleared. -/
def State.openAssembly (s : State) (a : OpenArgs) : State :=
  match s.pool.allocate a.stream a.length a.tag a.urgent with
  | some (d, q) =>
    (s.setPool q).setStream a.stream
      { s.stream a.stream with
        assembly := some d, heldBlocks := (s.stream a.stream).heldBlocks + blocksFor a.length, starvedNeed := none }
  | none => s

/-- R49, R68: a granted OPEN that removes `k` messages. -/
def State.grantOpen (s : State) (opener : Port) (a : OpenArgs) (k : Nat) : State :=
  if k = 0 then s.openAssembly a
  else ((s.makeRoom a.stream opener k).openAssembly a).roomReevaluation

/-- R50: a refused OPEN records its need. -/
def State.recordNeed (s : State) (i : StreamId) (n : Nat) : State :=
  s.setStream i { s.stream i with starvedNeed := some n }

end Sys2Proof.Machine
end

