-- ==== Sys2Proof/Machine/Writing.lean ====
section
/-! DEFINITION. The writing commands as the Exchange Core runs them (chapter 3): CLAIM, UNCLAIM, OPEN, APPEND, COMMIT,
ABORT. -/

namespace Sys2Proof.Machine

/-! ### Claims -/

/-- R41: the claims-lost count of port `p` rises and a CLAIM_LOST notice is posted to it. -/
def State.loseClaim (s : State) (i : StreamId) (p taker : Port) (aborted : Bool) : State :=
  (s.setSession p { s.session p with claimsLost := (s.session p).claimsLost + 1 }).post p
    { kind := .claimLost, stream := i, sequence := (s.stream i).nextSeq, count := if aborted then 1 else 0,
      aux := BitVec.ofNat 16 taker.val }

/-- R40: takeover by port `q` of a claim STALE(`p`). -/
def State.takeover (s : State) (i : StreamId) (p q : Port) : State :=
  let aborted := s.abortAssembly i
  let moved := aborted.setStream i { aborted.stream i with starvedNeed := none, claim := .held q }
  State.reevaluateAfter s.pool (moved.loseClaim i p q (s.stream i).assembly.isSome)

/-- R38, R39, Table 3.2: CLAIM. -/
def runClaim (q : Port) (r : Request) (s : State) : State × Reply :=
  match r.streamFlagArgs with
  | none => (s, replyStatus .badArgument)
  | some a =>
    if !(s.stream a.stream).defined then (s, replyStatus .noStream)
    else
      match (s.stream a.stream).claim with
      | .none => (s.setStream a.stream { s.stream a.stream with claim := .held q }, replyStatus .ok)
      | .held p => if p = q then (s, replyStatus .ok) else (s, replyStatus .heldByOther)
      | .stale p =>
        if a.flag then (s.takeover a.stream p q, replyStatus .ok) else (s, replyStatus .staleByOther)

/-- R42: UNCLAIM. -/
def runUnclaim (q : Port) (r : Request) (s : State) : State × Reply :=
  match r.streamArg with
  | none => (s, replyStatus .badArgument)
  | some i =>
    if !(s.stream i).defined then (s, replyStatus .noStream)
    else if (s.stream i).claim ≠ .held q then (s, replyStatus .notWriter)
    else (State.reevaluateAfter s.pool (s.releaseClaim i), replyStatus .ok)

/-! ### The common checks of the writing commands (R47) -/

/-- R47: the NO_STREAM and NOT_WRITER checks of OPEN, APPEND, COMMIT and ABORT. -/
def State.writerRefusal (s : State) (i : StreamId) (q : Port) : Option Status :=
  if !(s.stream i).defined then some .noStream
  else if (s.stream i).claim ≠ .held q then some .notWriter
  else none

/-- R46: the assembly of a stream, with its STAGED descriptor. -/
def State.assemblyOf (s : State) (i : StreamId) : Option (DescId × StagedMessage) :=
  match (s.stream i).assembly with
  | none => none
  | some d =>
    match s.pool.desc d with
    | .staged m => some (d, m)
    | _ => none

/-! ### OPEN -/

/-- R49, R50, R63 to R68: an OPEN that has passed its checks goes to the room decision. -/
def State.decideRoom (s : State) (q : Port) (a : OpenArgs) (x : Settings) : State × Reply :=
  let n := blocksFor a.length
  let e := s.eligibleCount a.stream x.policy
  match s.removalsNeeded a.stream n e with
  | some k => (s.grantOpen q a k, replyFields .ok (byte1 n ++ byte2 k))
  | none => (s.recordNeed a.stream n, replyStatus (s.roomRefusal a.stream n e))

/-- R48, R49: OPEN. -/
def runOpen (q : Port) (r : Request) (s : State) : State × Reply :=
  match r.openArgs with
  | none => (s, replyStatus .badArgument)
  | some a =>
    match (s.stream a.stream).settings with
    | none => (s, replyStatus .noStream)
    | some x =>
      if (s.stream a.stream).claim ≠ .held q then (s, replyStatus .notWriter)
      else if (s.stream a.stream).assembly.isSome then (s, replyStatus .assemblyOpen)
      else if x.maxLength < a.length then (s, replyStatus .tooLong)
      else s.decideRoom q a x

/-! ### APPEND -/

/-- R51, R52: APPEND. -/
def runAppend (q : Port) (r : Request) (s : State) : State × Reply :=
  match r.appendArg with
  | none => (s, replyStatus .badArgument)
  | some i =>
    match s.writerRefusal i q with
    | some x => (s, replyStatus x)
    | none =>
      match s.assemblyOf i with
      | none => (s, replyStatus .noAssembly)
      | some (d, m) =>
        if m.declaredLength < m.fill + r.payload.length then (s, replyStatus .overlength)
        else (s.setPool (s.pool.storePayload d m r.payload), replyFields .ok (byte2 (m.fill + r.payload.length)))

/-! ### COMMIT -/

/-- R119: the lag evaluation of a subscription at a commit of sequence `x`. -/
def State.lagEvaluation (s : State) (i : StreamId) (x : Seq) (p : Port) : State :=
  match s.sub i p with
  | some u =>
    if u.lagMark ≠ 0 ∧ u.lagArmed = true ∧ u.lagMark ≤ unread (s.stream i) u then
      (s.post p { kind := .lag, stream := i, sequence := x, count := BitVec.ofNat 16 (unread (s.stream i) u),
                  aux := BitVec.ofNat 16 u.lagMark }).setSub i p (some { u with lagArmed := false })
    else s
  | none => s

/-- R114, steps 1 and 2: the arrival part of the evaluation. -/
def State.arrivalEvaluation (s : State) (i : StreamId) (x : Seq) (urgent : Bool) (p : Port) : State :=
  match s.sub i p with
  | some u =>
    let raised := { u with unannounced := min 512 (u.unannounced + 1) }
    let counted := s.setSub i p (some raised)
    if u.arrivalQueued = false ∧ (u.arrivalBatch ≤ raised.unannounced ∨ urgent = true) then
      counted.postArrival p i raised x (if urgent then 1 else 0)
    else counted
  | none => s

/-- R114, R116, R119: the arrival, lag and flush evaluation of one port at a commit. -/
def State.evaluatePort (i : StreamId) (x : Seq) (urgent : Bool) (s : State) (p : Port) : State :=
  let evaluated := (s.arrivalEvaluation i x urgent p).lagEvaluation i x p
  if evaluated.subPending p i then evaluated.startFlush p else evaluated

/-- R23: links the former newest descriptor of a stream to the new one. -/
def Pool.linkNewest (q : Pool) (newest : Option DescId) (d : DescId) : Pool :=
  match newest with
  | some n => q.updateCommitted n (fun m => { m with next := some d })
  | none => q

/-- R54 to R56, steps 1 to 3: the message is committed, appended at the newest end, and counted. -/
def State.commitAssembly (s : State) (i : StreamId) (d : DescId) (m : StagedMessage) : State :=
  let r := s.stream i
  let stored := s.pool.commitMessage d m r.nextSeq s.stamp (s.presentCount i)
  (s.setPool (stored.linkNewest r.newest d)).setStream i
    { r with
      assembly := none
      oldest := if r.oldest.isNone then some d else r.oldest
      newest := some d
      committedCount := r.committedCount + 1
      nextSeq := r.nextSeq + 1
      heldBlocks := r.heldBlocks - (m.blockCount - blocksFor m.fill)
      commitTotal := r.commitTotal + 1 }

/-- R56: a COMMIT that has passed its checks. -/
def State.commitStream (s : State) (i : StreamId) (d : DescId) (m : StagedMessage) : State :=
  let evaluated := allPorts.foldl (State.evaluatePort i (s.stream i).nextSeq m.urgent) (s.commitAssembly i d m)
  State.reevaluateAfter s.pool (evaluated.retirementCheck i)

/-- R53 to R56: COMMIT. -/
def runCommit (q : Port) (r : Request) (s : State) : State × Reply :=
  match r.streamArg with
  | none => (s, replyStatus .badArgument)
  | some i =>
    match s.writerRefusal i q with
    | some x => (s, replyStatus x)
    | none =>
      match s.assemblyOf i with
      | none => (s, replyStatus .noAssembly)
      | some (d, m) =>
        if m.fill = 0 then (s, replyStatus .emptyAssembly)
        else (s.commitStream i d m,
              replyFields .ok (bytes16 (s.stream i).nextSeq ++ byte2 m.fill ++ bytes24 s.stamp))

/-! ### ABORT -/

/-- R59: ABORT. -/
def runAbort (q : Port) (r : Request) (s : State) : State × Reply :=
  match r.streamArg with
  | none => (s, replyStatus .badArgument)
  | some i =>
    match s.writerRefusal i q with
    | some x => (s, replyStatus x)
    | none =>
      if (s.stream i).assembly.isNone then (s, replyStatus .noAssembly)
      else (State.reevaluateAfter s.pool (s.abortAssembly i), replyStatus .ok)

end Sys2Proof.Machine
end

