-- ==== Sys2Proof/Machine/Exchange.lean ====
section
/-! DEFINITION. The Exchange Core and the Exchange Arbiter: the session gate, the taking of a granted request, the placing
of its response, and what a link does with a good frame (R128, R129, R152 to R157). -/

namespace Sys2Proof.Machine

/-! ### The Exchange Core -/

/-- The command of Table 9.3 run on the tables. -/
def runCommand : Command → Port → Request → State → State × Reply
  | .attach => runAttach
  | .detach => runDetach
  | .ping => runPing
  | .portInfo => runPortInfo
  | .define => runDefine
  | .dissolve => runDissolve
  | .streamInfo => runStreamInfo
  | .claim => runClaim
  | .unclaim => runUnclaim
  | .openMessage => runOpen
  | .append => runAppend
  | .commit => runCommit
  | .abort => runAbort
  | .join => runJoin
  | .leave => runLeave
  | .evict => runEvict
  | .read => runRead
  | .release => runRelease
  | .subInfo => runSubInfo
  | .takeNotices => runTakeNotices
  | .poolInfo => runPoolInfo
  | .scrub => runScrub

/-- R128: the commands that pass the gate of a port that is not ATTACHED. -/
def Command.passesAnyGate (c : Command) : Bool := c = .attach || c = .portInfo

/-- R128, R129: a command taken from port `p`: the session gate, the restart of an ATTACHED port's lease, then the
command's own rule. -/
def takeCommand (c : Command) (p : Port) (r : Request) (s : State) : State × Reply :=
  match (s.session p).state with
  | .attached => runCommand c p r (s.restartLease p)
  | .detached => if c.passesAnyGate then runCommand c p r s else (s, replyStatus .notAttached)
  | .lapsed => if c.passesAnyGate then runCommand c p r s else (s, replyStatus .lapsed)

/-- R128, R129: a frame whose code names no command: BAD_COMMAND in every session state; from an ATTACHED port it restarts
the lease. -/
def takeBadCommand (p : Port) (s : State) : State × Reply :=
  match (s.session p).state with
  | .attached => (s.restartLease p, replyStatus .badCommand)
  | .detached => (s, replyStatus .badCommand)
  | .lapsed => (s, replyStatus .badCommand)

/-- R157: the core takes a request: every table is read and changed at this moment (log 2). -/
def takeRequest (p : Port) (r : Request) (s : State) : State × Reply :=
  match r.command with
  | some c => takeCommand c p r s
  | none => takeBadCommand p s

/-! ### The Exchange Arbiter -/

/-- R156: the search order from the pointer. -/
def grantOrder (pointer : Port) : List Port := [pointer, pointer + 1, pointer + 2, pointer + 3]

/-- R156: the first WAITING link in the search order. -/
def State.nextGranted (s : State) : Option Port := (grantOrder s.pointer).find? (fun p => (s.link p).isWaiting)

/-- R156, R157: grants port `p`, whose link waits with request `r`: the link becomes EXECUTING, the pointer moves past the
port, and the core takes the request and holds the reply it will place. -/
def State.grant (s : State) (p : Port) (r : Request) : State :=
  let granted := (s.setLink p { s.link p with state := .executing r }).setPointer (p + 1)
  let taken := takeRequest p r granted
  taken.1.setCore (some { port := p, reply := taken.2 })

/-- R156, R171: the core can be granted: it is free, the pass is over, RESETn is released and REFCLK runs. -/
def State.coreAvailable (s : State) : Bool := s.phase = .operating && s.refclk && s.core.isNone

/-- R156: the arbiter grants when the core is free and a link is WAITING. -/
def State.arbitrate (s : State) : State :=
  if s.coreAvailable then
    match s.nextGranted with
    | none => s
    | some p =>
      match (s.link p).state with
      | .waiting r => s.grant p r
      | _ => s
  else s

/-! ### Responses and good frames -/

/-- R153, R154, R157: a response placed in port `p`'s slot, with the flags copied and then cleared. -/
def State.placeResponse (s : State) (p : Port) (id : Byte) (reply : Reply) : State :=
  s.setLink p { s.link p with state := .ready (Response.make id (s.link p).flags reply), flags := .clear }

/-- R152: the frame is accepted: its request waits at the arbiter. -/
def Link.accept (l : Link) (r : Request) : Link := { l with state := .waiting r, lastId := r.id }

/-- R152: a response found in the slot is discarded with SUPERSEDED. -/
def Link.supersede (l : Link) : Link :=
  match l.state with
  | .ready _ => { l.setSuperseded with state := .idle }
  | _ => l

/-- R155: the link's own NOT_READY answer during the initialisation pass. -/
def State.answerNotReady (s : State) (p : Port) (r : Request) : State :=
  (s.setLink p { (s.link p).supersede with lastId := r.id }).placeResponse p r.id (replyStatus .notReady)

/-- R152: a good frame by the link state it finds: accepted from IDLE or READY, discarded as COLLIDED otherwise. -/
def Link.receiveGood (l : Link) (r : Request) : Link :=
  match l.state with
  | .idle => l.accept r
  | .ready _ => l.supersede.accept r
  | .waiting _ => l.setCollided
  | .executing _ => l.setCollided

/-- R152, R155, R156: a good frame reaches port `p`'s link. -/
def State.goodFrame (s : State) (p : Port) (r : Request) : State :=
  match s.phase with
  | .operating => (s.setLink p ((s.link p).receiveGood r)).arbitrate
  | .initialising => s.answerNotReady p r
  | .inReset => s

/-- R148: whether port `p`'s link can take a transaction: RESETn and PRSTn released. -/
def State.linkAlive (s : State) (p : Port) : Bool := s.phase != .inReset && !(s.pinsOf p).prstAsserted

/-- A request row: a good frame with these contents reaches port `p`'s link in a transaction of its own that collects
nothing (log 1). A frame too long for its length fields sets BADCHECK (R151, test 3). The link takes it when it is alive
and CSn is high. -/
def State.presentRequest (s : State) (p : Port) (r : Request) : State :=
  if s.linkAlive p && !(s.pinsOf p).csLow then
    if 16 < r.params.length ∨ 256 < r.payload.length then s.setLink p (s.link p).setBadcheck
    else s.goodFrame p r
  else s

/-! ### Completion -/

/-- R157, R160: the core completes the command it executes: the response is placed, or dropped when the discard mark is
set; the core becomes free. -/
def State.completeCommand (s : State) (e : Executing) : State :=
  if (s.link e.port).discardMark then
    (s.setLink e.port { s.link e.port with discardMark := false }).setCore none
  else (s.placeResponse e.port (s.link e.port).lastId e.reply).setCore none

end Sys2Proof.Machine
end

