-- ==== Sys2Proof/Machine/Events.lean ====
section
/-! DEFINITION. The events of the pins, the Time Base, the Port Session units and the Exchange Core. An event whose cause
is not there changes nothing (log 3). -/

namespace Sys2Proof.Machine

/-- R171: whether the part is clocked and out of reset, so that the Time Base and the Port Session units run. -/
def State.clocked (s : State) : Bool := s.refclk && s.phase != .inReset

/-! ### Port reset (R142, R159) -/

/-- R159: what a port reset does to the link. -/
def Link.portReset (l : Link) : Link :=
  { l with
    state := .idle, flags := .clear, transaction := none, receiveArea := [],
    discardMark := l.discardMark || l.isExecuting }

/-- R142, R159: the port reset of `p`. -/
def State.resetPort (s : State) (p : Port) : State :=
  let lapsed := (s.lapseHoldings p).detachSession p
  lapsed.setLink p (lapsed.link p).portReset

/-- PORT_RESET (R142, R159, R171): a taken assertion of PRSTn, once for each assertion. With RESETn asserted every block
is in reset already (log 18). -/
def State.assertPrst (s : State) (p : Port) : State :=
  if s.refclk && !(s.pinsOf p).prstAsserted then
    let asserted := s.setPins p { s.pinsOf p with prstAsserted := true }
    if s.phase = .inReset then asserted else asserted.resetPort p
  else s

/-- PORT_RESET (R142). -/
def execPortReset (p : Port) (s : State) : Host.Outcome State Fault Refusal := .next (s.assertPrst p)

/-- R148, R171: a taken release of PRSTn: the link takes transactions again from the next fall of CSn. -/
def State.releasePrst (s : State) (p : Port) : State :=
  if s.refclk then s.setPins p { s.pinsOf p with prstAsserted := false } else s

/-- PORT_RESET_RELEASE (R171). -/
def execPortResetRelease (p : Port) (s : State) : Host.Outcome State Fault Refusal := .next (s.releasePrst p)

/-! ### RESETn (R18, R171) -/

/-- R171: every block in its reset. The levels of CSn and PRSTn, the model's draws and its queue stay. -/
def State.enterReset (s : State) : State :=
  { State.reset with phase := .inReset, pins := s.pins, refclk := s.refclk, draws := s.draws, pending := s.pending }

/-- RESET_ASSERT (R171). -/
def execResetAssert (s : State) : Host.Outcome State Fault Refusal :=
  .next (if s.refclk then s.enterReset else s)

/-- R18, R130, R131: the release of RESETn starts the pass, the stamp counter and the tick count. -/
def State.leaveReset (s : State) : State := { s with phase := .initialising, stamp := 0, tickCount := 0 }

/-- RESET_RELEASE (R18). -/
def execResetRelease (s : State) : Host.Outcome State Fault Refusal :=
  .next (if s.refclk && s.phase = .inReset then s.leaveReset else s)

/-- R18: the end of the pass: every pool structure at its starting value, and the core begins taking requests. -/
def State.endPass (s : State) : State := { s with pool := .powerOn, phase := .operating }

/-- INIT_PASS_END (R18). -/
def execInitPassEnd (s : State) : Host.Outcome State Fault Refusal :=
  .next (if s.refclk && s.phase = .initialising then s.endPass.arbitrate else s)

/-! ### Time Base (R130, R131) -/

/-- R130, R131: one microsecond: the stamp counter rises, wrapping; the tick count goes on. -/
def State.microsecond (s : State) : State :=
  { s with stamp := s.stamp + 1, tickCount := (s.tickCount + 1) % 1000 }

/-- STAMP_COUNTER_RISE (R130). -/
def execStampCounterRise (s : State) : Host.Outcome State Fault Refusal :=
  .next (if s.clocked then s.microsecond else s)

/-- R131: one tick for a session's two timers. -/
def Session.tick (x : Session) : Session :=
  { x with leaseTimer := x.leaseTimer.tick, flushTimer := x.flushTimer.tick }

/-- R131: the tick reaches every Port Session unit. -/
def State.tickAll (s : State) : State := { s with sessions := s.sessions.map Session.tick, tickCount := 0 }

/-- TICK (R131). A timer that it brings to 0 is expired, and LEASE_EXPIRY or FLUSH_EXPIRY follows (log 4). -/
def execTick (s : State) : Host.Outcome State Fault Refusal := .next (if s.clocked then s.tickAll else s)

/-! ### Expiries (R117, R133) -/

/-- R133: the lapse of port `p`'s session. -/
def State.lapsePort (s : State) (p : Port) : State :=
  let moved := s.lapseHoldings p
  moved.setSession p { moved.session p with state := .lapsed, leaseTimer := .idle, flushTimer := .idle }

/-- LEASE_EXPIRY (R133): taken when port `p`'s lease timer has expired. -/
def execLeaseExpiry (p : Port) (s : State) : Host.Outcome State Fault Refusal :=
  .next (if s.clocked && (s.session p).leaseTimer = .expired then s.lapsePort p else s)

/-- R117: the flush of one stream: an ARRIVAL with cause 2 when port `p`'s subscription is pending. -/
def State.flushStream (p : Port) (s : State) (i : StreamId) : State :=
  match s.sub i p with
  | some u => if u.isPending then s.postArrival p i u ((s.stream i).nextSeq - 1) 2 else s
  | none => s

/-- R117: the flush timer becomes IDLE. -/
def State.stopFlush (s : State) (p : Port) : State :=
  s.setSession p { s.session p with flushTimer := .idle }

/-- R117: the expiry of port `p`'s flush timer: every pending subscription is served in ascending stream number; the timer
starts again when one is still pending. -/
def State.flushPort (s : State) (p : Port) : State :=
  ((allStreams.foldl (State.flushStream p) s).stopFlush p).startFlushIfPending p

/-- FLUSH_EXPIRY (R117): taken when port `p`'s flush timer has expired. -/
def execFlushExpiry (p : Port) (s : State) : Host.Outcome State Fault Refusal :=
  .next (if s.clocked && (s.session p).flushTimer = .expired then s.flushPort p else s)

/-! ### Completion of a command (R157, R160) -/

/-- R157: completion of what the core executes, then the arbiter may grant again. -/
def State.complete (s : State) : State :=
  match s.core with
  | some e => (s.completeCommand e).arbitrate
  | none => s

/-- COMMAND_COMPLETION (R157, R160). -/
def execCommandCompletion (s : State) : Host.Outcome State Fault Refusal :=
  .next (if s.refclk && s.phase = .operating then s.complete else s)

/-! ### REFCLK (R171) -/

/-- REFCLK_STOP (R171): the steps that run on REFCLK stand still until it returns. -/
def execRefclkStop (s : State) : Host.Outcome State Fault Refusal := .next { s with refclk := false }

/-- REFCLK_RETURN (R171): counters and timers go on from the counts they held; a frame that waited may be granted. -/
def execRefclkReturn (s : State) : Host.Outcome State Fault Refusal :=
  .next (State.arbitrate { s with refclk := true })

end Sys2Proof.Machine
end

