-- ==== Sys2Proof/Machine/LinkEdges.lean ====
section
/-! DEFINITION. The two edges of CSn (R148 to R152). -/

namespace Sys2Proof.Machine

/-- R148: the number of bytes of a transaction that the link examines as a frame. -/
def receiveAreaSize : Nat := 288

/-- R149: the transaction that begins at a fall of CSn: the link byte, and the response of a READY link. -/
def State.beginTransaction (s : State) (p : Port) : Transaction :=
  { linkByte := s.linkByte p, response := (s.link p).responseSlot }

/-- R148, R149: a fall of CSn of port `p`. With a reset asserted the link ignores it; CSn that is low already has no
fall. -/
def State.chipSelectFall (s : State) (p : Port) : State :=
  if (s.pinsOf p).csLow then s
  else
    let lowered := s.setPins p { s.pinsOf p with csLow := true }
    if s.linkAlive p then
      lowered.setLink p { s.link p with transaction := some (s.beginTransaction p), receiveArea := [] }
    else lowered

/-- R151: the collection of a response that the transaction has clocked whole: the slot empties and the link becomes
IDLE. -/
def Link.settleCollection (l : Link) (t : Transaction) (clocked : Nat) : Link :=
  match l.state with
  | .ready _ => if t.collected clocked then { l with state := .idle } else l
  | _ => l

/-- R151, R152: the link acts on what it finds of the received bytes. -/
def State.judgeReceived (s : State) (p : Port) (j : Judgement) : State :=
  match j with
  | .noFrame => s
  | .truncated => s.setLink p (s.link p).setTruncated
  | .badcheck => s.setLink p (s.link p).setBadcheck
  | .good r => s.goodFrame p r

/-- R151: the end of transaction `t` of port `p`, which received these whole bytes: collection is settled, then the bytes
are judged. The first 288 lie in the receive area (R148). -/
def State.endTransaction (s : State) (p : Port) (t : Transaction) (received : List Byte) : State :=
  let area := received.take receiveAreaSize
  let settled := { (s.link p).settleCollection t received.length with transaction := none, receiveArea := area }
  (s.setLink p settled).judgeReceived p (judge area (received.drop receiveAreaSize))

/-- R148, R151: a rise of CSn of port `p`. CSn that is high has no rise; a rise that ends no transaction is not
examined. -/
def State.chipSelectRise (s : State) (p : Port) (received : List Byte) : State :=
  if (s.pinsOf p).csLow then
    let raised := s.setPins p { s.pinsOf p with csLow := false }
    match (s.link p).transaction with
    | some t => raised.endTransaction p t received
    | none => raised
  else s

/-- CS_FALL (R149). -/
def execCsFall (p : Port) (s : State) : Host.Outcome State Fault Refusal := .next (s.chipSelectFall p)

/-- CS_RISE (R151). The bits of a byte that was not completed count as nothing (R148). -/
def execCsRise (p : Port) (received : List Byte) (_lastBits : List Bool) (s : State) :
    Host.Outcome State Fault Refusal :=
  .next (s.chipSelectRise p received)

end Sys2Proof.Machine
end

