-- ==== Sys2Proof/Machine/Requests.lean ====
section
/-! DEFINITION. The request rows of the opcode table: each presents its command's frame to a port's link. What the command
does when the Exchange Core takes it is in the file of its chapter. -/

namespace Sys2Proof.Machine

/-- ATTACH_FRESH (R138, by `runAttachFresh`): mode code 00. -/
def execAttachFresh (p : Port) (id : Byte) (params payload : List Byte) (s : State) : Host.Outcome State Fault Refusal :=
  .next (s.presentRequest p
    { id := id, code := some Command.attach.code, params := 0x00#8 :: params, payload := payload })

/-- ATTACH_RESUME (R136, R137, by `runAttachResume`): mode code 01. -/
def execAttachResume (p : Port) (id : Byte) (params payload : List Byte) (s : State) : Host.Outcome State Fault Refusal :=
  .next (s.presentRequest p
    { id := id, code := some Command.attach.code, params := 0x01#8 :: params, payload := payload })

/-- DETACH (R141, by `runDetach`). -/
def execDetach (p : Port) (id : Byte) (params payload : List Byte) (s : State) : Host.Outcome State Fault Refusal :=
  .next (s.presentRequest p { id := id, code := some Command.detach.code, params := params, payload := payload })

/-- PING (R145, by `runPing`). -/
def execPing (p : Port) (id : Byte) (params payload : List Byte) (s : State) : Host.Outcome State Fault Refusal :=
  .next (s.presentRequest p { id := id, code := some Command.ping.code, params := params, payload := payload })

/-- PORT_INFO (R146, by `runPortInfo`). -/
def execPortInfo (p : Port) (id : Byte) (params payload : List Byte) (s : State) : Host.Outcome State Fault Refusal :=
  .next (s.presentRequest p { id := id, code := some Command.portInfo.code, params := params, payload := payload })

/-- DEFINE (R21, R22, by `runDefine`). -/
def execDefine (p : Port) (id : Byte) (params payload : List Byte) (s : State) : Host.Outcome State Fault Refusal :=
  .next (s.presentRequest p { id := id, code := some Command.define.code, params := params, payload := payload })

/-- DISSOLVE (R33, R34, by `runDissolve`). -/
def execDissolve (p : Port) (id : Byte) (params payload : List Byte) (s : State) : Host.Outcome State Fault Refusal :=
  .next (s.presentRequest p { id := id, code := some Command.dissolve.code, params := params, payload := payload })

/-- STREAM_INFO (R36, by `runStreamInfo`). -/
def execStreamInfo (p : Port) (id : Byte) (params payload : List Byte) (s : State) : Host.Outcome State Fault Refusal :=
  .next (s.presentRequest p { id := id, code := some Command.streamInfo.code, params := params, payload := payload })

/-- CLAIM (R38 to R41, by `runClaim`). -/
def execClaim (p : Port) (id : Byte) (params payload : List Byte) (s : State) : Host.Outcome State Fault Refusal :=
  .next (s.presentRequest p { id := id, code := some Command.claim.code, params := params, payload := payload })

/-- UNCLAIM (R42, R43, by `runUnclaim`). -/
def execUnclaim (p : Port) (id : Byte) (params payload : List Byte) (s : State) : Host.Outcome State Fault Refusal :=
  .next (s.presentRequest p { id := id, code := some Command.unclaim.code, params := params, payload := payload })

/-- OPEN (R48 to R50, R63 to R75, by `runOpen`). -/
def execOpen (p : Port) (id : Byte) (params payload : List Byte) (s : State) : Host.Outcome State Fault Refusal :=
  .next (s.presentRequest p { id := id, code := some Command.openMessage.code, params := params, payload := payload })

/-- APPEND (R51, R52, by `runAppend`). -/
def execAppend (p : Port) (id : Byte) (params payload : List Byte) (s : State) : Host.Outcome State Fault Refusal :=
  .next (s.presentRequest p { id := id, code := some Command.append.code, params := params, payload := payload })

/-- COMMIT (R53 to R56, by `runCommit`). -/
def execCommit (p : Port) (id : Byte) (params payload : List Byte) (s : State) : Host.Outcome State Fault Refusal :=
  .next (s.presentRequest p { id := id, code := some Command.commit.code, params := params, payload := payload })

/-- ABORT (R59, by `runAbort`). -/
def execAbort (p : Port) (id : Byte) (params payload : List Byte) (s : State) : Host.Outcome State Fault Refusal :=
  .next (s.presentRequest p { id := id, code := some Command.abort.code, params := params, payload := payload })

/-- JOIN (R85 to R88, by `runJoin`). -/
def execJoin (p : Port) (id : Byte) (params payload : List Byte) (s : State) : Host.Outcome State Fault Refusal :=
  .next (s.presentRequest p { id := id, code := some Command.join.code, params := params, payload := payload })

/-- LEAVE (R90, R91, by `runLeave`). -/
def execLeave (p : Port) (id : Byte) (params payload : List Byte) (s : State) : Host.Outcome State Fault Refusal :=
  .next (s.presentRequest p { id := id, code := some Command.leave.code, params := params, payload := payload })

/-- EVICT (R92, R93, by `runEvict`). -/
def execEvict (p : Port) (id : Byte) (params payload : List Byte) (s : State) : Host.Outcome State Fault Refusal :=
  .next (s.presentRequest p { id := id, code := some Command.evict.code, params := params, payload := payload })

/-- READ (R95 to R98, by `runRead`). -/
def execRead (p : Port) (id : Byte) (params payload : List Byte) (s : State) : Host.Outcome State Fault Refusal :=
  .next (s.presentRequest p { id := id, code := some Command.read.code, params := params, payload := payload })

/-- RELEASE (R99, R100, by `runRelease`). -/
def execRelease (p : Port) (id : Byte) (params payload : List Byte) (s : State) : Host.Outcome State Fault Refusal :=
  .next (s.presentRequest p { id := id, code := some Command.release.code, params := params, payload := payload })

/-- SUB_INFO (R103, R104, by `runSubInfo`). -/
def execSubInfo (p : Port) (id : Byte) (params payload : List Byte) (s : State) : Host.Outcome State Fault Refusal :=
  .next (s.presentRequest p { id := id, code := some Command.subInfo.code, params := params, payload := payload })

/-- TAKE_NOTICES (R122, R123, by `runTakeNotices`). -/
def execTakeNotices (p : Port) (id : Byte) (params payload : List Byte) (s : State) : Host.Outcome State Fault Refusal :=
  .next (s.presentRequest p { id := id, code := some Command.takeNotices.code, params := params, payload := payload })

/-- POOL_INFO (R17, by `runPoolInfo`). -/
def execPoolInfo (p : Port) (id : Byte) (params payload : List Byte) (s : State) : Host.Outcome State Fault Refusal :=
  .next (s.presentRequest p { id := id, code := some Command.poolInfo.code, params := params, payload := payload })

/-- SCRUB (R14 to R16, by `runScrub`). -/
def execScrub (p : Port) (id : Byte) (params payload : List Byte) (s : State) : Host.Outcome State Fault Refusal :=
  .next (s.presentRequest p { id := id, code := some Command.scrub.code, params := params, payload := payload })

/-- BAD_COMMAND (R128, by `takeBadCommand`): a frame whose code names no command. -/
def execBadCommand (p : Port) (id : Byte) (code : Option Byte) (params payload : List Byte) (s : State) :
    Host.Outcome State Fault Refusal :=
  .next (s.presentRequest p { id := id, code := code, params := params, payload := payload })

end Sys2Proof.Machine
end

