-- ==== Sys2Proof/Machine/Dispatch.lean ====
section
/-! DEFINITION. One arm for each command, each a direct call of its meaning. -/

namespace Sys2Proof.Machine

def exec (i : Instr) (s : State) : Host.Outcome State Fault Refusal :=
  match i with
  | .attachFresh p id params payload => Sys2Proof.Machine.execAttachFresh p id params payload s
  | .attachResume p id params payload => Sys2Proof.Machine.execAttachResume p id params payload s
  | .detach p id params payload => Sys2Proof.Machine.execDetach p id params payload s
  | .ping p id params payload => Sys2Proof.Machine.execPing p id params payload s
  | .portInfo p id params payload => Sys2Proof.Machine.execPortInfo p id params payload s
  | .define p id params payload => Sys2Proof.Machine.execDefine p id params payload s
  | .dissolve p id params payload => Sys2Proof.Machine.execDissolve p id params payload s
  | .streamInfo p id params payload => Sys2Proof.Machine.execStreamInfo p id params payload s
  | .claim p id params payload => Sys2Proof.Machine.execClaim p id params payload s
  | .unclaim p id params payload => Sys2Proof.Machine.execUnclaim p id params payload s
  | .openMessage p id params payload => Sys2Proof.Machine.execOpen p id params payload s
  | .append p id params payload => Sys2Proof.Machine.execAppend p id params payload s
  | .commit p id params payload => Sys2Proof.Machine.execCommit p id params payload s
  | .abort p id params payload => Sys2Proof.Machine.execAbort p id params payload s
  | .join p id params payload => Sys2Proof.Machine.execJoin p id params payload s
  | .leave p id params payload => Sys2Proof.Machine.execLeave p id params payload s
  | .evict p id params payload => Sys2Proof.Machine.execEvict p id params payload s
  | .read p id params payload => Sys2Proof.Machine.execRead p id params payload s
  | .release p id params payload => Sys2Proof.Machine.execRelease p id params payload s
  | .subInfo p id params payload => Sys2Proof.Machine.execSubInfo p id params payload s
  | .takeNotices p id params payload => Sys2Proof.Machine.execTakeNotices p id params payload s
  | .poolInfo p id params payload => Sys2Proof.Machine.execPoolInfo p id params payload s
  | .scrub p id params payload => Sys2Proof.Machine.execScrub p id params payload s
  | .badCommand p id code params payload => Sys2Proof.Machine.execBadCommand p id code params payload s
  | .csFall p => Sys2Proof.Machine.execCsFall p s
  | .csRise p received lastBits => Sys2Proof.Machine.execCsRise p received lastBits s
  | .portReset p => Sys2Proof.Machine.execPortReset p s
  | .resetAssert => Sys2Proof.Machine.execResetAssert s
  | .resetRelease => Sys2Proof.Machine.execResetRelease s
  | .initPassEnd => Sys2Proof.Machine.execInitPassEnd s
  | .tick => Sys2Proof.Machine.execTick s
  | .leaseExpiry p => Sys2Proof.Machine.execLeaseExpiry p s
  | .flushExpiry p => Sys2Proof.Machine.execFlushExpiry p s
  | .commandCompletion => Sys2Proof.Machine.execCommandCompletion s
  | .portResetRelease p => Sys2Proof.Machine.execPortResetRelease p s
  | .stampCounterRise => Sys2Proof.Machine.execStampCounterRise s
  | .refclkStop => Sys2Proof.Machine.execRefclkStop s
  | .refclkReturn => Sys2Proof.Machine.execRefclkReturn s

end Sys2Proof.Machine
end

