-- ==== Sys2Proof/Safety.lean ====
section
/-! DEFINITION. The terms in which claims about the part are stated: what holds in every state of a safe run, and how a
state looks when a request is taken, renewed and answered. -/

namespace Sys2Proof.Safety

open Sys2Proof.Machine

/-! ### Invariants -/

/-- The payload memory keeps its canonical form. -/
def MemoryCanonical (s : State) : Prop := Memory.wf s.pool.bytes

/-- R109: a queue holds 0 to 32 records, and its dropped-notice count is 0 to 255. -/
def QueueBounds (s : State) : Prop :=
  ∀ p : Port, (s.queue p).records.length ≤ 32 ∧ (s.queue p).dropped ≤ 255

/-- R3, R4, R5, R7: each free list holds exactly the FREE items, once each, and the quarantine list exactly the QUARANTINED
blocks, once each. -/
structure PoolAccounts (q : Pool) : Prop where
  freeBlocks_once : q.freeBlocks.Nodup
  mem_freeBlocks : ∀ b : BlockId, b ∈ q.freeBlocks ↔ (q.block b).state = .free
  quarantine_once : q.quarantine.Nodup
  mem_quarantine : ∀ b : BlockId, b ∈ q.quarantine ↔ (q.block b).state = .quarantined
  freeDescriptors_once : q.freeDescriptors.Nodup
  mem_freeDescriptors : ∀ d : DescId, d ∈ q.freeDescriptors ↔ q.desc d = .free

/-- R2: the chain of descriptor `d`, in the state its blocks must have: as long as the block count, without repetition, owned
by the descriptor, its last link the end. -/
structure ChainOf (q : Pool) (d : DescId) (x : BlockState) (first : BlockId) (count : Nat) : Prop where
  full_length : (q.chain first count).length = count
  blocks_once : (q.chain first count).Nodup
  blocks_state : ∀ b ∈ q.chain first count, (q.block b).state = x
  blocks_owner : ∀ b ∈ q.chain first count, (q.block b).owner = some d
  ends : (q.chain first count).getLast?.bind (fun b => (q.block b).next) = none

/-- R2: block `b` lies in the chain of descriptor `d`. -/
def LiesIn (q : Pool) (d : DescId) (b : BlockId) : Prop :=
  (∃ m : StagedMessage, q.desc d = .staged m ∧ b ∈ q.chain m.firstBlock m.blockCount) ∨
    (∃ m : CommittedMessage, q.desc d = .committed m ∧ b ∈ q.chain m.firstBlock m.blockCount)

/-- R1, R2, R5, R6: every staged or committed descriptor has its chain, of the length its bytes ask for; every STAGED or
COMMITTED block lies in a chain, which is that of its owner alone; and no other block has an owner, a fill or a next link. -/
structure ChainsOwned (q : Pool) : Prop where
  staged_chain : ∀ (d : DescId) (m : StagedMessage), q.desc d = .staged m →
    ChainOf q d .staged m.firstBlock m.blockCount
  staged_lengths : ∀ (d : DescId) (m : StagedMessage), q.desc d = .staged m →
    m.blockCount = blocksFor m.declaredLength ∧ m.fill ≤ m.declaredLength ∧ 1 ≤ m.declaredLength
  committed_chain : ∀ (d : DescId) (m : CommittedMessage), q.desc d = .committed m →
    ChainOf q d .committed m.firstBlock m.blockCount
  committed_lengths : ∀ (d : DescId) (m : CommittedMessage), q.desc d = .committed m →
    m.blockCount = blocksFor m.committedLength ∧ 1 ≤ m.committedLength ∧ m.committedLength ≤ m.declaredLength
  unheld_blocks : ∀ b : BlockId, (q.block b).state ≠ .staged → (q.block b).state ≠ .committed →
    (q.block b).owner = none ∧ (q.block b).next = none ∧ (q.block b).fill = 0
  held_blocks : ∀ b : BlockId, (q.block b).state = .staged ∨ (q.block b).state = .committed →
    ∃ d : DescId, (q.block b).owner = some d ∧ LiesIn q d b ∧ ∀ e : DescId, LiesIn q e b → e = d

/-- The block count of a committed message; 0 for a descriptor in another state. -/
def committedBlocksOf (q : Pool) (d : DescId) : Nat :=
  match q.desc d with
  | .committed m => m.blockCount
  | _ => 0

/-- The block count of the assembly of stream `i`; 0 when it has none. -/
def assemblyBlocksOf (s : State) (i : StreamId) : Nat :=
  match (s.stream i).assembly.map s.pool.desc with
  | some (.staged m) => m.blockCount
  | _ => 0

/-- R83, R84: the subscription of port `p` to stream `i` is present and counts the message of sequence `x`: its cursor is `x`
or precedes it, both reckoned from the oldest sequence. -/
def countsMessage (s : State) (i : StreamId) (x : Seq) (p : Port) : Bool :=
  match s.sub i p with
  | some u => (u.cursor - (s.stream i).oldestSeq).toNat ≤ (x - (s.stream i).oldestSeq).toNat
  | none => false

/-- The laws of stream `i`, its subscriptions and its messages, where `ds` is its committed list. -/
structure StreamLaw (s : State) (i : StreamId) (ds : List DescId) : Prop where
  /-- R19, R33: an UNDEFINED stream has the values of Table 2.1 and no present subscription. -/
  undefined_record : (s.stream i).settings = none → s.stream i = StreamRecord.undefined ∧ ∀ p : Port, s.sub i p = none
  /-- R23: the committed count. -/
  count : ds.length = (s.stream i).committedCount
  /-- R23: a descriptor appears in the list once. -/
  once : ds.Nodup
  /-- R23: the oldest descriptor. -/
  oldest_first : (s.stream i).oldest = ds.head?
  /-- R23: the newest descriptor. -/
  newest_last : (s.stream i).newest = ds.getLast?
  /-- R23, R24: the messages of the list are COMMITTED, numbered from the oldest sequence on and linked in list order. -/
  numbered : ∀ (k : Nat) (d : DescId), ds[k]? = some d → ∃ m : CommittedMessage, s.pool.desc d = .committed m ∧
    m.stream = i ∧ m.sequence = (s.stream i).oldestSeq + BitVec.ofNat 16 k ∧ m.next = ds[k + 1]?
  /-- R23: every COMMITTED message of the stream is in its list. -/
  all_listed : ∀ (d : DescId) (m : CommittedMessage), s.pool.desc d = .committed m → m.stream = i → d ∈ ds
  /-- R24: the next sequence less the oldest sequence. -/
  span : ((s.stream i).nextSeq - (s.stream i).oldestSeq).toNat = (s.stream i).committedCount
  /-- R46: the assembly is a STAGED message of the stream. -/
  assembly_staged : ∀ d : DescId, (s.stream i).assembly = some d → ∃ m : StagedMessage, s.pool.desc d = .staged m ∧ m.stream = i
  /-- R46: a STAGED message of the stream is its assembly. -/
  staged_assembly : ∀ (d : DescId) (m : StagedMessage), s.pool.desc d = .staged m → m.stream = i →
    (s.stream i).assembly = some d
  /-- R26: the held blocks are those of the assembly and of the committed list. -/
  held : (s.stream i).heldBlocks = assemblyBlocksOf s i + (ds.map (committedBlocksOf s.pool)).sum
  /-- R26: the held blocks never exceed the block limit. -/
  limit : ∀ x : Settings, (s.stream i).settings = some x → (s.stream i).heldBlocks ≤ x.blockLimit
  /-- R27: an assembly and a starved need exist only while there is a claim. -/
  claimed : (s.stream i).claim = .none → (s.stream i).assembly = none ∧ (s.stream i).starvedNeed = none
  /-- R46, R75: a starved need is 1 to 64 and is there only while there is no assembly. -/
  need : ∀ n : Nat, (s.stream i).starvedNeed = some n → (s.stream i).assembly = none ∧ 1 ≤ n ∧ n ≤ 64
  /-- R83: a present cursor stands at a held sequence or at the next sequence. -/
  cursors : ∀ (p : Port) (u : Subscription), s.sub i p = some u →
    (u.cursor - (s.stream i).oldestSeq).toNat ≤ (s.stream i).committedCount
  /-- R84: readers remaining is the number of present subscriptions that count the message. -/
  readers : ∀ (d : DescId) (m : CommittedMessage), s.pool.desc d = .committed m → m.stream = i →
    m.readers = (List.finRange 4).countP (countsMessage s i m.sequence)

/-- R19, R23 to R27, R46, R75, R83, R84: the laws of the Stream Table and of the Subscription Table; and outside operation every
stream is UNDEFINED (R19). -/
structure StreamsLawful (s : State) : Prop where
  each : ∀ i : StreamId, StreamLaw s i (s.messages i)
  outside : s.phase ≠ .operating → ∀ i : StreamId, (s.stream i).settings = none

/-- R37, R82, R127: the claims, the subscriptions and the counts of a port agree with its session. -/
structure SessionAgreement (s : State) : Prop where
  held_attached : ∀ (i : StreamId) (p : Port), (s.stream i).claim = .held p → (s.session p).state = .attached
  stale_away : ∀ (i : StreamId) (p : Port), (s.stream i).claim = .stale p → (s.session p).state ≠ .attached
  active_attached : ∀ (i : StreamId) (p : Port) (u : Subscription), s.sub i p = some u →
    (u.state = .active ↔ (s.session p).state = .attached)
  counts_clear : ∀ p : Port, (s.session p).state = .attached → (s.session p).claimsLost = 0 ∧ (s.session p).evicted = 0

/-- R115, R132: the timers hold the counts of Table 7.1, and run only where a period asks for them. -/
structure TimersInRange (x : Session) : Prop where
  leasePeriod_le : x.leasePeriod ≤ 255
  flushPeriod_le : x.flushPeriod ≤ 255
  lease_range : ∀ n, x.leaseTimer = .running n → 1 ≤ n ∧ n ≤ 2550
  flush_range : ∀ n, x.flushTimer = .running n → 1 ≤ n ∧ n ≤ 255
  lease_attached : x.leaseTimer ≠ .idle → x.state = .attached
  flush_attached : x.flushTimer ≠ .idle → x.state = .attached
  detached_defaults : x.state = .detached → x.leasePeriod = 0 ∧ x.flushPeriod = 0 ∧ x.mask = .default

/-- R147, R156, R157, R160: the Exchange Core and the links agree, no request waits while the core can be granted, and
outside operation no request is held. -/
structure LinkCoreAgree (s : State) : Prop where
  executing_core : ∀ p : Port, (s.link p).isExecuting = true → ∃ e, s.core = some e ∧ e.port = p
  discard_core : ∀ p : Port, (s.link p).discardMark = true → ∃ e, s.core = some e ∧ e.port = p
  core_link : ∀ e, s.core = some e →
    ((s.link e.port).isExecuting = true ↔ (s.link e.port).discardMark = false)
  granted_at_once : s.coreAvailable = true → ∀ p : Port, (s.link p).isWaiting = false
  quiet_outside : s.phase ≠ .operating → s.core = none ∧ ∀ p : Port, (s.link p).requestBuffer = none

/-! ### A request that is taken at once -/

/-- The part can take a request of port `p` at once: it operates, REFCLK runs, the core is free, no link is WAITING, port
`p`'s link is IDLE, and CSn and PRSTn of the port are high. -/
structure TakesAtOnce (s : State) (p : Port) : Prop where
  operating : s.phase = .operating
  clock : s.refclk = true
  core_free : s.core = none
  none_waiting : ∀ q : Port, (s.link q).isWaiting = false
  link_idle : (s.link p).state = .idle
  pins_high : s.pinsOf p = { csLow := false, prstAsserted := false }

/-- R152, R156: the request is accepted and granted: the link is EXECUTING with it, its last request id is the request's,
and the round-robin pointer stands past the port. -/
def granted (s : State) (p : Port) (r : Request) : State :=
  (s.setLink p { s.link p with state := .executing r, lastId := r.id }).setPointer (p + 1)

/-- R129, R132: the lease timer of the port reloaded. -/
def renewed (s : State) (p : Port) : State :=
  s.setSession p { s.session p with
    leaseTimer := if (s.session p).leasePeriod = 0 then .idle else .running (10 * (s.session p).leasePeriod) }

/-- R157: the core holds the reply that it will place in the port's slot. -/
def answered (s : State) (p : Port) (reply : Reply) : State := s.setCore (some { port := p, reply := reply })

/-- The part can take a request of port `p` at once and the port is ATTACHED, so that the session gate passes every
command (R128). -/
structure Attached (s : State) (p : Port) : Prop where
  atOnce : TakesAtOnce s p
  attached : (s.session p).state = .attached

/-- R129: the state in which a request of an ATTACHED port acts: granted, with the lease timer reloaded. -/
def taken (s : State) (p : Port) (r : Request) : State := renewed (granted s p r) p

/-- R128, R129: the state in which a request that passes the session gate acts. From a port that is not ATTACHED it renews
nothing. -/
def gated (s : State) (p : Port) (r : Request) : State :=
  if (s.session p).state = .attached then taken s p r else granted s p r

/-- R128: a command passes the gate of an ATTACHED port, and ATTACH and PORT_INFO pass every gate. -/
def PassesGate (s : State) (p : Port) (c : Command) : Prop :=
  (s.session p).state = .attached ∨ c = .attach ∨ c = .portInfo

/-- A refusal: a status with no result fields and no payload. -/
def refusal (x : Status) : Reply := { status := x, result := [], payload := [] }

/-- The state after a request of an ATTACHED port that a rule refuses: it has changed nothing but its link, the pointer, the
lease timer and the core. -/
def refused (s : State) (p : Port) (r : Request) (x : Status) : State := answered (taken s p r) p (refusal x)

/-- Everything outside the tables, the queues, the sessions and the model's draws is as a request taken at once leaves it:
the link EXECUTING, the pointer past the port, the core holding the reply; pins, Time Base, phase, REFCLK and queue of
commands as before. -/
structure TakenAtOnce (s t : State) (p : Port) (r : Request) (reply : Reply) : Prop where
  link_executing : t.link p = { s.link p with state := .executing r, lastId := r.id }
  links_kept : ∀ q : Port, q ≠ p → t.link q = s.link q
  pointer_past : t.pointer = p + 1
  core_holds : t.core = some { port := p, reply := reply }
  pins_kept : t.pins = s.pins
  time_kept : t.stamp = s.stamp ∧ t.tickCount = s.tickCount
  part_kept : t.phase = s.phase ∧ t.refclk = s.refclk
  pending_kept : t.pending = s.pending

/-- The parameter byte of a stream number. -/
def streamByte (i : StreamId) : Byte := BitVec.ofNat 8 i.val

/-- Parameter byte `k` as a number. -/
def paramAt (params : List Byte) (k : Nat) : Nat := (params.getD k 0).toNat

/-- Parameter bytes `k` and `k + 1` as a number. -/
def paramWord (params : List Byte) (k : Nat) : Nat := 256 * paramAt params k + paramAt params (k + 1)

/-- The cases in which the own rule of a command answers BAD_ARGUMENT (R14, R17, R21, R33, R36, R38, R42, R47, R48, R51,
R85, R91, R92, R95, R99, R103, R122, R135, R141, R145, R146, R165). -/
def BadArguments (c : Command) (params payload : List Byte) : Prop :=
  match c with
  | .attach => params.length ≠ 4 ∨ payload ≠ [] ∨ 1 < paramAt params 0 ∨ 3 < paramAt params 3
  | .detach | .ping | .portInfo | .poolInfo => params.length ≠ 0 ∨ payload ≠ []
  | .define => params.length ≠ 7 ∨ payload ≠ [] ∨ 63 < paramAt params 0 ∨ 1 < paramAt params 1 ∨
      paramWord params 2 < 1 ∨ 2048 < paramWord params 2 ∨ paramWord params 4 < 1 ∨ 4096 < paramWord params 4 ∨
      15 < paramAt params 6 ∨ paramWord params 2 < (paramWord params 4 + 63) / 64
  | .dissolve | .streamInfo | .unclaim | .commit | .abort | .leave =>
      params.length ≠ 1 ∨ payload ≠ [] ∨ 63 < paramAt params 0
  | .append => params.length ≠ 1 ∨ payload = [] ∨ 63 < paramAt params 0
  | .claim | .subInfo => params.length ≠ 2 ∨ payload ≠ [] ∨ 63 < paramAt params 0 ∨ 1 < paramAt params 1
  | .openMessage => params.length ≠ 6 ∨ payload ≠ [] ∨ 63 < paramAt params 0 ∨ paramWord params 1 < 1 ∨
      4096 < paramWord params 1 ∨ 1 < paramAt params 5
  | .join => params.length ≠ 5 ∨ payload ≠ [] ∨ 63 < paramAt params 0 ∨ 1 < paramAt params 1 ∨
      511 < paramWord params 2 ∨ paramAt params 4 < 1 ∨ 8 < paramAt params 4
  | .evict => params.length ≠ 2 ∨ payload ≠ [] ∨ 63 < paramAt params 0 ∨ 3 < paramAt params 1
  | .read => params.length ≠ 3 ∨ payload ≠ [] ∨ 63 < paramAt params 0 ∨ paramWord params 1 < 1 ∨ 256 < paramWord params 1
  | .release => params.length ≠ 3 ∨ payload ≠ [] ∨ 63 < paramAt params 0
  | .takeNotices => params.length ≠ 1 ∨ payload ≠ [] ∨ paramAt params 0 < 1 ∨ 8 < paramAt params 0
  | .scrub => params.length ≠ 1 ∨ payload ≠ [] ∨ paramAt params 0 < 1 ∨ 16 < paramAt params 0

/-- R64: `e` is the eligible count of stream `i` under its settings `x`. -/
def IsEligibleCount (s : State) (i : StreamId) (x : Settings) (e : Nat) : Prop :=
  match x.policy with
  | .shed => e = (s.stream i).committedCount
  | .hold => e ≤ (s.stream i).committedCount ∧
      (∀ (q : Port) (u : Subscription), s.sub i q = some u → u.state = .active →
        e ≤ (u.cursor - (s.stream i).oldestSeq).toNat) ∧
      (e = (s.stream i).committedCount ∨
        ∃ (q : Port) (u : Subscription), s.sub i q = some u ∧ u.state = .active ∧
          e = (u.cursor - (s.stream i).oldestSeq).toNat)

/-- R65: the block counts of the `k` oldest messages of stream `i`, added up. -/
def blocksOfOldest (s : State) (i : StreamId) (k : Nat) : Nat :=
  (((s.messages i).take k).map (fun d =>
    match s.pool.desc d with
    | .committed m => m.blockCount
    | _ => 0)).sum

/-- R65: the blocks whose failed flag is clear in the chains of the `k` oldest messages of stream `i`, added up. -/
def unfailedOfOldest (s : State) (i : StreamId) (k : Nat) : Nat :=
  (((s.messages i).take k).map (fun d =>
    match s.pool.desc d with
    | .committed m => (s.pool.chain m.firstBlock m.blockCount).countP (fun b => !(s.pool.block b).failed)
    | _ => 0)).sum

/-- R63, R66: removing the `k` oldest messages covers a need of `n` blocks and one descriptor. -/
def Covers (s : State) (i : StreamId) (x : Settings) (n k : Nat) : Prop :=
  n ≤ (x.blockLimit - (s.stream i).heldBlocks) + blocksOfOldest s i k ∧
    n ≤ s.pool.freeBlocks.length + unfailedOfOldest s i k ∧ 1 ≤ s.pool.freeDescriptors.length + k

/-- R25, R83: the subscription `u` to stream `i` has a message to read, and the message at its cursor is `m`, in descriptor
`d`, found by its position in the committed list. -/
structure AtCursor (s : State) (i : StreamId) (u : Subscription) (d : DescId) (m : CommittedMessage) : Prop where
  has_unread : (s.stream i).nextSeq ≠ u.cursor
  position_held : (u.cursor - (s.stream i).oldestSeq).toNat < (s.stream i).committedCount
  found : (s.messages i)[(u.cursor - (s.stream i).oldestSeq).toNat]? = some d
  committed : s.pool.desc d = .committed m

/-- R2: byte `k` of the message with this chain. -/
def messageByteOf (q : Pool) (chain : List BlockId) (k : Nat) : Byte :=
  match chain[k / 64]? with
  | some b => q.bytes.read (64 * b.val + k % 64)
  | none => 0

/-- R2: `n` bytes of the message with this chain, from offset `o` on. -/
def messageBytesOf (q : Pool) (chain : List BlockId) (o n : Nat) : List Byte :=
  (List.range n).map (fun j => messageByteOf q chain (o + j))

/-- R97, R167, Table 9.6: the READ header of message `m`. -/
def readHeaderOf (m : CommittedMessage) (damaged atEnd lost : Bool) (offset count : Nat) : List Byte :=
  bytes16 m.sequence ++ byte2 m.committedLength ++ bytes16 m.tag ++ bytes24 m.stamp ++
    byte1 ((if m.urgent then 1 else 0) + (if damaged then 2 else 0) + (if atEnd then 4 else 0) +
      (if lost then 8 else 0)) ++ byte2 offset ++ byte2 count

/-- R77: stream `i` is posted a ROOM notice by a re-evaluation on `s`, which is this record; the holder of its claim is `p`. -/
def roomNoticeOf (s : State) (p : Port) (i : StreamId) : Option Notice :=
  match (s.stream i).settings, (s.stream i).starvedNeed with
  | some x, some need =>
    if ((s.stream i).claim = .held p ∨ (s.stream i).claim = .stale p) ∧
        need ≤ x.blockLimit - (s.stream i).heldBlocks ∧ need ≤ s.pool.freeBlocks.length ∧
        1 ≤ s.pool.freeDescriptors.length then
      some { kind := .room, stream := i, sequence := (s.stream i).nextSeq,
             count := BitVec.ofNat 16 s.pool.freeBlocks.length, aux := BitVec.ofNat 16 need }
    else none
  | _, _ => none

/-- R163, Table 9.2: the code of a link state. -/
def linkStateCode (x : LinkState) : Nat :=
  match x with
  | .idle => 0
  | .waiting _ => 1
  | .executing _ => 2
  | .ready _ => 3

/-- R164, Table 9.3a: the bytes of a response that its CRC covers. -/
def responseBodyOf (id : Byte) (f : LinkFlags) (reply : Reply) : List Byte :=
  [id, reply.status.code] ++
    byte1 ((if f.truncated then 1 else 0) + (if f.badcheck then 2 else 0) + (if f.collided then 4 else 0) +
      (if f.superseded then 8 else 0)) ++
    byte1 reply.result.length ++ byte2 reply.payload.length ++ reply.result ++ reply.payload

/-- R153, R154: the link once a response with this id and reply is placed in its slot: the flags are copied into the
response and cleared, and the CRC is computed. -/
def linkWithResponse (l : Link) (id : Byte) (reply : Reply) : Link :=
  { l with
    state := .ready { id := id, flags := l.flags, reply := reply, crc := crc16 (responseBodyOf id l.flags reply) }
    flags := { truncated := false, badcheck := false, collided := false, superseded := false } }

/-- R122, R126: a notice of port `p` shows on its lines: its queue holds one, or its link is EXECUTING a TAKE_NOTICES (command
code 40) for which the core holds a reply with records. -/
def NoticeShows (s : State) (p : Port) : Prop :=
  (s.queue p).records ≠ [] ∨
    ∃ (r : Request) (e : Executing), (s.link p).state = .executing r ∧ r.code = some 0x40 ∧ s.core = some e ∧ e.port = p ∧
      e.reply.payload ≠ []

/-- The link of the port can take a transaction: RESETn and PRSTn of the port are released (R148). -/
def LinkAlive (s : State) (p : Port) : Prop := s.phase ≠ .inReset ∧ (s.pinsOf p).prstAsserted = false

/-- R151: the state once a transaction of port `p` that received these whole bytes has ended and collection is settled, the
bytes not yet judged. -/
def transactionEnded (s : State) (p : Port) (tr : Transaction) (received : List Byte) : State :=
  (s.setPins p { s.pinsOf p with csLow := false }).setLink p
    { s.link p with
      state := match (s.link p).state, tr.response with
        | .ready x, some r =>
          if 9 + r.reply.result.length + r.reply.payload.length ≤ received.length then .idle else .ready x
        | x, _ => x
      transaction := none
      receiveArea := received.take 288 }

/-- The claims and subscriptions of port `p` moved as a lapse and a port reset move them (R28, R105): `t` differs from `s` in
them alone, among streams and subscriptions. -/
def HoldingsLapsed (s t : State) (p : Port) : Prop :=
  (∀ i : StreamId,
    ((s.stream i).claim = .held p → t.stream i = { s.stream i with claim := .stale p }) ∧
    ((s.stream i).claim ≠ .held p → t.stream i = s.stream i)) ∧
  (∀ (i : StreamId) (q : Port),
    (q = p → t.sub i q = (s.sub i q).map (fun u => { u with state := .lapsed })) ∧
    (q ≠ p → t.sub i q = s.sub i q))

/-- The row of the opcode table that carries a command of Table 9.3. ATTACH has two rows; this is ATTACH FRESH. -/
def rowOf : Command → Port → Byte → List Byte → List Byte → Instr
  | .attach => .attachFresh
  | .detach => .detach
  | .ping => .ping
  | .portInfo => .portInfo
  | .define => .define
  | .dissolve => .dissolve
  | .streamInfo => .streamInfo
  | .claim => .claim
  | .unclaim => .unclaim
  | .openMessage => .openMessage
  | .append => .append
  | .commit => .commit
  | .abort => .abort
  | .join => .join
  | .leave => .leave
  | .evict => .evict
  | .read => .read
  | .release => .release
  | .subInfo => .subInfo
  | .takeNotices => .takeNotices
  | .poolInfo => .poolInfo
  | .scrub => .scrub

/-- The port and the request of a request row, with the command code of Table 9.3 and, for the two ATTACH rows, the mode byte of
the row in front of its parameters; none for the row of an event. -/
def rowRequest : Instr → Option (Port × Request)
  | .attachFresh p id params payload => some (p, { id := id, code := some 0x01, params := 0x00 :: params, payload := payload })
  | .attachResume p id params payload => some (p, { id := id, code := some 0x01, params := 0x01 :: params, payload := payload })
  | .detach p id params payload => some (p, { id := id, code := some 0x02, params := params, payload := payload })
  | .ping p id params payload => some (p, { id := id, code := some 0x03, params := params, payload := payload })
  | .portInfo p id params payload => some (p, { id := id, code := some 0x04, params := params, payload := payload })
  | .define p id params payload => some (p, { id := id, code := some 0x10, params := params, payload := payload })
  | .dissolve p id params payload => some (p, { id := id, code := some 0x11, params := params, payload := payload })
  | .streamInfo p id params payload => some (p, { id := id, code := some 0x12, params := params, payload := payload })
  | .claim p id params payload => some (p, { id := id, code := some 0x20, params := params, payload := payload })
  | .unclaim p id params payload => some (p, { id := id, code := some 0x21, params := params, payload := payload })
  | .openMessage p id params payload => some (p, { id := id, code := some 0x22, params := params, payload := payload })
  | .append p id params payload => some (p, { id := id, code := some 0x23, params := params, payload := payload })
  | .commit p id params payload => some (p, { id := id, code := some 0x24, params := params, payload := payload })
  | .abort p id params payload => some (p, { id := id, code := some 0x25, params := params, payload := payload })
  | .join p id params payload => some (p, { id := id, code := some 0x30, params := params, payload := payload })
  | .leave p id params payload => some (p, { id := id, code := some 0x31, params := params, payload := payload })
  | .evict p id params payload => some (p, { id := id, code := some 0x32, params := params, payload := payload })
  | .read p id params payload => some (p, { id := id, code := some 0x33, params := params, payload := payload })
  | .release p id params payload => some (p, { id := id, code := some 0x34, params := params, payload := payload })
  | .subInfo p id params payload => some (p, { id := id, code := some 0x35, params := params, payload := payload })
  | .takeNotices p id params payload => some (p, { id := id, code := some 0x40, params := params, payload := payload })
  | .poolInfo p id params payload => some (p, { id := id, code := some 0x50, params := params, payload := payload })
  | .scrub p id params payload => some (p, { id := id, code := some 0x51, params := params, payload := payload })
  | .badCommand p id code params payload => some (p, { id := id, code := code, params := params, payload := payload })
  | _ => none

/-- The request that the row of a command presents. -/
def requestOf (c : Command) (id : Byte) (params payload : List Byte) : Request :=
  { id := id, code := some c.code, params := if c = .attach then 0x00#8 :: params else params, payload := payload }

end Sys2Proof.Safety
end

