-- ==== Sys2Proof/WellFormed.lean ====
section
/-! DEFINITION. Which commands are well formed: what a request frame and a transaction can carry. -/

namespace Sys2Proof

/-- The codes of Table 9.3. -/
def tableCodes : List Byte :=
  [0x01, 0x02, 0x03, 0x04, 0x10, 0x11, 0x12, 0x20, 0x21, 0x22, 0x23, 0x24, 0x25, 0x30, 0x31, 0x32, 0x33, 0x34, 0x35,
   0x40, 0x50, 0x51]

/-- R161: a frame carries at most 16 parameter bytes and at most 256 payload bytes. -/
def frameFits (params payload : List Byte) : Bool :=
  params.length ≤ 16 && payload.length ≤ 256

/-- R128, R161: a command code that names no command. -/
def namesNoCommand (code : Option Byte) : Bool :=
  match code with
  | none => true
  | some c => !tableCodes.contains c

/-- A command the world outside can send: a request fits its frame (an ATTACH row adds the mode byte itself), a
BAD_COMMAND names no command, and an incomplete byte has fewer than eight bits (R148). -/
def Instr.wellFormed : Instr → Bool
  | .attachFresh _ _ params payload => frameFits (0#8 :: params) payload
  | .attachResume _ _ params payload => frameFits (1#8 :: params) payload
  | .detach _ _ params payload => frameFits params payload
  | .ping _ _ params payload => frameFits params payload
  | .portInfo _ _ params payload => frameFits params payload
  | .define _ _ params payload => frameFits params payload
  | .dissolve _ _ params payload => frameFits params payload
  | .streamInfo _ _ params payload => frameFits params payload
  | .claim _ _ params payload => frameFits params payload
  | .unclaim _ _ params payload => frameFits params payload
  | .openMessage _ _ params payload => frameFits params payload
  | .append _ _ params payload => frameFits params payload
  | .commit _ _ params payload => frameFits params payload
  | .abort _ _ params payload => frameFits params payload
  | .join _ _ params payload => frameFits params payload
  | .leave _ _ params payload => frameFits params payload
  | .evict _ _ params payload => frameFits params payload
  | .read _ _ params payload => frameFits params payload
  | .release _ _ params payload => frameFits params payload
  | .subInfo _ _ params payload => frameFits params payload
  | .takeNotices _ _ params payload => frameFits params payload
  | .poolInfo _ _ params payload => frameFits params payload
  | .scrub _ _ params payload => frameFits params payload
  | .badCommand _ _ code params payload => frameFits params payload && namesNoCommand code
  | .csFall _ => true
  | .csRise _ _ lastBits => lastBits.length < 8
  | .portReset _ => true
  | .resetAssert => true
  | .resetRelease => true
  | .initPassEnd => true
  | .tick => true
  | .leaseExpiry _ => true
  | .flushExpiry _ => true
  | .commandCompletion => true
  | .portResetRelease _ => true
  | .stampCounterRise => true
  | .refclkStop => true
  | .refclkReturn => true

end Sys2Proof
end

