-- ==== Sys2Proof/Certificates/Slice0/Obligations.lean ====
section
/-! DEFINITION. The statements about the SX-410 that are to be proved. In each, `s` is any state, `p` the port of the
command, and the request `r` is written out with its command code and parameter bytes of Table 9.3. -/

open Sys2Proof Sys2Proof.Machine Sys2Proof.Safety

/-! ### The machine -/

/-- A step takes the command at the front of the queue and runs it on the state with the queue's rest. With an empty queue
the part idles, which is the model's choice (log 6). -/
def Obligations.StepRunsFrontCommand : Prop :=
  (∀ (s : State) (c : Instr) (rest : List Instr), s.pending = c :: rest →
    step s = exec c { s with pending := rest }) ∧
  (∀ s : State, s.pending = [] → step s = .next s)

/-- Every command, in every state, answers a next state and leaves the queue of commands as it is: the part has no step that
stops it. -/
def Obligations.EveryCommandAnswersNext : Prop :=
  ∀ (c : Instr) (s : State), ∃ t : State, exec c s = .next t ∧ t.pending = s.pending

/-- The state right after the release of RESETn. That the pass is running, that the pins are high and that REFCLK runs are
the model's choices (log 7, log 8), and so are the empty receive area (log 20) and the pool's values before the pass has
written them (log 9). The
state has every invariant that the steps keep. -/
def Obligations.ResetValues : Prop :=
  let s := State.reset
  (s.phase = .initialising ∧ s.core = none ∧ s.pointer = 0 ∧ s.stamp = 0 ∧ s.tickCount = 0 ∧ s.refclk = true ∧
    s.pending = []) ∧
  (s.pool.freeBlocks = List.finRange 2048 ∧ s.pool.quarantine = [] ∧ s.pool.freeDescriptors = List.finRange 512 ∧
    (∀ a : Nat, s.pool.bytes.read a = 0) ∧
    (∀ b : BlockId, s.pool.block b =
      { state := .free, next := none, fill := 0, failed := false, scrubFailures := 0, owner := none,
        check := Config.storedCheck (List.replicate 64 0) }) ∧
    (∀ d : DescId, s.pool.desc d = .free)) ∧
  (∀ i : StreamId, s.stream i =
    { settings := none, claim := .none, assembly := none, oldest := none, newest := none, committedCount := 0,
      oldestSeq := 0, nextSeq := 0, heldBlocks := 0, starvedNeed := none, commitTotal := 0, shedTotal := 0 }) ∧
  (∀ (i : StreamId) (p : Port), s.sub i p = none) ∧
  (∀ p : Port, s.queue p = { records := [], dropped := 0 } ∧
    s.session p = { state := .detached, leasePeriod := 0, leaseTimer := .idle, flushPeriod := 0, flushTimer := .idle,
                    mask := { response := true, notice := false }, claimsLost := 0, evicted := 0 } ∧
    s.link p = { state := .idle, lastId := 0, transaction := none, discardMark := false, receiveArea := [],
                 flags := { truncated := false, badcheck := false, collided := false, superseded := false } } ∧
    s.pinsOf p = { csLow := false, prstAsserted := false } ∧ s.attnAsserted p = false) ∧
  (MemoryCanonical s ∧ QueueBounds s ∧ PoolAccounts s.pool ∧ ChainsOwned s.pool ∧ StreamsLawful s ∧ SessionAgreement s ∧
    (∀ p : Port, TimersInRange (s.session p)) ∧ LinkCoreAgree s)

/-! ### The session gate and the argument checks -/

/-- R128: the session gate, with the lease restart of R129. -/
def Obligations.SessionGate : Prop :=
  ∀ (s : State) (p : Port) (id : Byte) (params payload : List Byte), TakesAtOnce s p → payload.length ≤ 256 →
    (∀ code : Option Byte, namesNoCommand code = true → params.length ≤ 16 →
      let r : Request := { id := id, code := code, params := params, payload := payload }
      exec (.badCommand p id code params payload) s = .next (answered (gated s p r) p (refusal .badCommand))) ∧
    (∀ c : Command,
      let r := requestOf c id params payload
      r.params.length ≤ 16 →
      ((s.session p).state = .detached → c ≠ .attach → c ≠ .portInfo →
        exec (rowOf c p id params payload) s = .next (answered (granted s p r) p (refusal .notAttached))) ∧
      ((s.session p).state = .lapsed → c ≠ .attach → c ≠ .portInfo →
        exec (rowOf c p id params payload) s = .next (answered (granted s p r) p (refusal .lapsed))) ∧
      (PassesGate s p c →
        exec (rowOf c p id params payload) s =
          .next (answered (runCommand c p r (gated s p r)).1 p (runCommand c p r (gated s p r)).2))) ∧
    (params.length ≤ 15 →
      let r : Request := { id := id, code := some 0x01, params := 0x01 :: params, payload := payload }
      exec (.attachResume p id params payload) s =
        .next (answered (runCommand .attach p r (gated s p r)).1 p (runCommand .attach p r (gated s p r)).2))

/-- R165 and the argument checks of every command's own rule: with a bad argument the answer is BAD_ARGUMENT and nothing
changes beyond what taking the request does (SCRUB answers it with three counts of 0, R14); without one the answer is
another. -/
def Obligations.ArgumentChecks : Prop :=
  ∀ (s : State) (p : Port) (id : Byte) (params payload : List Byte), TakesAtOnce s p → payload.length ≤ 256 →
    (∀ c : Command,
      let r := requestOf c id params payload
      r.params.length ≤ 16 → PassesGate s p c →
      (BadArguments c r.params payload →
        exec (rowOf c p id params payload) s =
          .next (answered (gated s p r) p
            { status := .badArgument, result := if c = .scrub then [0, 0, 0] else [], payload := [] })) ∧
      (¬BadArguments c r.params payload →
        ∃ t e, exec (rowOf c p id params payload) s = .next t ∧ t.core = some e ∧ e.reply.status ≠ .badArgument)) ∧
    (params.length ≤ 15 →
      let r : Request := { id := id, code := some 0x01, params := 0x01 :: params, payload := payload }
      (BadArguments .attach r.params payload →
        exec (.attachResume p id params payload) s = .next (answered (gated s p r) p (refusal .badArgument))) ∧
      (¬BadArguments .attach r.params payload →
        ∃ t e, exec (.attachResume p id params payload) s = .next t ∧ t.core = some e ∧
          e.reply.status ≠ .badArgument))

/-! ### Session commands -/

/-- R138, R139, R141: ATTACH FRESH, from any session state, and DETACH: the teardown of R140, then the settings of the request
or the defaults. The result of DETACH counts what was held. -/
def Obligations.FreshAndDetach : Prop :=
  (∀ (s : State) (p : Port) (id lease flush mask : Byte), TakesAtOnce s p → mask.toNat < 4 →
     let r : Request := { id := id, code := some 0x01, params := [0x00, lease, flush, mask], payload := [] }
     exec (.attachFresh p id [lease, flush, mask] []) s =
       .next (answered
         (((gated s p r).teardown p).setSession p
           { state := .attached
             leasePeriod := lease.toNat
             leaseTimer := if lease.toNat = 0 then .idle else .running (10 * lease.toNat)
             flushPeriod := flush.toNat
             flushTimer := .idle
             mask := { response := mask.getLsbD 0, notice := mask.getLsbD 1 }
             claimsLost := 0
             evicted := 0 })
         p { status := .ok, result := byte1 (s.session p).state.code ++ [0, 0, 0, 0, 0, 0], payload := [] })) ∧
  (∀ (s : State) (p : Port) (id : Byte), Attached s p →
     let r : Request := { id := id, code := some 0x02, params := [], payload := [] }
     exec (.detach p id [] []) s =
       .next (answered
         (((taken s p r).teardown p).setSession p
           { state := .detached, leasePeriod := 0, leaseTimer := .idle, flushPeriod := 0, flushTimer := .idle,
             mask := { response := true, notice := false }, claimsLost := 0, evicted := 0 })
         p { status := .ok, result := byte1 (s.claimsOfPort p) ++ byte1 (s.subsOfPort p), payload := [] }))

/-- R136, R137, R139: ATTACH RESUME. From LAPSED or DETACHED every STALE claim and LAPSED subscription of the port comes back;
from ATTACHED only the settings change. In either case the counts are reported and cleared, and the flush timer runs when
the new flush period is not 0 and a subscription of the port is pending (R116). -/
def Obligations.AttachResumeRestoresHoldings : Prop :=
  ∀ (s : State) (p : Port) (id lease flush mask : Byte), TakesAtOnce s p → mask.toNat < 4 →
    let r : Request := { id := id, code := some 0x01, params := [0x01, lease, flush, mask], payload := [] }
    let away := (s.session p).state ≠ .attached
    ∃ t reply, exec (.attachResume p id [lease, flush, mask] []) s = .next t ∧ TakenAtOnce s t p r reply ∧
      t.pool = s.pool ∧ t.queues = s.queues ∧ t.draws = s.draws ∧
      (∀ i : StreamId,
        (away → (s.stream i).claim = .stale p → t.stream i = { s.stream i with claim := .held p }) ∧
        (¬away ∨ (s.stream i).claim ≠ .stale p → t.stream i = s.stream i)) ∧
      (∀ (i : StreamId) (q : Port),
        (away → q = p → t.sub i q = (s.sub i q).map (fun u => { u with state := .active })) ∧
        (¬away ∨ q ≠ p → t.sub i q = s.sub i q)) ∧
      (∀ q : Port, q ≠ p → t.session q = s.session q) ∧
      (∃ timer : Timer,
        t.session p =
          { state := .attached
            leasePeriod := lease.toNat
            leaseTimer := if lease.toNat = 0 then .idle else .running (10 * lease.toNat)
            flushPeriod := flush.toNat
            flushTimer := timer
            mask := { response := mask.getLsbD 0, notice := mask.getLsbD 1 }
            claimsLost := 0
            evicted := 0 } ∧
        (let pendingSub := ∃ (i : StreamId) (u : Subscription), t.sub i p = some u ∧ u.state = .active ∧
            0 < u.unannounced ∧ u.arrivalQueued = false
         (flush.toNat ≠ 0 ∧ pendingSub → timer = .running flush.toNat) ∧
         (¬(flush.toNat ≠ 0 ∧ pendingSub) → timer = .idle))) ∧
      reply =
        { status := .ok
          result := byte1 (s.session p).state.code ++ byte1 (s.session p).claimsLost ++ byte1 (s.session p).evicted ++
            byte1 (t.claimsOfPort p) ++ byte1 (t.subsOfPort p) ++ byte1 (s.queue p).records.length ++
            byte1 (s.queue p).dropped
          payload := [] }

/-- R140: the teardown of port `p`, step by step. In ascending stream number every claim of the port is released, its assembly
aborted, then every subscription of the port is removed and the retirement check of its stream run; the queue is emptied, the
counts are cleared, and the ROOM re-evaluation runs when storage was returned (log 21). After it no claim, no subscription, no notice and no count of the port is left; the sessions and
subscriptions of the other ports, the claims of the other ports and every stream's settings, numbering and totals of
commits and sheds stay. -/
def Obligations.TeardownEndsHoldings : Prop :=
  ∀ (s : State) (p : Port),
    let t := s.teardown p
    let endClaim := fun (w : State) (i : StreamId) =>
      if (w.stream i).claim = .held p ∨ (w.stream i).claim = .stale p then
        (w.abortAssembly i).setStream i { (w.abortAssembly i).stream i with starvedNeed := none, claim := .none }
      else w
    let endSub := fun (w : State) (i : StreamId) =>
      if w.sub i p ≠ none then (w.dropSub i p).retirementCheck i else w
    let released := (List.finRange 64).foldl endSub ((List.finRange 64).foldl endClaim s)
    t = State.reevaluateAfter s.pool
      ((released.setQueue p { records := [], dropped := 0 }).setSession p
        { s.session p with claimsLost := 0, evicted := 0 }) ∧
    (∀ i : StreamId, (t.stream i).claim ≠ .held p ∧ (t.stream i).claim ≠ .stale p ∧ t.sub i p = none) ∧
    t.queue p = { records := [], dropped := 0 } ∧
    t.session p = { s.session p with claimsLost := 0, evicted := 0 } ∧
    (∀ q : Port, q ≠ p → t.session q = s.session q ∧ ∀ i : StreamId, t.sub i q = s.sub i q) ∧
    (∀ i : StreamId,
      ((s.stream i).claim ≠ .held p → (s.stream i).claim ≠ .stale p →
        (t.stream i).claim = (s.stream i).claim ∧ (t.stream i).assembly = (s.stream i).assembly) ∧
      ((s.stream i).claim = .held p ∨ (s.stream i).claim = .stale p →
        (t.stream i).claim = .none ∧ (t.stream i).assembly = none ∧ (t.stream i).starvedNeed = none) ∧
      (t.stream i).settings = (s.stream i).settings ∧ (t.stream i).nextSeq = (s.stream i).nextSeq ∧
      (t.stream i).commitTotal = (s.stream i).commitTotal ∧ (t.stream i).shedTotal = (s.stream i).shedTotal) ∧
    (∀ a : Nat, t.pool.bytes.read a = s.pool.bytes.read a)

/-- R145: PING. -/
def Obligations.PingReportsStamp : Prop :=
  ∀ (s : State) (p : Port) (id : Byte) (params payload : List Byte), TakesAtOnce s p →
    params.length ≤ 16 → payload.length ≤ 256 →
    let r : Request := { id := id, code := some 0x03, params := params, payload := payload }
    ((s.session p).state = .detached →
      exec (.ping p id params payload) s = .next (answered (granted s p r) p (refusal .notAttached))) ∧
    ((s.session p).state = .lapsed →
      exec (.ping p id params payload) s = .next (answered (granted s p r) p (refusal .lapsed))) ∧
    ((s.session p).state = .attached → params ≠ [] ∨ payload ≠ [] →
      exec (.ping p id params payload) s = .next (refused s p r .badArgument)) ∧
    ((s.session p).state = .attached → params = [] → payload = [] →
      exec (.ping p id params payload) s =
        .next (answered (taken s p r) p
          { status := .ok
            result := [s.stamp.extractLsb' 16 8, s.stamp.extractLsb' 8 8, s.stamp.extractLsb' 0 8]
            payload := [] }))

/-- R146: PORT_INFO: the session as it stands once the lease of an ATTACHED port is reloaded. An expired timer
is reported as 0, which is the model's choice (log 4). -/
def Obligations.PortInfoReportsSession : Prop :=
  ∀ (s : State) (p : Port) (id : Byte), TakesAtOnce s p →
    let r : Request := { id := id, code := some 0x04, params := [], payload := [] }
    let x := (gated s p r).session p
    exec (.portInfo p id [] []) s =
      .next (answered (gated s p r) p
        { status := .ok
          result := byte1 x.state.code ++ byte1 x.leasePeriod ++
            byte2 (match x.leaseTimer with | .running n => n | _ => 0) ++ byte1 x.flushPeriod ++
            byte1 (match x.flushTimer with | .running n => n | _ => 0) ++
            byte1 ((if x.mask.response then 1 else 0) + (if x.mask.notice then 2 else 0)) ++
            byte1 x.claimsLost ++ byte1 x.evicted ++ byte1 (s.claimsOfPort p) ++ byte1 (s.subsOfPort p) ++
            byte1 (s.queue p).records.length ++ byte1 (s.queue p).dropped
          payload := [] })

/-! ### Stream commands -/

/-- R21, R22: DEFINE with arguments in range, on a DEFINED and on an UNDEFINED stream. -/
def Obligations.DefineMakesStream : Prop :=
  ∀ (s : State) (p : Port) (id : Byte) (i : StreamId) (policy l1 l0 m1 m0 depth : Byte), Attached s p →
    let params := [streamByte i, policy, l1, l0, m1, m0, depth]
    let limit := paramWord params 2
    let longest := paramWord params 4
    let r : Request := { id := id, code := some 0x10, params := params, payload := [] }
    policy.toNat ≤ 1 → 1 ≤ limit → limit ≤ 2048 → 1 ≤ longest → longest ≤ 4096 → depth.toNat ≤ 15 →
    (longest + 63) / 64 ≤ limit →
    ((s.stream i).settings ≠ none →
      exec (.define p id params []) s = .next (refused s p r .alreadyDefined)) ∧
    ((s.stream i).settings = none →
      exec (.define p id params []) s =
        .next (answered
          ((taken s p r).setStream i
            { settings := some { policy := if policy.toNat = 0 then .hold else .shed, blockLimit := limit,
                                 maxLength := longest, retainDepth := depth.toNat }
              claim := .none, assembly := none, oldest := none, newest := none, committedCount := 0, oldestSeq := 0,
              nextSeq := 0, heldBlocks := 0, starvedNeed := none, commitTotal := 0, shedTotal := 0 })
          p (refusal .ok)))

/-- R33, R34: DISSOLVE. The removals are those of R29, the re-evaluation that of R76. -/
def Obligations.DissolveEmptiesStream : Prop :=
  ∀ (s : State) (p : Port) (id : Byte) (i : StreamId), Attached s p →
    let r : Request := { id := id, code := some 0x11, params := [streamByte i], payload := [] }
    let inUse := (s.stream i).claim ≠ .none ∨ ∃ q : Port, s.sub i q ≠ none
    ((s.stream i).settings = none →
      exec (.dissolve p id [streamByte i] []) s = .next (refused s p r .noStream)) ∧
    ((s.stream i).settings ≠ none → inUse →
      exec (.dissolve p id [streamByte i] []) s = .next (refused s p r .inUse)) ∧
    ((s.stream i).settings ≠ none → ¬inUse →
      exec (.dissolve p id [streamByte i] []) s =
        .next (answered
          (State.reevaluateAfter s.pool
            ((State.removeMany i (s.stream i).committedCount (taken s p r)).setStream i
              { settings := none, claim := .none, assembly := none, oldest := none, newest := none,
                committedCount := 0, oldestSeq := 0, nextSeq := 0, heldBlocks := 0, starvedNeed := none,
                commitTotal := 0, shedTotal := 0 }))
          p (refusal .ok)))

/-- R36, Table 9.5: STREAM_INFO. -/
def Obligations.StreamInfoReportsStream : Prop :=
  ∀ (s : State) (p : Port) (id : Byte) (i : StreamId), Attached s p →
    let r : Request := { id := id, code := some 0x12, params := [streamByte i], payload := [] }
    let x := s.stream i
    let claimCode := match x.claim with
      | .none => 0
      | .held q => 4 + q.val
      | .stale q => 8 + q.val
    let subCode := fun (q : Port) => match s.sub i q with
      | none => 0
      | some u => if u.state = .active then 1 else 2
    (x.settings = none → exec (.streamInfo p id [streamByte i] []) s = .next (refused s p r .noStream)) ∧
    (∀ y : Settings, x.settings = some y →
      exec (.streamInfo p id [streamByte i] []) s =
        .next (answered (taken s p r) p
          { status := .ok
            result := byte1 (if y.policy = .hold then 0 else 1) ++ byte2 y.blockLimit ++ byte2 y.maxLength ++
              byte1 y.retainDepth ++ byte1 claimCode ++ byte1 (if x.assembly = none then 0 else 1) ++
              byte2 x.committedCount ++ bytes16 x.nextSeq ++ byte2 x.heldBlocks ++
              byte1 (x.starvedNeed.getD 0) ++ bytes32 x.commitTotal ++ bytes32 x.shedTotal ++
              byte1 (subCode 0 + 4 * subCode 1 + 16 * subCode 2 + 64 * subCode 3)
            payload := [] }))

/-! ### Writing commands -/

/-- R39, Table 3.2: CLAIM with arguments in range, but for the takeover. -/
def Obligations.ClaimTable : Prop :=
  ∀ (s : State) (p : Port) (id : Byte) (i : StreamId) (flag : Byte), Attached s p → flag.toNat ≤ 1 →
    let r : Request := { id := id, code := some 0x20, params := [streamByte i, flag], payload := [] }
    ((s.stream i).settings = none →
      exec (.claim p id [streamByte i, flag] []) s = .next (refused s p r .noStream)) ∧
    ((s.stream i).settings ≠ none →
      ((s.stream i).claim = .none →
        exec (.claim p id [streamByte i, flag] []) s =
          .next (answered ((taken s p r).setStream i { s.stream i with claim := .held p }) p (refusal .ok))) ∧
      ((s.stream i).claim = .held p →
        exec (.claim p id [streamByte i, flag] []) s = .next (answered (taken s p r) p (refusal .ok))) ∧
      (∀ q : Port, q ≠ p → (s.stream i).claim = .held q →
        exec (.claim p id [streamByte i, flag] []) s = .next (refused s p r .heldByOther)) ∧
      (∀ q : Port, q ≠ p → (s.stream i).claim = .stale q → flag.toNat = 0 →
        exec (.claim p id [streamByte i, flag] []) s = .next (refused s p r .staleByOther)))

/-- R40, R41: the takeover of a STALE claim: the assembly is aborted, the need cleared, the claim moved, the loss counted and
noticed, and the re-evaluation of R76 made. -/
def Obligations.TakeoverMovesClaim : Prop :=
  ∀ (s : State) (p q : Port) (id : Byte) (i : StreamId), Attached s p → q ≠ p →
    (s.stream i).settings ≠ none → (s.stream i).claim = .stale q →
    let r : Request := { id := id, code := some 0x20, params := [streamByte i, 0x01], payload := [] }
    let aborted := (taken s p r).abortAssembly i
    let moved := aborted.setStream i { aborted.stream i with starvedNeed := none, claim := .held p }
    let counted := moved.setSession q { s.session q with claimsLost := (s.session q).claimsLost + 1 }
    let noticed := counted.post q
      { kind := .claimLost, stream := i, sequence := (s.stream i).nextSeq,
        count := if (s.stream i).assembly = none then 0 else 1, aux := BitVec.ofNat 16 p.val }
    exec (.claim p id [streamByte i, 0x01] []) s =
      .next (answered (State.reevaluateAfter s.pool noticed) p (refusal .ok))

/-- R42, R43: UNCLAIM. -/
def Obligations.UnclaimReleasesClaim : Prop :=
  ∀ (s : State) (p : Port) (id : Byte) (i : StreamId), Attached s p →
    let r : Request := { id := id, code := some 0x21, params := [streamByte i], payload := [] }
    let aborted := (taken s p r).abortAssembly i
    ((s.stream i).settings = none →
      exec (.unclaim p id [streamByte i] []) s = .next (refused s p r .noStream)) ∧
    ((s.stream i).settings ≠ none → (s.stream i).claim ≠ .held p →
      exec (.unclaim p id [streamByte i] []) s = .next (refused s p r .notWriter)) ∧
    ((s.stream i).settings ≠ none → (s.stream i).claim = .held p →
      exec (.unclaim p id [streamByte i] []) s =
        .next (answered
          (State.reevaluateAfter s.pool
            (aborted.setStream i { aborted.stream i with starvedNeed := none, claim := .none }))
          p (refusal .ok)))

/-- R47, R48, R51, R53, R59: the refusals of OPEN, APPEND, COMMIT and ABORT after their arguments: an UNDEFINED stream, a claim
that the port does not hold, no assembly, an assembly without bytes, an assembly already open, a length above the stream's
greatest. -/
def Obligations.WriterRefusals : Prop :=
  (∀ (s : State) (p : Port) (id : Byte) (c : Command) (i : StreamId) (more payload : List Byte), Attached s p →
     c = .openMessage ∨ c = .append ∨ c = .commit ∨ c = .abort →
     more.length ≤ 15 → payload.length ≤ 256 → ¬BadArguments c (streamByte i :: more) payload →
     let r := requestOf c id (streamByte i :: more) payload
     ((s.stream i).settings = none →
       exec (rowOf c p id (streamByte i :: more) payload) s = .next (refused s p r .noStream)) ∧
     ((s.stream i).settings ≠ none → (s.stream i).claim ≠ .held p →
       exec (rowOf c p id (streamByte i :: more) payload) s = .next (refused s p r .notWriter))) ∧
  (∀ (s : State) (p : Port) (id : Byte) (i : StreamId), Attached s p →
     (s.stream i).settings ≠ none → (s.stream i).claim = .held p →
     let commitRequest : Request := { id := id, code := some 0x24, params := [streamByte i], payload := [] }
     let abortRequest : Request := { id := id, code := some 0x25, params := [streamByte i], payload := [] }
     ((s.stream i).assembly = none →
       exec (.commit p id [streamByte i] []) s = .next (refused s p commitRequest .noAssembly) ∧
       exec (.abort p id [streamByte i] []) s = .next (refused s p abortRequest .noAssembly) ∧
       (∀ data : List Byte, 1 ≤ data.length → data.length ≤ 256 →
         let r : Request := { id := id, code := some 0x23, params := [streamByte i], payload := data }
         exec (.append p id [streamByte i] data) s = .next (refused s p r .noAssembly))) ∧
     (∀ (d : DescId) (m : StagedMessage), (s.stream i).assembly = some d → s.pool.desc d = .staged m → m.fill = 0 →
       exec (.commit p id [streamByte i] []) s = .next (refused s p commitRequest .emptyAssembly))) ∧
  (∀ (s : State) (p : Port) (id : Byte) (i : StreamId) (l1 l0 t1 t0 urgent : Byte) (x : Settings), Attached s p →
     let params := [streamByte i, l1, l0, t1, t0, urgent]
     let r : Request := { id := id, code := some 0x22, params := params, payload := [] }
     1 ≤ paramWord params 1 → paramWord params 1 ≤ 4096 → urgent.toNat ≤ 1 →
     (s.stream i).settings = some x → (s.stream i).claim = .held p →
     ((s.stream i).assembly ≠ none → exec (.openMessage p id params []) s = .next (refused s p r .assemblyOpen)) ∧
     ((s.stream i).assembly = none → x.maxLength < paramWord params 1 →
       exec (.openMessage p id params []) s = .next (refused s p r .tooLong)))

/-- R8, R49, R68: an OPEN whose need is covered with no removal: one descriptor and the blocks from the fronts of the free
lists, chained in the order taken, become the assembly. -/
def Obligations.OpenReservesAssembly : Prop :=
  ∀ (s : State) (p : Port) (id : Byte) (i : StreamId) (l1 l0 t1 t0 urgent : Byte) (x : Settings), Attached s p →
    let params := [streamByte i, l1, l0, t1, t0, urgent]
    let r : Request := { id := id, code := some 0x22, params := params, payload := [] }
    let n := (paramWord params 1 + 63) / 64
    let reserved := s.pool.freeBlocks.take n
    1 ≤ paramWord params 1 → paramWord params 1 ≤ x.maxLength → x.maxLength ≤ 4096 → urgent.toNat ≤ 1 →
    (s.stream i).settings = some x → (s.stream i).claim = .held p → (s.stream i).assembly = none →
    Covers s i x n 0 → s.pool.freeBlocks.Nodup →
    ∃ (d : DescId) (rest : List DescId) (first : BlockId) (q : Pool),
      s.pool.freeDescriptors = d :: rest ∧ reserved.head? = some first ∧
      q.freeBlocks = s.pool.freeBlocks.drop n ∧ q.freeDescriptors = rest ∧ q.quarantine = s.pool.quarantine ∧
      q.bytes = s.pool.bytes ∧
      q.desc d = .staged { stream := i, declaredLength := paramWord params 1, fill := 0, firstBlock := first,
                           blockCount := n, tag := t1 ++ t0, urgent := urgent.toNat = 1, damaged := false } ∧
      (∀ e : DescId, e ≠ d → q.desc e = s.pool.desc e) ∧
      (∀ (k : Nat) (b : BlockId), reserved[k]? = some b →
        q.block b = { s.pool.block b with
          state := .staged, next := reserved[k + 1]?, fill := 0, failed := false, owner := some d }) ∧
      (∀ b : BlockId, b ∉ reserved → q.block b = s.pool.block b) ∧
      exec (.openMessage p id params []) s =
        .next (answered
          (((taken s p r).setPool q).setStream i
            { s.stream i with assembly := some d, heldBlocks := (s.stream i).heldBlocks + n, starvedNeed := none })
          p { status := .ok, result := byte1 n ++ [0, 0], payload := [] })

/-- R50, R64, R66, R67, R68: an OPEN whose need is covered only with removals: exactly the smallest sufficient number `k` of
oldest messages is removed one at a time (RoomRemovalForcesReaders), the LOSS notices are posted in ascending port order
(PostingRule), the retirement check is run (RetirementStopsRightly), the assembly is allocated and the re-evaluation of R77 is
made. An allocation takes one descriptor and the blocks from the fronts of the free lists, chained in the order taken. An OPEN that no number of removals covers is refused with FULL, POOL_EMPTY or NO_DESCRIPTOR and its need is
recorded. -/
def Obligations.RoomDecision : Prop :=
  (∀ (s : State) (p : Port) (id : Byte) (i : StreamId) (l1 l0 t1 t0 urgent : Byte) (x : Settings) (e k : Nat),
     Attached s p →
     let params := [streamByte i, l1, l0, t1, t0, urgent]
     let r : Request := { id := id, code := some 0x22, params := params, payload := [] }
     let n := (paramWord params 1 + 63) / 64
     1 ≤ paramWord params 1 → paramWord params 1 ≤ x.maxLength → x.maxLength ≤ 4096 → urgent.toNat ≤ 1 →
     (s.stream i).settings = some x → (s.stream i).claim = .held p → (s.stream i).assembly = none →
     IsEligibleCount s i x e → 1 ≤ k → k ≤ e → Covers s i x n k → (∀ j < k, ¬Covers s i x n j) →
     let base := taken s p r
     let removed := Nat.iterate (fun w : State => w.shedOldest i) k base
     let noticed := State.postLoss base i p (State.postLoss base i p (State.postLoss base i p
       (State.postLoss base i p removed 0) 1) 2) 3
     exec (.openMessage p id params []) s =
       .next (answered
         (((noticed.retirementCheck i).openAssembly
           { stream := i, length := paramWord params 1, tag := t1 ++ t0, urgent := urgent.toNat = 1 }).roomReevaluation)
         p { status := .ok, result := byte1 n ++ byte2 k, payload := [] })) ∧
  (∀ (s : State) (a : OpenArgs) (d : DescId) (rest : List DescId),
     let n := (a.length + 63) / 64
     let reserved := s.pool.freeBlocks.take n
     1 ≤ a.length → n ≤ s.pool.freeBlocks.length → s.pool.freeBlocks.Nodup → s.pool.freeDescriptors = d :: rest →
     ∃ (first : BlockId) (q : Pool),
       reserved.head? = some first ∧ q.freeBlocks = s.pool.freeBlocks.drop n ∧ q.freeDescriptors = rest ∧
       q.quarantine = s.pool.quarantine ∧ q.bytes = s.pool.bytes ∧
       q.desc d = .staged { stream := a.stream, declaredLength := a.length, fill := 0, firstBlock := first, blockCount := n,
                            tag := a.tag, urgent := a.urgent, damaged := false } ∧
       (∀ e : DescId, e ≠ d → q.desc e = s.pool.desc e) ∧
       (∀ (k : Nat) (b : BlockId), reserved[k]? = some b →
         q.block b = { s.pool.block b with
           state := .staged, next := reserved[k + 1]?, fill := 0, failed := false, owner := some d }) ∧
       (∀ b : BlockId, b ∉ reserved → q.block b = s.pool.block b) ∧
       s.openAssembly a = (s.setPool q).setStream a.stream
         { s.stream a.stream with
           assembly := some d, heldBlocks := (s.stream a.stream).heldBlocks + n, starvedNeed := none }) ∧
  (∀ (s : State) (p : Port) (id : Byte) (i : StreamId) (l1 l0 t1 t0 urgent : Byte) (x : Settings) (e : Nat),
     Attached s p →
     let params := [streamByte i, l1, l0, t1, t0, urgent]
     let r : Request := { id := id, code := some 0x22, params := params, payload := [] }
     let n := (paramWord params 1 + 63) / 64
     let headroom := (x.blockLimit - (s.stream i).heldBlocks) + blocksOfOldest s i e
     let free := s.pool.freeBlocks.length + unfailedOfOldest s i e
     1 ≤ paramWord params 1 → paramWord params 1 ≤ x.maxLength → x.maxLength ≤ 4096 → urgent.toNat ≤ 1 →
     (s.stream i).settings = some x → (s.stream i).claim = .held p → (s.stream i).assembly = none →
     IsEligibleCount s i x e → (∀ k ≤ e, ¬Covers s i x n k) →
     ∃ status : Status,
       (headroom < n → status = .full) ∧
       (n ≤ headroom → free < n → status = .poolEmpty) ∧
       (n ≤ headroom → n ≤ free → status = .noDescriptor) ∧
       exec (.openMessage p id params []) s =
         .next (answered ((taken s p r).setStream i { s.stream i with starvedNeed := some n }) p (refusal status)))

/-- R69, R70, R74: one removal made by the room decision: the shed total rises when a subscription still counts the message,
every subscription whose cursor is the message is forced past it, and the oldest message is removed. -/
def Obligations.RoomRemovalForcesReaders : Prop :=
  ∀ (s : State) (i : StreamId) (d : DescId) (m : CommittedMessage),
    (s.stream i).oldest = some d → s.pool.desc d = .committed m →
    let t := s.shedOldest i
    t.stream i =
      { s.stream i with
        oldest := m.next
        newest := if m.next = none then none else (s.stream i).newest
        committedCount := (s.stream i).committedCount - 1
        oldestSeq := (s.stream i).oldestSeq + 1
        heldBlocks := (s.stream i).heldBlocks - m.blockCount
        shedTotal := if 0 < m.readers then (s.stream i).shedTotal + 1 else (s.stream i).shedTotal } ∧
    (∀ j : StreamId, j ≠ i → t.stream j = s.stream j ∧ ∀ q : Port, t.sub j q = s.sub j q) ∧
    (∀ q : Port, s.sub i q = none → t.sub i q = none) ∧
    (∀ (q : Port) (u : Subscription), s.sub i q = some u → u.cursor ≠ m.sequence → t.sub i q = some u) ∧
    (∀ (q : Port) (u : Subscription), s.sub i q = some u → u.cursor = m.sequence →
      let left := ((s.stream i).nextSeq - (m.sequence + 1)).toNat
      t.sub i q = some { u with
        lossTotal := min 65535 (u.lossTotal + 1)
        lostSinceRead := true
        cursor := m.sequence + 1
        readOffset := 0
        damagedStop := false
        unannounced := min u.unannounced left
        lagArmed := u.lagArmed || (u.lagMark ≠ 0 && left ≤ u.lagMark / 2) }) ∧
    t.queues = s.queues ∧ t.sessions = s.sessions ∧ t.pool.desc d = .free ∧
    t.pool.freeDescriptors = s.pool.freeDescriptors ++ [d] ∧
    (∀ a : Nat, t.pool.bytes.read a = s.pool.bytes.read a)

/-- R9, R12, R51, R52: APPEND. Beyond the declared length it is refused whole. Otherwise the bytes go to the message offsets from
the fill on, each in the block of the chain that holds its offset; every other byte of the Block Pool stays, and so does
everything else but the fills and stored checks of the blocks that receive bytes: the fill counts the bytes received and the
check is that of the bytes as they stand. -/
def Obligations.AppendStoresPayload : Prop :=
  ∀ (s : State) (p : Port) (id : Byte) (i : StreamId) (data : List Byte) (d : DescId) (m : StagedMessage),
    Attached s p → 1 ≤ data.length → data.length ≤ 256 →
    (s.stream i).settings ≠ none → (s.stream i).claim = .held p → (s.stream i).assembly = some d →
    s.pool.desc d = .staged m →
    let r : Request := { id := id, code := some 0x23, params := [streamByte i], payload := data }
    let chain := s.pool.chain m.firstBlock m.blockCount
    let place := fun (o : Nat) => chain[o / 64]?.map (fun b => 64 * b.val + o % 64)
    (m.declaredLength < m.fill + data.length →
      exec (.append p id [streamByte i] data) s = .next (refused s p r .overlength)) ∧
    (m.fill + data.length ≤ m.declaredLength →
      ∃ q : Pool,
        exec (.append p id [streamByte i] data) s =
          .next (answered ((taken s p r).setPool q) p
            { status := .ok, result := byte2 (m.fill + data.length), payload := [] }) ∧
        q.desc d = .staged { m with fill := m.fill + data.length } ∧
        (∀ e : DescId, e ≠ d → q.desc e = s.pool.desc e) ∧
        q.freeBlocks = s.pool.freeBlocks ∧ q.quarantine = s.pool.quarantine ∧
        q.freeDescriptors = s.pool.freeDescriptors ∧
        (∀ b : BlockId, b ∉ chain → q.block b = s.pool.block b) ∧
        (∀ b : BlockId, q.block b = { s.pool.block b with fill := (q.block b).fill, check := (q.block b).check }) ∧
        (∀ a : Nat, (∀ j < data.length, place (m.fill + j) ≠ some a) → q.bytes.read a = s.pool.bytes.read a) ∧
        (MemoryCanonical s → chain.Nodup →
          ∀ (j a : Nat) (v : Byte), data[j]? = some v → place (m.fill + j) = some a → q.bytes.read a = v) ∧
        (ChainOf s.pool d .staged m.firstBlock m.blockCount → m.declaredLength ≤ 64 * m.blockCount →
          ∀ (k : Nat) (b : BlockId), chain[k]? = some b →
            let low := max m.fill (64 * k)
            let high := min (m.fill + data.length) (64 * k + 64)
            (q.block b).fill = (s.pool.block b).fill + (high - low) ∧
            (low < high → (q.block b).check = Config.storedCheck (q.blockBytes b)) ∧
            (high ≤ low → q.block b = s.pool.block b)))

/-- R53 to R56: COMMIT of an assembly with bytes: the message is committed (CommitMakesMessage), every port's subscription is
evaluated in ascending port order (ArrivalEvaluation), the retirement check of R30 is run and the re-evaluation of R76 is
made. -/
def Obligations.CommitCompletes : Prop :=
  ∀ (s : State) (p : Port) (id : Byte) (i : StreamId) (d : DescId) (m : StagedMessage), Attached s p →
    (s.stream i).settings ≠ none → (s.stream i).claim = .held p → (s.stream i).assembly = some d →
    s.pool.desc d = .staged m → m.fill ≠ 0 →
    let r : Request := { id := id, code := some 0x24, params := [streamByte i], payload := [] }
    let seq := (s.stream i).nextSeq
    let committed := (taken s p r).commitAssembly i d m
    let evaluated := State.evaluatePort i seq m.urgent (State.evaluatePort i seq m.urgent
      (State.evaluatePort i seq m.urgent (State.evaluatePort i seq m.urgent committed 0) 1) 2) 3
    exec (.commit p id [streamByte i] []) s =
      .next (answered (State.reevaluateAfter s.pool (evaluated.retirementCheck i)) p
        { status := .ok, result := bytes16 seq ++ byte2 m.fill ++ bytes24 s.stamp, payload := [] })

/-- R10, R23, R54, R55 and steps 1 to 3 of R56: what committing an assembly writes, and that it writes nothing
else. -/
def Obligations.CommitMakesMessage : Prop :=
  ∀ (s : State) (i : StreamId) (d : DescId) (m : StagedMessage),
    s.pool.desc d = .staged m → (s.stream i).newest ≠ some d →
    ChainOf s.pool d .staged m.firstBlock m.blockCount → 1 ≤ m.fill → m.fill ≤ 64 * m.blockCount →
    (∀ b ∈ s.pool.chain m.firstBlock m.blockCount, (s.pool.block b).failed = false) →
    let k := (m.fill + 63) / 64
    let chain := s.pool.chain m.firstBlock m.blockCount
    let t := s.commitAssembly i d m
    t.stream i =
      { s.stream i with
        assembly := none
        oldest := if (s.stream i).oldest = none then some d else (s.stream i).oldest
        newest := some d
        committedCount := (s.stream i).committedCount + 1
        nextSeq := (s.stream i).nextSeq + 1
        heldBlocks := (s.stream i).heldBlocks - (m.blockCount - k)
        commitTotal := (s.stream i).commitTotal + 1 } ∧
    (∀ j : StreamId, j ≠ i → t.stream j = s.stream j) ∧
    t.subs = s.subs ∧ t.queues = s.queues ∧ t.sessions = s.sessions ∧ t.pool.bytes = s.pool.bytes ∧
    t.pool.desc d = .committed
      { stream := m.stream, sequence := (s.stream i).nextSeq, declaredLength := m.declaredLength,
        committedLength := m.fill, firstBlock := m.firstBlock, blockCount := k, tag := m.tag, urgent := m.urgent,
        stamp := s.stamp, readers := s.presentCount i, damaged := m.damaged, next := none } ∧
    (∀ (e : DescId) (o : CommittedMessage), (s.stream i).newest = some e → s.pool.desc e = .committed o →
      t.pool.desc e = .committed { o with next := some d }) ∧
    (∀ e : DescId, e ≠ d → ((s.stream i).newest ≠ some e ∨ ∀ o, s.pool.desc e ≠ .committed o) →
      t.pool.desc e = s.pool.desc e) ∧
    (∀ b ∈ chain.take (k - 1), t.pool.block b = { s.pool.block b with state := .committed }) ∧
    (∀ b ∈ (chain.take k).getLast?, t.pool.block b = { s.pool.block b with state := .committed, next := none }) ∧
    (∀ b : BlockId, b ∉ chain → t.pool.block b = s.pool.block b) ∧
    (∀ b ∈ chain.drop k, t.pool.block b =
      { s.pool.block b with state := .free, next := none, fill := 0, owner := none }) ∧
    t.pool.freeBlocks = s.pool.freeBlocks ++ chain.drop k ∧ t.pool.quarantine = s.pool.quarantine ∧
    t.pool.freeDescriptors = s.pool.freeDescriptors

/-- R59: ABORT of the claim holder: the assembly's storage is released (StorageReleases), the held blocks fall by its block
count, and the re-evaluation of R76 is made. -/
def Obligations.AbortDiscardsAssembly : Prop :=
  ∀ (s : State) (p : Port) (id : Byte) (i : StreamId) (d : DescId) (m : StagedMessage), Attached s p →
    (s.stream i).settings ≠ none → (s.stream i).claim = .held p → (s.stream i).assembly = some d →
    s.pool.desc d = .staged m →
    let r : Request := { id := id, code := some 0x25, params := [streamByte i], payload := [] }
    exec (.abort p id [streamByte i] []) s =
      .next (answered
        (State.roomReevaluation
          (((taken s p r).setPool (s.pool.releaseMessage d)).setStream i
            { s.stream i with assembly := none, heldBlocks := (s.stream i).heldBlocks - m.blockCount }))
        p (refusal .ok))

/-! ### The operations that commands and events share -/

/-- R11, R29, R58: release of the storage of a message, and the two operations that make it. The unfailed blocks of the chain
go to the back of the free list and the failed ones to the back of the quarantine list, each in chain order, and the
descriptor to the back of its free list. Removal takes the oldest committed message of a stream; abort takes its assembly. -/
def Obligations.StorageReleases : Prop :=
  (∀ (q : Pool) (d : DescId) (x : BlockState) (first : BlockId) (count : Nat),
     ((∃ m, q.desc d = .staged m ∧ m.firstBlock = first ∧ m.blockCount = count ∧ x = .staged) ∨
       (∃ m, q.desc d = .committed m ∧ m.firstBlock = first ∧ m.blockCount = count ∧ x = .committed)) →
     ChainOf q d x first count →
     let chain := q.chain first count
     let t := q.releaseMessage d
     t.freeBlocks = q.freeBlocks ++ chain.filter (fun b => !(q.block b).failed) ∧
     t.quarantine = q.quarantine ++ chain.filter (fun b => (q.block b).failed) ∧
     t.freeDescriptors = q.freeDescriptors ++ [d] ∧ t.desc d = .free ∧
     (∀ e : DescId, e ≠ d → t.desc e = q.desc e) ∧
     (∀ b ∈ chain, t.block b = { q.block b with
       state := if (q.block b).failed then .quarantined else .free, next := none, fill := 0, owner := none }) ∧
     (∀ b : BlockId, b ∉ chain → t.block b = q.block b) ∧ t.bytes = q.bytes) ∧
  (∀ (s : State) (i : StreamId) (d : DescId) (m : CommittedMessage),
     (s.stream i).oldest = some d → s.pool.desc d = .committed m →
     s.removeOldest i =
       (s.setPool (s.pool.releaseMessage d)).setStream i
         { s.stream i with
           oldest := m.next
           newest := if m.next = none then none else (s.stream i).newest
           committedCount := (s.stream i).committedCount - 1
           oldestSeq := (s.stream i).oldestSeq + 1
           heldBlocks := (s.stream i).heldBlocks - m.blockCount }) ∧
  (∀ (s : State) (i : StreamId),
     ((s.stream i).assembly = none → s.abortAssembly i = s) ∧
     (∀ (d : DescId) (m : StagedMessage), (s.stream i).assembly = some d → s.pool.desc d = .staged m →
       s.abortAssembly i =
         (s.setPool (s.pool.releaseMessage d)).setStream i
           { s.stream i with assembly := none, heldBlocks := (s.stream i).heldBlocks - m.blockCount }))

/-- R30: the retirement check removes oldest messages, one at a time, exactly as long as the oldest has readers remaining 0
and the committed count exceeds the retain depth. -/
def Obligations.RetirementStopsRightly : Prop :=
  ∀ (s : State) (i : StreamId),
    let test := fun (w : State) => ∃ x d m, (w.stream i).settings = some x ∧ (w.stream i).oldest = some d ∧
      w.pool.desc d = .committed m ∧ m.readers = 0 ∧ x.retainDepth < (w.stream i).committedCount
    ¬test (s.retirementCheck i) ∧
    ∃ k : Nat, s.retirementCheck i = State.removeMany i k s ∧ ∀ j < k, test (State.removeMany i j s)

/-- R76, R77: ROOM re-evaluation. An event that has returned nothing to a free list runs none. Otherwise every stream with a
satisfiable need loses its need, and the holder of its claim is posted a ROOM notice, in ascending stream number; those that
find the queue full are dropped and counted. Nothing else changes. -/
def Obligations.RoomReevaluation : Prop :=
  ∀ (before : Pool) (s : State),
    let t := State.reevaluateAfter before s
    let returned := before.freeBlocks.length < s.pool.freeBlocks.length ∨
      before.freeDescriptors.length < s.pool.freeDescriptors.length
    (¬returned → t = s) ∧
    (returned →
      t = { s with streams := t.streams, queues := t.queues } ∧
      (∀ i : StreamId,
        ((∃ p, roomNoticeOf s p i ≠ none) → t.stream i = { s.stream i with starvedNeed := none }) ∧
        ((∀ p, roomNoticeOf s p i = none) → t.stream i = s.stream i)) ∧
      (∀ p : Port,
        let rooms := (List.finRange 64).filterMap (roomNoticeOf s p)
        let free := 32 - (s.queue p).records.length
        (t.queue p).records = (s.queue p).records ++ rooms.take free ∧
        (rooms.length ≤ free → (t.queue p).dropped = (s.queue p).dropped) ∧
        (free < rooms.length → (t.queue p).dropped = min 255 ((s.queue p).dropped + (rooms.length - free)))))

/-- R84 with Table 5.2, and R90, steps 1 to 3: lowering and raising readers remaining changes the listed messages by one for
each time they are listed, and nothing else. Removal of a subscription lowers it on every message from its cursor on, takes
its ARRIVAL, LAG and LOSS notices from the queue of its port and leaves the slot ABSENT. -/
def Obligations.SubscriptionRemoval : Prop :=
  (∀ (q : Pool) (ds : List DescId),
     (∀ (d : DescId) (m : CommittedMessage), q.desc d = .committed m →
       (q.lowerReaders ds).desc d = .committed { m with readers := m.readers - ds.count d } ∧
       (q.raiseReaders ds).desc d = .committed { m with readers := m.readers + ds.count d }) ∧
     (∀ d : DescId, (∀ m, q.desc d ≠ .committed m) →
       (q.lowerReaders ds).desc d = q.desc d ∧ (q.raiseReaders ds).desc d = q.desc d) ∧
     q.lowerReaders ds = { q with descriptors := (q.lowerReaders ds).descriptors } ∧
     q.raiseReaders ds = { q with descriptors := (q.raiseReaders ds).descriptors }) ∧
  (∀ (s : State) (i : StreamId) (p : Port) (u : Subscription), s.sub i p = some u →
     s.dropSub i p =
       ((s.setPool (s.pool.lowerReaders ((s.messages i).drop (u.cursor - (s.stream i).oldestSeq).toNat))).setQueue p
         { s.queue p with
           records := (s.queue p).records.filter (fun n =>
             !((n.kind = .arrival || n.kind = .lag || n.kind = .loss) && n.stream = i)) }).setSub i p none)

/-- R73, R111: posting a notice; and the LOSS notice of one port after the removals of an OPEN of port `opener`, where `s` is
the state before the removals and `t` the state after them. -/
def Obligations.PostingRule : Prop :=
  (∀ (s : State) (p : Port) (n : Notice),
     ((s.queue p).records.length < 32 →
       s.post p n = s.setQueue p { s.queue p with records := (s.queue p).records ++ [n] }) ∧
     (32 ≤ (s.queue p).records.length →
       s.post p n = s.setQueue p { s.queue p with dropped := min 255 ((s.queue p).dropped + 1) })) ∧
  (∀ (s t : State) (i : StreamId) (opener q : Port) (old u : Subscription),
     s.sub i q = some old → t.sub i q = some u →
     let notice : Notice := { kind := .loss, stream := i, sequence := old.cursor, count := u.cursor - old.cursor,
                              aux := BitVec.ofNat 16 opener.val }
     (u.cursor = old.cursor ∨ u.lossQueued = true → State.postLoss s i opener t q = t) ∧
     (u.cursor ≠ old.cursor → u.lossQueued = false → (t.queue q).records.length < 32 →
       State.postLoss s i opener t q =
         (t.setQueue q { t.queue q with records := (t.queue q).records ++ [notice] }).setSub i q
           (some { u with lossQueued := true })) ∧
     (u.cursor ≠ old.cursor → u.lossQueued = false → 32 ≤ (t.queue q).records.length →
       State.postLoss s i opener t q =
         t.setQueue q { t.queue q with dropped := min 255 ((t.queue q).dropped + 1) }))

/-- R114, R116, R119: the evaluation of one port's subscription at the commit of sequence `x`: unannounced, the ARRIVAL, the
LAG and the flush timer. -/
def Obligations.ArrivalEvaluation : Prop :=
  ∀ (s : State) (i : StreamId) (x : Seq) (urgent : Bool) (p : Port),
    let t := State.evaluatePort i x urgent s p
    (s.sub i p = none → t = s) ∧
    (∀ u : Subscription, s.sub i p = some u →
      let raised := min 512 (u.unannounced + 1)
      let unreadCount := ((s.stream i).nextSeq - u.cursor).toNat
      let arrival := u.arrivalQueued = false ∧ (u.arrivalBatch ≤ raised ∨ urgent = true)
      let lag := u.lagMark ≠ 0 ∧ u.lagArmed = true ∧ u.lagMark ≤ unreadCount
      let arrivalNotice : Notice :=
        { kind := .arrival, stream := i, sequence := x, count := BitVec.ofNat 16 raised, aux := if urgent then 1 else 0 }
      let lagNotice : Notice :=
        { kind := .lag, stream := i, sequence := x, count := BitVec.ofNat 16 unreadCount,
          aux := BitVec.ofNat 16 u.lagMark }
      let afterArrival := if arrival then s.post p arrivalNotice else s
      let afterLag := if lag then afterArrival.post p lagNotice else afterArrival
      let appended := arrival ∧ (s.queue p).records.length < 32
      let v : Subscription := { u with
        unannounced := if appended then 0 else raised
        arrivalQueued := if appended then true else u.arrivalQueued
        lagArmed := if lag then false else u.lagArmed }
      let starts := v.state = .active ∧ 0 < v.unannounced ∧ v.arrivalQueued = false ∧
        (s.session p).flushTimer = .idle ∧ (s.session p).flushPeriod ≠ 0
      (starts → t = (afterLag.setSub i p (some v)).setSession p
        { s.session p with flushTimer := .running (s.session p).flushPeriod }) ∧
      (¬starts → t = afterLag.setSub i p (some v)))

/-! ### Reading commands -/

/-- R85 to R88: JOIN with arguments in range. -/
def Obligations.JoinCreatesSubscription : Prop :=
  ∀ (s : State) (p : Port) (id : Byte) (i : StreamId) (start l1 l0 batch : Byte), Attached s p →
    let params := [streamByte i, start, l1, l0, batch]
    let r : Request := { id := id, code := some 0x30, params := params, payload := [] }
    let fresh := fun (cursor : Seq) =>
      ({ state := .active, cursor := cursor, readOffset := 0, damagedStop := false, lostSinceRead := false,
         lossTotal := 0, lossQueued := false, lagMark := paramWord params 2, lagArmed := true,
         arrivalBatch := batch.toNat, unannounced := 0, arrivalQueued := false } : Subscription)
    start.toNat ≤ 1 → paramWord params 2 ≤ 511 → 1 ≤ batch.toNat → batch.toNat ≤ 8 →
    ((s.stream i).settings = none → exec (.join p id params []) s = .next (refused s p r .noStream)) ∧
    ((s.stream i).settings ≠ none → s.sub i p ≠ none →
      exec (.join p id params []) s = .next (refused s p r .alreadySubscribed)) ∧
    ((s.stream i).settings ≠ none → s.sub i p = none → start.toNat = 1 →
      exec (.join p id params []) s =
        .next (answered ((taken s p r).setSub i p (some (fresh (s.stream i).nextSeq))) p
          { status := .ok, result := bytes16 (s.stream i).nextSeq ++ [0, 0], payload := [] })) ∧
    ((s.stream i).settings ≠ none → s.sub i p = none → start.toNat = 0 →
      exec (.join p id params []) s =
        .next (answered
          (((taken s p r).setPool (s.pool.raiseReaders (s.messages i))).setSub i p (some (fresh (s.stream i).oldestSeq)))
          p { status := .ok
              result := bytes16 (s.stream i).oldestSeq ++ bytes16 ((s.stream i).nextSeq - (s.stream i).oldestSeq)
              payload := [] }))

/-- R91, R92, R93: LEAVE, and EVICT of port `q`'s subscription: the removal of R90, for EVICT the count and the notice, the
retirement check of R30 and the re-evaluation of R76; the result is the unread count. -/
def Obligations.LeaveAndEvict : Prop :=
  (∀ (s : State) (p : Port) (id : Byte) (i : StreamId), Attached s p →
     let r : Request := { id := id, code := some 0x31, params := [streamByte i], payload := [] }
     ((s.stream i).settings = none → exec (.leave p id [streamByte i] []) s = .next (refused s p r .noStream)) ∧
     ((s.stream i).settings ≠ none → s.sub i p = none →
       exec (.leave p id [streamByte i] []) s = .next (refused s p r .notSubscribed)) ∧
     (∀ u : Subscription, (s.stream i).settings ≠ none → s.sub i p = some u →
       exec (.leave p id [streamByte i] []) s =
         .next (answered (State.reevaluateAfter s.pool (((taken s p r).dropSub i p).retirementCheck i)) p
           { status := .ok, result := bytes16 ((s.stream i).nextSeq - u.cursor), payload := [] }))) ∧
  (∀ (s : State) (p q : Port) (id : Byte) (i : StreamId), Attached s p →
     let params := [streamByte i, BitVec.ofNat 8 q.val]
     let r : Request := { id := id, code := some 0x32, params := params, payload := [] }
     ((s.stream i).settings = none → exec (.evict p id params []) s = .next (refused s p r .noStream)) ∧
     ((s.stream i).settings ≠ none → s.sub i q = none →
       exec (.evict p id params []) s = .next (refused s p r .notSubscribed)) ∧
     (∀ u : Subscription, (s.stream i).settings ≠ none → s.sub i q = some u → u.state = .active →
       exec (.evict p id params []) s = .next (refused s p r .notLapsed)) ∧
     (∀ u : Subscription, (s.stream i).settings ≠ none → s.sub i q = some u → u.state = .lapsed → q ≠ p →
       let dropped := (taken s p r).dropSub i q
       let counted := dropped.setSession q { s.session q with evicted := (s.session q).evicted + 1 }
       let noticed := counted.post q
         { kind := .evicted, stream := i, sequence := u.cursor, count := (s.stream i).nextSeq - u.cursor,
           aux := BitVec.ofNat 16 p.val }
       exec (.evict p id params []) s =
         .next (answered (State.reevaluateAfter s.pool (noticed.retirementCheck i)) p
           { status := .ok, result := bytes16 ((s.stream i).nextSeq - u.cursor), payload := [] })))

/-- R95, R96, R97: the READ that delivers no byte: of an absent subscription, with nothing to read, after a damaged stop, and
at the end of the message. -/
def Obligations.ReadWithoutPiece : Prop :=
  ∀ (s : State) (p : Port) (id : Byte) (i : StreamId) (m1 m0 : Byte), Attached s p →
    let params := [streamByte i, m1, m0]
    let r : Request := { id := id, code := some 0x33, params := params, payload := [] }
    1 ≤ paramWord params 1 → paramWord params 1 ≤ 256 →
    ((s.stream i).settings = none → exec (.read p id params []) s = .next (refused s p r .noStream)) ∧
    ((s.stream i).settings ≠ none → s.sub i p = none →
      exec (.read p id params []) s = .next (refused s p r .notSubscribed)) ∧
    (∀ u : Subscription, (s.stream i).settings ≠ none → s.sub i p = some u →
      let reported := (taken s p r).setSub i p (some { u with lostSinceRead := false })
      ((s.stream i).nextSeq = u.cursor →
        exec (.read p id params []) s =
          .next (answered reported p
            { status := .nothing, result := [if u.lostSinceRead then 8 else 0], payload := [] })) ∧
      (∀ (d : DescId) (m : CommittedMessage), AtCursor s i u d m →
        (u.damagedStop = true →
          exec (.read p id params []) s =
            .next (answered reported p
              { status := .damaged, result := readHeaderOf m true false u.lostSinceRead u.readOffset 0,
                payload := [] })) ∧
        (u.damagedStop = false → u.readOffset = m.committedLength →
          exec (.read p id params []) s =
            .next (answered reported p
              { status := .ok, result := readHeaderOf m m.damaged true u.lostSinceRead m.committedLength 0,
                payload := [] }))))

/-- R13, R96, R97, R98: the READ that delivers a piece. Either every block that the piece covers matches, and the whole piece
is delivered, or the first that does not, at position `k` of the chain, stops it there. A block whose failed flag is set or
whose bytes disagree with its stored check does not match; whether another block has met a fault of its cells is open (R12,
log 10). -/
def Obligations.ReadDeliversPiece : Prop :=
  ∀ (s : State) (p : Port) (id : Byte) (i : StreamId) (m1 m0 : Byte) (u : Subscription) (d : DescId)
    (m : CommittedMessage), Attached s p →
    let params := [streamByte i, m1, m0]
    let r : Request := { id := id, code := some 0x33, params := params, payload := [] }
    let o := u.readOffset
    let count := min (paramWord params 1) (m.committedLength - o)
    let chain := s.pool.chain m.firstBlock m.blockCount
    let covered := fun (k : Nat) (b : BlockId) => chain[k]? = some b ∧ o / 64 ≤ k ∧ k ≤ (o + count - 1) / 64
    let sound := fun (b : BlockId) => (s.pool.block b).failed = false ∧
      (s.pool.block b).check = Config.storedCheck (s.pool.blockBytes b)
    1 ≤ paramWord params 1 → paramWord params 1 ≤ 256 → (s.stream i).settings ≠ none → s.sub i p = some u →
    AtCursor s i u d m → u.damagedStop = false → o < m.committedLength →
    ∃ t reply, exec (.read p id params []) s = .next t ∧ TakenAtOnce s t p r reply ∧
      t.streams = s.streams ∧ t.queues = s.queues ∧ t.sessions = (taken s p r).sessions ∧
      (∀ (j : StreamId) (q : Port), j ≠ i ∨ q ≠ p → t.sub j q = s.sub j q) ∧
      (((∀ k b, covered k b → sound b) ∧ t.pool = s.pool ∧
          t.sub i p = some { u with lostSinceRead := false, readOffset := o + count } ∧
          reply = { status := .ok
                    result := readHeaderOf m m.damaged (o + count = m.committedLength) u.lostSinceRead o count
                    payload := messageBytesOf s.pool chain o count }) ∨
        (∃ k b, covered k b ∧ (∀ j c, covered j c → j < k → sound c) ∧
          t.pool = (s.pool.setBlock b { s.pool.block b with failed := true }).setDesc d
            (.committed { m with damaged := true }) ∧
          t.sub i p = some { u with lostSinceRead := false, readOffset := max o (64 * k), damagedStop := true } ∧
          reply = { status := .damaged
                    result := readHeaderOf m true false u.lostSinceRead o (64 * k - o)
                    payload := messageBytesOf s.pool chain o (64 * k - o) }))

/-- R99, R100, R120: RELEASE. -/
def Obligations.ReleaseAdvancesCursor : Prop :=
  ∀ (s : State) (p : Port) (id : Byte) (i : StreamId) (s1 s0 : Byte), Attached s p →
    let params := [streamByte i, s1, s0]
    let r : Request := { id := id, code := some 0x34, params := params, payload := [] }
    let next := (s.stream i).nextSeq
    ((s.stream i).settings = none → exec (.release p id params []) s = .next (refused s p r .noStream)) ∧
    ((s.stream i).settings ≠ none → s.sub i p = none →
      exec (.release p id params []) s = .next (refused s p r .notSubscribed)) ∧
    (∀ u : Subscription, (s.stream i).settings ≠ none → s.sub i p = some u →
      (s1 ++ s0 ≠ u.cursor →
        exec (.release p id params []) s =
          .next (answered (taken s p r) p
            { status := .gone, result := bytes16 u.cursor ++ bytes16 (next - u.cursor), payload := [] })) ∧
      (s1 ++ s0 = u.cursor → next = u.cursor →
        exec (.release p id params []) s =
          .next (answered (taken s p r) p
            { status := .nothing, result := bytes16 u.cursor ++ [0, 0], payload := [] })) ∧
      (∀ (d : DescId) (m : CommittedMessage), s1 ++ s0 = u.cursor → AtCursor s i u d m →
        let left := next - (u.cursor + 1)
        let advanced : Subscription := { u with
          cursor := u.cursor + 1
          readOffset := 0
          damagedStop := false
          unannounced := if left = 0 then 0 else u.unannounced
          lagArmed := u.lagArmed || (u.lagMark ≠ 0 && left.toNat ≤ u.lagMark / 2) }
        let lowered := s.pool.setDesc d (.committed { m with readers := m.readers - 1 })
        exec (.release p id params []) s =
          .next (answered
            (State.reevaluateAfter s.pool
              ((((taken s p r).setPool lowered).setSub i p (some advanced)).retirementCheck i))
            p { status := .ok, result := bytes16 (u.cursor + 1) ++ bytes16 left, payload := [] })))

/-- R103, R104: SUB_INFO, with the clear-loss flag clear (0) and set (1). -/
def Obligations.SubInfoReportsSubscription : Prop :=
  ∀ (s : State) (p : Port) (id : Byte) (i : StreamId) (flag : Byte), Attached s p → flag.toNat ≤ 1 →
    let params := [streamByte i, flag]
    let r : Request := { id := id, code := some 0x35, params := params, payload := [] }
    ((s.stream i).settings = none → exec (.subInfo p id params []) s = .next (refused s p r .noStream)) ∧
    ((s.stream i).settings ≠ none → s.sub i p = none →
      exec (.subInfo p id params []) s = .next (refused s p r .notSubscribed)) ∧
    (∀ u : Subscription, (s.stream i).settings ≠ none → s.sub i p = some u →
      let cleared := if flag.toNat = 1 then (taken s p r).setSub i p (some { u with lossTotal := 0 }) else taken s p r
      exec (.subInfo p id params []) s =
        .next (answered cleared p
          { status := .ok
            result := byte1 (if u.state = .active then 1 else 2) ++ bytes16 u.cursor ++
              bytes16 ((s.stream i).nextSeq - u.cursor) ++ byte2 u.readOffset ++
              byte1 ((if u.damagedStop then 1 else 0) + (if u.lostSinceRead then 2 else 0) +
                (if u.lossQueued then 4 else 0) + (if u.lagArmed then 8 else 0) + (if u.arrivalQueued then 16 else 0)) ++
              byte2 u.lossTotal ++ byte2 u.lagMark ++ byte1 u.arrivalBatch ++ byte2 u.unannounced
            payload := [] }))

/-! ### Notice and pool commands -/

/-- R122, R123, R168: TAKE_NOTICES: the oldest records leave the queue, the dropped-notice count is reported and cleared, the
taken records are processed oldest first and returned, eight bytes each. The flush timer starts when it is IDLE, its period
is not 0 and the subscription of a taken ARRIVAL is left pending (R116). The second part says how one record is processed. -/
def Obligations.TakeNoticesEmptiesQueue : Prop :=
  (∀ (s : State) (p : Port) (id k : Byte), Attached s p → 1 ≤ k.toNat → k.toNat ≤ 8 →
     let r : Request := { id := id, code := some 0x40, params := [k], payload := [] }
     let oldest := (s.queue p).records.take k.toNat
     let removed := (taken s p r).setQueue p { records := (s.queue p).records.drop k.toNat, dropped := 0 }
     let processed := oldest.foldl (State.processNotice p) removed
     let leftPending := ∃ n ∈ oldest, n.kind = .arrival ∧ ∃ u : Subscription, processed.sub n.stream p = some u ∧
       u.state = .active ∧ 0 < u.unannounced ∧ u.arrivalQueued = false
     let starts := leftPending ∧ (s.session p).flushTimer = .idle ∧ (s.session p).flushPeriod ≠ 0
     let recordBytes := fun (n : Notice) =>
       byte1 (match n.kind with
         | .arrival => 1
         | .lag => 2
         | .loss => 3
         | .room => 4
         | .claimLost => 5
         | .evicted => 6) ++ [streamByte n.stream] ++ bytes16 n.sequence ++ bytes16 n.count ++ bytes16 n.aux
     ∃ t, exec (.takeNotices p id [k] []) s =
         .next (answered t p
           { status := .ok
             result := byte1 oldest.length ++ byte1 (s.queue p).dropped ++ byte1 (processed.queue p).records.length
             payload := oldest.flatMap recordBytes }) ∧
       (starts → t = processed.setSession p
         { (taken s p r).session p with flushTimer := .running (s.session p).flushPeriod }) ∧
       (¬starts → t = processed)) ∧
  (∀ (s : State) (p : Port) (n : Notice),
     let t := State.processNotice p s n
     (s.sub n.stream p = none ∨ n.kind = .lag ∨ n.kind = .room ∨ n.kind = .claimLost ∨ n.kind = .evicted → t = s) ∧
     (∀ u : Subscription, s.sub n.stream p = some u →
       (n.kind = .loss → t = s.setSub n.stream p (some { u with lossQueued := false })) ∧
       (n.kind = .arrival → u.unannounced < u.arrivalBatch →
         t = s.setSub n.stream p (some { u with arrivalQueued := false })) ∧
       (n.kind = .arrival → u.arrivalBatch ≤ u.unannounced → (s.queue p).records.length < 32 →
         t = (s.setQueue p { s.queue p with
               records := (s.queue p).records ++
                 [{ kind := .arrival, stream := n.stream, sequence := (s.stream n.stream).nextSeq - 1,
                    count := BitVec.ofNat 16 u.unannounced, aux := 3 }] }).setSub n.stream p
               (some { u with unannounced := 0, arrivalQueued := true }))))

/-- R17, Table 9.5: POOL_INFO. -/
def Obligations.PoolInfoCounts : Prop :=
  ∀ (s : State) (p : Port) (id : Byte), Attached s p →
    let r : Request := { id := id, code := some 0x50, params := [], payload := [] }
    let blocks := fun (x : BlockState) => s.pool.blocks.toList.countP (fun b => b.state = x)
    exec (.poolInfo p id [] []) s =
      .next (answered (taken s p r) p
        { status := .ok
          result := byte2 s.pool.freeBlocks.length ++ byte2 (blocks .staged) ++ byte2 (blocks .committed) ++
            byte2 s.pool.quarantine.length ++ byte2 (blocks .retired) ++ byte2 s.pool.freeDescriptors.length ++
            byte2 (s.pool.descriptors.toList.countP (fun d => match d with | .staged _ => true | _ => false)) ++
            byte2 (s.pool.descriptors.toList.countP (fun d => match d with | .committed _ => true | _ => false))
          payload := [] })

/-- R14, R15, R16: SCRUB. The batch is the front of the quarantine list; which of its blocks pass is open (R15, log 11). A
block that passes is zeroed and goes to the back of the free list; one that fails for the fourth time is RETIRED; any other
goes to the back of the quarantine list. -/
def Obligations.ScrubTestsBatch : Prop :=
  ∀ (s : State) (p : Port) (id n : Byte), Attached s p → 1 ≤ n.toNat → n.toNat ≤ 16 →
    let r : Request := { id := id, code := some 0x51, params := [n], payload := [] }
    let batch := s.pool.quarantine.take n.toNat
    (s.pool.quarantine = [] →
      exec (.scrub p id [n] []) s =
        .next (answered (taken s p r) p { status := .quarantineEmpty, result := [0, 0, 0], payload := [] })) ∧
    (s.pool.quarantine ≠ [] → s.pool.quarantine.Nodup →
      ∃ (passes : BlockId → Bool) (t : State) (q : Pool),
        let retires := fun (b : BlockId) => !passes b && (s.pool.block b).scrubFailures == 3
        let stays := fun (b : BlockId) => !passes b && !((s.pool.block b).scrubFailures == 3)
        exec (.scrub p id [n] []) s =
          .next (answered t p
            { status := .ok
              result := byte1 (batch.countP passes) ++ byte1 (batch.countP stays) ++ byte1 (batch.countP retires)
              payload := [] }) ∧
        t.pool = q ∧
        t = { State.reevaluateAfter s.pool ((taken s p r).setPool q) with draws := t.draws } ∧
        q.freeBlocks = s.pool.freeBlocks ++ batch.filter passes ∧
        q.quarantine = s.pool.quarantine.drop n.toNat ++ batch.filter stays ∧
        q.descriptors = s.pool.descriptors ∧ q.freeDescriptors = s.pool.freeDescriptors ∧
        (∀ b : BlockId, b ∉ batch → q.block b = s.pool.block b) ∧
        (∀ b ∈ batch,
          (passes b = true → q.block b =
            { state := .free, next := none, fill := 0, failed := false, scrubFailures := 0, owner := none,
              check := Config.storedCheck (q.blockBytes b) }) ∧
          (retires b = true → q.block b = { s.pool.block b with state := .retired, scrubFailures := 4 }) ∧
          (stays b = true → q.block b =
            { s.pool.block b with scrubFailures := (s.pool.block b).scrubFailures + 1 })) ∧
        (MemoryCanonical s → ∀ b ∈ batch, passes b = true → ∀ o < 64, q.bytes.read (64 * b.val + o) = 0) ∧
        (∀ a : Nat, (∀ b ∈ batch, ∀ o < 64, a ≠ 64 * b.val + o) → q.bytes.read a = s.pool.bytes.read a))

/-! ### The link -/

/-- R148, R149, R163, Table 9.2: a fall of CSn. The transaction sends the link byte, with the response of a READY link. A
link held in reset ignores the fall; CSn that is low has none (log 3). That records taken by a TAKE_NOTICES show until its
response is placed is the model's inference (log 2), and that the receive area is emptied by the fall is its choice
(log 20). -/
def Obligations.FallDecidesTransaction : Prop :=
  ∀ (s : State) (p : Port),
    ((s.pinsOf p).csLow = true → exec (.csFall p) s = .next s) ∧
    ((s.pinsOf p).csLow = false → ¬LinkAlive s p →
      exec (.csFall p) s = .next (s.setPins p { s.pinsOf p with csLow := true })) ∧
    ((s.pinsOf p).csLow = false → LinkAlive s p →
      let begun := fun (notice : Nat) =>
        (s.setPins p { s.pinsOf p with csLow := true }).setLink p
          { s.link p with
            transaction := some
              { linkByte := BitVec.ofNat 8 (0xA0 + notice + linkStateCode (s.link p).state)
                response := match (s.link p).state with
                  | .ready x => some x
                  | _ => none }
            receiveArea := [] }
      (NoticeShows s p → exec (.csFall p) s = .next (begun 4)) ∧
      (¬NoticeShows s p → exec (.csFall p) s = .next (begun 0)))

/-- R149, R150, R161, R164, Tables 9.1 and 9.3a: what a transaction sends, byte by byte, and how many whole bytes collect its
response; and the request frame that FrameCarriesCommand sends, field by field. -/
def Obligations.FrameLayouts : Prop :=
  (∀ tr : Transaction,
     tr.misoByte 0 = tr.linkByte ∧
     (tr.response = none → (∀ k : Nat, tr.misoByte (k + 1) = 0xFF) ∧ ∀ n : Nat, tr.collected n = false) ∧
     (∀ x : Response, tr.response = some x →
       let sent := responseBodyOf x.id x.flags x.reply ++ [x.crc.extractLsb' 8 8, x.crc.extractLsb' 0 8]
       sent.length = 8 + x.reply.result.length + x.reply.payload.length ∧
       (∀ (k : Nat) (b : Byte), sent[k]? = some b → tr.misoByte (k + 1) = b) ∧
       (∀ k : Nat, sent.length ≤ k → tr.misoByte (k + 1) = 0xFF) ∧
       (∀ n : Nat, tr.collected n = true ↔ 1 + sent.length ≤ n))) ∧
  (∀ (id code : Byte) (params payload : List Byte), params.length ≤ 16 → payload.length ≤ 256 →
     let frame := requestFrame id code params payload
     let pl := params.length
     let dl := payload.length
     let crc := crc16 ((frame.drop 1).take (11 + pl + dl))
     frame.length = 16 + pl + dl ∧
     frame.take 8 = [0x5A, id, code, ~~~code] ++ byte2 pl ++ (byte2 pl).map (fun b => ~~~b) ∧
     (frame.drop 8).take pl = params ∧
     (frame.drop (8 + pl)).take 4 = byte2 dl ++ (byte2 dl).map (fun b => ~~~b) ∧
     (frame.drop (12 + pl)).take dl = payload ∧
     frame.drop (12 + pl + dl) = bytes16 crc ++ bytes16 (~~~crc))

/-- R148, R151: a rise of CSn, test by test. Collection is settled first; the first test that holds then decides. A rise that
ends no transaction is not examined. -/
def Obligations.RiseJudgesFrame : Prop :=
  ∀ (s : State) (p : Port) (received : List Byte) (lastBits : List Bool),
    ((s.pinsOf p).csLow = false → exec (.csRise p received lastBits) s = .next s) ∧
    ((s.pinsOf p).csLow = true → (s.link p).transaction = none →
      exec (.csRise p received lastBits) s = .next (s.setPins p { s.pinsOf p with csLow := false })) ∧
    (∀ tr : Transaction, (s.pinsOf p).csLow = true → (s.link p).transaction = some tr →
      let ended := transactionEnded s p tr received
      let l := ended.link p
      let n := received.length
      let paramLength := guardedLength received 4
      let payloadLength := guardedLength received (8 + paramLength)
      let declared := 16 + paramLength + payloadLength
      let crcField := byteOf received (declared - 4) ++ byteOf received (declared - 3)
      let crcComplement := byteOf received (declared - 2) ++ byteOf received (declared - 1)
      exec (.csRise p received lastBits) s =
        if received = [] ∨ byteOf received 0 ≠ 0x5A then .next ended
        else if n < 8 ∨ (paramLength ≤ 16 ∧ n < 12 + paramLength) then
          .next (ended.setLink p { l with flags := { l.flags with truncated := true } })
        else if 16 < paramLength ∨ 256 < payloadLength then
          .next (ended.setLink p { l with flags := { l.flags with badcheck := true } })
        else if n < declared then
          .next (ended.setLink p { l with flags := { l.flags with truncated := true } })
        else if (∃ b ∈ received.drop declared, b ≠ 0xFF) ∨
            crcField ≠ crc16 ((received.take (declared - 4)).drop 1) ∨ crcComplement ≠ ~~~crcField then
          .next (ended.setLink p { l with flags := { l.flags with badcheck := true } })
        else
          .next (ended.goodFrame p
            { id := byteOf received 1
              code := if byteOf received 3 = ~~~(byteOf received 2) then some (byteOf received 2) else none
              params := (received.drop 8).take paramLength
              payload := (received.drop (12 + paramLength)).take payloadLength }))

/-- R151, R152, R161, R162: sending a command's frame, with any number of filler bytes after it, and raising CSn does what
the command's own row does, on the state in which the transaction has ended and collection is settled. -/
def Obligations.FrameCarriesCommand : Prop :=
  ∀ (s : State) (p : Port) (tr : Transaction) (id : Byte) (params payload : List Byte) (fillers : Nat)
    (lastBits : List Bool),
    LinkAlive s p → (s.pinsOf p).csLow = true → (s.link p).transaction = some tr → payload.length ≤ 256 →
    (∀ c : Command,
      let r := requestOf c id params payload
      let received := requestFrame id c.code r.params payload ++ List.replicate fillers 0xFF
      r.params.length ≤ 16 →
      exec (.csRise p received lastBits) s =
        exec (rowOf c p id params payload) (transactionEnded s p tr received)) ∧
    (params.length ≤ 15 →
      let received := requestFrame id 0x01 (0x01 :: params) payload ++ List.replicate fillers 0xFF
      exec (.csRise p received lastBits) s =
        exec (.attachResume p id params payload) (transactionEnded s p tr received)) ∧
    (∀ code : Byte, namesNoCommand (some code) = true → params.length ≤ 16 →
      let received := requestFrame id code params payload ++ List.replicate fillers 0xFF
      exec (.csRise p received lastBits) s =
        exec (.badCommand p id (some code) params payload) (transactionEnded s p tr received))

/-- R152: a good frame by the link state it finds, outside the initialisation pass. A READY link's response is discarded with
SUPERSEDED and the frame is treated as from IDLE; a WAITING or EXECUTING link discards the frame with COLLIDED. From IDLE the
request waits while the core is busy or REFCLK stands still (R156, R171). A request row stands for a frame that reaches the
link in a transaction of its own: where none can end with a good frame it changes nothing, and a frame longer than its length
fields allow sets BADCHECK (R151, test 3); that is the model's choice of what a row stands for (log 1). -/
def Obligations.GoodFrameByLinkState : Prop :=
  (∀ (s : State) (c : Instr) (p : Port) (r : Request), rowRequest c = some (p, r) →
     s.phase = .operating → LinkAlive s p → (s.pinsOf p).csLow = false →
     r.params.length ≤ 16 → r.payload.length ≤ 256 →
     (∀ x : Response, (s.link p).state = .ready x →
       exec c s =
         exec c (s.setLink p { s.link p with state := .idle, flags := { (s.link p).flags with superseded := true } })) ∧
     ((s.link p).state = .idle → s.core ≠ none ∨ s.refclk = false →
       exec c s = .next (s.setLink p { s.link p with state := .waiting r, lastId := r.id })) ∧
     (∀ x : Request, (s.link p).state = .waiting x ∨ (s.link p).state = .executing x →
       s.core ≠ none ∨ s.refclk = false →
       exec c s = .next (s.setLink p { s.link p with flags := { (s.link p).flags with collided := true } }))) ∧
  (∀ (s : State) (c : Instr) (p : Port) (r : Request), rowRequest c = some (p, r) →
     (¬LinkAlive s p ∨ (s.pinsOf p).csLow = true → exec c s = .next s) ∧
     (LinkAlive s p → (s.pinsOf p).csLow = false → 16 < r.params.length ∨ 256 < r.payload.length →
       exec c s = .next (s.setLink p { s.link p with flags := { (s.link p).flags with badcheck := true } })))

/-- R18, R155: a good frame during the initialisation pass is answered NOT_READY by the link at once; the flags are copied and
cleared by the placement, and a response found in the slot is discarded with SUPERSEDED first. That the link answers so while
REFCLK stands still too is the model's inference (log 19). -/
def Obligations.NotReadyDuringPass : Prop :=
  ∀ (s : State) (c : Instr) (p : Port) (r : Request), rowRequest c = some (p, r) →
    s.phase = .initialising → LinkAlive s p → (s.pinsOf p).csLow = false →
    r.params.length ≤ 16 → r.payload.length ≤ 256 →
    ((s.link p).state = .idle →
      exec c s = .next (s.setLink p (linkWithResponse { s.link p with lastId := r.id } r.id (refusal .notReady)))) ∧
    (∀ x : Response, (s.link p).state = .ready x →
      exec c s =
        .next (s.setLink p (linkWithResponse
          { s.link p with lastId := r.id, flags := { (s.link p).flags with superseded := true } } r.id
          (refusal .notReady))))

/-- R153, R154, R156, R157, R160: the core completes the command it executes. The response is placed with the link flags
copied and cleared, or dropped when the discard mark is set; then the first WAITING link in the order from the pointer is
granted and its request is taken. Without a command executing there is nothing to complete (log 3). -/
def Obligations.CompletionPlacesAndGrants : Prop :=
  ∀ s : State,
    (s.phase ≠ .operating ∨ s.refclk = false ∨ s.core = none → exec .commandCompletion s = .next s) ∧
    (∀ e : Executing, s.phase = .operating → s.refclk = true → s.core = some e →
      let l := s.link e.port
      let completed := (s.setLink e.port
        (if l.discardMark then { l with discardMark := false } else linkWithResponse l l.lastId e.reply)).setCore none
      ((∀ q : Port, (completed.link q).isWaiting = false) → exec .commandCompletion s = .next completed) ∧
      (∀ (k : Fin 4) (r : Request), (completed.link (s.pointer + k)).state = .waiting r →
        (∀ j < k, (completed.link (s.pointer + j)).isWaiting = false) →
        let q := s.pointer + k
        let grantedTo := (completed.setLink q { completed.link q with state := .executing r }).setPointer (q + 1)
        exec .commandCompletion s =
          .next (answered (takeRequest q r grantedTo).1 q (takeRequest q r grantedTo).2)))

/-- R126: ATTn. A notice shows while the queue holds one and, after a TAKE_NOTICES has taken records, until its response is
placed: the moment at which the emptying shows is the model's inference (log 2). So under both mask bits ATTn stays asserted
from the TAKE_NOTICES on until its response is there to be collected. -/
def Obligations.AttentionLine : Prop :=
  (∀ (s : State) (p : Port),
     s.attnAsserted p = true ↔
       s.phase ≠ .inReset ∧
         (((s.session p).mask.response = true ∧ ∃ x : Response, (s.link p).state = .ready x) ∨
           ((s.session p).mask.notice = true ∧ NoticeShows s p))) ∧
  (∀ (s : State) (p : Port) (id k : Byte), Attached s p → 1 ≤ k.toNat → k.toNat ≤ 8 →
     (s.link p).discardMark = false → (s.session p).mask = { response := true, notice := true } →
     (s.queue p).records ≠ [] →
     ∃ t u x, exec (.takeNotices p id [k] []) s = .next t ∧ t.attnAsserted p = true ∧
       exec .commandCompletion t = .next u ∧ (u.link p).state = .ready x ∧ u.attnAsserted p = true)

/-! ### Pins, time and events -/

/-- R142, R159: a taken assertion of PRSTn. An assertion already taken, and a pin while REFCLK stands still, change nothing;
with RESETn asserted only the level is recorded (log 18). That a port reset empties the receive area is the model's choice
(log 20). -/
def Obligations.PortResetDetaches : Prop :=
  ∀ (s : State) (p : Port),
    (s.refclk = false ∨ (s.pinsOf p).prstAsserted = true → exec (.portReset p) s = .next s) ∧
    (s.refclk = true → (s.pinsOf p).prstAsserted = false → s.phase = .inReset →
      exec (.portReset p) s = .next (s.setPins p { s.pinsOf p with prstAsserted := true })) ∧
    (s.refclk = true → (s.pinsOf p).prstAsserted = false → s.phase ≠ .inReset →
      ∃ t, exec (.portReset p) s = .next t ∧
        t = { s with streams := t.streams, subs := t.subs, sessions := t.sessions, links := t.links, pins := t.pins } ∧
        HoldingsLapsed s t p ∧
        t.session p =
          { s.session p with
            state := .detached, leasePeriod := 0, leaseTimer := .idle, flushPeriod := 0, flushTimer := .idle,
            mask := { response := true, notice := false } } ∧
        t.link p =
          { s.link p with
            state := .idle
            flags := { truncated := false, badcheck := false, collided := false, superseded := false }
            transaction := none
            receiveArea := []
            discardMark := (s.link p).discardMark || (match (s.link p).state with
              | .executing _ => true
              | _ => false) } ∧
        t.pinsOf p = { s.pinsOf p with prstAsserted := true } ∧
        (∀ q : Port, q ≠ p → t.session q = s.session q ∧ t.link q = s.link q ∧ t.pinsOf q = s.pinsOf q))

/-- R18, R148, R155, R171: the reset pins that a running REFCLK samples, and the end of the pass. A release of PRSTn changes
its level and nothing else. An assertion of RESETn puts every block into its reset, the levels of CSn and PRSTn staying as
they are; a release starts the pass, the stamp counter and the tick count. At the end of the pass, with no request waiting,
every pool quantity is at its starting value and the core begins taking requests. The model's choices are these: a release of
RESETn outside reset changes nothing (log 3), the pool's values and the receive area while RESETn is asserted (logs 9, 20), and
that the model's count of draws stays (log 14). -/
def Obligations.ResetAndPass : Prop :=
  (∀ s : State,
     (∀ p : Port,
       exec (.portResetRelease p) s =
         .next (if s.refclk then s.setPins p { s.pinsOf p with prstAsserted := false } else s)) ∧
     (s.refclk = false → exec .resetAssert s = .next s ∧ exec .resetRelease s = .next s) ∧
     (s.refclk = true →
       exec .resetAssert s =
         .next { State.reset with
           phase := .inReset, pins := s.pins, draws := s.draws, pending := s.pending }) ∧
     (s.refclk = true → s.phase = .inReset →
       exec .resetRelease s = .next { s with phase := .initialising, stamp := 0, tickCount := 0 }) ∧
     (s.phase ≠ .inReset → exec .resetRelease s = .next s)) ∧
  (∀ s : State, s.refclk = true → s.phase = .initialising → (∀ q : Port, (s.link q).isWaiting = false) →
     ∃ t, exec .initPassEnd s = .next t ∧ t = { s with pool := t.pool, phase := .operating } ∧
       t.pool.freeBlocks = List.finRange 2048 ∧ t.pool.quarantine = [] ∧
       t.pool.freeDescriptors = List.finRange 512 ∧
       (∀ b : BlockId, t.pool.block b =
         { state := .free, next := none, fill := 0, failed := false, scrubFailures := 0, owner := none,
           check := Config.storedCheck (List.replicate 64 0) }) ∧
       (∀ d : DescId, t.pool.desc d = .free) ∧ (∀ a : Nat, t.pool.bytes.read a = 0))

/-- R131, R115, R132: a tick lowers every RUNNING timer of every port by one; a timer that it brings to 0 has expired (the
model's value `expired`, log 4, until its expiry is taken). The tick count starts again (log 5). -/
def Obligations.TickLowersTimers : Prop :=
  ∀ s : State,
    (s.refclk = false ∨ s.phase = .inReset → exec .tick s = .next s) ∧
    (s.refclk = true → s.phase ≠ .inReset →
      ∃ t, exec .tick s = .next t ∧ t = { s with sessions := t.sessions, tickCount := 0 } ∧
        (∀ p : Port, t.session p = { s.session p with
          leaseTimer := (t.session p).leaseTimer, flushTimer := (t.session p).flushTimer }) ∧
        (∀ p : Port,
          ((s.session p).leaseTimer = .idle → (t.session p).leaseTimer = .idle) ∧
          (∀ n : Nat, 2 ≤ n → (s.session p).leaseTimer = .running n → (t.session p).leaseTimer = .running (n - 1)) ∧
          ((s.session p).leaseTimer = .running 1 → (t.session p).leaseTimer = .expired) ∧
          ((s.session p).flushTimer = .idle → (t.session p).flushTimer = .idle) ∧
          (∀ n : Nat, 2 ≤ n → (s.session p).flushTimer = .running n → (t.session p).flushTimer = .running (n - 1)) ∧
          ((s.session p).flushTimer = .running 1 → (t.session p).flushTimer = .expired)))

/-- R130, R131: the stamp counter rises by one each microsecond, wrapping, and the tick's own count with it (log 5). No
other command or event but an assertion or release of RESETn writes it. -/
def Obligations.StampRises : Prop :=
  (∀ s : State,
     (s.refclk = false ∨ s.phase = .inReset → exec .stampCounterRise s = .next s) ∧
     (s.refclk = true → s.phase ≠ .inReset →
       exec .stampCounterRise s =
         .next { s with stamp := s.stamp + 1, tickCount := (s.tickCount + 1) % 1000 }) ∧
     (s.stamp = 16777215 → s.stamp + 1 = 0)) ∧
  (∀ (c : Instr) (s t : State), exec c s = .next t →
     c ≠ .stampCounterRise → c ≠ .resetAssert → c ≠ .resetRelease → t.stamp = s.stamp)

/-- R133: the lapse of a port's session, at the expiry of its lease timer. The event is taken only when the timer has expired
(log 3, log 4). -/
def Obligations.LeaseExpiryLapses : Prop :=
  ∀ (s : State) (p : Port),
    (s.refclk = false ∨ s.phase = .inReset ∨ (s.session p).leaseTimer ≠ .expired →
      exec (.leaseExpiry p) s = .next s) ∧
    (s.refclk = true → s.phase ≠ .inReset → (s.session p).leaseTimer = .expired →
      ∃ t, exec (.leaseExpiry p) s = .next t ∧
        t = { s with streams := t.streams, subs := t.subs, sessions := t.sessions } ∧
        HoldingsLapsed s t p ∧
        t.session p = { s.session p with state := .lapsed, leaseTimer := .idle, flushTimer := .idle } ∧
        (∀ q : Port, q ≠ p → t.session q = s.session q) ∧
        (∀ q : Port, t.attnAsserted q = s.attnAsserted q))

/-- R117: the expiry of a port's flush timer. Every pending subscription is announced in ascending stream number as long as
the queue has room; the announcements that find it full are dropped and counted, and the timer starts again when there was
one of them. The event is taken only when the timer has expired (log 3, log 4). -/
def Obligations.FlushExpiryAnnounces : Prop :=
  ∀ (s : State) (p : Port),
    let announced := fun (i : StreamId) => match s.sub i p with
      | some u =>
        if u.state = .active ∧ 0 < u.unannounced ∧ u.arrivalQueued = false then
          some ({ kind := .arrival, stream := i, sequence := (s.stream i).nextSeq - 1,
                  count := BitVec.ofNat 16 u.unannounced, aux := 2 } : Notice)
        else none
      | none => none
    let notices := (List.finRange 64).filterMap announced
    let free := 32 - (s.queue p).records.length
    let served := ((List.finRange 64).filter (fun i => (announced i).isSome)).take free
    let full := free < notices.length
    (s.refclk = false ∨ s.phase = .inReset ∨ (s.session p).flushTimer ≠ .expired →
      exec (.flushExpiry p) s = .next s) ∧
    (s.refclk = true → s.phase ≠ .inReset → (s.session p).flushTimer = .expired →
      ∃ t, exec (.flushExpiry p) s = .next t ∧
        t = { s with subs := t.subs, queues := t.queues, sessions := t.sessions } ∧
        (t.queue p).records = (s.queue p).records ++ notices.take free ∧
        (t.queue p).dropped =
          (if full then min 255 ((s.queue p).dropped + (notices.length - free)) else (s.queue p).dropped) ∧
        t.session p =
          { s.session p with
            flushTimer := if full ∧ (s.session p).flushPeriod ≠ 0 then .running (s.session p).flushPeriod else .idle } ∧
        (∀ q : Port, q ≠ p → t.session q = s.session q ∧ t.queue q = s.queue q ∧ ∀ i, t.sub i q = s.sub i q) ∧
        (∀ i : StreamId,
          (i ∉ served → t.sub i p = s.sub i p) ∧
          (i ∈ served → t.sub i p = (s.sub i p).map (fun u => { u with unannounced := 0, arrivalQueued := true }))))

/-- R171: REFCLK stops and returns. While it stands still, the events that run on it change nothing; when it returns, a frame
that waited meanwhile is granted, and with none waiting everything goes on from where it stood. -/
def Obligations.RefclkStopsTime : Prop :=
  ∀ s : State,
    exec .refclkStop s = .next { s with refclk := false } ∧
    (s.refclk = false → ∀ p : Port,
      exec .tick s = .next s ∧ exec .stampCounterRise s = .next s ∧ exec (.leaseExpiry p) s = .next s ∧
      exec (.flushExpiry p) s = .next s ∧ exec .commandCompletion s = .next s ∧ exec .initPassEnd s = .next s ∧
      exec (.portReset p) s = .next s ∧ exec (.portResetRelease p) s = .next s ∧
      exec .resetAssert s = .next s ∧ exec .resetRelease s = .next s) ∧
    ((∀ q : Port, (s.link q).isWaiting = false) ∨ s.phase ≠ .operating ∨ s.core ≠ none →
      exec .refclkReturn s = .next { s with refclk := true }) ∧
    (∀ (k : Fin 4) (r : Request), s.phase = .operating → s.core = none →
      (s.link (s.pointer + k)).state = .waiting r →
      (∀ j < k, (s.link (s.pointer + j)).isWaiting = false) →
      let q := s.pointer + k
      let grantedTo := (({ s with refclk := true } : State).setLink q { s.link q with state := .executing r }).setPointer (q + 1)
      exec .refclkReturn s = .next (answered (takeRequest q r grantedTo).1 q (takeRequest q r grantedTo).2))

/-! ### What every step keeps -/

/-- The payload bytes: a request that is taken at once, other than APPEND and SCRUB, leaves every byte of the Block Pool as
it was. So does every event at which no request waits, but for the end of the pass and an assertion of RESETn: a fall of CSn, a
rise of CSn that leaves the core as it is (so that no request is taken), the events of PRSTn, a release of RESETn, the tick,
the microsecond, the expiries, a completion, and a stop and a return of REFCLK. APPEND and SCRUB say their own bytes in AppendStoresPayload and ScrubTestsBatch. -/
def Obligations.PayloadBytesKept : Prop :=
  ∀ (s t : State) (a : Nat),
    (∀ (p : Port) (c : Command) (id : Byte) (params payload : List Byte), TakesAtOnce s p →
      c ≠ .append → c ≠ .scrub → exec (rowOf c p id params payload) s = .next t →
      t.pool.bytes.read a = s.pool.bytes.read a) ∧
    (∀ (p : Port) (id : Byte) (code : Option Byte) (params payload : List Byte), TakesAtOnce s p →
      (exec (.attachResume p id params payload) s = .next t ∨
        (namesNoCommand code = true ∧ exec (.badCommand p id code params payload) s = .next t)) →
      t.pool.bytes.read a = s.pool.bytes.read a) ∧
    (∀ (p : Port) (received : List Byte) (lastBits : List Bool), (∀ q : Port, (s.link q).isWaiting = false) →
      (exec (.csFall p) s = .next t ∨ (exec (.csRise p received lastBits) s = .next t ∧ t.core = s.core) ∨
        exec (.portReset p) s = .next t ∨ exec (.portResetRelease p) s = .next t ∨
        exec .tick s = .next t ∨ exec (.leaseExpiry p) s = .next t ∨ exec (.flushExpiry p) s = .next t ∨
        exec .commandCompletion s = .next t ∨ exec .stampCounterRise s = .next t ∨ exec .resetRelease s = .next t ∨
        exec .refclkStop s = .next t ∨ exec .refclkReturn s = .next t) →
      t.pool.bytes.read a = s.pool.bytes.read a)

/-- R109: every step keeps the canonical form of the payload memory and the bounds of every notice queue. -/
def Obligations.StepKeepsMemoryAndQueues : Prop :=
  (∀ s t : State, MemoryCanonical s → step s = .next t → MemoryCanonical t) ∧
  (∀ s t : State, QueueBounds s → step s = .next t → QueueBounds t)

/-- R2, R3, R4, R5, R6, R7: every step keeps the pool's accounts and the chains of its messages: every STAGED
or COMMITTED block lies in the chain of exactly one descriptor, its owner, and no other block has an owner. -/
def Obligations.StepKeepsPool : Prop :=
  ∀ s t : State, PoolAccounts s.pool → ChainsOwned s.pool → step s = .next t → PoolAccounts t.pool ∧ ChainsOwned t.pool

/-- R37, R82, R115, R127, R132: every step keeps the agreement of claims, subscriptions, counts and timers with the
sessions. -/
def Obligations.StepKeepsSessions : Prop :=
  ∀ s t : State, SessionAgreement s → (∀ p : Port, TimersInRange (s.session p)) → step s = .next t →
    SessionAgreement t ∧ ∀ p : Port, TimersInRange (t.session p)

/-- R147, R156, R157, R160: every step keeps the agreement of the Exchange Core and the links. -/
def Obligations.StepKeepsLinkCore : Prop :=
  ∀ s t : State, LinkCoreAgree s → step s = .next t → LinkCoreAgree t

/-- R19, R23, R24, R25, R26, R27, R46, R75, R83, R84: every step keeps the laws of the Stream Table and of the Subscription
Table, where the pool is in order: the committed lists and the numbering, the held blocks and the limit, assemblies and needs
only under a claim, the cursors, and readers remaining. -/
def Obligations.StepKeepsStreams : Prop :=
  ∀ s t : State, PoolAccounts s.pool → ChainsOwned s.pool → StreamsLawful s → step s = .next t → StreamsLawful t
end

