-- ==== Sys2Proof/Laws/State.lean ====
section
/-! SUPPORT. What each setter of the state does to each table and field: one lemma for each pair. -/

namespace Sys2Proof.Machine

/-! ### Vectors -/

/-- Reading a vector after one entry is replaced. -/
theorem get_set {α : Type} {n : Nat} (v : Vector α n) (i j : Fin n) (x : α) :
    (v.set i.val x i.isLt).get j = if i = j then x else v.get j := by
  have h : (v.set i.val x i.isLt).get j = (v.set i.val x i.isLt)[j.val] := rfl
  rw [h, Vector.getElem_set]
  by_cases e : i = j
  · simp [e]
  · have : i.val ≠ j.val := fun c => e (Fin.ext c)
    simp [e, this]
    rfl

/-- Reading a vector of equal entries. -/
@[simp] theorem get_replicate {α : Type} {n : Nat} (x : α) (j : Fin n) : (Vector.replicate n x).get j = x := by
  have h : (Vector.replicate n x).get j = (Vector.replicate n x)[j.val] := rfl
  rw [h, Vector.getElem_replicate]

/-- Reading a vector mapped entry by entry. -/
@[simp] theorem get_map {α β : Type} {n : Nat} (f : α → β) (v : Vector α n) (j : Fin n) :
    (v.map f).get j = f (v.get j) := by
  have h : (v.map f).get j = (v.map f)[j.val] := rfl
  rw [h, Vector.getElem_map]
  rfl

/-! ### Pool -/

@[simp] theorem Pool.setBlock_bytes (q : Pool) (b : BlockId) (r : BlockRecord) : (q.setBlock b r).bytes = q.bytes := rfl
@[simp] theorem Pool.setBlock_descriptors (q : Pool) (b : BlockId) (r : BlockRecord) : (q.setBlock b r).descriptors = q.descriptors := rfl
@[simp] theorem Pool.setBlock_freeBlocks (q : Pool) (b : BlockId) (r : BlockRecord) : (q.setBlock b r).freeBlocks = q.freeBlocks := rfl
@[simp] theorem Pool.setBlock_quarantine (q : Pool) (b : BlockId) (r : BlockRecord) : (q.setBlock b r).quarantine = q.quarantine := rfl
@[simp] theorem Pool.setBlock_freeDescriptors (q : Pool) (b : BlockId) (r : BlockRecord) : (q.setBlock b r).freeDescriptors = q.freeDescriptors := rfl
@[simp] theorem Pool.setDesc_bytes (q : Pool) (d : DescId) (r : Descriptor) : (q.setDesc d r).bytes = q.bytes := rfl
@[simp] theorem Pool.setDesc_blocks (q : Pool) (d : DescId) (r : Descriptor) : (q.setDesc d r).blocks = q.blocks := rfl
@[simp] theorem Pool.setDesc_freeBlocks (q : Pool) (d : DescId) (r : Descriptor) : (q.setDesc d r).freeBlocks = q.freeBlocks := rfl
@[simp] theorem Pool.setDesc_quarantine (q : Pool) (d : DescId) (r : Descriptor) : (q.setDesc d r).quarantine = q.quarantine := rfl
@[simp] theorem Pool.setDesc_freeDescriptors (q : Pool) (d : DescId) (r : Descriptor) : (q.setDesc d r).freeDescriptors = q.freeDescriptors := rfl
@[simp] theorem Pool.setBlock_desc (q : Pool) (b : BlockId) (r : BlockRecord) (d : DescId) :
    (q.setBlock b r).desc d = q.desc d := rfl
@[simp] theorem Pool.setDesc_block (q : Pool) (d : DescId) (r : Descriptor) (b : BlockId) :
    (q.setDesc d r).block b = q.block b := rfl

/-- Reading a block record after one is replaced. -/
theorem Pool.setBlock_block (q : Pool) (b c : BlockId) (r : BlockRecord) :
    (q.setBlock b r).block c = if b = c then r else q.block c := get_set q.blocks b c r

/-- Reading a descriptor after one is replaced. -/
theorem Pool.setDesc_desc (q : Pool) (d e : DescId) (r : Descriptor) :
    (q.setDesc d r).desc e = if d = e then r else q.desc e := get_set q.descriptors d e r

@[simp] theorem Pool.setBlock_block_self (q : Pool) (b : BlockId) (r : BlockRecord) : (q.setBlock b r).block b = r := by
  simp [Pool.setBlock_block]
@[simp] theorem Pool.setDesc_desc_self (q : Pool) (d : DescId) (r : Descriptor) : (q.setDesc d r).desc d = r := by
  simp [Pool.setDesc_desc]

/-! ### State: fields and tables that a setter leaves -/

@[simp] theorem State.setPool_pool (s : State) (q : Pool) : (s.setPool q).pool = q := rfl
@[simp] theorem State.setPool_streams (s : State) (q : Pool) : (s.setPool q).streams = s.streams := rfl
@[simp] theorem State.setPool_stream (s : State) (q : Pool) (j : StreamId) : (s.setPool q).stream j = s.stream j := rfl
@[simp] theorem State.setPool_subs (s : State) (q : Pool) : (s.setPool q).subs = s.subs := rfl
@[simp] theorem State.setPool_sub (s : State) (q : Pool) (j : StreamId) (o : Port) : (s.setPool q).sub j o = s.sub j o := rfl
@[simp] theorem State.setPool_queues (s : State) (q : Pool) : (s.setPool q).queues = s.queues := rfl
@[simp] theorem State.setPool_queue (s : State) (q : Pool) (o : Port) : (s.setPool q).queue o = s.queue o := rfl
@[simp] theorem State.setPool_sessions (s : State) (q : Pool) : (s.setPool q).sessions = s.sessions := rfl
@[simp] theorem State.setPool_session (s : State) (q : Pool) (o : Port) : (s.setPool q).session o = s.session o := rfl
@[simp] theorem State.setPool_links (s : State) (q : Pool) : (s.setPool q).links = s.links := rfl
@[simp] theorem State.setPool_link (s : State) (q : Pool) (o : Port) : (s.setPool q).link o = s.link o := rfl
@[simp] theorem State.setPool_pins (s : State) (q : Pool) : (s.setPool q).pins = s.pins := rfl
@[simp] theorem State.setPool_pinsOf (s : State) (q : Pool) (o : Port) : (s.setPool q).pinsOf o = s.pinsOf o := rfl
@[simp] theorem State.setPool_pointer (s : State) (q : Pool) : (s.setPool q).pointer = s.pointer := rfl
@[simp] theorem State.setPool_core (s : State) (q : Pool) : (s.setPool q).core = s.core := rfl
@[simp] theorem State.setPool_stamp (s : State) (q : Pool) : (s.setPool q).stamp = s.stamp := rfl
@[simp] theorem State.setPool_tickCount (s : State) (q : Pool) : (s.setPool q).tickCount = s.tickCount := rfl
@[simp] theorem State.setPool_phase (s : State) (q : Pool) : (s.setPool q).phase = s.phase := rfl
@[simp] theorem State.setPool_refclk (s : State) (q : Pool) : (s.setPool q).refclk = s.refclk := rfl
@[simp] theorem State.setPool_draws (s : State) (q : Pool) : (s.setPool q).draws = s.draws := rfl
@[simp] theorem State.setPool_pending (s : State) (q : Pool) : (s.setPool q).pending = s.pending := rfl
@[simp] theorem State.setStream_pool (s : State) (i : StreamId) (r : StreamRecord) : (s.setStream i r).pool = s.pool := rfl
@[simp] theorem State.setStream_subs (s : State) (i : StreamId) (r : StreamRecord) : (s.setStream i r).subs = s.subs := rfl
@[simp] theorem State.setStream_sub (s : State) (i : StreamId) (r : StreamRecord) (j : StreamId) (o : Port) : (s.setStream i r).sub j o = s.sub j o := rfl
@[simp] theorem State.setStream_queues (s : State) (i : StreamId) (r : StreamRecord) : (s.setStream i r).queues = s.queues := rfl
@[simp] theorem State.setStream_queue (s : State) (i : StreamId) (r : StreamRecord) (o : Port) : (s.setStream i r).queue o = s.queue o := rfl
@[simp] theorem State.setStream_sessions (s : State) (i : StreamId) (r : StreamRecord) : (s.setStream i r).sessions = s.sessions := rfl
@[simp] theorem State.setStream_session (s : State) (i : StreamId) (r : StreamRecord) (o : Port) : (s.setStream i r).session o = s.session o := rfl
@[simp] theorem State.setStream_links (s : State) (i : StreamId) (r : StreamRecord) : (s.setStream i r).links = s.links := rfl
@[simp] theorem State.setStream_link (s : State) (i : StreamId) (r : StreamRecord) (o : Port) : (s.setStream i r).link o = s.link o := rfl
@[simp] theorem State.setStream_pins (s : State) (i : StreamId) (r : StreamRecord) : (s.setStream i r).pins = s.pins := rfl
@[simp] theorem State.setStream_pinsOf (s : State) (i : StreamId) (r : StreamRecord) (o : Port) : (s.setStream i r).pinsOf o = s.pinsOf o := rfl
@[simp] theorem State.setStream_pointer (s : State) (i : StreamId) (r : StreamRecord) : (s.setStream i r).pointer = s.pointer := rfl
@[simp] theorem State.setStream_core (s : State) (i : StreamId) (r : StreamRecord) : (s.setStream i r).core = s.core := rfl
@[simp] theorem State.setStream_stamp (s : State) (i : StreamId) (r : StreamRecord) : (s.setStream i r).stamp = s.stamp := rfl
@[simp] theorem State.setStream_tickCount (s : State) (i : StreamId) (r : StreamRecord) : (s.setStream i r).tickCount = s.tickCount := rfl
@[simp] theorem State.setStream_phase (s : State) (i : StreamId) (r : StreamRecord) : (s.setStream i r).phase = s.phase := rfl
@[simp] theorem State.setStream_refclk (s : State) (i : StreamId) (r : StreamRecord) : (s.setStream i r).refclk = s.refclk := rfl
@[simp] theorem State.setStream_draws (s : State) (i : StreamId) (r : StreamRecord) : (s.setStream i r).draws = s.draws := rfl
@[simp] theorem State.setStream_pending (s : State) (i : StreamId) (r : StreamRecord) : (s.setStream i r).pending = s.pending := rfl
@[simp] theorem State.setSub_pool (s : State) (i : StreamId) (p : Port) (u : Option Subscription) : (s.setSub i p u).pool = s.pool := rfl
@[simp] theorem State.setSub_streams (s : State) (i : StreamId) (p : Port) (u : Option Subscription) : (s.setSub i p u).streams = s.streams := rfl
@[simp] theorem State.setSub_stream (s : State) (i : StreamId) (p : Port) (u : Option Subscription) (j : StreamId) : (s.setSub i p u).stream j = s.stream j := rfl
@[simp] theorem State.setSub_queues (s : State) (i : StreamId) (p : Port) (u : Option Subscription) : (s.setSub i p u).queues = s.queues := rfl
@[simp] theorem State.setSub_queue (s : State) (i : StreamId) (p : Port) (u : Option Subscription) (o : Port) : (s.setSub i p u).queue o = s.queue o := rfl
@[simp] theorem State.setSub_sessions (s : State) (i : StreamId) (p : Port) (u : Option Subscription) : (s.setSub i p u).sessions = s.sessions := rfl
@[simp] theorem State.setSub_session (s : State) (i : StreamId) (p : Port) (u : Option Subscription) (o : Port) : (s.setSub i p u).session o = s.session o := rfl
@[simp] theorem State.setSub_links (s : State) (i : StreamId) (p : Port) (u : Option Subscription) : (s.setSub i p u).links = s.links := rfl
@[simp] theorem State.setSub_link (s : State) (i : StreamId) (p : Port) (u : Option Subscription) (o : Port) : (s.setSub i p u).link o = s.link o := rfl
@[simp] theorem State.setSub_pins (s : State) (i : StreamId) (p : Port) (u : Option Subscription) : (s.setSub i p u).pins = s.pins := rfl
@[simp] theorem State.setSub_pinsOf (s : State) (i : StreamId) (p : Port) (u : Option Subscription) (o : Port) : (s.setSub i p u).pinsOf o = s.pinsOf o := rfl
@[simp] theorem State.setSub_pointer (s : State) (i : StreamId) (p : Port) (u : Option Subscription) : (s.setSub i p u).pointer = s.pointer := rfl
@[simp] theorem State.setSub_core (s : State) (i : StreamId) (p : Port) (u : Option Subscription) : (s.setSub i p u).core = s.core := rfl
@[simp] theorem State.setSub_stamp (s : State) (i : StreamId) (p : Port) (u : Option Subscription) : (s.setSub i p u).stamp = s.stamp := rfl
@[simp] theorem State.setSub_tickCount (s : State) (i : StreamId) (p : Port) (u : Option Subscription) : (s.setSub i p u).tickCount = s.tickCount := rfl
@[simp] theorem State.setSub_phase (s : State) (i : StreamId) (p : Port) (u : Option Subscription) : (s.setSub i p u).phase = s.phase := rfl
@[simp] theorem State.setSub_refclk (s : State) (i : StreamId) (p : Port) (u : Option Subscription) : (s.setSub i p u).refclk = s.refclk := rfl
@[simp] theorem State.setSub_draws (s : State) (i : StreamId) (p : Port) (u : Option Subscription) : (s.setSub i p u).draws = s.draws := rfl
@[simp] theorem State.setSub_pending (s : State) (i : StreamId) (p : Port) (u : Option Subscription) : (s.setSub i p u).pending = s.pending := rfl
@[simp] theorem State.setQueue_pool (s : State) (p : Port) (q : NoticeQueue) : (s.setQueue p q).pool = s.pool := rfl
@[simp] theorem State.setQueue_streams (s : State) (p : Port) (q : NoticeQueue) : (s.setQueue p q).streams = s.streams := rfl
@[simp] theorem State.setQueue_stream (s : State) (p : Port) (q : NoticeQueue) (j : StreamId) : (s.setQueue p q).stream j = s.stream j := rfl
@[simp] theorem State.setQueue_subs (s : State) (p : Port) (q : NoticeQueue) : (s.setQueue p q).subs = s.subs := rfl
@[simp] theorem State.setQueue_sub (s : State) (p : Port) (q : NoticeQueue) (j : StreamId) (o : Port) : (s.setQueue p q).sub j o = s.sub j o := rfl
@[simp] theorem State.setQueue_sessions (s : State) (p : Port) (q : NoticeQueue) : (s.setQueue p q).sessions = s.sessions := rfl
@[simp] theorem State.setQueue_session (s : State) (p : Port) (q : NoticeQueue) (o : Port) : (s.setQueue p q).session o = s.session o := rfl
@[simp] theorem State.setQueue_links (s : State) (p : Port) (q : NoticeQueue) : (s.setQueue p q).links = s.links := rfl
@[simp] theorem State.setQueue_link (s : State) (p : Port) (q : NoticeQueue) (o : Port) : (s.setQueue p q).link o = s.link o := rfl
@[simp] theorem State.setQueue_pins (s : State) (p : Port) (q : NoticeQueue) : (s.setQueue p q).pins = s.pins := rfl
@[simp] theorem State.setQueue_pinsOf (s : State) (p : Port) (q : NoticeQueue) (o : Port) : (s.setQueue p q).pinsOf o = s.pinsOf o := rfl
@[simp] theorem State.setQueue_pointer (s : State) (p : Port) (q : NoticeQueue) : (s.setQueue p q).pointer = s.pointer := rfl
@[simp] theorem State.setQueue_core (s : State) (p : Port) (q : NoticeQueue) : (s.setQueue p q).core = s.core := rfl
@[simp] theorem State.setQueue_stamp (s : State) (p : Port) (q : NoticeQueue) : (s.setQueue p q).stamp = s.stamp := rfl
@[simp] theorem State.setQueue_tickCount (s : State) (p : Port) (q : NoticeQueue) : (s.setQueue p q).tickCount = s.tickCount := rfl
@[simp] theorem State.setQueue_phase (s : State) (p : Port) (q : NoticeQueue) : (s.setQueue p q).phase = s.phase := rfl
@[simp] theorem State.setQueue_refclk (s : State) (p : Port) (q : NoticeQueue) : (s.setQueue p q).refclk = s.refclk := rfl
@[simp] theorem State.setQueue_draws (s : State) (p : Port) (q : NoticeQueue) : (s.setQueue p q).draws = s.draws := rfl
@[simp] theorem State.setQueue_pending (s : State) (p : Port) (q : NoticeQueue) : (s.setQueue p q).pending = s.pending := rfl
@[simp] theorem State.setSession_pool (s : State) (p : Port) (x : Session) : (s.setSession p x).pool = s.pool := rfl
@[simp] theorem State.setSession_streams (s : State) (p : Port) (x : Session) : (s.setSession p x).streams = s.streams := rfl
@[simp] theorem State.setSession_stream (s : State) (p : Port) (x : Session) (j : StreamId) : (s.setSession p x).stream j = s.stream j := rfl
@[simp] theorem State.setSession_subs (s : State) (p : Port) (x : Session) : (s.setSession p x).subs = s.subs := rfl
@[simp] theorem State.setSession_sub (s : State) (p : Port) (x : Session) (j : StreamId) (o : Port) : (s.setSession p x).sub j o = s.sub j o := rfl
@[simp] theorem State.setSession_queues (s : State) (p : Port) (x : Session) : (s.setSession p x).queues = s.queues := rfl
@[simp] theorem State.setSession_queue (s : State) (p : Port) (x : Session) (o : Port) : (s.setSession p x).queue o = s.queue o := rfl
@[simp] theorem State.setSession_links (s : State) (p : Port) (x : Session) : (s.setSession p x).links = s.links := rfl
@[simp] theorem State.setSession_link (s : State) (p : Port) (x : Session) (o : Port) : (s.setSession p x).link o = s.link o := rfl
@[simp] theorem State.setSession_pins (s : State) (p : Port) (x : Session) : (s.setSession p x).pins = s.pins := rfl
@[simp] theorem State.setSession_pinsOf (s : State) (p : Port) (x : Session) (o : Port) : (s.setSession p x).pinsOf o = s.pinsOf o := rfl
@[simp] theorem State.setSession_pointer (s : State) (p : Port) (x : Session) : (s.setSession p x).pointer = s.pointer := rfl
@[simp] theorem State.setSession_core (s : State) (p : Port) (x : Session) : (s.setSession p x).core = s.core := rfl
@[simp] theorem State.setSession_stamp (s : State) (p : Port) (x : Session) : (s.setSession p x).stamp = s.stamp := rfl
@[simp] theorem State.setSession_tickCount (s : State) (p : Port) (x : Session) : (s.setSession p x).tickCount = s.tickCount := rfl
@[simp] theorem State.setSession_phase (s : State) (p : Port) (x : Session) : (s.setSession p x).phase = s.phase := rfl
@[simp] theorem State.setSession_refclk (s : State) (p : Port) (x : Session) : (s.setSession p x).refclk = s.refclk := rfl
@[simp] theorem State.setSession_draws (s : State) (p : Port) (x : Session) : (s.setSession p x).draws = s.draws := rfl
@[simp] theorem State.setSession_pending (s : State) (p : Port) (x : Session) : (s.setSession p x).pending = s.pending := rfl
@[simp] theorem State.setLink_pool (s : State) (p : Port) (l : Link) : (s.setLink p l).pool = s.pool := rfl
@[simp] theorem State.setLink_streams (s : State) (p : Port) (l : Link) : (s.setLink p l).streams = s.streams := rfl
@[simp] theorem State.setLink_stream (s : State) (p : Port) (l : Link) (j : StreamId) : (s.setLink p l).stream j = s.stream j := rfl
@[simp] theorem State.setLink_subs (s : State) (p : Port) (l : Link) : (s.setLink p l).subs = s.subs := rfl
@[simp] theorem State.setLink_sub (s : State) (p : Port) (l : Link) (j : StreamId) (o : Port) : (s.setLink p l).sub j o = s.sub j o := rfl
@[simp] theorem State.setLink_queues (s : State) (p : Port) (l : Link) : (s.setLink p l).queues = s.queues := rfl
@[simp] theorem State.setLink_queue (s : State) (p : Port) (l : Link) (o : Port) : (s.setLink p l).queue o = s.queue o := rfl
@[simp] theorem State.setLink_sessions (s : State) (p : Port) (l : Link) : (s.setLink p l).sessions = s.sessions := rfl
@[simp] theorem State.setLink_session (s : State) (p : Port) (l : Link) (o : Port) : (s.setLink p l).session o = s.session o := rfl
@[simp] theorem State.setLink_pins (s : State) (p : Port) (l : Link) : (s.setLink p l).pins = s.pins := rfl
@[simp] theorem State.setLink_pinsOf (s : State) (p : Port) (l : Link) (o : Port) : (s.setLink p l).pinsOf o = s.pinsOf o := rfl
@[simp] theorem State.setLink_pointer (s : State) (p : Port) (l : Link) : (s.setLink p l).pointer = s.pointer := rfl
@[simp] theorem State.setLink_core (s : State) (p : Port) (l : Link) : (s.setLink p l).core = s.core := rfl
@[simp] theorem State.setLink_stamp (s : State) (p : Port) (l : Link) : (s.setLink p l).stamp = s.stamp := rfl
@[simp] theorem State.setLink_tickCount (s : State) (p : Port) (l : Link) : (s.setLink p l).tickCount = s.tickCount := rfl
@[simp] theorem State.setLink_phase (s : State) (p : Port) (l : Link) : (s.setLink p l).phase = s.phase := rfl
@[simp] theorem State.setLink_refclk (s : State) (p : Port) (l : Link) : (s.setLink p l).refclk = s.refclk := rfl
@[simp] theorem State.setLink_draws (s : State) (p : Port) (l : Link) : (s.setLink p l).draws = s.draws := rfl
@[simp] theorem State.setLink_pending (s : State) (p : Port) (l : Link) : (s.setLink p l).pending = s.pending := rfl
@[simp] theorem State.setPins_pool (s : State) (p : Port) (x : PortPins) : (s.setPins p x).pool = s.pool := rfl
@[simp] theorem State.setPins_streams (s : State) (p : Port) (x : PortPins) : (s.setPins p x).streams = s.streams := rfl
@[simp] theorem State.setPins_stream (s : State) (p : Port) (x : PortPins) (j : StreamId) : (s.setPins p x).stream j = s.stream j := rfl
@[simp] theorem State.setPins_subs (s : State) (p : Port) (x : PortPins) : (s.setPins p x).subs = s.subs := rfl
@[simp] theorem State.setPins_sub (s : State) (p : Port) (x : PortPins) (j : StreamId) (o : Port) : (s.setPins p x).sub j o = s.sub j o := rfl
@[simp] theorem State.setPins_queues (s : State) (p : Port) (x : PortPins) : (s.setPins p x).queues = s.queues := rfl
@[simp] theorem State.setPins_queue (s : State) (p : Port) (x : PortPins) (o : Port) : (s.setPins p x).queue o = s.queue o := rfl
@[simp] theorem State.setPins_sessions (s : State) (p : Port) (x : PortPins) : (s.setPins p x).sessions = s.sessions := rfl
@[simp] theorem State.setPins_session (s : State) (p : Port) (x : PortPins) (o : Port) : (s.setPins p x).session o = s.session o := rfl
@[simp] theorem State.setPins_links (s : State) (p : Port) (x : PortPins) : (s.setPins p x).links = s.links := rfl
@[simp] theorem State.setPins_link (s : State) (p : Port) (x : PortPins) (o : Port) : (s.setPins p x).link o = s.link o := rfl
@[simp] theorem State.setPins_pointer (s : State) (p : Port) (x : PortPins) : (s.setPins p x).pointer = s.pointer := rfl
@[simp] theorem State.setPins_core (s : State) (p : Port) (x : PortPins) : (s.setPins p x).core = s.core := rfl
@[simp] theorem State.setPins_stamp (s : State) (p : Port) (x : PortPins) : (s.setPins p x).stamp = s.stamp := rfl
@[simp] theorem State.setPins_tickCount (s : State) (p : Port) (x : PortPins) : (s.setPins p x).tickCount = s.tickCount := rfl
@[simp] theorem State.setPins_phase (s : State) (p : Port) (x : PortPins) : (s.setPins p x).phase = s.phase := rfl
@[simp] theorem State.setPins_refclk (s : State) (p : Port) (x : PortPins) : (s.setPins p x).refclk = s.refclk := rfl
@[simp] theorem State.setPins_draws (s : State) (p : Port) (x : PortPins) : (s.setPins p x).draws = s.draws := rfl
@[simp] theorem State.setPins_pending (s : State) (p : Port) (x : PortPins) : (s.setPins p x).pending = s.pending := rfl
@[simp] theorem State.setCore_pool (s : State) (c : Option Executing) : (s.setCore c).pool = s.pool := rfl
@[simp] theorem State.setCore_streams (s : State) (c : Option Executing) : (s.setCore c).streams = s.streams := rfl
@[simp] theorem State.setCore_stream (s : State) (c : Option Executing) (j : StreamId) : (s.setCore c).stream j = s.stream j := rfl
@[simp] theorem State.setCore_subs (s : State) (c : Option Executing) : (s.setCore c).subs = s.subs := rfl
@[simp] theorem State.setCore_sub (s : State) (c : Option Executing) (j : StreamId) (o : Port) : (s.setCore c).sub j o = s.sub j o := rfl
@[simp] theorem State.setCore_queues (s : State) (c : Option Executing) : (s.setCore c).queues = s.queues := rfl
@[simp] theorem State.setCore_queue (s : State) (c : Option Executing) (o : Port) : (s.setCore c).queue o = s.queue o := rfl
@[simp] theorem State.setCore_sessions (s : State) (c : Option Executing) : (s.setCore c).sessions = s.sessions := rfl
@[simp] theorem State.setCore_session (s : State) (c : Option Executing) (o : Port) : (s.setCore c).session o = s.session o := rfl
@[simp] theorem State.setCore_links (s : State) (c : Option Executing) : (s.setCore c).links = s.links := rfl
@[simp] theorem State.setCore_link (s : State) (c : Option Executing) (o : Port) : (s.setCore c).link o = s.link o := rfl
@[simp] theorem State.setCore_pins (s : State) (c : Option Executing) : (s.setCore c).pins = s.pins := rfl
@[simp] theorem State.setCore_pinsOf (s : State) (c : Option Executing) (o : Port) : (s.setCore c).pinsOf o = s.pinsOf o := rfl
@[simp] theorem State.setCore_pointer (s : State) (c : Option Executing) : (s.setCore c).pointer = s.pointer := rfl
@[simp] theorem State.setCore_core (s : State) (c : Option Executing) : (s.setCore c).core = c := rfl
@[simp] theorem State.setCore_stamp (s : State) (c : Option Executing) : (s.setCore c).stamp = s.stamp := rfl
@[simp] theorem State.setCore_tickCount (s : State) (c : Option Executing) : (s.setCore c).tickCount = s.tickCount := rfl
@[simp] theorem State.setCore_phase (s : State) (c : Option Executing) : (s.setCore c).phase = s.phase := rfl
@[simp] theorem State.setCore_refclk (s : State) (c : Option Executing) : (s.setCore c).refclk = s.refclk := rfl
@[simp] theorem State.setCore_draws (s : State) (c : Option Executing) : (s.setCore c).draws = s.draws := rfl
@[simp] theorem State.setCore_pending (s : State) (c : Option Executing) : (s.setCore c).pending = s.pending := rfl
@[simp] theorem State.setPointer_pool (s : State) (p : Port) : (s.setPointer p).pool = s.pool := rfl
@[simp] theorem State.setPointer_streams (s : State) (p : Port) : (s.setPointer p).streams = s.streams := rfl
@[simp] theorem State.setPointer_stream (s : State) (p : Port) (j : StreamId) : (s.setPointer p).stream j = s.stream j := rfl
@[simp] theorem State.setPointer_subs (s : State) (p : Port) : (s.setPointer p).subs = s.subs := rfl
@[simp] theorem State.setPointer_sub (s : State) (p : Port) (j : StreamId) (o : Port) : (s.setPointer p).sub j o = s.sub j o := rfl
@[simp] theorem State.setPointer_queues (s : State) (p : Port) : (s.setPointer p).queues = s.queues := rfl
@[simp] theorem State.setPointer_queue (s : State) (p : Port) (o : Port) : (s.setPointer p).queue o = s.queue o := rfl
@[simp] theorem State.setPointer_sessions (s : State) (p : Port) : (s.setPointer p).sessions = s.sessions := rfl
@[simp] theorem State.setPointer_session (s : State) (p : Port) (o : Port) : (s.setPointer p).session o = s.session o := rfl
@[simp] theorem State.setPointer_links (s : State) (p : Port) : (s.setPointer p).links = s.links := rfl
@[simp] theorem State.setPointer_link (s : State) (p : Port) (o : Port) : (s.setPointer p).link o = s.link o := rfl
@[simp] theorem State.setPointer_pins (s : State) (p : Port) : (s.setPointer p).pins = s.pins := rfl
@[simp] theorem State.setPointer_pinsOf (s : State) (p : Port) (o : Port) : (s.setPointer p).pinsOf o = s.pinsOf o := rfl
@[simp] theorem State.setPointer_pointer (s : State) (p : Port) : (s.setPointer p).pointer = p := rfl
@[simp] theorem State.setPointer_core (s : State) (p : Port) : (s.setPointer p).core = s.core := rfl
@[simp] theorem State.setPointer_stamp (s : State) (p : Port) : (s.setPointer p).stamp = s.stamp := rfl
@[simp] theorem State.setPointer_tickCount (s : State) (p : Port) : (s.setPointer p).tickCount = s.tickCount := rfl
@[simp] theorem State.setPointer_phase (s : State) (p : Port) : (s.setPointer p).phase = s.phase := rfl
@[simp] theorem State.setPointer_refclk (s : State) (p : Port) : (s.setPointer p).refclk = s.refclk := rfl
@[simp] theorem State.setPointer_draws (s : State) (p : Port) : (s.setPointer p).draws = s.draws := rfl
@[simp] theorem State.setPointer_pending (s : State) (p : Port) : (s.setPointer p).pending = s.pending := rfl
@[simp] theorem State.drawn_pool (s : State) : (s.drawn).pool = s.pool := rfl
@[simp] theorem State.drawn_streams (s : State) : (s.drawn).streams = s.streams := rfl
@[simp] theorem State.drawn_stream (s : State) (j : StreamId) : (s.drawn).stream j = s.stream j := rfl
@[simp] theorem State.drawn_subs (s : State) : (s.drawn).subs = s.subs := rfl
@[simp] theorem State.drawn_sub (s : State) (j : StreamId) (o : Port) : (s.drawn).sub j o = s.sub j o := rfl
@[simp] theorem State.drawn_queues (s : State) : (s.drawn).queues = s.queues := rfl
@[simp] theorem State.drawn_queue (s : State) (o : Port) : (s.drawn).queue o = s.queue o := rfl
@[simp] theorem State.drawn_sessions (s : State) : (s.drawn).sessions = s.sessions := rfl
@[simp] theorem State.drawn_session (s : State) (o : Port) : (s.drawn).session o = s.session o := rfl
@[simp] theorem State.drawn_links (s : State) : (s.drawn).links = s.links := rfl
@[simp] theorem State.drawn_link (s : State) (o : Port) : (s.drawn).link o = s.link o := rfl
@[simp] theorem State.drawn_pins (s : State) : (s.drawn).pins = s.pins := rfl
@[simp] theorem State.drawn_pinsOf (s : State) (o : Port) : (s.drawn).pinsOf o = s.pinsOf o := rfl
@[simp] theorem State.drawn_pointer (s : State) : (s.drawn).pointer = s.pointer := rfl
@[simp] theorem State.drawn_core (s : State) : (s.drawn).core = s.core := rfl
@[simp] theorem State.drawn_stamp (s : State) : (s.drawn).stamp = s.stamp := rfl
@[simp] theorem State.drawn_tickCount (s : State) : (s.drawn).tickCount = s.tickCount := rfl
@[simp] theorem State.drawn_phase (s : State) : (s.drawn).phase = s.phase := rfl
@[simp] theorem State.drawn_refclk (s : State) : (s.drawn).refclk = s.refclk := rfl
@[simp] theorem State.drawn_draws (s : State) : (s.drawn).draws = s.draws + 1 := rfl
@[simp] theorem State.drawn_pending (s : State) : (s.drawn).pending = s.pending := rfl

/-! ### State: the table a setter writes -/

theorem State.setStream_stream (s : State) (i j : StreamId) (r : StreamRecord) :
    (s.setStream i r).stream j = if i = j then r else s.stream j := get_set s.streams i j r
theorem State.setQueue_queue (s : State) (p o : Port) (q : NoticeQueue) :
    (s.setQueue p q).queue o = if p = o then q else s.queue o := get_set s.queues p o q
theorem State.setSession_session (s : State) (p o : Port) (x : Session) :
    (s.setSession p x).session o = if p = o then x else s.session o := get_set s.sessions p o x
theorem State.setLink_link (s : State) (p o : Port) (l : Link) :
    (s.setLink p l).link o = if p = o then l else s.link o := get_set s.links p o l
theorem State.setPins_pinsOf (s : State) (p o : Port) (x : PortPins) :
    (s.setPins p x).pinsOf o = if p = o then x else s.pinsOf o := get_set s.pins p o x

theorem State.setSub_sub (s : State) (i j : StreamId) (p o : Port) (u : Option Subscription) :
    (s.setSub i p u).sub j o = if i = j ∧ p = o then u else s.sub j o := by
  have h : (s.setSub i p u).sub j o =
      ((s.subs.set i.val ((s.subs.get i).set p.val u p.isLt) i.isLt).get j).get o := rfl
  rw [h, get_set]
  by_cases e : i = j
  · subst e
    simp only [if_true, true_and]
    rw [get_set]
    rfl
  · simp only [e, if_false, false_and]
    rfl

@[simp] theorem State.setStream_stream_self (s : State) (i : StreamId) (r : StreamRecord) :
    (s.setStream i r).stream i = r := by simp [State.setStream_stream]
@[simp] theorem State.setSub_sub_self (s : State) (i : StreamId) (p : Port) (u : Option Subscription) :
    (s.setSub i p u).sub i p = u := by simp [State.setSub_sub]
@[simp] theorem State.setQueue_queue_self (s : State) (p : Port) (q : NoticeQueue) : (s.setQueue p q).queue p = q := by
  simp [State.setQueue_queue]
@[simp] theorem State.setSession_session_self (s : State) (p : Port) (x : Session) :
    (s.setSession p x).session p = x := by simp [State.setSession_session]
@[simp] theorem State.setLink_link_self (s : State) (p : Port) (l : Link) : (s.setLink p l).link p = l := by
  simp [State.setLink_link]
@[simp] theorem State.setPins_pinsOf_self (s : State) (p : Port) (x : PortPins) : (s.setPins p x).pinsOf p = x := by
  simp [State.setPins_pinsOf]

end Sys2Proof.Machine
end

