-- ==== Sys2Proof/Laws/Outside.lean ====
section
/-! SUPPORT. Running a command on the tables leaves the links, the pins, the arbiter, the Exchange Core, the Time Base,
the reset phase, REFCLK and the queue of commands as they are. -/

namespace Sys2Proof.Machine

/-- Everything outside the tables, the notice queues, the sessions and the count of draws. -/
def State.outside (s : State) :
    Vector Link 4 × Vector PortPins 4 × Option Executing × Port × BitVec 24 × Nat × Phase × Bool × List Instr :=
  (s.links, s.pins, s.core, s.pointer, s.stamp, s.tickCount, s.phase, s.refclk, s.pending)

/-! ### Setters -/

@[simp] theorem State.setPool_outside (s : State) (q : Pool) : (s.setPool q).outside = s.outside := rfl
@[simp] theorem State.setStream_outside (s : State) (i : StreamId) (r : StreamRecord) :
    (s.setStream i r).outside = s.outside := rfl
@[simp] theorem State.setSub_outside (s : State) (i : StreamId) (p : Port) (u : Option Subscription) :
    (s.setSub i p u).outside = s.outside := rfl
@[simp] theorem State.setQueue_outside (s : State) (p : Port) (q : NoticeQueue) :
    (s.setQueue p q).outside = s.outside := rfl
@[simp] theorem State.setSession_outside (s : State) (p : Port) (x : Session) :
    (s.setSession p x).outside = s.outside := rfl
@[simp] theorem State.drawn_outside (s : State) : s.drawn.outside = s.outside := rfl
@[simp] theorem State.lapseHoldings_outside (s : State) (p : Port) : (s.lapseHoldings p).outside = s.outside := rfl
@[simp] theorem State.restoreHoldings_outside (s : State) (p : Port) :
    (s.restoreHoldings p).outside = s.outside := rfl

/-- A fold keeps what each of its steps keeps. -/
theorem foldl_keeps {α β γ : Type} (g : β → γ) (f : β → α → β) (h : ∀ b a, g (f b a) = g b) (l : List α) (b : β) :
    g (l.foldl f b) = g b := by
  induction l generalizing b with
  | nil => rfl
  | cons a t ih => rw [List.foldl_cons, ih, h]

/-! ### Shared operations -/

@[simp] theorem State.post_outside (s : State) (p : Port) (n : Notice) : (s.post p n).outside = s.outside := by
  unfold State.post
  split <;> simp

@[simp] theorem State.startFlush_outside (s : State) (p : Port) : (s.startFlush p).outside = s.outside := by
  unfold State.startFlush
  split <;> simp

@[simp] theorem State.postArrival_outside (s : State) (p : Port) (i : StreamId) (u : Subscription) (x : Seq)
    (c : BitVec 16) : (s.postArrival p i u x c).outside = s.outside := by
  unfold State.postArrival
  split <;> simp

@[simp] theorem State.dropSub_outside (s : State) (i : StreamId) (p : Port) : (s.dropSub i p).outside = s.outside := by
  unfold State.dropSub
  split <;> simp

@[simp] theorem State.removeOldest_outside (s : State) (i : StreamId) : (s.removeOldest i).outside = s.outside := by
  unfold State.removeOldest
  split
  · rfl
  · split <;> simp

@[simp] theorem State.removeMany_outside (i : StreamId) (n : Nat) (s : State) :
    (State.removeMany i n s).outside = s.outside := by
  induction n generalizing s with
  | zero => rfl
  | succ k ih => simp [State.removeMany, ih]

@[simp] theorem State.retireLoop_outside (i : StreamId) (n : Nat) (s : State) :
    (State.retireLoop i n s).outside = s.outside := by
  induction n generalizing s with
  | zero => rfl
  | succ k ih =>
    unfold State.retireLoop
    split <;> simp [ih]

@[simp] theorem State.retirementCheck_outside (s : State) (i : StreamId) :
    (s.retirementCheck i).outside = s.outside := by simp [State.retirementCheck]

@[simp] theorem State.reevaluateStream_outside (s : State) (i : StreamId) :
    (s.reevaluateStream i).outside = s.outside := by
  unfold State.reevaluateStream
  split
  · split <;> simp
  · rfl

@[simp] theorem State.roomReevaluation_outside (s : State) : s.roomReevaluation.outside = s.outside :=
  foldl_keeps State.outside State.reevaluateStream State.reevaluateStream_outside allStreams s

@[simp] theorem State.reevaluateAfter_outside (q : Pool) (s : State) :
    (State.reevaluateAfter q s).outside = s.outside := by
  unfold State.reevaluateAfter
  split <;> simp

@[simp] theorem State.abortAssembly_outside (s : State) (i : StreamId) : (s.abortAssembly i).outside = s.outside := by
  unfold State.abortAssembly
  split
  · rfl
  · split <;> simp

@[simp] theorem State.releaseClaim_outside (s : State) (i : StreamId) : (s.releaseClaim i).outside = s.outside := by
  simp [State.releaseClaim]

@[simp] theorem State.teardownClaim_outside (p : Port) (s : State) (i : StreamId) :
    (State.teardownClaim p s i).outside = s.outside := by
  unfold State.teardownClaim
  split <;> simp

@[simp] theorem State.teardownSub_outside (p : Port) (s : State) (i : StreamId) :
    (State.teardownSub p s i).outside = s.outside := by
  unfold State.teardownSub
  split <;> simp

@[simp] theorem State.teardown_outside (s : State) (p : Port) : (s.teardown p).outside = s.outside := by
  simp [State.teardown, foldl_keeps State.outside _ (State.teardownClaim_outside p),
    foldl_keeps State.outside _ (State.teardownSub_outside p)]

@[simp] theorem State.restartLease_outside (s : State) (p : Port) : (s.restartLease p).outside = s.outside := rfl

/-! ### Session commands -/

@[simp] theorem State.writeSettings_outside (s : State) (p : Port) (a : AttachArgs) :
    (s.writeSettings p a).outside = s.outside := rfl
@[simp] theorem State.clearCounts_outside (s : State) (p : Port) : (s.clearCounts p).outside = s.outside := rfl
@[simp] theorem State.detachSession_outside (s : State) (p : Port) : (s.detachSession p).outside = s.outside := rfl

@[simp] theorem State.startFlushIfPending_outside (s : State) (p : Port) :
    (s.startFlushIfPending p).outside = s.outside := by
  unfold State.startFlushIfPending
  split <;> simp

theorem runAttachFresh_outside (p : Port) (a : AttachArgs) (s : State) :
    (runAttachFresh p a s).1.outside = s.outside := by simp [runAttachFresh]

theorem runAttachResume_outside (p : Port) (a : AttachArgs) (s : State) :
    (runAttachResume p a s).1.outside = s.outside := by
  simp only [runAttachResume, State.startFlushIfPending_outside, State.writeSettings_outside]
  split <;> simp

theorem runAttach_outside (p : Port) (r : Request) (s : State) : (runAttach p r s).1.outside = s.outside := by
  unfold runAttach
  split
  · rfl
  · split
    · exact runAttachResume_outside _ _ _
    · exact runAttachFresh_outside _ _ _

theorem runDetach_outside (p : Port) (r : Request) (s : State) : (runDetach p r s).1.outside = s.outside := by
  unfold runDetach
  split <;> simp

theorem runPing_outside (p : Port) (r : Request) (s : State) : (runPing p r s).1.outside = s.outside := by
  unfold runPing
  split <;> rfl

theorem runPortInfo_outside (p : Port) (r : Request) (s : State) : (runPortInfo p r s).1.outside = s.outside := by
  unfold runPortInfo
  split <;> rfl

/-! ### Stream commands -/

theorem runDefine_outside (p : Port) (r : Request) (s : State) : (runDefine p r s).1.outside = s.outside := by
  unfold runDefine
  split
  · rfl
  · split <;> rfl

@[simp] theorem State.dissolveStream_outside (s : State) (i : StreamId) :
    (s.dissolveStream i).outside = s.outside := by simp [State.dissolveStream]

theorem runDissolve_outside (p : Port) (r : Request) (s : State) : (runDissolve p r s).1.outside = s.outside := by
  unfold runDissolve
  split
  · rfl
  · split
    · rfl
    · split <;> simp

theorem runStreamInfo_outside (p : Port) (r : Request) (s : State) : (runStreamInfo p r s).1.outside = s.outside := by
  unfold runStreamInfo
  split
  · rfl
  · split <;> rfl

/-! ### Writing commands -/

@[simp] theorem State.loseClaim_outside (s : State) (i : StreamId) (p q : Port) (a : Bool) :
    (s.loseClaim i p q a).outside = s.outside := by simp [State.loseClaim]

@[simp] theorem State.takeover_outside (s : State) (i : StreamId) (p q : Port) :
    (s.takeover i p q).outside = s.outside := by simp [State.takeover]

theorem runClaim_outside (q : Port) (r : Request) (s : State) : (runClaim q r s).1.outside = s.outside := by
  unfold runClaim
  split
  · rfl
  · split
    · rfl
    · split
      · rfl
      · split <;> rfl
      · split <;> simp

theorem runUnclaim_outside (q : Port) (r : Request) (s : State) : (runUnclaim q r s).1.outside = s.outside := by
  unfold runUnclaim
  split
  · rfl
  · split
    · rfl
    · split <;> simp

@[simp] theorem State.forcePort_outside (i : StreamId) (d : DescId) (x : Seq) (s : State) (p : Port) :
    (State.forcePort i d x s p).outside = s.outside := by
  unfold State.forcePort
  split
  · split <;> simp
  · rfl

@[simp] theorem State.countShed_outside (s : State) (i : StreamId) (m : CommittedMessage) :
    (s.countShed i m).outside = s.outside := by
  unfold State.countShed
  split <;> simp

@[simp] theorem State.shedOldest_outside (s : State) (i : StreamId) : (s.shedOldest i).outside = s.outside := by
  unfold State.shedOldest
  split
  · rfl
  · split
    · rw [State.removeOldest_outside, foldl_keeps State.outside _ (State.forcePort_outside i _ _),
        State.countShed_outside]
    · rfl

@[simp] theorem State.shedMany_outside (i : StreamId) (n : Nat) (s : State) :
    (State.shedMany i n s).outside = s.outside := by
  induction n generalizing s with
  | zero => rfl
  | succ k ih => simp [State.shedMany, ih]

@[simp] theorem State.postLoss_outside (b : State) (i : StreamId) (o : Port) (s : State) (p : Port) :
    (State.postLoss b i o s p).outside = s.outside := by
  unfold State.postLoss
  split
  · split
    · simp only
      split <;> simp
    · rfl
  · rfl

@[simp] theorem State.makeRoom_outside (s : State) (i : StreamId) (o : Port) (k : Nat) :
    (s.makeRoom i o k).outside = s.outside := by
  simp [State.makeRoom, foldl_keeps State.outside _ (State.postLoss_outside s i o)]

@[simp] theorem State.openAssembly_outside (s : State) (a : OpenArgs) : (s.openAssembly a).outside = s.outside := by
  unfold State.openAssembly
  split <;> simp

@[simp] theorem State.grantOpen_outside (s : State) (o : Port) (a : OpenArgs) (k : Nat) :
    (s.grantOpen o a k).outside = s.outside := by
  unfold State.grantOpen
  split <;> simp

@[simp] theorem State.recordNeed_outside (s : State) (i : StreamId) (n : Nat) :
    (s.recordNeed i n).outside = s.outside := rfl

theorem runOpen_outside (q : Port) (r : Request) (s : State) : (runOpen q r s).1.outside = s.outside := by
  unfold runOpen
  split
  · rfl
  · split
    · rfl
    · split
      · rfl
      · split
        · rfl
        · split
          · rfl
          · unfold State.decideRoom
            simp only
            split <;> simp

theorem runAppend_outside (q : Port) (r : Request) (s : State) : (runAppend q r s).1.outside = s.outside := by
  unfold runAppend
  split
  · rfl
  · split
    · rfl
    · split
      · rfl
      · split <;> rfl

@[simp] theorem State.lagEvaluation_outside (s : State) (i : StreamId) (x : Seq) (p : Port) :
    (s.lagEvaluation i x p).outside = s.outside := by
  unfold State.lagEvaluation
  split
  · split <;> simp
  · rfl

@[simp] theorem State.arrivalEvaluation_outside (s : State) (i : StreamId) (x : Seq) (g : Bool) (p : Port) :
    (s.arrivalEvaluation i x g p).outside = s.outside := by
  unfold State.arrivalEvaluation
  split
  · simp only
    split <;> simp
  · rfl

@[simp] theorem State.evaluatePort_outside (i : StreamId) (x : Seq) (g : Bool) (s : State) (p : Port) :
    (State.evaluatePort i x g s p).outside = s.outside := by
  unfold State.evaluatePort
  simp only
  split <;> simp

@[simp] theorem State.commitAssembly_outside (s : State) (i : StreamId) (d : DescId) (m : StagedMessage) :
    (s.commitAssembly i d m).outside = s.outside := rfl

@[simp] theorem State.commitStream_outside (s : State) (i : StreamId) (d : DescId) (m : StagedMessage) :
    (s.commitStream i d m).outside = s.outside := by
  simp [State.commitStream, foldl_keeps State.outside _ (State.evaluatePort_outside i _ _)]

theorem runCommit_outside (q : Port) (r : Request) (s : State) : (runCommit q r s).1.outside = s.outside := by
  unfold runCommit
  split
  · rfl
  · split
    · rfl
    · split
      · rfl
      · split <;> simp

theorem runAbort_outside (q : Port) (r : Request) (s : State) : (runAbort q r s).1.outside = s.outside := by
  unfold runAbort
  split
  · rfl
  · split
    · rfl
    · split <;> simp

/-! ### Reading commands -/

theorem runJoin_outside (p : Port) (r : Request) (s : State) : (runJoin p r s).1.outside = s.outside := by
  unfold runJoin
  split
  · rfl
  · split
    · rfl
    · split <;> rfl

@[simp] theorem State.leaveStream_outside (s : State) (i : StreamId) (p : Port) :
    (s.leaveStream i p).outside = s.outside := by simp [State.leaveStream]

theorem runLeave_outside (p : Port) (r : Request) (s : State) : (runLeave p r s).1.outside = s.outside := by
  unfold runLeave
  split
  · rfl
  · split
    · rfl
    · split <;> simp

@[simp] theorem State.noteEviction_outside (s : State) (i : StreamId) (p q : Port) (c : Seq) (n : Nat) :
    (s.noteEviction i p q c n).outside = s.outside := by simp [State.noteEviction]

@[simp] theorem State.evictSub_outside (s : State) (i : StreamId) (p q : Port) (u : Subscription) :
    (s.evictSub i p q u).outside = s.outside := by simp [State.evictSub]

theorem runEvict_outside (q : Port) (r : Request) (s : State) : (runEvict q r s).1.outside = s.outside := by
  unfold runEvict
  split
  · rfl
  · split
    · rfl
    · split
      · rfl
      · split <;> simp

@[simp] theorem testBlocks_outside (bs : List BlockId) (s : State) : (testBlocks bs s).1.outside = s.outside := by
  induction bs generalizing s with
  | nil => rfl
  | cons b t ih =>
    unfold testBlocks
    split
    · rfl
    · split
      · rfl
      · simp [ih]

@[simp] theorem State.markFailed_outside (s : State) (d : DescId) (b : BlockId) :
    (s.markFailed d b).outside = s.outside := rfl

theorem State.readPiece_outside (s : State) (i : StreamId) (p : Port) (u : Subscription) (d : DescId)
    (m : CommittedMessage) (n : Nat) : (s.readPiece i p u d m n).1.outside = s.outside := by
  unfold State.readPiece
  simp only
  split
  · rfl
  · split <;> simp [State.damagedStop]

theorem State.readSub_outside (s : State) (i : StreamId) (p : Port) (u : Subscription) (n : Nat) :
    (s.readSub i p u n).1.outside = s.outside := by
  unfold State.readSub
  split
  · rfl
  · split
    · rfl
    · split
      · split
        · rfl
        · exact State.readPiece_outside _ _ _ _ _ _ _
      · rfl

theorem runRead_outside (p : Port) (r : Request) (s : State) : (runRead p r s).1.outside = s.outside := by
  unfold runRead
  split
  · rfl
  · split
    · rfl
    · split
      · rfl
      · exact State.readSub_outside _ _ _ _ _

@[simp] theorem State.releaseCursor_outside (s : State) (i : StreamId) (p : Port) (u : Subscription) :
    (s.releaseCursor i p u).outside = s.outside := by simp [State.releaseCursor]

theorem runRelease_outside (p : Port) (r : Request) (s : State) : (runRelease p r s).1.outside = s.outside := by
  unfold runRelease
  split
  · rfl
  · split
    · rfl
    · split
      · rfl
      · split
        · rfl
        · split <;> simp

theorem runSubInfo_outside (p : Port) (r : Request) (s : State) : (runSubInfo p r s).1.outside = s.outside := by
  unfold runSubInfo
  split
  · rfl
  · split
    · rfl
    · split
      · rfl
      · simp only
        split <;> rfl

/-! ### Notice and pool commands -/

@[simp] theorem State.processNotice_outside (p : Port) (s : State) (n : Notice) :
    (State.processNotice p s n).outside = s.outside := by
  unfold State.processNotice
  split
  · rfl
  · split <;> try rfl
    simp only
    split <;> simp

@[simp] theorem State.flushAfterTake_outside (s : State) (p : Port) (l : List Notice) :
    (s.flushAfterTake p l).outside = s.outside := by
  unfold State.flushAfterTake
  split <;> simp

theorem runTakeNotices_outside (p : Port) (r : Request) (s : State) :
    (runTakeNotices p r s).1.outside = s.outside := by
  unfold runTakeNotices
  split
  · rfl
  · simp [State.takeNotices, foldl_keeps State.outside _ (State.processNotice_outside p)]

theorem runPoolInfo_outside (p : Port) (r : Request) (s : State) : (runPoolInfo p r s).1.outside = s.outside := by
  unfold runPoolInfo
  split <;> rfl

@[simp] theorem scrubBlocks_outside (bs : List BlockId) (s : State) (c : ScrubCounts) :
    (scrubBlocks bs s c).1.outside = s.outside := by
  induction bs generalizing s c with
  | nil => rfl
  | cons b t ih =>
    unfold scrubBlocks
    split
    · simp [ih]
    · split <;> simp [ih]

theorem runScrub_outside (p : Port) (r : Request) (s : State) : (runScrub p r s).1.outside = s.outside := by
  unfold runScrub
  split
  · rfl
  · split
    · rfl
    · simp [State.scrubBatch]

/-! ### The Exchange Core -/

/-- A command run on the tables leaves everything outside them. -/
theorem runCommand_outside (c : Command) (p : Port) (r : Request) (s : State) :
    (runCommand c p r s).1.outside = s.outside := by
  cases c
  · exact runAttach_outside p r s
  · exact runDetach_outside p r s
  · exact runPing_outside p r s
  · exact runPortInfo_outside p r s
  · exact runDefine_outside p r s
  · exact runDissolve_outside p r s
  · exact runStreamInfo_outside p r s
  · exact runClaim_outside p r s
  · exact runUnclaim_outside p r s
  · exact runOpen_outside p r s
  · exact runAppend_outside p r s
  · exact runCommit_outside p r s
  · exact runAbort_outside p r s
  · exact runJoin_outside p r s
  · exact runLeave_outside p r s
  · exact runEvict_outside p r s
  · exact runRead_outside p r s
  · exact runRelease_outside p r s
  · exact runSubInfo_outside p r s
  · exact runTakeNotices_outside p r s
  · exact runPoolInfo_outside p r s
  · exact runScrub_outside p r s

/-- A request taken by the core leaves everything outside the tables. -/
theorem takeRequest_outside (p : Port) (r : Request) (s : State) : (takeRequest p r s).1.outside = s.outside := by
  unfold takeRequest
  split
  · unfold takeCommand
    split
    · rw [runCommand_outside, State.restartLease_outside]
    · split
      · exact runCommand_outside _ _ _ _
      · rfl
    · split
      · exact runCommand_outside _ _ _ _
      · rfl
  · unfold takeBadCommand
    split <;> rfl

end Sys2Proof.Machine
end

