-- ==== Sys2Proof/Laws/Requests.lean ====
section
/-! SUPPORT. What a request row does when the part takes it at once: the grant, the gate, the reply held by the core. The
meanings of the 24 request rows are reached through these. -/

namespace Sys2Proof.Laws

open Sys2Proof.Machine Sys2Proof.Safety

/-! ### Setters that overwrite each other -/

theorem set_set {α : Type} {n : Nat} (v : Vector α n) (i : Fin n) (x y : α) :
    ((v.set i.val x i.isLt).set i.val y i.isLt) = v.set i.val y i.isLt := by
  ext k hk
  by_cases e : i.val = k <;> simp [e]

@[simp] theorem setLink_setLink (s : State) (p : Port) (l k : Link) : (s.setLink p l).setLink p k = s.setLink p k := by
  simp [State.setLink]

@[simp] theorem setSession_setSession (s : State) (p : Port) (x y : Session) :
    (s.setSession p x).setSession p y = s.setSession p y := by
  simp [State.setSession]

@[simp] theorem setStream_setStream (s : State) (i : StreamId) (x y : StreamRecord) :
    (s.setStream i x).setStream i y = s.setStream i y := by
  simp [State.setStream]

@[simp] theorem setQueue_setQueue (s : State) (p : Port) (x y : NoticeQueue) :
    (s.setQueue p x).setQueue p y = s.setQueue p y := by
  simp [State.setQueue]

@[simp] theorem setPins_setPins (s : State) (p : Port) (x y : PortPins) :
    (s.setPins p x).setPins p y = s.setPins p y := by
  simp [State.setPins]

/-! ### The grant -/

theorem find?_first_waiting (s : State) (p : Port) (hp : (s.link p).isWaiting = true)
    (others : ∀ q : Port, q ≠ p → (s.link q).isWaiting = false) : s.nextGranted = some p := by
  have key : ∀ l : List Port, p ∈ l → l.find? (fun q => (s.link q).isWaiting) = some p := by
    intro l
    induction l with
    | nil => intro h; exact absurd h (by simp)
    | cons q t ih =>
      intro h
      by_cases e : q = p
      · subst e
        simp [List.find?, hp]
      · rw [List.find?_cons, others q e]
        exact ih (by simpa [Ne.symm e] using h)
  have all : ∀ x q : Port, q ∈ grantOrder x := by decide
  exact key _ (all _ p)

/-- The core is free for a request that is taken at once. -/
theorem available_of_takesAtOnce {s : State} {p : Port} (h : TakesAtOnce s p) : s.coreAvailable = true := by
  simp [State.coreAvailable, h.operating, h.clock, h.core_free]

/-- A request row, taken at once: the grant, the core's run, the reply held by the core. -/
theorem presentRequest_atOnce {s : State} {p : Port} (h : TakesAtOnce s p) (r : Request)
    (fits : r.params.length ≤ 16 ∧ r.payload.length ≤ 256) :
    s.presentRequest p r = answered (takeRequest p r (granted s p r)).1 p (takeRequest p r (granted s p r)).2 := by
  have alive : s.linkAlive p = true := by simp [State.linkAlive, h.operating, h.pins_high]
  have room : ¬(16 < r.params.length ∨ 256 < r.payload.length) := by omega
  have accepted : (s.link p).receiveGood r = (s.link p).accept r := by simp [Link.receiveGood, h.link_idle]
  simp only [State.presentRequest, alive, h.pins_high, Bool.not_false, Bool.and_self, if_true, if_neg room,
    State.goodFrame, h.operating, accepted, State.arbitrate]
  have avail : (s.setLink p ((s.link p).accept r)).coreAvailable = true := by
    have a := available_of_takesAtOnce h
    exact a
  have found : (s.setLink p ((s.link p).accept r)).nextGranted = some p := by
    apply find?_first_waiting
    · simp [Link.isWaiting, Link.accept]
    · intro q ne
      rw [State.setLink_link]
      simp [Ne.symm ne, h.none_waiting q]
  have waits : ((s.setLink p ((s.link p).accept r)).link p).state = .waiting r := by simp [Link.accept]
  simp only [avail, if_true, found, waits]
  simp [State.grant, granted, answered, Link.accept]

/-! ### The gate -/

theorem restartLease_eq_renewed (s : State) (p : Port) : s.restartLease p = renewed s p := rfl

@[simp] theorem granted_session (s : State) (p q : Port) (r : Request) : (granted s p r).session q = s.session q := rfl

/-- A command of an ATTACHED port runs with the lease renewed. -/
theorem takeRequest_attached {s : State} {p : Port} {r : Request} {c : Command}
    (h : (s.session p).state = .attached) (hc : r.command = some c) :
    takeRequest p r (granted s p r) = runCommand c p r (taken s p r) := by
  simp [takeRequest, hc, takeCommand, h, restartLease_eq_renewed, taken]

/-- A request row of an ATTACHED port, taken at once. -/
theorem presentRequest_attached {s : State} {p : Port} (h : Attached s p) (r : Request) (c : Command)
    (hc : r.command = some c) (fits : r.params.length ≤ 16 ∧ r.payload.length ≤ 256) :
    s.presentRequest p r =
      answered (runCommand c p r (taken s p r)).1 p (runCommand c p r (taken s p r)).2 := by
  rw [presentRequest_atOnce h.atOnce r fits, takeRequest_attached h.attached hc]

/-- Every code of Table 9.3 names its command. -/
theorem command_of_code (c : Command) (id : Byte) (params payload : List Byte) :
    Request.command { id := id, code := some c.code, params := params, payload := payload } = some c := by
  cases c <;> rfl

/-- A code outside Table 9.3 names no command. -/
theorem command_none (code : Option Byte) (id : Byte) (params payload : List Byte) (h : namesNoCommand code = true) :
    Request.command { id := id, code := code, params := params, payload := payload } = none := by
  cases code with
  | none => rfl
  | some b =>
    have table : ∀ b : Byte, namesNoCommand (some b) = true → Command.ofCode b = none := by decide +kernel
    exact table b h

/-- What a row of the opcode table that carries a command does, whatever the state: it presents the command's frame. -/
theorem exec_rowOf (c : Command) (p : Port) (id : Byte) (params payload : List Byte) (s : State) :
    exec (rowOf c p id params payload) s = .next (s.presentRequest p (requestOf c id params payload)) := by
  cases c <;> rfl

/-- What a request row does, whatever the state: it presents its request to its port's link. -/
theorem exec_of_rowRequest {c : Instr} {p : Port} {r : Request} (h : rowRequest c = some (p, r)) (s : State) :
    exec c s = .next (s.presentRequest p r) := by
  cases c <;> simp only [rowRequest, Option.some.injEq, Prod.mk.injEq, reduceCtorEq] at h <;> obtain ⟨h1, h2⟩ := h <;>
    subst h1 h2 <;> rfl

/-- A command of an ATTACHED port, taken at once, by its row. -/
theorem exec_attached {s : State} {p : Port} (h : Attached s p) (c : Command) (id : Byte) (params payload : List Byte)
    (fits : (requestOf c id params payload).params.length ≤ 16 ∧ payload.length ≤ 256) :
    exec (rowOf c p id params payload) s =
      .next (answered (runCommand c p (requestOf c id params payload) (taken s p (requestOf c id params payload))).1 p
        (runCommand c p (requestOf c id params payload) (taken s p (requestOf c id params payload))).2) := by
  rw [exec_rowOf, presentRequest_attached h (requestOf c id params payload) c (command_of_code c _ _ _) fits]

/-! ### Views of the state in which a request acts -/

@[simp] theorem taken_pool (s : State) (p : Port) (r : Request) : (taken s p r).pool = s.pool := rfl
@[simp] theorem taken_stream (s : State) (p : Port) (r : Request) (i : StreamId) : (taken s p r).stream i = s.stream i := rfl
@[simp] theorem taken_streams (s : State) (p : Port) (r : Request) : (taken s p r).streams = s.streams := rfl
@[simp] theorem taken_subs (s : State) (p : Port) (r : Request) : (taken s p r).subs = s.subs := rfl
@[simp] theorem taken_sub (s : State) (p : Port) (r : Request) (i : StreamId) (q : Port) :
    (taken s p r).sub i q = s.sub i q := rfl
@[simp] theorem taken_queue (s : State) (p : Port) (r : Request) (q : Port) : (taken s p r).queue q = s.queue q := rfl
@[simp] theorem taken_stamp (s : State) (p : Port) (r : Request) : (taken s p r).stamp = s.stamp := rfl
@[simp] theorem taken_draws (s : State) (p : Port) (r : Request) : (taken s p r).draws = s.draws := rfl
@[simp] theorem taken_messages (s : State) (p : Port) (r : Request) (i : StreamId) :
    (taken s p r).messages i = s.messages i := rfl
@[simp] theorem taken_presentCount (s : State) (p : Port) (r : Request) (i : StreamId) :
    (taken s p r).presentCount i = s.presentCount i := rfl

/-- The session of the port once its lease is renewed. -/
theorem taken_session_self (s : State) (p : Port) (r : Request) :
    (taken s p r).session p = { s.session p with
      leaseTimer := if (s.session p).leasePeriod = 0 then .idle else .running (10 * (s.session p).leasePeriod) } := by
  simp [taken, renewed]
  rfl

/-- The other sessions are not renewed. -/
theorem taken_session_ne (s : State) (p q : Port) (r : Request) (ne : q ≠ p) :
    (taken s p r).session q = s.session q := by
  simp [taken, renewed, State.setSession_session, Ne.symm ne]

/-- The session state of every port is kept by the renewal. -/
@[simp] theorem taken_session_state (s : State) (p q : Port) (r : Request) :
    ((taken s p r).session q).state = (s.session q).state := by
  by_cases e : q = p
  · subst e
    rw [taken_session_self]
  · rw [taken_session_ne s p q r e]

/-! ### What a command leaves outside the tables -/

/-- A command run on the state in which a request acts leaves the links, the pins, the Time Base, the phase and the queue of
commands as the grant left them. -/
theorem takenAtOnce_of_run (s : State) (p : Port) (r : Request) (out : State × Reply)
    (h : out.1.outside = (taken s p r).outside) : TakenAtOnce s (answered out.1 p out.2) p r out.2 := by
  simp only [State.outside, Prod.mk.injEq] at h
  obtain ⟨links, pins, core, pointer, stamp, tick, phase, refclk, pending⟩ := h
  have hl : ∀ q, (answered out.1 p out.2).link q = (taken s p r).link q := by
    intro q
    show out.1.links.get q = (taken s p r).links.get q
    rw [links]
  refine ⟨?_, ?_, ?_, rfl, ?_, ⟨?_, ?_⟩, ⟨?_, ?_⟩, ?_⟩
  · rw [hl]
    simp [taken, renewed, granted]
  · intro q ne
    rw [hl]
    simp [taken, renewed, granted, State.setLink_link, Ne.symm ne]
  · simp [answered, pointer, taken, renewed, granted]
  · simp [answered, pins, taken, renewed, granted]
  · simp [answered, stamp, taken, renewed, granted]
  · simp [answered, tick, taken, renewed, granted]
  · simp [answered, phase, taken, renewed, granted]
  · simp [answered, refclk, taken, renewed, granted]
  · simp [answered, pending, taken, renewed, granted]

end Sys2Proof.Laws
end

