-- ==== Sys2Proof/Laws/Frames.lean ====
section
/-! SUPPORT. What the link finds of the bytes of a transaction, in terms of all the bytes received; and that the frame of a
request is good and carries it. -/

namespace Sys2Proof.Laws

open Sys2Proof.Machine Sys2Proof.Safety

/-! ### The receive area against all the bytes received -/

theorem byteOf_take {l : List Byte} {n k : Nat} (h : k < n) : byteOf (l.take n) k = byteOf l k := by
  simp [byteOf, h]

theorem guardedLength_take {l : List Byte} {n k : Nat} (h : k + 3 < n) :
    guardedLength (l.take n) k = guardedLength l k := by
  simp only [guardedLength]
  rw [byteOf_take (by omega), byteOf_take (by omega), byteOf_take (by omega), byteOf_take (by omega)]

/-- The tests of R151 over all the bytes received. -/
def judgeAll (received : List Byte) : Judgement :=
  let n := received.length
  let pl := guardedLength received 4
  let dl := guardedLength received (8 + pl)
  let crc := word16 (byteOf received (12 + pl + dl)) (byteOf received (13 + pl + dl))
  let crcComplement := word16 (byteOf received (14 + pl + dl)) (byteOf received (15 + pl + dl))
  if received = [] ∨ byteOf received 0 ≠ syncValue then .noFrame
  else if n < 8 then .truncated
  else if pl ≤ 16 ∧ n < 12 + pl then .truncated
  else if 16 < pl ∨ 256 < dl then .badcheck
  else if n < 16 + pl + dl then .truncated
  else if (received.drop (16 + pl + dl)).any (fun b => b ≠ fillerValue) then .badcheck
  else if crc ≠ crc16 ((received.take (12 + pl + dl)).drop 1) ∨ crcComplement ≠ ~~~crc then .badcheck
  else .good { id := byteOf received 1, code := guardedCode received, params := (received.drop 8).take pl,
               payload := (received.drop (12 + pl)).take dl }

/-- The link's judgement of the receive area and the bytes beyond it is the judgement of all the bytes received. -/
theorem judge_split (received : List Byte) : judge (received.take 288) (received.drop 288) = judgeAll received := by
  have hn : (received.take 288).length + (received.drop 288).length = received.length := by
    simp only [List.length_take, List.length_drop]
    omega
  have he : received.take 288 = [] ↔ received = [] := by
    cases received <;> simp
  have h4 : guardedLength (received.take 288) 4 = guardedLength received 4 := guardedLength_take (by omega)
  simp only [judge, judgeAll, hn, he, h4, byteOf_take (show 0 < 288 by omega)]
  by_cases c1 : received = [] ∨ byteOf received 0 ≠ syncValue
  · simp only [c1, if_true]
  simp only [c1, if_false]
  by_cases c2 : received.length < 8
  · simp only [c2, if_true]
  simp only [c2, if_false]
  by_cases c3 : guardedLength received 4 ≤ 16 ∧ received.length < 12 + guardedLength received 4
  · simp only [c3, and_self, if_true]
  simp only [c3, if_false]
  by_cases c4 : 16 < guardedLength received 4
  · simp only [c4, true_or, if_true]
  have h8 : guardedLength (received.take 288) (8 + guardedLength received 4) =
      guardedLength received (8 + guardedLength received 4) := guardedLength_take (by omega)
  simp only [h8]
  by_cases c5 : 16 < guardedLength received 4 ∨ 256 < guardedLength received (8 + guardedLength received 4)
  · simp only [c5, if_true]
  simp only [c5, if_false]
  generalize guardedLength received 4 = pl at *
  generalize guardedLength received (8 + pl) = dl at *
  by_cases c6 : received.length < 16 + pl + dl
  · simp only [c6, if_true]
  simp only [c6, if_false, judgeFrame]
  have hdrop : (received.take 288).drop (16 + pl + dl) ++ received.drop 288 = received.drop (16 + pl + dl) := by
    conv_rhs => rw [← List.take_append_drop 288 received]
    rw [List.drop_append_of_le_length]
    simp only [List.length_take]
    omega
  have htake : (received.take 288).take (12 + pl + dl) = received.take (12 + pl + dl) := by
    rw [List.take_take, Nat.min_eq_left (by omega)]
  have hcode : guardedCode (received.take 288) = guardedCode received := by
    simp only [guardedCode]
    rw [byteOf_take (by omega), byteOf_take (by omega)]
  have hparams : ((received.take 288).drop 8).take pl = (received.drop 8).take pl := by
    rw [List.drop_take, List.take_take, Nat.min_eq_left (by omega)]
  have hpayload : ((received.take 288).drop (12 + pl)).take dl = (received.drop (12 + pl)).take dl := by
    rw [List.drop_take, List.take_take, Nat.min_eq_left (by omega)]
  rw [hdrop, htake, hcode, hparams, hpayload, byteOf_take (by omega), byteOf_take (by omega), byteOf_take (by omega),
    byteOf_take (by omega), byteOf_take (by omega)]

/-! ### A frame that carries a request -/

/-- The two bytes of a word read back as the word. -/
theorem word16_bytes (w : BitVec 16) : word16 (w.extractLsb' 8 8) (w.extractLsb' 0 8) = w := by
  simp only [word16]
  ext k hk
  simp only [BitVec.getElem_append, BitVec.getElem_extractLsb']
  split <;> simp [BitVec.getLsbD_eq_getElem, *]
  · congr 1
    simp only
    omega

theorem byteOf_append_right {l m : List Byte} {k : Nat} (h : l.length ≤ k) :
    byteOf (l ++ m) k = byteOf m (k - l.length) := by
  simp [byteOf, List.getElem?_append_right h]

/-- The length of a request frame. -/
theorem requestFrame_length (id code : Byte) (params payload : List Byte) :
    (requestFrame id code params payload).length = 16 + params.length + payload.length := by
  simp [requestFrame, bytes16]
  omega

/-- The parts of a request frame, filler behind it. -/
theorem requestFrame_parts (id code : Byte) (params payload : List Byte) (fillers : List Byte) :
    ∃ crc : BitVec 16,
      requestFrame id code params payload ++ fillers =
        ([syncValue, id, code, ~~~code] ++ bytes16 (BitVec.ofNat 16 params.length) ++
            bytes16 (~~~(BitVec.ofNat 16 params.length))) ++
          (params ++ ((bytes16 (BitVec.ofNat 16 payload.length) ++ bytes16 (~~~(BitVec.ofNat 16 payload.length))) ++
            (payload ++ (bytes16 crc ++ (bytes16 (~~~crc) ++ fillers))))) ∧
      crc = crc16 (((requestFrame id code params payload ++ fillers).take (12 + params.length + payload.length)).drop
        1) := by
  refine ⟨crc16 (((requestFrame id code params payload ++ fillers).take
    (12 + params.length + payload.length)).drop 1), ?_, rfl⟩
  · have cut : ((requestFrame id code params payload ++ fillers).take (12 + params.length + payload.length)).drop 1 =
        [id, code, ~~~code] ++ bytes16 (BitVec.ofNat 16 params.length) ++
          bytes16 (~~~(BitVec.ofNat 16 params.length)) ++ params ++ bytes16 (BitVec.ofNat 16 payload.length) ++
          bytes16 (~~~(BitVec.ofNat 16 payload.length)) ++ payload := by
      have shape : requestFrame id code params payload ++ fillers =
          ([syncValue] ++ ([id, code, ~~~code] ++ bytes16 (BitVec.ofNat 16 params.length) ++
            bytes16 (~~~(BitVec.ofNat 16 params.length)) ++ params ++ bytes16 (BitVec.ofNat 16 payload.length) ++
            bytes16 (~~~(BitVec.ofNat 16 payload.length)) ++ payload)) ++
          (bytes16 (crc16 ([id, code, ~~~code] ++ bytes16 (BitVec.ofNat 16 params.length) ++
            bytes16 (~~~(BitVec.ofNat 16 params.length)) ++ params ++ bytes16 (BitVec.ofNat 16 payload.length) ++
            bytes16 (~~~(BitVec.ofNat 16 payload.length)) ++ payload)) ++
          (bytes16 (~~~(crc16 ([id, code, ~~~code] ++ bytes16 (BitVec.ofNat 16 params.length) ++
            bytes16 (~~~(BitVec.ofNat 16 params.length)) ++ params ++ bytes16 (BitVec.ofNat 16 payload.length) ++
            bytes16 (~~~(BitVec.ofNat 16 payload.length)) ++ payload))) ++ fillers)) := by
        simp only [requestFrame, List.append_assoc]
      rw [shape, List.take_left']
      · rfl
      · simp [bytes16]
        omega
    rw [cut]
    simp only [requestFrame, List.append_assoc, List.cons_append, List.nil_append]

/-- A request frame, with filler behind it, is good and carries the request. -/
theorem judgeAll_requestFrame (id code : Byte) (params payload : List Byte) (k : Nat) (hp : params.length ≤ 16)
    (hl : payload.length ≤ 256) :
    judgeAll (requestFrame id code params payload ++ List.replicate k fillerValue) =
      .good { id := id, code := some code, params := params, payload := payload } := by
  obtain ⟨crc, parts, hcrc⟩ := requestFrame_parts id code params payload (List.replicate k fillerValue)
  have hlen : (requestFrame id code params payload ++ List.replicate k fillerValue).length =
      16 + params.length + payload.length + k := by
    rw [List.length_append, requestFrame_length, List.length_replicate]
  generalize requestFrame id code params payload ++ List.replicate k fillerValue = frame at *
  have g4 : guardedLength frame 4 = params.length := by
    have : guardedLength frame 4 = guardedLength ([syncValue, id, code, ~~~code] ++
        bytes16 (BitVec.ofNat 16 params.length) ++ bytes16 (~~~(BitVec.ofNat 16 params.length))) 4 := by
      rw [parts]
      rfl
    rw [this]
    simp only [guardedLength, bytes16, byteOf]
    simp [word16_bytes]
    omega
  have skip : ∀ j, byteOf frame (8 + params.length + j) =
      byteOf ((bytes16 (BitVec.ofNat 16 payload.length) ++ bytes16 (~~~(BitVec.ofNat 16 payload.length))) ++
        (payload ++ (bytes16 crc ++ (bytes16 (~~~crc) ++ List.replicate k fillerValue)))) j := by
    intro j
    rw [parts, byteOf_append_right (by simp [bytes16]; omega), byteOf_append_right (by simp [bytes16]; omega)]
    congr 1
    simp [bytes16]
    omega
  have g8 : guardedLength frame (8 + params.length) = payload.length := by
    simp only [guardedLength, Nat.add_assoc]
    rw [show byteOf frame (8 + params.length) = byteOf frame (8 + params.length + 0) from rfl]
    simp only [← Nat.add_assoc, skip]
    simp [byteOf, bytes16, word16_bytes]
    omega
  have tail : ∀ j, byteOf frame (12 + params.length + payload.length + j) =
      byteOf (bytes16 crc ++ (bytes16 (~~~crc) ++ List.replicate k fillerValue)) j := by
    intro j
    rw [show 12 + params.length + payload.length + j = 8 + params.length + (4 + payload.length + j) by omega, skip,
      byteOf_append_right (by simp [bytes16]; omega), byteOf_append_right (by simp [bytes16]; omega)]
    congr 1
    simp [bytes16]
    omega
  have c0 : word16 (byteOf frame (12 + params.length + payload.length))
      (byteOf frame (13 + params.length + payload.length)) = crc := by
    rw [show 12 + params.length + payload.length = 12 + params.length + payload.length + 0 from rfl,
      show 13 + params.length + payload.length = 12 + params.length + payload.length + 1 by omega, tail, tail]
    exact word16_bytes crc
  have c1 : word16 (byteOf frame (14 + params.length + payload.length))
      (byteOf frame (15 + params.length + payload.length)) = ~~~crc := by
    rw [show 14 + params.length + payload.length = 12 + params.length + payload.length + 2 by omega,
      show 15 + params.length + payload.length = 12 + params.length + payload.length + 3 by omega, tail, tail]
    exact word16_bytes (~~~crc)
  have b0 : byteOf frame 0 = syncValue := by
    rw [parts]
    rfl
  have b1 : byteOf frame 1 = id := by
    rw [parts]
    rfl
  have bc : guardedCode frame = some code := by
    have h2 : byteOf frame 2 = code := by
      rw [parts]
      rfl
    have h3 : byteOf frame 3 = ~~~code := by
      rw [parts]
      rfl
    simp [guardedCode, h2, h3]
  have bp : (frame.drop 8).take params.length = params := by
    rw [parts, List.drop_left' (by simp [bytes16]), List.take_left]
  have bd : (frame.drop (12 + params.length)).take payload.length = payload := by
    have : frame.drop (12 + params.length) =
        payload ++ (bytes16 crc ++ (bytes16 (~~~crc) ++ List.replicate k fillerValue)) := by
      rw [parts, ← List.append_assoc, ← List.append_assoc, List.drop_left']
      simp [bytes16]
      omega
    rw [this, List.take_left]
  have rest : frame.drop (16 + params.length + payload.length) = List.replicate k fillerValue := by
    rw [parts, ← List.append_assoc, ← List.append_assoc, ← List.append_assoc, ← List.append_assoc,
      ← List.append_assoc, List.drop_left']
    simp [bytes16]
    omega
  have ne : frame ≠ [] := by
    intro e
    rw [e] at hlen
    simp at hlen
    omega
  simp only [judgeAll, g4, g8, c0, c1, b0, b1, bc, bp, bd, rest, hlen, ← hcrc]
  rw [if_neg (by simp [ne]), if_neg (by omega), if_neg (by omega), if_neg (by omega), if_neg (by omega),
    if_neg (by simp), if_neg (by simp)]

/-! ### The lines of a port and the placed response -/

/-- R126: when a notice of the port shows. -/
theorem noticesWaiting_iff (s : State) (p : Port) : s.noticesWaiting p = true ↔ NoticeShows s p := by
  have code : ∀ c : Byte, Command.ofCode c = some .takeNotices ↔ c = 0x40 := by decide +kernel
  have named : ∀ c : Option Byte, c.bind Command.ofCode = some .takeNotices ↔ c = some 0x40 := fun c => by
    cases c <;> simp [code]
  unfold State.noticesWaiting NoticeShows State.takingNotices
  simp only [Bool.or_eq_true]
  refine or_congr (by simp) ?_
  cases hl : (s.link p).state <;> cases hc : s.core <;> simp [Request.command, named, and_assoc]

/-- R164: the bytes that the CRC of a response covers, with the flags byte written out. -/
theorem responseBody_eq (id : Byte) (f : LinkFlags) (r : Reply) : responseBody id f r = responseBodyOf id f r := by
  have : f.byte = BitVec.ofNat 8 ((if f.truncated then 1 else 0) + (if f.badcheck then 2 else 0) +
      (if f.collided then 4 else 0) + (if f.superseded then 8 else 0)) := by
    obtain ⟨a, b, c, d⟩ := f
    revert a b c d
    decide
  simp [responseBody, responseBodyOf, this, byte1]

end Sys2Proof.Laws
end

