-- ==== Sys2Proof/Laws/Memory.lean ====
section
/-! SUPPORT. The block memory: read after write, and that every write keeps the canonical form. -/

namespace Sys2Proof.Machine

/-- A written byte reads as written. -/
@[simp] theorem Memory.read_write_self (m : Memory) (h : m.Pairwise (fun x y => x.1 < y.1)) (a : Nat) (v : Byte) :
    (Memory.write m a v).read a = v := by
  induction m with
  | nil =>
    by_cases hv : v = 0#8 <;> simp [Memory.write, Memory.read, hv]
  | cons c rest ih =>
    obtain ⟨b, w⟩ := c
    rw [List.pairwise_cons] at h
    have beyond : ∀ k, k ≤ b → Memory.read rest k = 0#8 := by
      intro k hk
      have : ∀ x ∈ rest, k < x.1 := fun x hx => Nat.lt_of_le_of_lt hk (h.1 x hx)
      clear ih h
      induction rest with
      | nil => rfl
      | cons d t ih2 =>
        have hd := this d (by simp)
        simp only [Memory.read]
        rw [if_neg (by omega)]
        exact ih2 (fun x hx => this x (by simp [hx]))
    simp only [Memory.write]
    split
    · rename_i lt
      by_cases hv : v = 0#8
      · simp only [hv, if_true, Memory.read]
        rw [if_neg (by omega)]
        exact beyond a (Nat.le_of_lt lt)
      · simp [hv, Memory.read]
    · split
      · rename_i e
        by_cases hv : v = 0#8
        · simp only [hv, if_true]
          exact beyond a (by omega)
        · simp [hv, Memory.read]
      · rename_i n1 n2
        simp only [Memory.read, if_neg n2]
        exact ih h.2

/-- A write leaves every other byte. -/
theorem Memory.read_write_ne (m : Memory) (a k : Nat) (v : Byte) (ne : k ≠ a) :
    (Memory.write m a v).read k = m.read k := by
  induction m with
  | nil =>
    by_cases hv : v = 0#8
    · simp [Memory.write, Memory.read, hv]
    · simp [Memory.write, Memory.read, hv, ne]
  | cons c rest ih =>
    obtain ⟨b, w⟩ := c
    simp only [Memory.write]
    split
    · by_cases hv : v = 0#8
      · simp [hv]
      · simp [hv, Memory.read, ne]
    · split
      · rename_i e
        by_cases hv : v = 0#8
        · simp only [hv, if_true, Memory.read]
          rw [if_neg (by omega)]
        · simp only [hv, if_false, Memory.read]
          rw [if_neg ne, if_neg (by omega)]
      · simp only [Memory.read]
        rw [ih]

/-- What a cell of a written memory is: the written byte, or a cell from before at another address. -/
theorem Memory.mem_write (m : Memory) (a : Nat) (v : Byte) (c : Host.Cell) (h : c ∈ Memory.write m a v) :
    (c = (a, v) ∧ v ≠ 0#8) ∨ c ∈ m := by
  induction m with
  | nil =>
    by_cases hv : v = 0#8
    · simp [Memory.write, hv] at h
    · simp [Memory.write, hv] at h
      exact .inl ⟨h, hv⟩
  | cons d rest ih =>
    obtain ⟨b, w⟩ := d
    simp only [Memory.write] at h
    split at h
    · by_cases hv : v = 0#8
      · rw [if_pos hv] at h
        exact .inr h
      · rw [if_neg hv, List.mem_cons] at h
        rcases h with h | h
        · exact .inl ⟨h, hv⟩
        · exact .inr h
    · split at h
      · by_cases hv : v = 0#8
        · rw [if_pos hv] at h
          exact .inr (List.mem_cons_of_mem _ h)
        · rw [if_neg hv, List.mem_cons] at h
          rcases h with h | h
          · exact .inl ⟨h, hv⟩
          · exact .inr (List.mem_cons_of_mem _ h)
      · rw [List.mem_cons] at h
        rcases h with h | h
        · exact .inr (h ▸ List.mem_cons_self)
        · rcases ih h with h | h
          · exact .inl h
          · exact .inr (List.mem_cons_of_mem _ h)

/-- A write keeps the addresses strictly rising. -/
theorem Memory.write_sorted (m : Memory) (a : Nat) (v : Byte) (h : m.Pairwise (fun x y => x.1 < y.1)) :
    (Memory.write m a v).Pairwise (fun x y => x.1 < y.1) := by
  induction m with
  | nil => by_cases hv : v = 0#8 <;> simp [Memory.write, hv]
  | cons d rest ih =>
    obtain ⟨b, w⟩ := d
    have h' := List.pairwise_cons.mp h
    simp only [Memory.write]
    split
    · rename_i lt
      by_cases hv : v = 0#8
      · rw [if_pos hv]
        exact h
      · rw [if_neg hv, List.pairwise_cons]
        refine ⟨fun x hx => ?_, h⟩
        rcases List.mem_cons.mp hx with e | e
        · subst e
          exact lt
        · exact Nat.lt_trans lt (h'.1 x e)
    · split
      · rename_i e
        by_cases hv : v = 0#8
        · rw [if_pos hv]
          exact h'.2
        · rw [if_neg hv, List.pairwise_cons]
          exact ⟨fun x hx => by have := h'.1 x hx; simp only at this ⊢; omega, h'.2⟩
      · rename_i n1 n2
        rw [List.pairwise_cons]
        refine ⟨fun x hx => ?_, ih h'.2⟩
        rcases Memory.mem_write rest a v x hx with ⟨e, _⟩ | e
        · subst e
          simp only
          omega
        · exact h'.1 x e

/-- A write inside the Block Pool keeps the canonical form. -/
theorem Memory.write_wf (m : Memory) (a : Nat) (v : Byte) (h : Memory.wf m) (ha : a < memorySize) :
    Memory.wf (Memory.write m a v) := by
  refine ⟨Memory.write_sorted m a v h.1, fun c hc => ?_⟩
  rcases Memory.mem_write m a v c hc with ⟨e, hv⟩ | e
  · subst e
    exact ⟨hv, ha⟩
  · exact h.2 c e

/-- Every byte of a block lies inside the Block Pool. -/
theorem blockAddress_lt (b : BlockId) (o : Nat) (h : o < 64) : blockAddress b o < memorySize := by
  have := b.isLt
  simp only [blockAddress, memorySize]
  omega

/-- Writing bytes of a block keeps the canonical form. -/
theorem Memory.writeBlock_wf (b : BlockId) (f : Nat → Byte) (n : Nat) (m : Memory) (h : Memory.wf m) (hn : n ≤ 64) :
    Memory.wf (Memory.writeBlock b f n m) := by
  induction n with
  | zero => exact h
  | succ k ih => exact Memory.write_wf _ _ _ (ih (by omega)) (blockAddress_lt b k (by omega))

/-- Writing bytes of a block leaves every address outside it. -/
theorem Memory.read_writeBlock_ne (b : BlockId) (f : Nat → Byte) (n : Nat) (m : Memory) (a : Nat)
    (h : ∀ o, o < n → a ≠ blockAddress b o) : (Memory.writeBlock b f n m).read a = m.read a := by
  induction n with
  | zero => rfl
  | succ k ih =>
    simp only [Memory.writeBlock]
    rw [Memory.read_write_ne _ _ _ _ (h k (by omega))]
    exact ih (fun o ho => h o (by omega))

/-- The empty memory is canonical. -/
theorem Memory.wf_empty : Memory.wf [] := ⟨List.Pairwise.nil, fun _ h => nomatch h⟩

end Sys2Proof.Machine
end

