-- ==== Sys2Proof/Laws/Operands.lean ====
section
/-! SUPPORT. What the operand layouts read from parameter bytes: the fields of a good request, and that a layout answers
nothing exactly in the cases in which the rules say BAD_ARGUMENT. -/

namespace Sys2Proof.Laws

open Sys2Proof.Machine Sys2Proof.Safety

/-! ### Fields -/

/-- The byte of a stream number reads as that stream. -/
@[simp] theorem streamField_streamByte (i : StreamId) : streamField (streamByte i) = some i := by
  revert i
  decide

/-- The byte of a stream number is below 64. -/
@[simp] theorem streamByte_toNat (i : StreamId) : (streamByte i).toNat = i.val := by
  revert i
  decide

/-- The byte of a port number reads as that port. -/
@[simp] theorem portField_byte (q : Port) : portField (BitVec.ofNat 8 q.val) = some q := by
  revert q
  decide

/-- A two-byte field as a number. -/
theorem word16_toNat (hi lo : Byte) : (word16 hi lo).toNat = 256 * hi.toNat + lo.toNat := by
  have h1 := hi.isLt
  have h2 := lo.isLt
  simp only [word16, BitVec.toNat_append, Nat.shiftLeft_eq]
  rw [← Nat.shiftLeft_eq, ← Nat.shiftLeft_add_eq_or_of_lt h2, Nat.shiftLeft_eq]
  omega

/-- The two-way code 0. -/
theorem twoWay_zero {b : Byte} (h : b.toNat = 0) : twoWay b = some false := by
  have : b = 0 := BitVec.eq_of_toNat_eq (by simpa using h)
  simp [twoWay, this]

/-- The two-way code 1. -/
theorem twoWay_one {b : Byte} (h : b.toNat = 1) : twoWay b = some true := by
  have : b = 1 := BitVec.eq_of_toNat_eq (by simpa using h)
  simp [twoWay, this]

/-- A two-way code that is in range. -/
theorem twoWay_le {b : Byte} (h : b.toNat ≤ 1) : twoWay b = some (decide (b.toNat = 1)) := by
  rcases Nat.le_one_iff_eq_zero_or_eq_one.mp h with e | e
  · simp [twoWay_zero e, e]
  · simp [twoWay_one e, e]

/-- A number in range. -/
theorem inRange_some {lo hi n : Nat} (h1 : lo ≤ n) (h2 : n ≤ hi) : inRange lo hi n = some n := by
  simp [inRange, h1, h2]

/-- The mask byte of ATTACH. -/
theorem maskField_lt {b : Byte} (h : b.toNat < 4) :
    maskField b = some { response := b.getLsbD 0, notice := b.getLsbD 1 } := by simp [maskField, h]

/-- The length of a message is between 1 and 4096 exactly when its block count is between 1 and 64. -/
theorem blocksFor_eq (n : Nat) : blocksFor n = (n + 63) / 64 := rfl

/-! ### Layouts that find nothing -/

theorem streamField_none {b : Byte} : streamField b = none ↔ 63 < b.toNat := by
  simp only [streamField]
  split <;> simp <;> omega

theorem portField_none {b : Byte} : portField b = none ↔ 3 < b.toNat := by
  simp only [portField]
  split <;> simp <;> omega

theorem twoWay_none {b : Byte} : twoWay b = none ↔ 1 < b.toNat := by
  constructor
  · intro h
    by_contra c
    rw [twoWay_le (by omega)] at h
    simp at h
  · intro h
    have h0 : b ≠ 0 := by
      intro e
      simp [e] at h
    have h1 : b ≠ 1 := by
      intro e
      simp [e] at h
    rw [twoWay, if_neg h0, if_neg h1]

theorem maskField_none {b : Byte} : maskField b = none ↔ 3 < b.toNat := by
  simp only [maskField]
  split <;> simp <;> omega

theorem inRange_none {lo hi n : Nat} : inRange lo hi n = none ↔ n < lo ∨ hi < n := by
  simp only [inRange]
  split <;> simp <;> omega

theorem noPayload_none {r : Request} : noPayload r = none ↔ r.payload ≠ [] := by
  simp only [noPayload]
  split <;> simp_all

/-! ### Layouts of good requests -/

theorem streamArg_good (i : StreamId) (id : Byte) (c : Option Byte) :
    Request.streamArg { id := id, code := c, params := [streamByte i], payload := [] } = some i := by
  simp [Request.streamArg, noPayload]

theorem appendArg_good (i : StreamId) (id : Byte) (c : Option Byte) (data : List Byte) (h : 1 ≤ data.length) :
    Request.appendArg { id := id, code := c, params := [streamByte i], payload := data } = some i := by
  have : data ≠ [] := by
    intro e
    simp [e] at h
  simp [Request.appendArg, this]

theorem streamFlagArgs_good (i : StreamId) (f id : Byte) (c : Option Byte) (h : f.toNat ≤ 1) :
    Request.streamFlagArgs { id := id, code := c, params := [streamByte i, f], payload := [] } =
      some { stream := i, flag := decide (f.toNat = 1) } := by
  simp [Request.streamFlagArgs, noPayload, twoWay_le h]

theorem defineArgs_good (i : StreamId) (policy l1 l0 m1 m0 depth id : Byte) (c : Option Byte) (h1 : policy.toNat ≤ 1)
    (h2 : 1 ≤ (word16 l1 l0).toNat) (h3 : (word16 l1 l0).toNat ≤ 2048) (h4 : 1 ≤ (word16 m1 m0).toNat)
    (h5 : (word16 m1 m0).toNat ≤ 4096) (h6 : depth.toNat ≤ 15)
    (h7 : blocksFor (word16 m1 m0).toNat ≤ (word16 l1 l0).toNat) :
    Request.defineArgs
        { id := id, code := c, params := [streamByte i, policy, l1, l0, m1, m0, depth], payload := [] } =
      some { stream := i, settings :=
        { policy := if policy.toNat = 0 then .hold else .shed, blockLimit := (word16 l1 l0).toNat,
          maxLength := (word16 m1 m0).toNat, retainDepth := depth.toNat } } := by
  have h8 := inRange_some (Nat.zero_le _) h7
  rcases Nat.le_one_iff_eq_zero_or_eq_one.mp h1 with e | e <;>
    simp [Request.defineArgs, noPayload, twoWay_le h1, inRange_some h2 h3, inRange_some h4 h5,
      inRange_some (Nat.zero_le _) h6, h8, e]

theorem openArgs_good (i : StreamId) (l1 l0 t1 t0 u id : Byte) (c : Option Byte) (h1 : 1 ≤ (word16 l1 l0).toNat)
    (h2 : (word16 l1 l0).toNat ≤ 4096) (h3 : u.toNat ≤ 1) :
    Request.openArgs { id := id, code := c, params := [streamByte i, l1, l0, t1, t0, u], payload := [] } =
      some { stream := i, length := (word16 l1 l0).toNat, tag := t1 ++ t0, urgent := decide (u.toNat = 1) } := by
  simp [Request.openArgs, noPayload, twoWay_le h3, inRange_some h1 h2]
  rfl

theorem joinArgs_good (i : StreamId) (f l1 l0 b id : Byte) (c : Option Byte) (h1 : f.toNat ≤ 1)
    (h2 : (word16 l1 l0).toNat ≤ 511) (h3 : 1 ≤ b.toNat) (h4 : b.toNat ≤ 8) :
    Request.joinArgs { id := id, code := c, params := [streamByte i, f, l1, l0, b], payload := [] } =
      some { stream := i, atNext := decide (f.toNat = 1), lagMark := (word16 l1 l0).toNat, batch := b.toNat } := by
  simp [Request.joinArgs, noPayload, twoWay_le h1, inRange_some (Nat.zero_le _) h2, inRange_some h3 h4]

theorem evictArgs_good (i : StreamId) (q : Port) (id : Byte) (c : Option Byte) :
    Request.evictArgs { id := id, code := c, params := [streamByte i, BitVec.ofNat 8 q.val], payload := [] } =
      some { stream := i, port := q } := by
  simp [Request.evictArgs, noPayload]

theorem readArgs_good (i : StreamId) (m1 m0 id : Byte) (c : Option Byte) (h1 : 1 ≤ (word16 m1 m0).toNat)
    (h2 : (word16 m1 m0).toNat ≤ 256) :
    Request.readArgs { id := id, code := c, params := [streamByte i, m1, m0], payload := [] } =
      some { stream := i, most := (word16 m1 m0).toNat } := by
  simp [Request.readArgs, noPayload, inRange_some h1 h2]

theorem releaseArgs_good (i : StreamId) (s1 s0 id : Byte) (c : Option Byte) :
    Request.releaseArgs { id := id, code := c, params := [streamByte i, s1, s0], payload := [] } =
      some { stream := i, sequence := s1 ++ s0 } := by
  simp [Request.releaseArgs, noPayload, word16]

theorem takeArg_good (k id : Byte) (c : Option Byte) (h1 : 1 ≤ k.toNat) (h2 : k.toNat ≤ 8) :
    Request.takeArg { id := id, code := c, params := [k], payload := [] } = some k.toNat := by
  simp [Request.takeArg, noPayload, inRange_some h1 h2]

theorem scrubArg_good (n id : Byte) (c : Option Byte) (h1 : 1 ≤ n.toNat) (h2 : n.toNat ≤ 16) :
    Request.scrubArg { id := id, code := c, params := [n], payload := [] } = some n.toNat := by
  simp [Request.scrubArg, noPayload, inRange_some h1 h2]

theorem attachArgs_good (mode lease flush mask id : Byte) (c : Option Byte) (h1 : mode.toNat ≤ 1)
    (h2 : mask.toNat < 4) :
    Request.attachArgs { id := id, code := c, params := [mode, lease, flush, mask], payload := [] } =
      some { resume := decide (mode.toNat = 1), leasePeriod := lease.toNat, flushPeriod := flush.toNat,
             mask := { response := mask.getLsbD 0, notice := mask.getLsbD 1 } } := by
  simp [Request.attachArgs, noPayload, twoWay_le h1, maskField_lt h2]

/-! ### Streams that are DEFINED -/

theorem defined_of_ne {r : StreamRecord} (h : r.settings ≠ none) : r.defined = true := by
  simpa [StreamRecord.defined, Option.isSome_iff_ne_none] using h

theorem not_defined {r : StreamRecord} (h : r.settings = none) : r.defined = false := by
  simp [StreamRecord.defined, h]

/-- A two-byte parameter as the layouts read it. -/
theorem paramWord_eq (params : List Byte) (k : Nat) :
    paramWord params k = (word16 (params.getD k 0) (params.getD (k + 1) 0)).toNat := by
  simp [paramWord, paramAt, word16_toNat]

/-! ### Layouts that answer BAD_ARGUMENT -/

/-- A check either fails, in its bad case, or answers a value, outside it. -/
theorem checked {α : Type} {x : Option α} {bad : Prop} (h : x = none ↔ bad) :
    (x = none ∧ bad) ∨ (∃ a, x = some a ∧ ¬bad) := by
  cases x with
  | none => exact .inl ⟨rfl, h.mp rfl⟩
  | some a => exact .inr ⟨a, rfl, fun c => by simpa using h.mpr c⟩

/-- The value of a number in range is the number. -/
theorem inRange_value {lo hi n a : Nat} (h : inRange lo hi n = some a) : a = n := by
  simp only [inRange] at h
  split at h
  · exact (Option.some.inj h).symm
  · cases h

/-- R135: when ATTACH's operands are bad. -/
theorem attachArgs_none (r : Request) : r.attachArgs = none ↔ BadArguments .attach r.params r.payload := by
  rcases hp : r.params with _ | ⟨a, _ | ⟨b, _ | ⟨c, _ | ⟨d, _ | ⟨e, t⟩⟩⟩⟩⟩ <;>
    simp only [Request.attachArgs, BadArguments, hp] <;> try simp <;> done
  rcases checked (noPayload_none (r := r)) with ⟨h, n⟩ | ⟨_, h, n⟩ <;>
  rcases checked (twoWay_none (b := a)) with ⟨h2, n2⟩ | ⟨x2, h2, n2⟩ <;>
  rcases checked (maskField_none (b := d)) with ⟨h3, n3⟩ | ⟨x3, h3, n3⟩ <;>
  simp [h, h2, h3, paramAt] <;> simp_all

/-- When the operand of a command that names a stream and nothing else is bad. -/
theorem streamArg_none (r : Request) (x : Command)
    (hx : x = .dissolve ∨ x = .streamInfo ∨ x = .unclaim ∨ x = .commit ∨ x = .abort ∨ x = .leave) :
    r.streamArg = none ↔ BadArguments x r.params r.payload := by
  have e : BadArguments x r.params r.payload = BadArguments .dissolve r.params r.payload := by
    rcases hx with h | h | h | h | h | h <;> subst h <;> rfl
  rw [e]
  rcases hp : r.params with _ | ⟨a, _ | ⟨b, t⟩⟩ <;>
    simp only [Request.streamArg, BadArguments, hp] <;> try simp <;> done
  rcases checked (noPayload_none (r := r)) with ⟨h, n⟩ | ⟨_, h, n⟩ <;>
  rcases checked (streamField_none (b := a)) with ⟨h2, n2⟩ | ⟨x2, h2, n2⟩ <;>
  simp [h, h2, paramAt] <;> simp_all

/-- R47, R51: when APPEND's operands are bad. -/
theorem appendArg_none (r : Request) : r.appendArg = none ↔ BadArguments .append r.params r.payload := by
  rcases hp : r.params with _ | ⟨a, _ | ⟨b, t⟩⟩ <;>
    simp only [Request.appendArg, BadArguments, hp] <;> try simp <;> done
  rcases checked (streamField_none (b := a)) with ⟨h2, n2⟩ | ⟨x2, h2, n2⟩ <;>
  by_cases h : r.payload = [] <;>
  simp [h, h2, paramAt] <;> simp_all

/-- R38, R103: when the operands of CLAIM or SUB_INFO are bad. -/
theorem streamFlagArgs_none (r : Request) (x : Command) (hx : x = .claim ∨ x = .subInfo) :
    r.streamFlagArgs = none ↔ BadArguments x r.params r.payload := by
  have e : BadArguments x r.params r.payload = BadArguments .claim r.params r.payload := by
    rcases hx with h | h <;> subst h <;> rfl
  rw [e]
  rcases hp : r.params with _ | ⟨a, _ | ⟨b, _ | ⟨c, t⟩⟩⟩ <;>
    simp only [Request.streamFlagArgs, BadArguments, hp] <;> try simp <;> done
  rcases checked (noPayload_none (r := r)) with ⟨h, n⟩ | ⟨_, h, n⟩ <;>
  rcases checked (streamField_none (b := a)) with ⟨h2, n2⟩ | ⟨x2, h2, n2⟩ <;>
  rcases checked (twoWay_none (b := b)) with ⟨h3, n3⟩ | ⟨x3, h3, n3⟩ <;>
  simp [h, h2, h3, paramAt] <;> simp_all

/-- R48: when OPEN's operands are bad. -/
theorem openArgs_none (r : Request) : r.openArgs = none ↔ BadArguments .openMessage r.params r.payload := by
  rcases hp : r.params with _ | ⟨a, _ | ⟨b, _ | ⟨c, _ | ⟨d, _ | ⟨e, _ | ⟨f, _ | ⟨g, t⟩⟩⟩⟩⟩⟩⟩ <;>
    simp only [Request.openArgs, BadArguments, hp] <;> try simp <;> done
  rcases checked (noPayload_none (r := r)) with ⟨h, n⟩ | ⟨_, h, n⟩ <;>
  rcases checked (streamField_none (b := a)) with ⟨h2, n2⟩ | ⟨x2, h2, n2⟩ <;>
  rcases checked (inRange_none (lo := 1) (hi := 4096) (n := (word16 b c).toNat)) with ⟨h3, n3⟩ | ⟨x3, h3, n3⟩ <;>
  rcases checked (twoWay_none (b := f)) with ⟨h4, n4⟩ | ⟨x4, h4, n4⟩ <;>
  simp [h, h2, h3, h4, paramWord_eq] <;> simp_all [paramAt]
  all_goals omega

/-- R85: when JOIN's operands are bad. -/
theorem joinArgs_none (r : Request) : r.joinArgs = none ↔ BadArguments .join r.params r.payload := by
  rcases hp : r.params with _ | ⟨a, _ | ⟨b, _ | ⟨c, _ | ⟨d, _ | ⟨e, _ | ⟨f, t⟩⟩⟩⟩⟩⟩ <;>
    simp only [Request.joinArgs, BadArguments, hp] <;> try simp <;> done
  rcases checked (noPayload_none (r := r)) with ⟨h, n⟩ | ⟨_, h, n⟩ <;>
  rcases checked (streamField_none (b := a)) with ⟨h2, n2⟩ | ⟨x2, h2, n2⟩ <;>
  rcases checked (twoWay_none (b := b)) with ⟨h4, n4⟩ | ⟨x4, h4, n4⟩ <;>
  rcases checked (inRange_none (lo := 0) (hi := 511) (n := (word16 c d).toNat)) with ⟨h3, n3⟩ | ⟨x3, h3, n3⟩ <;>
  rcases checked (inRange_none (lo := 1) (hi := 8) (n := e.toNat)) with ⟨h5, n5⟩ | ⟨x5, h5, n5⟩ <;>
  simp [h, h2, h3, h4, h5, paramWord_eq] <;> simp_all [paramAt]

/-- R21: when DEFINE's operands are bad. -/
theorem defineArgs_none (r : Request) : r.defineArgs = none ↔ BadArguments .define r.params r.payload := by
  rcases hp : r.params with _ | ⟨a, _ | ⟨b, _ | ⟨c, _ | ⟨d, _ | ⟨e, _ | ⟨f, _ | ⟨g, _ | ⟨k, t⟩⟩⟩⟩⟩⟩⟩⟩ <;>
    simp only [Request.defineArgs, BadArguments, hp] <;> try simp <;> done
  rcases checked (noPayload_none (r := r)) with ⟨h, n⟩ | ⟨_, h, n⟩
  · simp [h, n]
  rcases checked (streamField_none (b := a)) with ⟨h2, n2⟩ | ⟨x2, h2, n2⟩
  · simp [h, h2, n2, paramAt]
  rcases checked (twoWay_none (b := b)) with ⟨h4, n4⟩ | ⟨x4, h4, n4⟩
  · simp [h, h2, h4, n4, paramAt]
  rcases checked (inRange_none (lo := 1) (hi := 2048) (n := (word16 c d).toNat)) with ⟨h3, n3⟩ | ⟨x3, h3, n3⟩
  · simp [h, h2, h4, h3, paramAt, paramWord_eq]
    omega
  rcases checked (inRange_none (lo := 1) (hi := 4096) (n := (word16 e f).toNat)) with ⟨h5, n5⟩ | ⟨x5, h5, n5⟩
  · simp [h, h2, h4, h3, h5, paramAt, paramWord_eq]
    omega
  rcases checked (inRange_none (lo := 0) (hi := 15) (n := g.toNat)) with ⟨h6, n6⟩ | ⟨x6, h6, n6⟩
  · simp [h, h2, h4, h3, h5, h6, paramAt, paramWord_eq]
    omega
  have e3 := inRange_value h3
  have e5 := inRange_value h5
  subst e3 e5
  rcases checked (inRange_none (lo := 0) (hi := (word16 c d).toNat) (n := blocksFor (word16 e f).toNat)) with ⟨h7, n7⟩ | ⟨x7, h7, n7⟩
  · simp only [blocksFor] at n7
    simp [h, h2, h4, h3, h5, h6, h7, paramAt, paramWord_eq]
    omega
  · simp only [blocksFor] at n7
    simp [h, h2, h4, h3, h5, h6, h7, paramAt, paramWord_eq]
    simp at n
    simp [n]
    omega

/-- R92: when EVICT's operands are bad. -/
theorem evictArgs_none (r : Request) : r.evictArgs = none ↔ BadArguments .evict r.params r.payload := by
  rcases hp : r.params with _ | ⟨a, _ | ⟨b, _ | ⟨c, t⟩⟩⟩ <;>
    simp only [Request.evictArgs, BadArguments, hp] <;> try simp <;> done
  rcases checked (noPayload_none (r := r)) with ⟨h, n⟩ | ⟨_, h, n⟩ <;>
  rcases checked (streamField_none (b := a)) with ⟨h2, n2⟩ | ⟨x2, h2, n2⟩ <;>
  rcases checked (portField_none (b := b)) with ⟨h3, n3⟩ | ⟨x3, h3, n3⟩ <;>
  simp [h, h2, h3, paramAt] <;> simp_all

/-- R95: when READ's operands are bad. -/
theorem readArgs_none (r : Request) : r.readArgs = none ↔ BadArguments .read r.params r.payload := by
  rcases hp : r.params with _ | ⟨a, _ | ⟨b, _ | ⟨c, _ | ⟨d, t⟩⟩⟩⟩ <;>
    simp only [Request.readArgs, BadArguments, hp] <;> try simp <;> done
  rcases checked (noPayload_none (r := r)) with ⟨h, n⟩ | ⟨_, h, n⟩ <;>
  rcases checked (streamField_none (b := a)) with ⟨h2, n2⟩ | ⟨x2, h2, n2⟩ <;>
  rcases checked (inRange_none (lo := 1) (hi := 256) (n := (word16 b c).toNat)) with ⟨h3, n3⟩ | ⟨x3, h3, n3⟩ <;>
  simp [h, h2, h3, paramWord_eq] <;> simp_all [paramAt]

/-- R99: when RELEASE's operands are bad. -/
theorem releaseArgs_none (r : Request) : r.releaseArgs = none ↔ BadArguments .release r.params r.payload := by
  rcases hp : r.params with _ | ⟨a, _ | ⟨b, _ | ⟨c, _ | ⟨d, t⟩⟩⟩⟩ <;>
    simp only [Request.releaseArgs, BadArguments, hp] <;> try simp <;> done
  rcases checked (noPayload_none (r := r)) with ⟨h, n⟩ | ⟨_, h, n⟩ <;>
  rcases checked (streamField_none (b := a)) with ⟨h2, n2⟩ | ⟨x2, h2, n2⟩ <;>
  simp [h, h2, paramAt] <;> simp_all

/-- R122: when TAKE_NOTICES's operand is bad. -/
theorem takeArg_none (r : Request) : r.takeArg = none ↔ BadArguments .takeNotices r.params r.payload := by
  rcases hp : r.params with _ | ⟨a, _ | ⟨b, t⟩⟩ <;>
    simp only [Request.takeArg, BadArguments, hp] <;> try simp <;> done
  rcases checked (noPayload_none (r := r)) with ⟨h, n⟩ | ⟨_, h, n⟩ <;>
  rcases checked (inRange_none (lo := 1) (hi := 8) (n := a.toNat)) with ⟨h3, n3⟩ | ⟨x3, h3, n3⟩ <;>
  simp [h, h3, paramAt] <;> simp_all

/-- R14: when SCRUB's operand is bad. -/
theorem scrubArg_none (r : Request) : r.scrubArg = none ↔ BadArguments .scrub r.params r.payload := by
  rcases hp : r.params with _ | ⟨a, _ | ⟨b, t⟩⟩ <;>
    simp only [Request.scrubArg, BadArguments, hp] <;> try simp <;> done
  rcases checked (noPayload_none (r := r)) with ⟨h, n⟩ | ⟨_, h, n⟩ <;>
  rcases checked (inRange_none (lo := 1) (hi := 16) (n := a.toNat)) with ⟨h3, n3⟩ | ⟨x3, h3, n3⟩ <;>
  simp [h, h3, paramAt] <;> simp_all

/-- When a command without operands carries some. -/
theorem noOperands_none (r : Request) : noOperands r = none ↔ r.params.length ≠ 0 ∨ r.payload ≠ [] := by
  simp only [noOperands]
  by_cases h1 : r.params = [] <;> by_cases h2 : r.payload = [] <;> simp [h1, h2]

end Sys2Proof.Laws
end

