-- ==== Sys2Proof/Laws/PerInstr.lean ====
section
/-! SUPPORT. One statement about each command, by constructor: a well-formed request fits the receive area of a link
(R148, R161). -/

namespace Sys2Proof.Laws.FrameLength

/-- R161: the length of the frame that carries a request with these parameter and payload bytes. -/
def declared (params payload : List Byte) : Nat := 16 + params.length + payload.length

/-- R148, R161: the frame of a well-formed request is from 16 to 288 bytes long, the size of the receive area. An ATTACH row
adds the mode byte. A rise of CSn leaves less than a byte incomplete (R148). The other rows carry nothing. -/
def Statement : Instr → Prop
  | .attachFresh p id params payload => (Instr.attachFresh p id params payload).wellFormed = true → declared (0#8 :: params) payload ≤ 288
  | .attachResume p id params payload => (Instr.attachResume p id params payload).wellFormed = true → declared (1#8 :: params) payload ≤ 288
  | .detach p id params payload => (Instr.detach p id params payload).wellFormed = true → declared params payload ≤ 288
  | .ping p id params payload => (Instr.ping p id params payload).wellFormed = true → declared params payload ≤ 288
  | .portInfo p id params payload => (Instr.portInfo p id params payload).wellFormed = true → declared params payload ≤ 288
  | .define p id params payload => (Instr.define p id params payload).wellFormed = true → declared params payload ≤ 288
  | .dissolve p id params payload => (Instr.dissolve p id params payload).wellFormed = true → declared params payload ≤ 288
  | .streamInfo p id params payload => (Instr.streamInfo p id params payload).wellFormed = true → declared params payload ≤ 288
  | .claim p id params payload => (Instr.claim p id params payload).wellFormed = true → declared params payload ≤ 288
  | .unclaim p id params payload => (Instr.unclaim p id params payload).wellFormed = true → declared params payload ≤ 288
  | .openMessage p id params payload => (Instr.openMessage p id params payload).wellFormed = true → declared params payload ≤ 288
  | .append p id params payload => (Instr.append p id params payload).wellFormed = true → declared params payload ≤ 288
  | .commit p id params payload => (Instr.commit p id params payload).wellFormed = true → declared params payload ≤ 288
  | .abort p id params payload => (Instr.abort p id params payload).wellFormed = true → declared params payload ≤ 288
  | .join p id params payload => (Instr.join p id params payload).wellFormed = true → declared params payload ≤ 288
  | .leave p id params payload => (Instr.leave p id params payload).wellFormed = true → declared params payload ≤ 288
  | .evict p id params payload => (Instr.evict p id params payload).wellFormed = true → declared params payload ≤ 288
  | .read p id params payload => (Instr.read p id params payload).wellFormed = true → declared params payload ≤ 288
  | .release p id params payload => (Instr.release p id params payload).wellFormed = true → declared params payload ≤ 288
  | .subInfo p id params payload => (Instr.subInfo p id params payload).wellFormed = true → declared params payload ≤ 288
  | .takeNotices p id params payload => (Instr.takeNotices p id params payload).wellFormed = true → declared params payload ≤ 288
  | .poolInfo p id params payload => (Instr.poolInfo p id params payload).wellFormed = true → declared params payload ≤ 288
  | .scrub p id params payload => (Instr.scrub p id params payload).wellFormed = true → declared params payload ≤ 288
  | .badCommand p id code params payload =>
    (Instr.badCommand p id code params payload).wellFormed = true → declared params payload ≤ 288
  | .csFall _ => True
  | .csRise p received lastBits => (Instr.csRise p received lastBits).wellFormed = true → lastBits.length < 8
  | .portReset _ => True
  | .resetAssert => True
  | .resetRelease => True
  | .initPassEnd => True
  | .tick => True
  | .leaseExpiry _ => True
  | .flushExpiry _ => True
  | .commandCompletion => True
  | .portResetRelease _ => True
  | .stampCounterRise => True
  | .refclkStop => True
  | .refclkReturn => True

/-- A frame that fits its length fields fits the receive area. -/
theorem fits (params payload : List Byte) (h : frameFits params payload = true) : declared params payload ≤ 288 := by
  simp only [frameFits, Bool.and_eq_true, decide_eq_true_eq] at h
  simp only [declared]
  omega

theorem attachFresh (p : Port) (id : Byte) (params payload : List Byte) : Statement (.attachFresh p id params payload) :=
  fits (0#8 :: params) payload

theorem attachResume (p : Port) (id : Byte) (params payload : List Byte) : Statement (.attachResume p id params payload) :=
  fits (1#8 :: params) payload

theorem detach (p : Port) (id : Byte) (params payload : List Byte) : Statement (.detach p id params payload) :=
  fits params payload

theorem ping (p : Port) (id : Byte) (params payload : List Byte) : Statement (.ping p id params payload) :=
  fits params payload

theorem portInfo (p : Port) (id : Byte) (params payload : List Byte) : Statement (.portInfo p id params payload) :=
  fits params payload

theorem define (p : Port) (id : Byte) (params payload : List Byte) : Statement (.define p id params payload) :=
  fits params payload

theorem dissolve (p : Port) (id : Byte) (params payload : List Byte) : Statement (.dissolve p id params payload) :=
  fits params payload

theorem streamInfo (p : Port) (id : Byte) (params payload : List Byte) : Statement (.streamInfo p id params payload) :=
  fits params payload

theorem claim (p : Port) (id : Byte) (params payload : List Byte) : Statement (.claim p id params payload) :=
  fits params payload

theorem unclaim (p : Port) (id : Byte) (params payload : List Byte) : Statement (.unclaim p id params payload) :=
  fits params payload

theorem openMessage (p : Port) (id : Byte) (params payload : List Byte) : Statement (.openMessage p id params payload) :=
  fits params payload

theorem append (p : Port) (id : Byte) (params payload : List Byte) : Statement (.append p id params payload) :=
  fits params payload

theorem commit (p : Port) (id : Byte) (params payload : List Byte) : Statement (.commit p id params payload) :=
  fits params payload

theorem abort (p : Port) (id : Byte) (params payload : List Byte) : Statement (.abort p id params payload) :=
  fits params payload

theorem join (p : Port) (id : Byte) (params payload : List Byte) : Statement (.join p id params payload) :=
  fits params payload

theorem leave (p : Port) (id : Byte) (params payload : List Byte) : Statement (.leave p id params payload) :=
  fits params payload

theorem evict (p : Port) (id : Byte) (params payload : List Byte) : Statement (.evict p id params payload) :=
  fits params payload

theorem read (p : Port) (id : Byte) (params payload : List Byte) : Statement (.read p id params payload) :=
  fits params payload

theorem release (p : Port) (id : Byte) (params payload : List Byte) : Statement (.release p id params payload) :=
  fits params payload

theorem subInfo (p : Port) (id : Byte) (params payload : List Byte) : Statement (.subInfo p id params payload) :=
  fits params payload

theorem takeNotices (p : Port) (id : Byte) (params payload : List Byte) : Statement (.takeNotices p id params payload) :=
  fits params payload

theorem poolInfo (p : Port) (id : Byte) (params payload : List Byte) : Statement (.poolInfo p id params payload) :=
  fits params payload

theorem scrub (p : Port) (id : Byte) (params payload : List Byte) : Statement (.scrub p id params payload) :=
  fits params payload

theorem badCommand (p : Port) (id : Byte) (code : Option Byte) (params payload : List Byte) :
    Statement (.badCommand p id code params payload) :=
  fun h => fits params payload (Bool.and_eq_true_iff.mp h).1

theorem csFall (p : Port) : Statement (.csFall p) := trivial

theorem csRise (p : Port) (received : List Byte) (lastBits : List Bool) :
    Statement (.csRise p received lastBits) :=
  fun h => of_decide_eq_true h

theorem portReset (p : Port) : Statement (.portReset p) := trivial

theorem resetAssert : Statement .resetAssert := trivial

theorem resetRelease : Statement .resetRelease := trivial

theorem initPassEnd : Statement .initPassEnd := trivial

theorem tick : Statement .tick := trivial

theorem leaseExpiry (p : Port) : Statement (.leaseExpiry p) := trivial

theorem flushExpiry (p : Port) : Statement (.flushExpiry p) := trivial

theorem commandCompletion : Statement .commandCompletion := trivial

theorem portResetRelease (p : Port) : Statement (.portResetRelease p) := trivial

theorem stampCounterRise : Statement .stampCounterRise := trivial

theorem refclkStop : Statement .refclkStop := trivial

theorem refclkReturn : Statement .refclkReturn := trivial

end Sys2Proof.Laws.FrameLength
end

