-- ==== Sys2Proof/Laws/Pool.lean ====
section
/-! SUPPORT. What the shared operations over the pool do: chains, return of blocks, staging, readers remaining. -/

namespace Sys2Proof.Machine

/-! ### Chains -/

/-- A chain is decided by the links of its own blocks. -/
theorem Pool.chainFrom_congr (q t : Pool) (n : Nat) (x : Option BlockId)
    (h : ∀ b ∈ q.chainFrom n x, (t.block b).next = (q.block b).next) : t.chainFrom n x = q.chainFrom n x := by
  induction n generalizing x with
  | zero => rfl
  | succ k ih =>
    cases x with
    | none => rfl
    | some b =>
      simp only [Pool.chainFrom] at h ⊢
      rw [h b (by simp), ih _ (fun c hc => h c (by simp [hc]))]

/-- A chain has at most as many blocks as are asked for. -/
theorem Pool.chainFrom_length_le (q : Pool) (n : Nat) (x : Option BlockId) : (q.chainFrom n x).length ≤ n := by
  induction n generalizing x with
  | zero => simp [Pool.chainFrom]
  | succ k ih =>
    cases x with
    | none => simp [Pool.chainFrom]
    | some b =>
      simp only [Pool.chainFrom, List.length_cons]
      exact Nat.succ_le_succ (ih _)

/-- A shorter chain from the same link is the front of a longer one. -/
theorem Pool.chainFrom_take (q : Pool) (n k : Nat) (x : Option BlockId) (h : k ≤ n) :
    q.chainFrom k x = (q.chainFrom n x).take k := by
  induction k generalizing n x with
  | zero => simp [Pool.chainFrom]
  | succ k ih =>
    cases n with
    | zero => omega
    | succ n =>
      cases x with
      | none => simp [Pool.chainFrom]
      | some b =>
        simp only [Pool.chainFrom, List.take_succ_cons]
        rw [ih n _ (by omega)]

/-- The link from one block of a chain to the next. -/
theorem Pool.chainFrom_next (q : Pool) (n k : Nat) (x : Option BlockId) (b c : BlockId)
    (hb : (q.chainFrom n x)[k]? = some b) (hc : (q.chainFrom n x)[k + 1]? = some c) : (q.block b).next = some c := by
  induction n generalizing k x with
  | zero => simp [Pool.chainFrom] at hb
  | succ n ih =>
    cases x with
    | none => simp [Pool.chainFrom] at hb
    | some a =>
      cases k with
      | zero =>
        simp only [Pool.chainFrom, List.getElem?_cons_zero, Option.some.injEq, List.getElem?_cons_succ] at hb hc
        subst hb
        cases n with
        | zero => simp [Pool.chainFrom] at hc
        | succ n =>
          cases e : (q.block a).next with
          | none => simp [e, Pool.chainFrom] at hc
          | some d => simpa [e, Pool.chainFrom] using hc
      | succ k => exact ih k _ (by simpa [Pool.chainFrom] using hb) (by simpa [Pool.chainFrom] using hc)

/-- A list of blocks, each linked to the next, is the chain from its front. -/
theorem Pool.chainFrom_of_links (q : Pool) (l : List BlockId)
    (h : ∀ (k : Nat) (b : BlockId), l[k]? = some b → k + 1 < l.length → (q.block b).next = l[k + 1]?) :
    q.chainFrom l.length l.head? = l := by
  induction l with
  | nil => rfl
  | cons b t ih =>
    simp only [List.length_cons, List.head?_cons, Pool.chainFrom]
    cases t with
    | nil => rfl
    | cons c u =>
      rw [h 0 b rfl (by simp)]
      simp only [List.getElem?_cons_succ, List.getElem?_cons_zero]
      have := ih (fun k d hd hk => by simpa using h (k + 1) d (by simpa using hd) (by simpa using hk))
      rw [List.head?_cons] at this
      rw [this]

/-! ### Return of blocks (R11) -/

/-- Whether a block holds a message. -/
abbrev BlockRecord.isHeld (r : BlockRecord) : Prop := r.state = .staged ∨ r.state = .committed

/-- The record of a returned block. -/
def BlockRecord.returned (r : BlockRecord) : BlockRecord :=
  { r with state := if r.failed then .quarantined else .free, next := none, fill := 0, owner := none }

/-- A returned block's record, and every other as before. -/
theorem Pool.returnBlock_block (q : Pool) (b c : BlockId) (h : (q.block b).isHeld) :
    (q.returnBlock b).block c = if b = c then (q.block b).returned else q.block c := by
  unfold Pool.returnBlock
  simp only [BlockRecord.isHeld] at h
  simp only [if_pos h]
  by_cases f : (q.block b).failed = true
  · simp only [f, if_true]
    exact (Pool.setBlock_block q b c _).trans (by simp [BlockRecord.returned, f])
  · simp only [f]
    simp only [Bool.not_eq_true] at f
    refine (Pool.setBlock_block q b c _).trans ?_
    simp only [BlockRecord.returned, f]
    split <;> simp

/-- Where a returned block goes. -/
theorem Pool.returnBlock_lists (q : Pool) (b : BlockId) (h : (q.block b).isHeld) :
    (q.returnBlock b).freeBlocks = q.freeBlocks ++ (if (q.block b).failed then [] else [b]) ∧
    (q.returnBlock b).quarantine = q.quarantine ++ (if (q.block b).failed then [b] else []) := by
  unfold Pool.returnBlock
  simp only [BlockRecord.isHeld] at h
  simp only [if_pos h]
  by_cases f : (q.block b).failed = true <;> simp [f]

/-- Returning a block leaves the bytes and the descriptors. -/
theorem Pool.returnBlock_kept (q : Pool) (b : BlockId) :
    (q.returnBlock b).bytes = q.bytes ∧ (q.returnBlock b).descriptors = q.descriptors ∧
      (q.returnBlock b).freeDescriptors = q.freeDescriptors := by
  unfold Pool.returnBlock
  dsimp only
  split
  · split <;> exact ⟨rfl, rfl, rfl⟩
  · exact ⟨rfl, rfl, rfl⟩

/-- Returning the blocks of a list leaves the bytes and the descriptors. -/
theorem Pool.returnBlocks_kept (l : List BlockId) (q : Pool) :
    (l.foldl Pool.returnBlock q).bytes = q.bytes ∧ (l.foldl Pool.returnBlock q).descriptors = q.descriptors ∧
      (l.foldl Pool.returnBlock q).freeDescriptors = q.freeDescriptors := by
  induction l generalizing q with
  | nil => exact ⟨rfl, rfl, rfl⟩
  | cons b t ih =>
    have k := Pool.returnBlock_kept q b
    have j := ih (q.returnBlock b)
    exact ⟨j.1.trans k.1, j.2.1.trans k.2.1, j.2.2.trans k.2.2⟩

/-- Returning a list of held blocks, once each: their records, every other as before, and the two lists. -/
theorem Pool.returnBlocks_held (l : List BlockId) (q : Pool) (once : l.Nodup) (held : ∀ b ∈ l, (q.block b).isHeld) :
    (∀ c, (l.foldl Pool.returnBlock q).block c = if c ∈ l then (q.block c).returned else q.block c) ∧
    (l.foldl Pool.returnBlock q).freeBlocks = q.freeBlocks ++ l.filter (fun b => !(q.block b).failed) ∧
    (l.foldl Pool.returnBlock q).quarantine = q.quarantine ++ l.filter (fun b => (q.block b).failed) := by
  induction l generalizing q with
  | nil => simp
  | cons b t ih =>
    obtain ⟨nb, nt⟩ := List.nodup_cons.mp once
    have hb := held b (by simp)
    have step := Pool.returnBlock_block q b
    have same : ∀ c ∈ t, (q.returnBlock b).block c = q.block c := by
      intro c hc
      rw [step c hb, if_neg]
      rintro rfl
      exact nb hc
    obtain ⟨i1, i2, i3⟩ := ih (q.returnBlock b) nt (fun c hc => by rw [same c hc]; exact held c (by simp [hc]))
    obtain ⟨l1, l2⟩ := Pool.returnBlock_lists q b hb
    refine ⟨fun c => ?_, ?_, ?_⟩
    · rw [List.foldl_cons, i1 c, step c hb]
      by_cases e : b = c
      · subst e
        simp [nb]
      · simp [Ne.symm e, e]
    · rw [List.foldl_cons, i2, l1, List.append_assoc]
      congr 1
      rw [List.filter_congr (q := fun c => !(q.block c).failed) (fun c hc => by rw [same c hc])]
      by_cases f : (q.block b).failed = true <;> simp [f]
    · rw [List.foldl_cons, i3, l2, List.append_assoc]
      congr 1
      rw [List.filter_congr (q := fun c => (q.block c).failed) (fun c hc => by rw [same c hc])]
      by_cases f : (q.block b).failed = true <;> simp [f]

/-! ### Staging (R8) -/

/-- The record of a block as it is staged for descriptor `d`. -/
def BlockRecord.stagedFor (r : BlockRecord) (d : DescId) (next : Option BlockId) : BlockRecord :=
  { r with state := .staged, next := next, fill := 0, failed := false, owner := some d }

/-- Staging writes block records only. -/
theorem Pool.stageChain_kept (d : DescId) (l : List BlockId) (q : Pool) :
    Pool.stageChain d l q = { q with blocks := (Pool.stageChain d l q).blocks } := by
  induction l generalizing q with
  | nil => rfl
  | cons b t ih =>
    rw [Pool.stageChain, ih]
    rfl

/-- Staging a list of blocks, once each: each is staged and linked to the next, and every other block is as before. -/
theorem Pool.stageChain_block (d : DescId) (l : List BlockId) (q : Pool) (once : l.Nodup) :
    (∀ (k : Nat) (b : BlockId), l[k]? = some b → (Pool.stageChain d l q).block b = (q.block b).stagedFor d l[k + 1]?) ∧
    (∀ b : BlockId, b ∉ l → (Pool.stageChain d l q).block b = q.block b) := by
  induction l generalizing q with
  | nil => simp [Pool.stageChain]
  | cons b t ih =>
    obtain ⟨nb, nt⟩ := List.nodup_cons.mp once
    obtain ⟨i1, i2⟩ := ih (q.setBlock b ((q.block b).stagedFor d t.head?)) nt
    refine ⟨fun k c hc => ?_, fun c hc => ?_⟩
    · cases k with
      | zero =>
        simp only [List.getElem?_cons_zero, Option.some.injEq] at hc
        subst hc
        refine (i2 b nb).trans ?_
        rw [Pool.setBlock_block_self]
        simp [List.head?_eq_getElem?]
      | succ k =>
        have ht : t[k]? = some c := by simpa using hc
        refine (i1 k c ht).trans ?_
        rw [Pool.setBlock_block, if_neg]
        · simp
        · rintro rfl
          exact nb (List.mem_of_getElem? ht)
    · simp only [List.mem_cons, not_or] at hc
      refine (i2 c hc.2).trans ?_
      rw [Pool.setBlock_block, if_neg (Ne.symm hc.1)]

/-! ### Readers remaining (R84) -/

/-- Changing a committed descriptor: that descriptor, when it is committed, and no other. -/
theorem Pool.updateCommitted_desc (q : Pool) (d e : DescId) (f : CommittedMessage → CommittedMessage) :
    (q.updateCommitted d f).desc e =
      if d = e then (match q.desc d with | .committed m => .committed (f m) | x => x) else q.desc e := by
  unfold Pool.updateCommitted
  cases h : q.desc d with
  | free => by_cases e' : d = e <;> simp_all
  | staged m => by_cases e' : d = e <;> simp_all
  | committed m => simp [Pool.setDesc_desc]

/-- Changing a committed descriptor writes descriptors only. -/
theorem Pool.updateCommitted_kept (q : Pool) (d : DescId) (f : CommittedMessage → CommittedMessage) :
    q.updateCommitted d f = { q with descriptors := (q.updateCommitted d f).descriptors } := by
  unfold Pool.updateCommitted
  split <;> rfl

@[simp] theorem Pool.updateCommitted_block (q : Pool) (d : DescId) (f : CommittedMessage → CommittedMessage)
    (b : BlockId) : (q.updateCommitted d f).block b = q.block b := by
  rw [Pool.updateCommitted_kept]
  rfl

/-- Lowering readers remaining writes descriptors only. -/
theorem Pool.lowerReaders_kept (ds : List DescId) (q : Pool) :
    q.lowerReaders ds = { q with descriptors := (q.lowerReaders ds).descriptors } := by
  unfold Pool.lowerReaders
  induction ds generalizing q with
  | nil => rfl
  | cons d t ih =>
    rw [List.foldl_cons, ih, Pool.updateCommitted_kept]

/-- Raising readers remaining writes descriptors only. -/
theorem Pool.raiseReaders_kept (ds : List DescId) (q : Pool) :
    q.raiseReaders ds = { q with descriptors := (q.raiseReaders ds).descriptors } := by
  unfold Pool.raiseReaders
  induction ds generalizing q with
  | nil => rfl
  | cons d t ih =>
    rw [List.foldl_cons, ih, Pool.updateCommitted_kept]

/-! ### Payload (R9, R12) -/

/-- Storing bytes writes bytes and block records only. -/
theorem Pool.storeBytes_kept (chain : List BlockId) (pos : Nat) (data : List Byte) (q : Pool) :
    Pool.storeBytes chain pos data q =
      { q with bytes := (Pool.storeBytes chain pos data q).bytes
               blocks := (Pool.storeBytes chain pos data q).blocks } := by
  induction data generalizing pos q with
  | nil => rfl
  | cons v t ih =>
    rw [Pool.storeBytes, ih]
    split <;> rfl

/-- Storing bytes raises the fill of each block by the number of bytes that it receives, and changes nothing else of it. -/
theorem Pool.storeBytes_block (chain : List BlockId) (pos : Nat) (data : List Byte) (q : Pool) (b : BlockId) :
    (Pool.storeBytes chain pos data q).block b =
      { q.block b with
        fill := (q.block b).fill + (List.range data.length).countP (fun j => chain[(pos + j) / 64]? = some b) } := by
  induction data generalizing pos q with
  | nil => simp [Pool.storeBytes]
  | cons v t ih =>
    rw [Pool.storeBytes, ih, List.length_cons, List.range_succ_eq_map, List.countP_cons, List.countP_map]
    have shift : (fun j => decide (chain[(pos + 1 + j) / 64]? = some b)) =
        (fun j => decide (chain[(pos + j) / 64]? = some b)) ∘ Nat.succ := by
      funext j
      simp only [Function.comp, Nat.succ_eq_add_one, show pos + 1 + j = pos + (j + 1) by omega]
    rw [shift]
    cases e : chain[pos / 64]? with
    | none => simp
    | some c =>
      simp only [Pool.storeByte]
      have : ∀ (w : Memory), ({ q with bytes := w }.setBlock c { q.block c with fill := (q.block c).fill + 1 }).block b =
          if c = b then { q.block c with fill := (q.block c).fill + 1 } else q.block b :=
        fun w => Pool.setBlock_block { q with bytes := w } c b _
      rw [this]
      by_cases cb : c = b
      · subst cb
        simp only [if_true, decide_true, BlockRecord.mk.injEq, true_and, and_true]
        omega
      · simp [cb]

/-- Storing bytes leaves every address that none of them goes to. -/
theorem Pool.storeBytes_read_ne (chain : List BlockId) (pos : Nat) (data : List Byte) (q : Pool) (a : Nat)
    (h : ∀ j < data.length, chain[(pos + j) / 64]?.map (fun b => 64 * b.val + (pos + j) % 64) ≠ some a) :
    (Pool.storeBytes chain pos data q).bytes.read a = q.bytes.read a := by
  induction data generalizing pos q with
  | nil => rfl
  | cons v t ih =>
    rw [Pool.storeBytes, ih (pos + 1) _ (fun j hj => by
      have := h (j + 1) (by simpa using hj)
      rwa [show pos + (j + 1) = pos + 1 + j by omega] at this)]
    have h0 := h 0 (by simp)
    cases e : chain[pos / 64]? with
    | none => rfl
    | some c =>
      rw [Nat.add_zero, e] at h0
      simp only [Option.map_some, ne_eq, Option.some.injEq] at h0
      exact Memory.read_write_ne _ _ _ _ (fun x => h0 x.symm)

/-- Storing bytes keeps the canonical form. -/
theorem Pool.storeBytes_wf (chain : List BlockId) (pos : Nat) (data : List Byte) (q : Pool) (h : Memory.wf q.bytes) :
    Memory.wf (Pool.storeBytes chain pos data q).bytes := by
  induction data generalizing pos q with
  | nil => exact h
  | cons v t ih =>
    rw [Pool.storeBytes]
    apply ih
    split
    · exact Memory.write_wf _ _ _ h (blockAddress_lt _ _ (Nat.mod_lt _ (by omega)))
    · exact h

/-- Each byte stored reads back from its place in the chain. -/
theorem Pool.storeBytes_read (chain : List BlockId) (pos : Nat) (data : List Byte) (q : Pool) (h : Memory.wf q.bytes)
    (once : chain.Nodup) (j a : Nat) (v : Byte) (hv : data[j]? = some v)
    (ha : chain[(pos + j) / 64]?.map (fun b => 64 * b.val + (pos + j) % 64) = some a) :
    (Pool.storeBytes chain pos data q).bytes.read a = v := by
  induction data generalizing pos q j with
  | nil => simp at hv
  | cons w t ih =>
    rw [Pool.storeBytes]
    cases j with
    | succ j =>
      refine ih (pos + 1) _ ?_ j (by simpa using hv) (by rwa [show pos + 1 + j = pos + (j + 1) by omega])
      split
      · exact Memory.write_wf _ _ _ h (blockAddress_lt _ _ (Nat.mod_lt _ (by omega)))
      · exact h
    | zero =>
      rw [Nat.add_zero] at ha
      cases e : chain[pos / 64]? with
      | none => simp [e] at ha
      | some c =>
        simp only [e, Option.map_some, Option.some.injEq] at ha
        simp only [List.getElem?_cons_zero, Option.some.injEq] at hv
        rw [Pool.storeBytes_read_ne]
        · subst hv ha
          exact Memory.read_write_self _ h.1 _ _
        · intro k _ hk
          cases e2 : chain[(pos + 1 + k) / 64]? with
          | none => simp [e2] at hk
          | some d =>
            simp only [e2, Option.map_some, Option.some.injEq] at hk
            have cd : c = d := Fin.ext (by omega)
            subst cd
            have l1 := (List.getElem?_eq_some_iff.mp e).1
            have := (List.Nodup.getElem_inj_iff once (hi := l1) (hj := (List.getElem?_eq_some_iff.mp e2).1)).mp
              ((List.getElem?_eq_some_iff.mp e).2.trans (List.getElem?_eq_some_iff.mp e2).2.symm)
            omega

/-- Rechecking blocks writes their checks only. -/
theorem Pool.rechecks_block (l : List BlockId) (q : Pool) :
    (l.foldl Pool.recheck q = { q with blocks := (l.foldl Pool.recheck q).blocks }) ∧
    ∀ b : BlockId, (l.foldl Pool.recheck q).block b =
      if b ∈ l then { q.block b with check := Config.storedCheck (q.blockBytes b) } else q.block b := by
  induction l generalizing q with
  | nil => simp
  | cons c t ih =>
    obtain ⟨i1, i2⟩ := ih (q.recheck c)
    refine ⟨?_, fun b => ?_⟩
    · rw [List.foldl_cons, i1]
      rfl
    · rw [List.foldl_cons, i2]
      have bytes : (q.recheck c).blockBytes b = q.blockBytes b := rfl
      have one : (q.recheck c).block b =
          if c = b then { q.block c with check := Config.storedCheck (q.blockBytes c) } else q.block b :=
        Pool.setBlock_block q c b _
      rw [bytes, one]
      by_cases e : c = b
      · subst e
        simp
      · simp [e, Ne.symm e]

/-! ### Commit of storage (R10) -/

/-- Committing blocks writes block records only; a listed staged block becomes COMMITTED, and no other block changes. -/
theorem Pool.commitBlocks_block (l : List BlockId) (q : Pool) :
    (l.foldl Pool.commitBlock q = { q with blocks := (l.foldl Pool.commitBlock q).blocks }) ∧
    ∀ b : BlockId, (l.foldl Pool.commitBlock q).block b =
      if b ∈ l ∧ (q.block b).state = .staged then { q.block b with state := .committed } else q.block b := by
  induction l generalizing q with
  | nil => simp
  | cons c t ih =>
    obtain ⟨i1, i2⟩ := ih (q.commitBlock c)
    have kept : q.commitBlock c = { q with blocks := (q.commitBlock c).blocks } := by
      unfold Pool.commitBlock
      split <;> rfl
    have one : ∀ b, (q.commitBlock c).block b =
        if c = b ∧ (q.block c).state = .staged then { q.block c with state := .committed } else q.block b := by
      intro b
      unfold Pool.commitBlock
      by_cases h : (q.block c).state = .staged
      · simp [h, Pool.setBlock_block]
      · simp [h]
    refine ⟨?_, fun b => ?_⟩
    · rw [List.foldl_cons, i1, kept]
    · rw [List.foldl_cons, i2, one]
      by_cases e : c = b
      · subst e
        by_cases h : (q.block c).state = .staged <;> simp [h]
      · simp [e, Ne.symm e]

end Sys2Proof.Machine
end

