-- ==== Sys2Proof/Laws/PoolInvariant.lean ====
section
/-! SUPPORT. Every operation over the pool keeps the pool's accounts and the chains of its messages. -/

namespace Sys2Proof.Laws

open Sys2Proof.Machine Sys2Proof.Safety

/-- The pool's two invariants together. -/
structure PoolSound (q : Pool) : Prop where
  accounts : PoolAccounts q
  chains : ChainsOwned q

/-- A chain whose blocks keep state, owner and next link is still the chain. -/
theorem chainOf_congr {q t : Pool} {d : DescId} {x : BlockState} {first : BlockId} {n : Nat} (h : ChainOf q d x first n)
    (same : ∀ b ∈ q.chain first n,
      (t.block b).next = (q.block b).next ∧ (t.block b).state = (q.block b).state ∧
        (t.block b).owner = (q.block b).owner) :
    t.chain first n = q.chain first n ∧ ChainOf t d x first n := by
  have e : t.chain first n = q.chain first n := Pool.chainFrom_congr q t n (some first) (fun b hb => (same b hb).1)
  refine ⟨e, ⟨by rw [e]; exact h.full_length, by rw [e]; exact h.blocks_once, fun b hb => ?_, fun b hb => ?_, ?_⟩⟩
  · rw [e] at hb
    rw [(same b hb).2.1]
    exact h.blocks_state b hb
  · rw [e] at hb
    rw [(same b hb).2.2]
    exact h.blocks_owner b hb
  · rw [e, ← h.ends]
    cases g : (q.chain first n).getLast? with
    | none => rfl
    | some b => exact (same b (List.mem_of_getLast? g)).1

/-- A descriptor whose chain a block lies in is the block's owner. -/
theorem owner_of_liesIn {q : Pool} (staged : ∀ d m, q.desc d = .staged m → ChainOf q d .staged m.firstBlock m.blockCount)
    (committed : ∀ d m, q.desc d = .committed m → ChainOf q d .committed m.firstBlock m.blockCount) {d : DescId} {b : BlockId}
    (h : LiesIn q d b) : (q.block b).owner = some d := by
  rcases h with ⟨m, e, hb⟩ | ⟨m, e, hb⟩
  · exact (staged d m e).blocks_owner b hb
  · exact (committed d m e).blocks_owner b hb

/-- The block's owner is the one descriptor whose chain it lies in. -/
theorem held_of_liesIn {q : Pool} (staged : ∀ d m, q.desc d = .staged m → ChainOf q d .staged m.firstBlock m.blockCount)
    (committed : ∀ d m, q.desc d = .committed m → ChainOf q d .committed m.firstBlock m.blockCount) {d : DescId} {b : BlockId}
    (h : LiesIn q d b) : ∃ d, (q.block b).owner = some d ∧ LiesIn q d b ∧ ∀ e, LiesIn q e b → e = d := by
  refine ⟨d, owner_of_liesIn staged committed h, h, fun e he => ?_⟩
  have := (owner_of_liesIn staged committed he).symm.trans (owner_of_liesIn staged committed h)
  exact Option.some.inj this

/-- Two pools whose blocks agree in state, owner, next link and fill, and whose descriptors agree in what the invariants
read, are both sound. -/
theorem poolSound_congr {q t : Pool} (h : PoolSound q)
    (blocks : ∀ b, (t.block b).next = (q.block b).next ∧ (t.block b).state = (q.block b).state ∧
      (t.block b).owner = (q.block b).owner ∧ ((q.block b).fill = 0 → (q.block b).state ≠ .staged → (t.block b).fill = 0))
    (lists : t.freeBlocks = q.freeBlocks ∧ t.quarantine = q.quarantine ∧ t.freeDescriptors = q.freeDescriptors)
    (free : ∀ d, t.desc d = .free ↔ q.desc d = .free)
    (staged : ∀ d m, t.desc d = .staged m → ∃ o, q.desc d = .staged o ∧ m.firstBlock = o.firstBlock ∧
      m.blockCount = o.blockCount ∧ m.declaredLength = o.declaredLength ∧ m.fill ≤ m.declaredLength)
    (committed : ∀ d m, t.desc d = .committed m → ∃ o, q.desc d = .committed o ∧ m.firstBlock = o.firstBlock ∧
      m.blockCount = o.blockCount ∧ m.declaredLength = o.declaredLength ∧ m.committedLength = o.committedLength) :
    PoolSound t := by
  obtain ⟨l1, l2, l3⟩ := lists
  have chainS : ∀ d m, t.desc d = .staged m → ChainOf t d .staged m.firstBlock m.blockCount := fun d m hm => by
    obtain ⟨o, ho, e1, e2, _⟩ := staged d m hm
    rw [e1, e2]
    exact (chainOf_congr (h.chains.staged_chain d o ho)
      (fun b _ => ⟨(blocks b).1, (blocks b).2.1, (blocks b).2.2.1⟩)).2
  have chainC : ∀ d m, t.desc d = .committed m → ChainOf t d .committed m.firstBlock m.blockCount := fun d m hm => by
    obtain ⟨o, ho, e1, e2, _⟩ := committed d m hm
    rw [e1, e2]
    exact (chainOf_congr (h.chains.committed_chain d o ho)
      (fun b _ => ⟨(blocks b).1, (blocks b).2.1, (blocks b).2.2.1⟩)).2
  have sameChain : ∀ f n, t.chain f n = q.chain f n := fun f n =>
    Pool.chainFrom_congr q t n (some f) (fun b _ => (blocks b).1)
  refine ⟨⟨by rw [l1]; exact h.accounts.freeBlocks_once, fun b => ?_, by rw [l2]; exact h.accounts.quarantine_once,
    fun b => ?_, by rw [l3]; exact h.accounts.freeDescriptors_once, fun d => ?_⟩,
    ⟨chainS, fun d m hm => ?_, chainC, fun d m hm => ?_, fun b hs hc => ?_, fun b hb => ?_⟩⟩
  · rw [l1, (blocks b).2.1]
    exact h.accounts.mem_freeBlocks b
  · rw [l2, (blocks b).2.1]
    exact h.accounts.mem_quarantine b
  · rw [l3, free d]
    exact h.accounts.mem_freeDescriptors d
  · obtain ⟨o, ho, e1, e2, e3, e4⟩ := staged d m hm
    have k := h.chains.staged_lengths d o ho
    rw [e2, e3]
    exact ⟨k.1, by rw [← e3]; exact e4, k.2.2⟩
  · obtain ⟨o, ho, e1, e2, e3, e4⟩ := committed d m hm
    rw [e2, e3, e4]
    exact h.chains.committed_lengths d o ho
  · rw [(blocks b).2.1] at hs hc
    obtain ⟨u1, u2, u3⟩ := h.chains.unheld_blocks b hs hc
    exact ⟨(blocks b).2.2.1.trans u1, (blocks b).1.trans u2, (blocks b).2.2.2 u3 hs⟩
  · rw [(blocks b).2.1] at hb
    obtain ⟨d, _, lies, _⟩ := h.chains.held_blocks b hb
    refine held_of_liesIn chainS chainC (d := d) ?_
    cases e : t.desc d with
    | free => rcases lies with ⟨m, hm, _⟩ | ⟨m, hm, _⟩ <;> simp [(free d).mp e] at hm
    | staged m =>
      obtain ⟨o, ho, e1, e2, _⟩ := staged d m e
      rcases lies with ⟨w, hw, inW⟩ | ⟨w, hw, _⟩
      · rw [ho, Descriptor.staged.injEq] at hw
        subst hw
        exact .inl ⟨m, e, by rw [e1, e2, sameChain]; exact inW⟩
      · simp [ho] at hw
    | committed m =>
      obtain ⟨o, ho, e1, e2, _⟩ := committed d m e
      rcases lies with ⟨w, hw, _⟩ | ⟨w, hw, inW⟩
      · simp [ho] at hw
      · rw [ho, Descriptor.committed.injEq] at hw
        subst hw
        exact .inr ⟨m, e, by rw [e1, e2, sameChain]; exact inW⟩

/-- The pool as the initialisation pass leaves it (R18). -/
theorem poolSound_powerOn : PoolSound Pool.powerOn := by
  have block : ∀ b, Pool.powerOn.block b = BlockRecord.powerOn := fun b => get_replicate _ b
  have desc : ∀ d, Pool.powerOn.desc d = .free := fun d => get_replicate _ d
  have free : Pool.powerOn.freeBlocks = List.finRange 2048 := by simp only [Pool.powerOn]
  have none : Pool.powerOn.quarantine = [] := by simp only [Pool.powerOn]
  have descs : Pool.powerOn.freeDescriptors = List.finRange 512 := by simp only [Pool.powerOn]
  refine ⟨⟨?_, fun b => ?_, ?_, fun b => ?_, ?_, fun d => ?_⟩,
    ⟨fun d m h => ?_, fun d m h => ?_, fun d m h => ?_, fun d m h => ?_, fun b _ _ => ?_,
      fun b hb => by simp [block, BlockRecord.powerOn] at hb⟩⟩
  · rw [free]
    exact List.nodup_finRange _
  · rw [block, free]
    exact iff_of_true (List.mem_finRange b) rfl
  · rw [none]
    exact List.nodup_nil
  · rw [block, none]
    exact iff_of_false (List.not_mem_nil) (by simp [BlockRecord.powerOn])
  · rw [descs]
    exact List.nodup_finRange _
  · rw [desc, descs]
    exact iff_of_true (List.mem_finRange d) rfl
  · rw [desc] at h
    cases h
  · rw [desc] at h
    cases h
  · rw [desc] at h
    cases h
  · rw [desc] at h
    cases h
  · rw [block]
    exact ⟨rfl, rfl, rfl⟩

/-- Changing a committed descriptor in fields that the invariants do not read. -/
theorem updateCommitted_sound {q : Pool} (h : PoolSound q) (d : DescId) (f : CommittedMessage → CommittedMessage)
    (keeps : ∀ m, (f m).firstBlock = m.firstBlock ∧ (f m).blockCount = m.blockCount ∧
      (f m).declaredLength = m.declaredLength ∧ (f m).committedLength = m.committedLength) :
    PoolSound (q.updateCommitted d f) := by
  have e := Pool.updateCommitted_kept q d f
  refine poolSound_congr h (fun b => by simp +contextual) ⟨by rw [e], by rw [e], by rw [e]⟩ (fun c => ?_)
    (fun c m hm => ?_) (fun c m hm => ?_)
  · rw [Pool.updateCommitted_desc]
    split
    · rename_i dc
      subst dc
      cases q.desc d <;> simp
    · rfl
  · rw [Pool.updateCommitted_desc] at hm
    have hq : q.desc c = .staged m := by
      split at hm
      · rename_i dc
        subst dc
        cases g : q.desc d <;> simp_all
      · exact hm
    exact ⟨m, hq, rfl, rfl, rfl, (h.chains.staged_lengths c m hq).2.1⟩
  · rw [Pool.updateCommitted_desc] at hm
    split at hm
    · rename_i dc
      subst dc
      cases g : q.desc d with
      | free => simp [g] at hm
      | staged o => simp [g] at hm
      | committed o =>
        simp only [g, Descriptor.committed.injEq] at hm
        subst hm
        exact ⟨o, rfl, keeps o⟩
    · exact ⟨m, hm, rfl, rfl, rfl, rfl⟩

/-- Lowering readers remaining keeps the pool sound. -/
theorem lowerReaders_sound {q : Pool} (h : PoolSound q) (ds : List DescId) : PoolSound (q.lowerReaders ds) := by
  unfold Pool.lowerReaders
  induction ds generalizing q with
  | nil => exact h
  | cons d t ih => exact ih (updateCommitted_sound h d _ (fun _ => ⟨rfl, rfl, rfl, rfl⟩))

/-- Raising readers remaining keeps the pool sound. -/
theorem raiseReaders_sound {q : Pool} (h : PoolSound q) (ds : List DescId) : PoolSound (q.raiseReaders ds) := by
  unfold Pool.raiseReaders
  induction ds generalizing q with
  | nil => exact h
  | cons d t ih => exact ih (updateCommitted_sound h d _ (fun _ => ⟨rfl, rfl, rfl, rfl⟩))

/-- Two messages share no block. -/
theorem chains_disjoint {q : Pool} {d e : DescId} {x y : BlockState} {f g : BlockId} {m n : Nat} (ne : d ≠ e)
    (h : ChainOf q d x f m) (k : ChainOf q e y g n) (b : BlockId) (hb : b ∈ q.chain f m) : b ∉ q.chain g n := by
  intro hc
  have := (h.blocks_owner b hb).symm.trans (k.blocks_owner b hc)
  simp only [Option.some.injEq] at this
  exact ne this

/-- Release of the storage of a message keeps the pool sound. The chain is that of descriptor `d`, whose message is
given up. -/
theorem releaseChain_sound {q : Pool} (h : PoolSound q) (d : DescId) (x : BlockState) (first : BlockId) (n : Nat)
    (k : ChainOf q d x first n) (held : x = .staged ∨ x = .committed) (used : q.desc d ≠ .free)
    (whole : ∀ b, LiesIn q d b → b ∈ q.chain first n) :
    PoolSound (((q.chain first n).foldl Pool.returnBlock q).returnDescriptor d) := by
  have isHeld : ∀ b ∈ q.chain first n, (q.block b).isHeld := fun b hb => by
    rw [BlockRecord.isHeld, k.blocks_state b hb]
    exact held
  obtain ⟨blk, free, quar⟩ := Pool.returnBlocks_held (q.chain first n) q k.blocks_once isHeld
  obtain ⟨_, descs, freeD⟩ := Pool.returnBlocks_kept (q.chain first n) q
  generalize hT : (q.chain first n).foldl Pool.returnBlock q = t at *
  have desc : ∀ e, (t.returnDescriptor d).desc e = if d = e then .free else q.desc e := by
    intro e
    have : t.desc e = q.desc e := by simp [Pool.desc, descs]
    rw [← this]
    exact Pool.setDesc_desc t d e .free
  have block : ∀ b, (t.returnDescriptor d).block b = if b ∈ q.chain first n then (q.block b).returned else q.block b := blk
  have others : ∀ (e : DescId) (y : BlockState) (f : BlockId) (m : Nat), d ≠ e → ChainOf q e y f m →
      (t.returnDescriptor d).chain f m = q.chain f m ∧ ChainOf (t.returnDescriptor d) e y f m := by
    intro e y f m ne ce
    refine chainOf_congr ce (fun b hb => ?_)
    rw [block, if_neg (chains_disjoint (Ne.symm ne) ce k b hb)]
    exact ⟨rfl, rfl, rfl⟩
  have notFree : ∀ b ∈ q.chain first n, b ∉ q.freeBlocks ∧ b ∉ q.quarantine := by
    intro b hb
    rw [h.accounts.mem_freeBlocks, h.accounts.mem_quarantine, k.blocks_state b hb]
    rcases held with e | e <;> simp [e]
  have chainS : ∀ e m, (t.returnDescriptor d).desc e = .staged m →
      ChainOf (t.returnDescriptor d) e .staged m.firstBlock m.blockCount := fun e m hm => by
    rw [desc] at hm
    split at hm
    · cases hm
    · rename_i ne
      exact (others e _ _ _ ne (h.chains.staged_chain e m hm)).2
  have chainC : ∀ e m, (t.returnDescriptor d).desc e = .committed m →
      ChainOf (t.returnDescriptor d) e .committed m.firstBlock m.blockCount := fun e m hm => by
    rw [desc] at hm
    split at hm
    · cases hm
    · rename_i ne
      exact (others e _ _ _ ne (h.chains.committed_chain e m hm)).2
  refine ⟨⟨?_, fun b => ?_, ?_, fun b => ?_, ?_, fun e => ?_⟩, ⟨chainS, fun e m hm => ?_, chainC,
    fun e m hm => ?_, fun b hs hc => ?_, fun b hb => ?_⟩⟩
  · change t.freeBlocks.Nodup
    rw [free, List.nodup_append]
    refine ⟨h.accounts.freeBlocks_once, k.blocks_once.filter _, fun a ha b hb e => ?_⟩
    subst e
    exact (notFree a (List.mem_filter.mp hb).1).1 ha
  · rw [block]
    change b ∈ t.freeBlocks ↔ _
    rw [free, List.mem_append, List.mem_filter]
    by_cases c : b ∈ q.chain first n
    · by_cases f : (q.block b).failed = true
      · simp [c, f, BlockRecord.returned, (notFree b c).1]
      · simp [c, f, BlockRecord.returned]
    · simp [c, h.accounts.mem_freeBlocks]
  · change t.quarantine.Nodup
    rw [quar, List.nodup_append]
    refine ⟨h.accounts.quarantine_once, k.blocks_once.filter _, fun a ha b hb e => ?_⟩
    subst e
    exact (notFree a (List.mem_filter.mp hb).1).2 ha
  · rw [block]
    change b ∈ t.quarantine ↔ _
    rw [quar, List.mem_append, List.mem_filter]
    by_cases c : b ∈ q.chain first n
    · by_cases f : (q.block b).failed = true
      · simp [c, f, BlockRecord.returned]
      · simp [c, f, BlockRecord.returned, (notFree b c).2]
    · simp [c, h.accounts.mem_quarantine]
  · change (t.freeDescriptors ++ [d]).Nodup
    rw [freeD, List.nodup_append]
    refine ⟨h.accounts.freeDescriptors_once, List.nodup_singleton d, fun a ha b hb e => ?_⟩
    rw [List.mem_singleton] at hb
    subst e hb
    exact used ((h.accounts.mem_freeDescriptors a).mp ha)
  · rw [desc]
    change e ∈ t.freeDescriptors ++ [d] ↔ _
    rw [freeD, List.mem_append, List.mem_singleton, h.accounts.mem_freeDescriptors]
    by_cases c : d = e
    · subst c
      simp
    · simp [c, Ne.symm c]
  · rw [desc] at hm
    split at hm
    · cases hm
    · exact h.chains.staged_lengths e m hm
  · rw [desc] at hm
    split at hm
    · cases hm
    · exact h.chains.committed_lengths e m hm
  · rw [block] at hs hc ⊢
    split
    · exact ⟨rfl, rfl, rfl⟩
    · rename_i c
      rw [if_neg c] at hs hc
      exact h.chains.unheld_blocks b hs hc
  · have off : b ∉ q.chain first n := fun hc => by
      rw [block, if_pos hc] at hb
      simp only [BlockRecord.returned] at hb
      split at hb <;> simp at hb
    rw [block, if_neg off] at hb
    obtain ⟨e, own, lies, _⟩ := h.chains.held_blocks b hb
    refine held_of_liesIn chainS chainC (d := e) ?_
    have ne : d ≠ e := by
      rintro rfl
      exact off (whole b lies)
    rcases lies with ⟨m, hm, inM⟩ | ⟨m, hm, inM⟩
    · exact .inl ⟨m, by rw [desc, if_neg ne]; exact hm,
        by rw [(others e _ _ _ ne (h.chains.staged_chain e m hm)).1]; exact inM⟩
    · exact .inr ⟨m, by rw [desc, if_neg ne]; exact hm,
        by rw [(others e _ _ _ ne (h.chains.committed_chain e m hm)).1]; exact inM⟩

/-- Release of the storage of a message keeps the pool sound. -/
theorem releaseMessage_sound {q : Pool} (h : PoolSound q) (d : DescId) : PoolSound (q.releaseMessage d) := by
  unfold Pool.releaseMessage
  cases e : q.desc d with
  | free => exact h
  | staged m =>
    exact releaseChain_sound h d .staged _ _ (h.chains.staged_chain d m e) (.inl rfl) (by simp [e])
      (fun b lies => by simpa [LiesIn, e] using lies)
  | committed m =>
    exact releaseChain_sound h d .committed _ _ (h.chains.committed_chain d m e) (.inr rfl) (by simp [e])
      (fun b lies => by simpa [LiesIn, e] using lies)

/-- Allocation for an assembly of at least one byte keeps the pool sound. -/
theorem allocate_sound {q t : Pool} (h : PoolSound q) (i : StreamId) (length : Nat) (tag : BitVec 16) (urgent : Bool)
    (d : DescId) (positive : 1 ≤ length) (e : q.allocate i length tag urgent = some (d, t)) : PoolSound t := by
  unfold Pool.allocate at e
  dsimp only at e
  split at e
  · cases e
  · rename_i enough
    split at e
    · rename_i e0 rest b0 more hD hB
      simp only [Option.some.injEq, Prod.mk.injEq] at e
      obtain ⟨e1, e2⟩ := e
      subst e1
      generalize hn : blocksFor length = n at *
      have once : (q.freeBlocks.take n).Nodup := h.accounts.freeBlocks_once.sublist (List.take_sublist _ _)
      have full : (q.freeBlocks.take n).length = n := by simp only [List.length_take]; omega
      rw [hB] at once full e2
      generalize hl : b0 :: more = l at *
      have head : l.head? = some b0 := by rw [← hl]; rfl
      have inFree : ∀ b ∈ l, b ∈ q.freeBlocks := fun b hb => List.mem_of_mem_take (hB ▸ hb)
      have wasFree : ∀ b ∈ l, (q.block b).state = .free := fun b hb => (h.accounts.mem_freeBlocks b).mp (inFree b hb)
      obtain ⟨s1, s2⟩ := Pool.stageChain_block e0 l { q with freeBlocks := q.freeBlocks.drop n, freeDescriptors := rest } once
      have kept := Pool.stageChain_kept e0 l { q with freeBlocks := q.freeBlocks.drop n, freeDescriptors := rest }
      generalize Pool.stageChain e0 l { q with freeBlocks := q.freeBlocks.drop n, freeDescriptors := rest } = w at *
      have splitF : q.freeBlocks = l ++ q.freeBlocks.drop n := by rw [← hB, List.take_append_drop]
      have nd := h.accounts.freeBlocks_once
      rw [splitF, List.nodup_append] at nd
      have ndD := h.accounts.freeDescriptors_once
      rw [hD, List.nodup_cons] at ndD
      have dFree : q.desc e0 = .free := (h.accounts.mem_freeDescriptors e0).mp (by rw [hD]; simp)
      have tf : t.freeBlocks = q.freeBlocks.drop n := by rw [← e2, kept]; rfl
      have tq : t.quarantine = q.quarantine := by rw [← e2, kept]; rfl
      have td : t.freeDescriptors = rest := by rw [← e2, kept]; rfl
      have desc : ∀ c, t.desc c =
          if e0 = c then
            .staged { stream := i, declaredLength := length, fill := 0, firstBlock := b0, blockCount := n, tag := tag,
                      urgent := urgent, damaged := false }
          else q.desc c := by
        intro c
        rw [← e2, Pool.setDesc_desc, kept]
        rfl
      have inChain : ∀ b ∈ l, ∃ k, l[k]? = some b ∧ t.block b = (q.block b).stagedFor e0 l[k + 1]? := by
        intro b hb
        obtain ⟨k, hk⟩ := List.getElem?_of_mem hb
        exact ⟨k, hk, by rw [← e2, Pool.setDesc_block]; exact s1 k b hk⟩
      have offChain : ∀ b, b ∉ l → t.block b = q.block b := fun b hb => by
        rw [← e2, Pool.setDesc_block]
        exact s2 b hb
      have chain : t.chain b0 n = l := by
        have := Pool.chainFrom_of_links t l (fun k b hk lt => by
          rw [← e2, Pool.setDesc_block, s1 k b hk]
          rfl)
        rw [full, head] at this
        exact this
      have others : ∀ (c : DescId) (y : BlockState) (f : BlockId) (m : Nat), (y = .staged ∨ y = .committed) →
          ChainOf q c y f m → t.chain f m = q.chain f m ∧ ChainOf t c y f m := by
        intro c y f m hy cc
        refine chainOf_congr cc (fun b hb => ?_)
        rw [offChain b]
        · exact ⟨rfl, rfl, rfl⟩
        · intro hl
          have := cc.blocks_state b hb
          rw [wasFree b hl] at this
          subst this
          simp at hy
      have chainS : ∀ c m, t.desc c = .staged m → ChainOf t c .staged m.firstBlock m.blockCount := fun c m hm => by
        rw [desc] at hm
        split at hm
        · rename_i ce
          subst ce
          simp only [Descriptor.staged.injEq] at hm
          subst hm
          refine ⟨by rw [chain, full], by rw [chain]; exact once, fun b hb => ?_, fun b hb => ?_, ?_⟩
          · rw [chain] at hb
            obtain ⟨k, _, r⟩ := inChain b hb
            rw [r]
            rfl
          · rw [chain] at hb
            obtain ⟨k, _, r⟩ := inChain b hb
            rw [r]
            rfl
          · rw [chain]
            cases g : l.getLast? with
            | none => rfl
            | some b =>
              rw [List.getLast?_eq_getElem?] at g
              change (t.block b).next = none
              rw [← e2, Pool.setDesc_block, s1 _ b g]
              simp only [BlockRecord.stagedFor, List.getElem?_eq_none_iff]
              omega
        · exact (others c _ _ _ (.inl rfl) (h.chains.staged_chain c m hm)).2
      have chainC : ∀ c m, t.desc c = .committed m → ChainOf t c .committed m.firstBlock m.blockCount := fun c m hm => by
        rw [desc] at hm
        split at hm
        · cases hm
        · exact (others c _ _ _ (.inr rfl) (h.chains.committed_chain c m hm)).2
      refine ⟨⟨?_, fun b => ?_, by rw [tq]; exact h.accounts.quarantine_once, fun b => ?_, by rw [td]; exact ndD.2, fun c => ?_⟩,
        ⟨chainS, fun c m hm => ?_, chainC, fun c m hm => ?_, fun b hs hc => ?_, fun b hb => ?_⟩⟩
      · rw [tf]
        exact nd.2.1
      · rw [tf]
        by_cases c : b ∈ l
        · obtain ⟨k, _, r⟩ := inChain b c
          rw [r]
          simp only [BlockRecord.stagedFor]
          exact iff_of_false (fun x => nd.2.2 b c b x rfl) (by simp)
        · rw [offChain b c, ← h.accounts.mem_freeBlocks]
          constructor
          · exact List.mem_of_mem_drop
          · intro x
            rw [splitF, List.mem_append] at x
            exact x.resolve_left c
      · rw [tq, h.accounts.mem_quarantine]
        by_cases c : b ∈ l
        · obtain ⟨k, _, r⟩ := inChain b c
          rw [r, wasFree b c]
          simp [BlockRecord.stagedFor]
        · rw [offChain b c]
      · rw [td, desc]
        have := h.accounts.mem_freeDescriptors c
        rw [hD, List.mem_cons] at this
        by_cases ce : e0 = c
        · subst ce
          simp [ndD.1]
        · simp only [if_neg ce, ← this, Ne.symm ce, false_or]
      · rw [desc] at hm
        split at hm
        · simp only [Descriptor.staged.injEq] at hm
          subst hm
          exact ⟨hn.symm, by simp, positive⟩
        · exact h.chains.staged_lengths c m hm
      · rw [desc] at hm
        split at hm
        · cases hm
        · exact h.chains.committed_lengths c m hm
      · by_cases c : b ∈ l
        · obtain ⟨k, _, r⟩ := inChain b c
          rw [r] at hs
          exact absurd rfl hs
        · rw [offChain b c] at hs hc ⊢
          exact h.chains.unheld_blocks b hs hc
      · by_cases c : b ∈ l
        · exact held_of_liesIn chainS chainC (d := e0) (.inl ⟨_, by rw [desc, if_pos rfl], by rw [chain]; exact c⟩)
        · rw [offChain b c] at hb
          obtain ⟨f, _, lies, _⟩ := h.chains.held_blocks b hb
          have ne : e0 ≠ f := by
            rintro rfl
            simp [LiesIn, dFree] at lies
          refine held_of_liesIn chainS chainC (d := f) ?_
          rcases lies with ⟨m, hm, inM⟩ | ⟨m, hm, inM⟩
          · exact .inl ⟨m, by rw [desc, if_neg ne]; exact hm,
              by rw [(others f _ _ _ (.inl rfl) (h.chains.staged_chain f m hm)).1]; exact inM⟩
          · exact .inr ⟨m, by rw [desc, if_neg ne]; exact hm,
              by rw [(others f _ _ _ (.inr rfl) (h.chains.committed_chain f m hm)).1]; exact inM⟩
    · cases e

/-- The blocks, lists and descriptors of a pool after an APPEND. -/
theorem storePayload_views (q : Pool) (d : DescId) (m : StagedMessage) (data : List Byte) :
    (∀ b, ∃ fill check, (q.storePayload d m data).block b = { q.block b with fill := fill, check := check }) ∧
    (q.storePayload d m data).freeBlocks = q.freeBlocks ∧ (q.storePayload d m data).quarantine = q.quarantine ∧
    (q.storePayload d m data).freeDescriptors = q.freeDescriptors ∧
    (∀ e, (q.storePayload d m data).desc e =
      if d = e then .staged { m with fill := m.fill + data.length } else q.desc e) := by
  unfold Pool.storePayload
  dsimp only
  generalize hc : q.chain m.firstBlock m.blockCount = chain
  generalize hl : coveredBlocks chain m.fill data.length = l
  obtain ⟨k1, k2⟩ := Pool.rechecks_block l (Pool.storeBytes chain m.fill data q)
  have s1 := Pool.storeBytes_kept chain m.fill data q
  refine ⟨fun b => ?_, ?_, ?_, ?_, fun e => ?_⟩
  · rw [Pool.setDesc_block, k2, Pool.storeBytes_block]
    split <;> exact ⟨_, _, rfl⟩
  · rw [Pool.setDesc_freeBlocks, k1, s1]
  · rw [Pool.setDesc_quarantine, k1, s1]
  · rw [Pool.setDesc_freeDescriptors, k1, s1]
  · rw [Pool.setDesc_desc, k1, s1]
    rfl

/-- An APPEND within the declared length keeps the pool sound. -/
theorem storePayload_sound {q : Pool} (h : PoolSound q) (d : DescId) (m : StagedMessage) (data : List Byte)
    (e : q.desc d = .staged m) (room : m.fill + data.length ≤ m.declaredLength) :
    PoolSound (q.storePayload d m data) := by
  have fills : ∀ b, (q.block b).state ≠ .staged → (q.block b).fill = 0 → ((q.storePayload d m data).block b).fill = 0 := by
    intro b hs hf
    unfold Pool.storePayload
    dsimp only
    rw [Pool.setDesc_block, (Pool.rechecks_block _ _).2]
    have off : b ∉ q.chain m.firstBlock m.blockCount := fun hb => hs ((h.chains.staged_chain d m e).blocks_state b hb)
    have same : (Pool.storeBytes (q.chain m.firstBlock m.blockCount) m.fill data q).block b = q.block b := by
      rw [Pool.storeBytes_block]
      have : (List.range data.length).countP
          (fun j => (q.chain m.firstBlock m.blockCount)[(m.fill + j) / 64]? = some b) = 0 := by
        rw [List.countP_eq_zero]
        intro j _ hj
        exact off (List.mem_of_getElem? (of_decide_eq_true hj))
      rw [this]
      rfl
    rw [same]
    split
    · exact hf
    · exact hf
  obtain ⟨v1, v2, v3, v4, v5⟩ := storePayload_views q d m data
  refine poolSound_congr h (fun b => ?_) ⟨v2, v3, v4⟩ (fun c => ?_) (fun c n hn => ?_) (fun c n hn => ?_)
  · obtain ⟨f, k, r⟩ := v1 b
    exact ⟨by rw [r], by rw [r], by rw [r], fun hf hs => fills b hs hf⟩
  · rw [v5]
    split
    · rename_i dc
      subst dc
      simp [e]
    · rfl
  · rw [v5] at hn
    split at hn
    · rename_i dc
      subst dc
      simp only [Descriptor.staged.injEq] at hn
      subst hn
      exact ⟨m, e, rfl, rfl, rfl, room⟩
    · exact ⟨n, hn, rfl, rfl, rfl, (h.chains.staged_lengths c n hn).2.1⟩
  · rw [v5] at hn
    split at hn
    · cases hn
    · exact ⟨n, hn, rfl, rfl, rfl, rfl⟩

/-- Marking a block failed keeps the pool sound. -/
theorem setFailed_sound {q : Pool} (h : PoolSound q) (b : BlockId) :
    PoolSound (q.setBlock b { q.block b with failed := true }) := by
  refine poolSound_congr h (fun c => ?_) ⟨rfl, rfl, rfl⟩ (fun c => Iff.rfl)
    (fun c n hn => ⟨n, hn, rfl, rfl, rfl, (h.chains.staged_lengths c n hn).2.1⟩)
    (fun c n hn => ⟨n, hn, rfl, rfl, rfl, rfl⟩)
  rw [Pool.setBlock_block]
  split
  · rename_i bc
    subst bc
    exact ⟨rfl, rfl, rfl, fun hf _ => hf⟩
  · exact ⟨rfl, rfl, rfl, fun hf _ => hf⟩

/-- The blocks, lists and descriptors of a pool once the assembly `d` is committed: the front of its chain is COMMITTED and
ends there, and the rest has been returned. -/
theorem commitMessage_views {q : Pool} (d : DescId) (m : StagedMessage) (x : Seq) (stamp : BitVec 24) (readers : Nat)
    (c : ChainOf q d .staged m.firstBlock m.blockCount) :
    let chain := q.chain m.firstBlock m.blockCount
    let n := blocksFor m.fill
    let t := q.commitMessage d m x stamp readers
    (∀ b, t.block b =
      if b ∈ chain.drop n then (q.block b).returned
      else if b ∈ chain.take n then
        { q.block b with state := .committed
                         next := if some b = (chain.take n).getLast? then none else (q.block b).next }
      else q.block b) ∧
    t.freeBlocks = q.freeBlocks ++ (chain.drop n).filter (fun b => !(q.block b).failed) ∧
    t.quarantine = q.quarantine ++ (chain.drop n).filter (fun b => (q.block b).failed) ∧
    t.freeDescriptors = q.freeDescriptors ∧ t.bytes = q.bytes ∧
    (∀ e, t.desc e =
      if d = e then
        .committed { stream := m.stream, sequence := x, declaredLength := m.declaredLength, committedLength := m.fill,
                     firstBlock := m.firstBlock, blockCount := n, tag := m.tag, urgent := m.urgent, stamp := stamp,
                     readers := readers, damaged := m.damaged, next := none }
      else q.desc e) := by
  intro chain n t
  have once : chain.Nodup := c.blocks_once
  have apart : ∀ b ∈ chain.drop n, b ∉ chain.take n := by
    rw [← List.take_append_drop n chain, List.nodup_append] at once
    exact fun b hb ht => once.2.2 b ht b hb rfl
  obtain ⟨k1, k2⟩ := Pool.commitBlocks_block (chain.take n) q
  have ended : ∀ b, (((chain.take n).foldl Pool.commitBlock q).endChain (chain.take n).getLast?).block b =
      if b ∈ chain.take n then
        { q.block b with state := .committed
                         next := if some b = (chain.take n).getLast? then none else (q.block b).next }
      else q.block b := by
    intro b
    have st : b ∈ chain.take n → (q.block b).state = .staged := fun hb => c.blocks_state b (List.mem_of_mem_take hb)
    cases g : (chain.take n).getLast? with
    | none =>
      simp only [Pool.endChain]
      rw [k2]
      by_cases hb : b ∈ chain.take n
      · simp [hb, st hb]
      · simp [hb]
    | some l =>
      simp only [Pool.endChain]
      rw [Pool.setBlock_block, k2, k2]
      have ml : l ∈ chain.take n := List.mem_of_getLast? g
      have sl : (q.block l).state = .staged := c.blocks_state l (List.mem_of_mem_take ml)
      by_cases e : l = b
      · subst e
        simp [ml, sl]
      · by_cases hb : b ∈ chain.take n
        · simp [hb, st hb, e, Ne.symm e]
        · simp [hb, e]
  have endKept : ∀ (w : Pool) (o : Option BlockId), w.endChain o = { w with blocks := (w.endChain o).blocks } := by
    intro w o
    cases o <;> rfl
  generalize hw : ((chain.take n).foldl Pool.commitBlock q).endChain (chain.take n).getLast? = w at *
  have wKept : w = { q with blocks := w.blocks } := by
    rw [← hw, endKept, k1]
  have same : ∀ b ∈ chain.drop n, w.block b = q.block b := fun b hb => by rw [ended, if_neg (apart b hb)]
  obtain ⟨r1, r2, r3⟩ := Pool.returnBlocks_held (chain.drop n) w (once.sublist (List.drop_sublist _ _)) (fun b hb => by
    rw [same b hb]
    exact .inl (c.blocks_state b (List.mem_of_mem_drop hb)))
  obtain ⟨b1, b2, b3⟩ := Pool.returnBlocks_kept (chain.drop n) w
  have tEq : t = ((chain.drop n).foldl Pool.returnBlock w).setDesc d
      (.committed { stream := m.stream, sequence := x, declaredLength := m.declaredLength, committedLength := m.fill,
                    firstBlock := m.firstBlock, blockCount := n, tag := m.tag, urgent := m.urgent, stamp := stamp,
                    readers := readers, damaged := m.damaged, next := none }) := by
    rw [← hw]
    rfl
  refine ⟨fun b => ?_, ?_, ?_, ?_, ?_, fun e => ?_⟩
  · rw [tEq, Pool.setDesc_block, r1]
    by_cases hb : b ∈ chain.drop n
    · rw [if_pos hb, if_pos hb, same b hb]
    · rw [if_neg hb, if_neg hb, ended]
  · rw [tEq, Pool.setDesc_freeBlocks, r2, List.filter_congr (fun b hb => by rw [same b hb]), wKept]
  · rw [tEq, Pool.setDesc_quarantine, r3, List.filter_congr (fun b hb => by rw [same b hb]), wKept]
  · rw [tEq, Pool.setDesc_freeDescriptors, b3, wKept]
  · rw [tEq, Pool.setDesc_bytes, b1, wKept]
  · rw [tEq, Pool.setDesc_desc]
    simp only [Pool.desc, b2]
    rw [wKept]

/-- Commit of an assembly with bytes keeps the pool sound. -/
theorem commitMessage_sound {q : Pool} (h : PoolSound q) (d : DescId) (m : StagedMessage) (x : Seq) (stamp : BitVec 24)
    (readers : Nat) (e : q.desc d = .staged m) (positive : 1 ≤ m.fill) :
    PoolSound (q.commitMessage d m x stamp readers) := by
  have c := h.chains.staged_chain d m e
  have lens := h.chains.staged_lengths d m e
  obtain ⟨blk, free, quar, freeD, _, desc⟩ := commitMessage_views d m x stamp readers c
  generalize q.commitMessage d m x stamp readers = t at *
  generalize hn : blocksFor m.fill = n at *
  have n1 : 1 ≤ n := by rw [← hn]; simp only [blocksFor]; omega
  have nle : n ≤ m.blockCount := by
    rw [lens.1, ← hn]
    simp only [blocksFor]
    omega
  generalize hc : q.chain m.firstBlock m.blockCount = chain at *
  have once : chain.Nodup := hc ▸ c.blocks_once
  have full : chain.length = m.blockCount := hc ▸ c.full_length
  have st : ∀ b ∈ chain, (q.block b).state = .staged := hc ▸ c.blocks_state
  have own : ∀ b ∈ chain, (q.block b).owner = some d := hc ▸ c.blocks_owner
  have apart : ∀ b ∈ chain.drop n, b ∉ chain.take n := by
    have := once
    rw [← List.take_append_drop n chain, List.nodup_append] at this
    exact fun b hb ht => this.2.2 b ht b hb rfl
  have off : ∀ b, b ∉ chain → t.block b = q.block b := fun b hb => by
    rw [blk, if_neg (fun x => hb (List.mem_of_mem_drop x)), if_neg (fun x => hb (List.mem_of_mem_take x))]
  have kept : ∀ b ∈ chain.take n, t.block b =
      { q.block b with state := .committed
                       next := if some b = (chain.take n).getLast? then none else (q.block b).next } := fun b hb => by
    rw [blk, if_neg (fun x => apart b x hb), if_pos hb]
  have gone : ∀ b ∈ chain.drop n, t.block b = (q.block b).returned := fun b hb => by rw [blk, if_pos hb]
  have notListed : ∀ b ∈ chain, b ∉ q.freeBlocks ∧ b ∉ q.quarantine := by
    intro b hb
    rw [h.accounts.mem_freeBlocks, h.accounts.mem_quarantine, st b hb]
    simp
  have cases3 : ∀ b, b ∈ chain.drop n ∨ b ∈ chain.take n ∨ b ∉ chain := by
    intro b
    by_cases hb : b ∈ chain
    · rw [← List.take_append_drop n chain, List.mem_append] at hb
      exact hb.elim (fun x => .inr (.inl x)) .inl
    · exact .inr (.inr hb)
  have others : ∀ (f : DescId) (y : BlockState) (g : BlockId) (k : Nat), d ≠ f → ChainOf q f y g k →
      t.chain g k = q.chain g k ∧ ChainOf t f y g k := by
    intro f y g k ne cf
    refine chainOf_congr cf (fun b hb => ?_)
    have hno : b ∉ chain := by rw [← hc]; exact chains_disjoint (Ne.symm ne) cf c b hb
    rw [off b hno]
    exact ⟨rfl, rfl, rfl⟩
  have takeLen : (chain.take n).length = n := by rw [List.length_take]; omega
  have newChain : t.chain m.firstBlock n = chain.take n := by
    have head : (chain.take n).head? = some m.firstBlock := by
      rw [List.head?_take, if_neg (by omega), ← hc]
      obtain ⟨k, hk⟩ : ∃ k, m.blockCount = k + 1 := ⟨m.blockCount - 1, by omega⟩
      rw [hk]
      rfl
    have := Pool.chainFrom_of_links t (chain.take n) (fun k b hk lt => by
      have hb : b ∈ chain.take n := List.mem_of_getElem? hk
      rw [kept b hb]
      have l2 := List.getElem?_eq_getElem lt
      rw [l2]
      have notLast : ¬some b = (chain.take n).getLast? := by
        intro x
        rw [List.getLast?_eq_getElem?] at x
        have l3 : (chain.take n).length - 1 < (chain.take n).length := by omega
        have e1 := (List.getElem?_eq_some_iff.mp hk)
        have e2 := (List.getElem?_eq_some_iff.mp x.symm)
        have once2 : (chain.take n).Nodup := once.sublist (List.take_sublist _ _)
        have := (List.Nodup.getElem_inj_iff once2 (hi := e1.1) (hj := e2.1)).mp (e1.2.trans e2.2.symm)
        omega
      rw [if_neg notLast]
      refine Pool.chainFrom_next q m.blockCount k (some m.firstBlock) b _ ?_ ?_
      · change (q.chain m.firstBlock m.blockCount)[k]? = _
        rw [hc]
        rw [List.getElem?_take] at hk
        split at hk
        · exact hk
        · cases hk
      · change (q.chain m.firstBlock m.blockCount)[k + 1]? = _
        rw [hc, ← l2, List.getElem?_take, if_pos (by omega)])
    rw [takeLen, head] at this
    exact this
  have chainS : ∀ f o, t.desc f = .staged o → ChainOf t f .staged o.firstBlock o.blockCount := fun f o ho => by
    rw [desc] at ho
    split at ho
    · cases ho
    · rename_i ne
      exact (others f _ _ _ ne (h.chains.staged_chain f o ho)).2
  have chainC : ∀ f o, t.desc f = .committed o → ChainOf t f .committed o.firstBlock o.blockCount := fun f o ho => by
    rw [desc] at ho
    split at ho
    · rename_i df
      subst df
      simp only [Descriptor.committed.injEq] at ho
      subst ho
      refine ⟨by rw [newChain, takeLen], by rw [newChain]; exact once.sublist (List.take_sublist _ _), fun b hb => ?_,
        fun b hb => ?_, ?_⟩
      · rw [newChain] at hb
        rw [kept b hb]
      · rw [newChain] at hb
        rw [kept b hb]
        exact own b (List.mem_of_mem_take hb)
      · rw [newChain]
        cases g : (chain.take n).getLast? with
        | none => rfl
        | some b =>
          change (t.block b).next = none
          rw [kept b (List.mem_of_getLast? g), g]
          simp
    · rename_i ne
      exact (others f _ _ _ ne (h.chains.committed_chain f o ho)).2
  refine ⟨⟨?_, fun b => ?_, ?_, fun b => ?_, by rw [freeD]; exact h.accounts.freeDescriptors_once, fun f => ?_⟩,
    ⟨chainS, fun f o ho => ?_, chainC, fun f o ho => ?_, fun b hs hco => ?_, fun b hb => ?_⟩⟩
  · rw [free, List.nodup_append]
    refine ⟨h.accounts.freeBlocks_once, (once.sublist (List.drop_sublist _ _)).filter _, fun a ha b hb ab => ?_⟩
    subst ab
    exact (notListed a (List.mem_of_mem_drop (List.mem_filter.mp hb).1)).1 ha
  · rw [free, List.mem_append, List.mem_filter]
    rcases cases3 b with hb | hb | hb
    · rw [gone b hb]
      by_cases f : (q.block b).failed = true
      · simp [f, BlockRecord.returned, (notListed b (List.mem_of_mem_drop hb)).1]
      · simp [f, hb, BlockRecord.returned]
    · rw [kept b hb]
      have : b ∉ chain.drop n := fun x => apart b x hb
      simp [this, (notListed b (List.mem_of_mem_take hb)).1]
    · rw [off b hb, ← h.accounts.mem_freeBlocks]
      have : b ∉ chain.drop n := fun x => hb (List.mem_of_mem_drop x)
      simp [this]
  · rw [quar, List.nodup_append]
    refine ⟨h.accounts.quarantine_once, (once.sublist (List.drop_sublist _ _)).filter _, fun a ha b hb ab => ?_⟩
    subst ab
    exact (notListed a (List.mem_of_mem_drop (List.mem_filter.mp hb).1)).2 ha
  · rw [quar, List.mem_append, List.mem_filter]
    rcases cases3 b with hb | hb | hb
    · rw [gone b hb]
      by_cases f : (q.block b).failed = true
      · simp [f, hb, BlockRecord.returned]
      · simp [f, BlockRecord.returned, (notListed b (List.mem_of_mem_drop hb)).2]
    · rw [kept b hb]
      have : b ∉ chain.drop n := fun x => apart b x hb
      simp [this, (notListed b (List.mem_of_mem_take hb)).2]
    · rw [off b hb, ← h.accounts.mem_quarantine]
      have : b ∉ chain.drop n := fun x => hb (List.mem_of_mem_drop x)
      simp [this]
  · rw [freeD, desc, h.accounts.mem_freeDescriptors]
    split
    · rename_i df
      subst df
      simp [e]
    · rfl
  · rw [desc] at ho
    split at ho
    · cases ho
    · exact h.chains.staged_lengths f o ho
  · rw [desc] at ho
    split at ho
    · simp only [Descriptor.committed.injEq] at ho
      subst ho
      exact ⟨hn.symm, positive, lens.2.1⟩
    · exact h.chains.committed_lengths f o ho
  · rcases cases3 b with hb | hb | hb
    · rw [gone b hb]
      exact ⟨rfl, rfl, rfl⟩
    · rw [kept b hb] at hco
      exact absurd rfl hco
    · rw [off b hb] at hs hco ⊢
      exact h.chains.unheld_blocks b hs hco
  · rcases cases3 b with hc3 | hc3 | hc3
    · rw [gone b hc3] at hb
      simp only [BlockRecord.returned] at hb
      split at hb <;> simp at hb
    · exact held_of_liesIn chainS chainC (d := d) (.inr ⟨_, by rw [desc, if_pos rfl], by rw [newChain]; exact hc3⟩)
    · rw [off b hc3] at hb
      obtain ⟨f, _, lies, _⟩ := h.chains.held_blocks b hb
      have ne : d ≠ f := by
        rintro rfl
        simp only [LiesIn, e, Descriptor.staged.injEq, exists_eq_left', hc] at lies
        rcases lies with x | ⟨_, x, _⟩
        · exact hc3 x
        · cases x
      refine held_of_liesIn chainS chainC (d := f) ?_
      rcases lies with ⟨o, ho, inO⟩ | ⟨o, ho, inO⟩
      · exact .inl ⟨o, by rw [desc, if_neg ne]; exact ho,
          by rw [(others f _ _ _ ne (h.chains.staged_chain f o ho)).1]; exact inO⟩
      · exact .inr ⟨o, by rw [desc, if_neg ne]; exact ho,
          by rw [(others f _ _ _ ne (h.chains.committed_chain f o ho)).1]; exact inO⟩

/-- A quarantined block that leaves its list for another keeps the pool sound: it becomes FREE, RETIRED, or QUARANTINED again
at the back. -/
theorem scrubMove_sound {q t : Pool} (h : PoolSound q) (b : BlockId) (inQ : b ∈ q.quarantine) (r : BlockRecord)
    (blk : ∀ c, t.block c = if b = c then r else q.block c)
    (clean : r.owner = none ∧ r.next = none ∧ r.fill = 0)
    (moved : (r.state = .free ∧ t.freeBlocks = q.freeBlocks ++ [b] ∧ t.quarantine = q.quarantine.erase b) ∨
      (r.state = .retired ∧ t.freeBlocks = q.freeBlocks ∧ t.quarantine = q.quarantine.erase b) ∨
      (r.state = .quarantined ∧ t.freeBlocks = q.freeBlocks ∧ t.quarantine = q.quarantine.erase b ++ [b]))
    (freeD : t.freeDescriptors = q.freeDescriptors) (desc : ∀ d, t.desc d = q.desc d) : PoolSound t := by
  have sb : (q.block b).state = .quarantined := (h.accounts.mem_quarantine b).mp inQ
  have nf : b ∉ q.freeBlocks := by
    rw [h.accounts.mem_freeBlocks, sb]
    simp
  have once := h.accounts.quarantine_once
  have memErase : ∀ c, c ∈ q.quarantine.erase b ↔ c ≠ b ∧ c ∈ q.quarantine := fun c => once.mem_erase_iff
  have chains : ∀ (d : DescId) (y : BlockState) (f : BlockId) (n : Nat), (y = .staged ∨ y = .committed) →
      ChainOf q d y f n → t.chain f n = q.chain f n ∧ ChainOf t d y f n := by
    intro d y f n hy c
    refine chainOf_congr c (fun a ha => ?_)
    rw [blk, if_neg]
    · exact ⟨rfl, rfl, rfl⟩
    · rintro rfl
      have := c.blocks_state b ha
      rw [sb] at this
      subst this
      simp at hy
  have chainS : ∀ d m, t.desc d = .staged m → ChainOf t d .staged m.firstBlock m.blockCount := fun d m hm => by
    rw [desc] at hm
    exact (chains d _ _ _ (.inl rfl) (h.chains.staged_chain d m hm)).2
  have chainC : ∀ d m, t.desc d = .committed m → ChainOf t d .committed m.firstBlock m.blockCount := fun d m hm => by
    rw [desc] at hm
    exact (chains d _ _ _ (.inr rfl) (h.chains.committed_chain d m hm)).2
  refine ⟨⟨?_, fun c => ?_, ?_, fun c => ?_, by rw [freeD]; exact h.accounts.freeDescriptors_once, fun d => ?_⟩,
    ⟨chainS, fun d m hm => ?_, chainC, fun d m hm => ?_, fun c hs hc => ?_, fun c hc => ?_⟩⟩
  · rcases moved with ⟨_, e, _⟩ | ⟨_, e, _⟩ | ⟨_, e, _⟩
    · rw [e, List.nodup_append]
      refine ⟨h.accounts.freeBlocks_once, List.nodup_singleton b, fun a ha c hc ac => ?_⟩
      rw [List.mem_singleton] at hc
      subst ac hc
      exact nf ha
    · rw [e]
      exact h.accounts.freeBlocks_once
    · rw [e]
      exact h.accounts.freeBlocks_once
  · rw [blk]
    have m := h.accounts.mem_freeBlocks c
    rcases moved with ⟨st, e, _⟩ | ⟨st, e, _⟩ | ⟨st, e, _⟩ <;> rw [e] <;> by_cases bc : b = c
    · subst bc
      simp [st]
    · simp [bc, Ne.symm bc, m]
    · subst bc
      simp [st, nf]
    · simp [bc, m]
    · subst bc
      simp [st, nf]
    · simp [bc, m]
  · rcases moved with ⟨_, _, e⟩ | ⟨_, _, e⟩ | ⟨_, _, e⟩
    · rw [e]
      exact once.erase b
    · rw [e]
      exact once.erase b
    · rw [e, List.nodup_append]
      refine ⟨once.erase b, List.nodup_singleton b, fun a ha c hc ac => ?_⟩
      rw [List.mem_singleton] at hc
      subst ac hc
      exact ((memErase a).mp ha).1 rfl
  · rw [blk]
    have m := h.accounts.mem_quarantine c
    rcases moved with ⟨st, _, e⟩ | ⟨st, _, e⟩ | ⟨st, _, e⟩ <;> rw [e] <;> by_cases bc : b = c
    · subst bc
      simp [st, memErase]
    · simp [bc, Ne.symm bc, m, memErase]
    · subst bc
      simp [st, memErase]
    · simp [bc, Ne.symm bc, m, memErase]
    · subst bc
      simp [st]
    · simp [bc, Ne.symm bc, m, memErase]
  · rw [freeD, desc]
    exact h.accounts.mem_freeDescriptors d
  · rw [desc] at hm
    exact h.chains.staged_lengths d m hm
  · rw [desc] at hm
    exact h.chains.committed_lengths d m hm
  · rw [blk] at hs hc ⊢
    split
    · exact clean
    · rename_i bc
      rw [if_neg bc] at hs hc
      exact h.chains.unheld_blocks c hs hc
  · have bc : b ≠ c := by
      rintro rfl
      rw [blk, if_pos rfl] at hc
      rcases moved with ⟨st, _⟩ | ⟨st, _⟩ | ⟨st, _⟩ <;> simp [st] at hc
    rw [blk, if_neg bc] at hc
    obtain ⟨d, _, lies, _⟩ := h.chains.held_blocks c hc
    refine held_of_liesIn chainS chainC (d := d) ?_
    rcases lies with ⟨m, hm, inM⟩ | ⟨m, hm, inM⟩
    · exact .inl ⟨m, by rw [desc]; exact hm,
        by rw [(chains d _ _ _ (.inl rfl) (h.chains.staged_chain d m hm)).1]; exact inM⟩
    · exact .inr ⟨m, by rw [desc]; exact hm,
        by rw [(chains d _ _ _ (.inr rfl) (h.chains.committed_chain d m hm)).1]; exact inM⟩

/-- A block that passes its SCRUB test keeps the pool sound. -/
theorem scrubPass_sound {q : Pool} (h : PoolSound q) (b : BlockId) (inQ : b ∈ q.quarantine) :
    PoolSound (q.scrubPass b) := by
  unfold Pool.scrubPass
  generalize Memory.writeBlock b (fun _ => 0) 64 q.bytes = bytes
  dsimp only
  generalize Config.storedCheck (Pool.blockBytes _ b) = check
  exact scrubMove_sound h b inQ
    { state := .free, next := none, fill := 0, failed := false, scrubFailures := 0, owner := none, check := check }
    (fun c => Pool.setBlock_block { q with bytes := bytes } b c _) ⟨rfl, rfl, rfl⟩ (.inl ⟨rfl, rfl, rfl⟩) rfl
    (fun _ => rfl)

/-- A block that fails its SCRUB test keeps the pool sound. -/
theorem scrubFail_sound {q : Pool} (h : PoolSound q) (b : BlockId) (draw : Nat) (inQ : b ∈ q.quarantine) :
    PoolSound (q.scrubFail b draw) := by
  have sb : (q.block b).state = .quarantined := (h.accounts.mem_quarantine b).mp inQ
  have clean := h.chains.unheld_blocks b (by simp [sb]) (by simp [sb])
  unfold Pool.scrubFail
  generalize Memory.writeBlock b (Config.scrubResidue draw) 64 q.bytes = bytes
  dsimp only
  split
  · exact scrubMove_sound h b inQ
      { q.block b with state := .retired, scrubFailures := (q.block b).scrubFailures + 1 }
      (fun c => Pool.setBlock_block { q with bytes := bytes } b c _) clean (.inr (.inl ⟨rfl, rfl, rfl⟩)) rfl
      (fun _ => rfl)
  · exact scrubMove_sound h b inQ
      { q.block b with scrubFailures := (q.block b).scrubFailures + 1 }
      (fun c => Pool.setBlock_block { q with bytes := bytes } b c _) clean (.inr (.inr ⟨sb, rfl, rfl⟩)) rfl
      (fun _ => rfl)

end Sys2Proof.Laws
end

