-- ==== Sys2Proof/Laws/Tables.lean ====
section
/-! SUPPORT. What the shared operations over the tables write: for each, the tables outside which nothing changes, and the
records of the tables that it leaves. -/

namespace Sys2Proof.Laws

open Sys2Proof.Machine

/-! ### Setters -/

@[simp] theorem setSub_setSub (s : State) (i : StreamId) (p : Port) (u v : Option Subscription) :
    (s.setSub i p u).setSub i p v = s.setSub i p v := by
  simp only [State.setSub]
  congr 1
  have : (s.subs.set i.val ((s.subs.get i).set p.val u p.isLt) i.isLt).get i = (s.subs.get i).set p.val u p.isLt := by
    rw [get_set, if_pos rfl]
  rw [this, set_set, set_set]

/-! ### Notices and the flush timer -/

/-- A post writes the notice queues only. -/
theorem post_kept (s : State) (p : Port) (n : Notice) : s.post p n = { s with queues := (s.post p n).queues } := by
  unfold State.post
  split <;> rfl

@[simp] theorem post_pool (s : State) (p : Port) (n : Notice) : (s.post p n).pool = s.pool := by rw [post_kept]
@[simp] theorem post_stream (s : State) (p : Port) (n : Notice) (i : StreamId) :
    (s.post p n).stream i = s.stream i := by
  rw [post_kept]
  rfl
@[simp] theorem post_sub (s : State) (p q : Port) (n : Notice) (i : StreamId) : (s.post p n).sub i q = s.sub i q := by
  rw [post_kept]
  rfl
@[simp] theorem post_session (s : State) (p q : Port) (n : Notice) : (s.post p n).session q = s.session q := by
  rw [post_kept]
  rfl

/-- A post to one port leaves the queues of the others. -/
theorem post_queue_ne (s : State) (p q : Port) (n : Notice) (ne : q ≠ p) : (s.post p n).queue q = s.queue q := by
  unfold State.post
  split <;> simp [State.setQueue_queue, Ne.symm ne]

/-- A post does not see the subscriptions. -/
theorem post_setSub (s : State) (p q : Port) (n : Notice) (i : StreamId) (u : Option Subscription) :
    (s.setSub i q u).post p n = (s.post p n).setSub i q u := by
  unfold State.post
  have : (s.setSub i q u).hasRoomForNotice p = s.hasRoomForNotice p := rfl
  rw [this]
  cases s.hasRoomForNotice p <;> rfl

/-- A post keeps the bounds of the queues. -/
theorem post_bounds (s : State) (p q : Port) (n : Notice)
    (h : (s.queue q).records.length ≤ 32 ∧ (s.queue q).dropped ≤ 255) :
    ((s.post p n).queue q).records.length ≤ 32 ∧ ((s.post p n).queue q).dropped ≤ 255 := by
  unfold State.post State.hasRoomForNotice
  split
  · rename_i room
    rw [State.setQueue_queue]
    split
    · rename_i e
      subst e
      simp only [decide_eq_true_eq] at room
      exact ⟨by simpa using room, h.2⟩
    · exact h
  · rw [State.setQueue_queue]
    split
    · rename_i e
      subst e
      exact ⟨h.1, Nat.min_le_left _ _⟩
    · exact h

/-- A flush start writes the sessions only. -/
theorem startFlush_kept (s : State) (p : Port) : s.startFlush p = { s with sessions := (s.startFlush p).sessions } := by
  unfold State.startFlush
  split <;> rfl

/-- A flush start of one port leaves the sessions of the others. -/
theorem startFlush_session_ne (s : State) (p q : Port) (ne : q ≠ p) : (s.startFlush p).session q = s.session q := by
  unfold State.startFlush
  split <;> simp [State.setSession_session, Ne.symm ne]

/-- Posting an ARRIVAL writes the queues and the subscriptions only. -/
theorem postArrival_kept (s : State) (p : Port) (i : StreamId) (u : Subscription) (x : Seq) (c : BitVec 16) :
    s.postArrival p i u x c =
      { s with queues := (s.postArrival p i u x c).queues, subs := (s.postArrival p i u x c).subs } := by
  unfold State.postArrival
  dsimp only
  split
  · rw [post_kept]
    rfl
  · rw [post_kept]

/-! ### Removal, retirement, re-evaluation -/

/-- Removing the oldest message writes the pool and the streams only. -/
theorem removeOldest_kept (s : State) (i : StreamId) :
    s.removeOldest i = { s with pool := (s.removeOldest i).pool, streams := (s.removeOldest i).streams } := by
  unfold State.removeOldest
  split
  · rfl
  · split <;> rfl

/-- Removing the oldest message of one stream leaves the others. -/
theorem removeOldest_stream_ne (s : State) (i j : StreamId) (ne : j ≠ i) :
    (s.removeOldest i).stream j = s.stream j := by
  unfold State.removeOldest
  split
  · rfl
  · split <;> simp [State.setStream_stream, Ne.symm ne]

/-- Release of a message leaves every byte of the Block Pool. -/
theorem releaseMessage_bytes (q : Pool) (d : DescId) : (q.releaseMessage d).bytes = q.bytes := by
  unfold Pool.releaseMessage
  split
  · rfl
  · exact (Pool.returnBlocks_kept _ q).1
  · exact (Pool.returnBlocks_kept _ q).1

/-- Removing the oldest message leaves every byte of the Block Pool. -/
theorem removeOldest_bytes (s : State) (i : StreamId) : (s.removeOldest i).pool.bytes = s.pool.bytes := by
  unfold State.removeOldest
  split
  · rfl
  · split
    · exact releaseMessage_bytes _ _
    · rfl

/-- What one removal keeps, any number of removals keeps. -/
theorem removeMany_keeps {γ : Type} (g : State → γ) (i : StreamId) (h : ∀ w, g (w.removeOldest i) = g w) (n : Nat)
    (s : State) : g (State.removeMany i n s) = g s := by
  induction n generalizing s with
  | zero => rfl
  | succ n ih => exact (ih _).trans (h s)

/-- What one removal keeps, the retirement check keeps. -/
theorem retirementCheck_keeps {γ : Type} (g : State → γ) (i : StreamId) (h : ∀ w, g (w.removeOldest i) = g w)
    (s : State) : g (s.retirementCheck i) = g s := by
  unfold State.retirementCheck
  generalize (s.stream i).committedCount = n
  induction n generalizing s with
  | zero => rfl
  | succ n ih =>
    unfold State.retireLoop
    split
    · exact (ih _).trans (h s)
    · rfl

/-- The retirement check writes the pool and the streams only. -/
theorem retirementCheck_kept (s : State) (i : StreamId) :
    s.retirementCheck i =
      { s with pool := (s.retirementCheck i).pool, streams := (s.retirementCheck i).streams } := by
  have k := retirementCheck_keeps (fun w => { w with pool := Pool.powerOn, streams := s.streams }) i
    (fun w => by rw [removeOldest_kept]) s
  have e := congrArg (fun w : State =>
    { w with pool := (s.retirementCheck i).pool, streams := (s.retirementCheck i).streams }) k
  exact e

/-- Re-evaluation of one stream writes the streams and the queues only. -/
theorem reevaluateStream_kept (s : State) (i : StreamId) :
    s.reevaluateStream i =
      { s with streams := (s.reevaluateStream i).streams, queues := (s.reevaluateStream i).queues } := by
  unfold State.reevaluateStream
  split
  · split
    · rw [post_kept]
      rfl
    · rfl
  · rfl

/-- Re-evaluation writes the streams and the queues only. -/
theorem roomReevaluation_kept (s : State) :
    s.roomReevaluation =
      { s with streams := s.roomReevaluation.streams, queues := s.roomReevaluation.queues } := by
  unfold State.roomReevaluation
  generalize allStreams = l
  induction l generalizing s with
  | nil => rfl
  | cons i t ih =>
    rw [List.foldl_cons, ih, reevaluateStream_kept]

/-- Re-evaluation after an event writes the streams and the queues only. -/
theorem reevaluateAfter_kept (q : Pool) (s : State) :
    State.reevaluateAfter q s =
      { s with streams := (State.reevaluateAfter q s).streams, queues := (State.reevaluateAfter q s).queues } := by
  unfold State.reevaluateAfter
  split
  · exact roomReevaluation_kept s
  · rfl

/-- Re-evaluation changes no stream but its starved need. -/
theorem reevaluateStream_stream (s : State) (i j : StreamId) :
    (s.reevaluateStream i).stream j = { s.stream j with starvedNeed := ((s.reevaluateStream i).stream j).starvedNeed } := by
  unfold State.reevaluateStream
  split
  · split
    · rw [State.setStream_stream]
      split
      · rename_i e
        subst e
        rfl
      · rw [post_stream]
    · rfl
  · rfl

/-! ### Abort, claims, subscriptions -/

/-- Abort writes the pool and the streams only. -/
theorem abortAssembly_kept (s : State) (i : StreamId) :
    s.abortAssembly i = { s with pool := (s.abortAssembly i).pool, streams := (s.abortAssembly i).streams } := by
  unfold State.abortAssembly
  split
  · rfl
  · split <;> rfl

/-- Abort leaves every byte of the Block Pool. -/
theorem abortAssembly_bytes (s : State) (i : StreamId) : (s.abortAssembly i).pool.bytes = s.pool.bytes := by
  unfold State.abortAssembly
  split
  · rfl
  · split
    · exact releaseMessage_bytes _ _
    · rfl

/-- After an abort the stream has no assembly, and keeps its claim and its numbering. -/
theorem abortAssembly_stream (s : State) (i : StreamId) :
    ((s.abortAssembly i).stream i).assembly = none ∧
      (s.abortAssembly i).stream i =
        { s.stream i with assembly := none, heldBlocks := ((s.abortAssembly i).stream i).heldBlocks } := by
  unfold State.abortAssembly
  split
  · rename_i e
    refine ⟨e, ?_⟩
    rw [← e]
  · split <;> simp

/-- Release of a claim writes the pool and the streams only. -/
theorem releaseClaim_kept (s : State) (i : StreamId) :
    s.releaseClaim i = { s with pool := (s.releaseClaim i).pool, streams := (s.releaseClaim i).streams } := by
  unfold State.releaseClaim
  dsimp only
  rw [abortAssembly_kept]
  rfl

/-- Removal of a subscription writes the pool, the queues and the subscriptions only. -/
theorem dropSub_kept (s : State) (i : StreamId) (p : Port) :
    s.dropSub i p =
      { s with pool := (s.dropSub i p).pool, queues := (s.dropSub i p).queues, subs := (s.dropSub i p).subs } := by
  unfold State.dropSub
  split <;> rfl

/-- Removal of a subscription leaves every byte of the Block Pool. -/
theorem dropSub_bytes (s : State) (i : StreamId) (p : Port) : (s.dropSub i p).pool.bytes = s.pool.bytes := by
  unfold State.dropSub
  split
  · rfl
  · dsimp only
    rw [State.setSub_pool, State.setQueue_pool, State.setPool_pool, Pool.lowerReaders_kept]

/-- Claims of port `p` become STALE; every other record of a stream stays. -/
theorem lapseHoldings_stream (s : State) (p : Port) (i : StreamId) :
    (s.lapseHoldings p).stream i = { s.stream i with claim := (s.stream i).claim.toStale p } :=
  get_map _ s.streams i

/-- Claims of port `p` become HELD again; every other record of a stream stays. -/
theorem restoreHoldings_stream (s : State) (p : Port) (i : StreamId) :
    (s.restoreHoldings p).stream i = { s.stream i with claim := (s.stream i).claim.toHeld p } :=
  get_map _ s.streams i

/-- Subscriptions of port `p` become LAPSED; the others stay. -/
theorem lapseHoldings_sub (s : State) (p q : Port) (i : StreamId) :
    (s.lapseHoldings p).sub i q = if p = q then (s.sub i p).map Subscription.lapse else s.sub i q := by
  have h : (s.lapseHoldings p).sub i q =
      ((s.subs.map (fun row : Vector (Option Subscription) 4 => row.set p.val ((row.get p).map Subscription.lapse) p.isLt)).get i).get q := rfl
  rw [h, get_map, get_set]
  rfl

/-- Subscriptions of port `p` become ACTIVE again; the others stay. -/
theorem restoreHoldings_sub (s : State) (p q : Port) (i : StreamId) :
    (s.restoreHoldings p).sub i q = if p = q then (s.sub i p).map Subscription.resume else s.sub i q := by
  have h : (s.restoreHoldings p).sub i q =
      ((s.subs.map (fun row : Vector (Option Subscription) 4 => row.set p.val ((row.get p).map Subscription.resume) p.isLt)).get i).get q := rfl
  rw [h, get_map, get_set]
  rfl

/-! ### Room -/

/-- A forced advance of one port's subscription writes the pool and the subscriptions only. -/
theorem forcePort_kept (i : StreamId) (d : DescId) (x : Seq) (s : State) (p : Port) :
    State.forcePort i d x s p =
      { s with pool := (State.forcePort i d x s p).pool, subs := (State.forcePort i d x s p).subs } := by
  unfold State.forcePort
  split
  · split <;> rfl
  · rfl

/-- A LOSS notice writes the queues and the subscriptions only. -/
theorem postLoss_kept (b : State) (i : StreamId) (o : Port) (s : State) (p : Port) :
    State.postLoss b i o s p =
      { s with queues := (State.postLoss b i o s p).queues, subs := (State.postLoss b i o s p).subs } := by
  unfold State.postLoss
  split
  · split
    · dsimp only
      split
      · rw [post_kept]
        rfl
      · rw [post_kept]
    · rfl
  · rfl

/-- Allocation of an assembly writes the pool and the streams only. -/
theorem openAssembly_kept (s : State) (a : OpenArgs) :
    s.openAssembly a = { s with pool := (s.openAssembly a).pool, streams := (s.openAssembly a).streams } := by
  unfold State.openAssembly
  split <;> rfl

/-! ### Tests of blocks -/

/-- The test of blocks writes the model's draws only. -/
theorem testBlocks_kept (l : List BlockId) (s : State) : (testBlocks l s).1 = { s with draws := (testBlocks l s).1.draws } := by
  induction l generalizing s with
  | nil => rfl
  | cons b t ih =>
    unfold testBlocks
    split
    · rfl
    · split
      · rfl
      · dsimp only
        rw [ih]
        rfl

/-- A block that no test can find at fault but by a fault of its cells: its failed flag is clear and its bytes agree with its
check. -/
def SoundBlock (q : Pool) (b : BlockId) : Prop :=
  (q.block b).failed = false ∧ (q.block b).check = Config.storedCheck (q.blockBytes b)

/-- Blocks that all pass are sound. -/
theorem testBlocks_none (l : List BlockId) (s : State) (h : (testBlocks l s).2 = none) :
    ∀ b ∈ l, SoundBlock s.pool b := by
  induction l generalizing s with
  | nil => simp
  | cons b t ih =>
    simp only [testBlocks] at h
    split at h
    · cases h
    · split at h
      · cases h
      · rename_i h1 h2
        intro c hc
        rcases List.mem_cons.mp hc with e | e
        · subst e
          simp only [State.blockMismatches, ne_eq, Bool.or_eq_true, decide_eq_true_eq, not_or, not_not] at h2
          exact ⟨by simpa using h1, h2.2⟩
        · exact ih s.drawn (by simpa using h) c e

/-- The first block found at fault, at its position in the list; the blocks before it are sound. -/
theorem testBlocks_some (l : List BlockId) (s : State) (k : Nat) (b : BlockId) (h : (testBlocks l s).2 = some (k, b)) :
    l[k]? = some b ∧ ∀ j c, j < k → l[j]? = some c → SoundBlock s.pool c := by
  induction l generalizing s k with
  | nil => simp [testBlocks] at h
  | cons a t ih =>
    simp only [testBlocks] at h
    split at h
    · simp only [Option.some.injEq, Prod.mk.injEq] at h
      obtain ⟨rfl, rfl⟩ := h
      simp
    · split at h
      · simp only [Option.some.injEq, Prod.mk.injEq] at h
        obtain ⟨rfl, rfl⟩ := h
        simp
      · rename_i h1 h2
        simp only [Option.map_eq_some_iff, Prod.mk.injEq, Prod.exists, ↓existsAndEq, and_true] at h
        obtain ⟨k', h, rfl⟩ := h
        obtain ⟨i1, i2⟩ := ih s.drawn k' h
        refine ⟨by simpa using i1, fun j c hj hc => ?_⟩
        cases j with
        | zero =>
          simp only [List.getElem?_cons_zero, Option.some.injEq] at hc
          subst hc
          simp only [State.blockMismatches, ne_eq, Bool.or_eq_true, decide_eq_true_eq, not_or, not_not] at h2
          exact ⟨by simpa using h1, h2.2⟩
        | succ j => exact i2 j c (by omega) (by simpa using hc)

/-- The blocks that hold message offsets `o` to `o + n - 1`. -/
theorem coveredBlocks_get (chain : List BlockId) (o n j : Nat) :
    (coveredBlocks chain o n)[j]? = if j ≤ (o + n - 1) / 64 - o / 64 then chain[o / 64 + j]? else none := by
  simp only [coveredBlocks, List.getElem?_take, List.getElem?_drop, Nat.lt_succ_iff]

/-! ### The memory's canonical form -/

/-- An APPEND keeps the canonical form. -/
theorem storePayload_wf (q : Pool) (d : DescId) (m : StagedMessage) (data : List Byte) (h : Memory.wf q.bytes) :
    Memory.wf (q.storePayload d m data).bytes := by
  unfold Pool.storePayload
  dsimp only
  rw [Pool.setDesc_bytes, (Pool.rechecks_block _ _).1]
  exact Pool.storeBytes_wf _ _ _ _ h

/-- The test of one block by SCRUB keeps the canonical form. -/
theorem scrub_wf (q : Pool) (b : BlockId) (draw : Nat) (h : Memory.wf q.bytes) :
    Memory.wf (q.scrubPass b).bytes ∧ Memory.wf (q.scrubFail b draw).bytes := by
  have w := fun f => Memory.writeBlock_wf b f 64 q.bytes h (Nat.le_refl _)
  constructor
  · have w0 := w (fun _ => 0)
    unfold Pool.scrubPass
    generalize Memory.writeBlock b (fun _ => 0) 64 q.bytes = bytes at *
    exact w0
  · have w1 := w (Config.scrubResidue draw)
    unfold Pool.scrubFail
    generalize Memory.writeBlock b (Config.scrubResidue draw) 64 q.bytes = bytes at *
    dsimp only
    split <;> exact w1

/-- The tests of a SCRUB keep the canonical form. -/
theorem scrubBlocks_wf (l : List BlockId) (s : State) (c : ScrubCounts) (h : Memory.wf s.pool.bytes) :
    Memory.wf (scrubBlocks l s c).1.pool.bytes := by
  induction l generalizing s c with
  | nil => exact h
  | cons b t ih =>
    unfold scrubBlocks
    split
    · exact ih _ _ (scrub_wf s.pool b 0 h).1
    · split
      · exact ih _ _ (scrub_wf s.pool b s.draws h).2
      · exact ih _ _ (scrub_wf s.pool b s.draws h).2

/-- The memory of the reset state has the canonical form. -/
theorem reset_wf : Memory.wf State.reset.pool.bytes := by
  have : State.reset.pool.bytes = [] := by simp only [State.reset, Pool.powerOn]
  rw [this]
  exact Memory.wf_empty

end Sys2Proof.Laws
end

