-- ==== Sys2Proof/Laws/StreamInvariant.lean ====
section
/-! SUPPORT. Every operation over the Stream Table and the Subscription Table keeps the laws of each stream: its committed
list and numbering, its held blocks, its claim, its cursors and the readers remaining of its messages. -/

namespace Sys2Proof.Laws

open Sys2Proof.Machine Sys2Proof.Safety

/-! ### The committed list -/

/-- A list of descriptors, each linked to the next, is the list from its front. -/
theorem listFrom_of_links (q : Pool) (l : List DescId)
    (h : ∀ (k : Nat) (d : DescId), l[k]? = some d → q.nextInStream d = l[k + 1]?) :
    q.listFrom l.length l.head? = l := by
  induction l with
  | nil => rfl
  | cons d t ih =>
    simp only [List.length_cons, List.head?_cons, Pool.listFrom]
    have := ih (fun k e hk => by simpa using h (k + 1) e (by simpa using hk))
    rw [h 0 d rfl]
    simp only [List.getElem?_cons_succ]
    rw [← List.head?_eq_getElem?, this]

/-- The list of a stream's law is the stream's committed list. -/
theorem messages_of_law {s : State} {i : StreamId} {ds : List DescId} (h : StreamLaw s i ds) : s.messages i = ds := by
  unfold State.messages
  rw [← h.count, h.oldest_first]
  refine listFrom_of_links s.pool ds (fun k d hk => ?_)
  obtain ⟨m, e, _, _, n⟩ := h.numbered k d hk
  simp [Pool.nextInStream, e, n]

/-- A message of the list is found at its position, reckoned from the oldest sequence. -/
theorem position_of_law {s : State} {i : StreamId} {ds : List DescId} (h : StreamLaw s i ds) {k : Nat} {d : DescId}
    {m : CommittedMessage} (hk : ds[k]? = some d) (e : s.pool.desc d = .committed m) :
    (m.sequence - (s.stream i).oldestSeq).toNat = k := by
  obtain ⟨o, eo, _, n, _⟩ := h.numbered k d hk
  rw [e, Descriptor.committed.injEq] at eo
  subst eo
  have lt : k < ds.length := (List.getElem?_eq_some_iff.mp hk).1
  have le : ds.length ≤ 512 := by simpa using h.once.length_le_card
  rw [n]
  have : (s.stream i).oldestSeq + BitVec.ofNat 16 k - (s.stream i).oldestSeq = BitVec.ofNat 16 k := by
    rw [BitVec.add_comm, BitVec.add_sub_cancel]
  rw [this, BitVec.toNat_ofNat]
  omega

/-- Every committed message of the stream has a position in the list. -/
theorem listed_of_law {s : State} {i : StreamId} {ds : List DescId} (h : StreamLaw s i ds) {d : DescId}
    {m : CommittedMessage} (e : s.pool.desc d = .committed m) (hi : m.stream = i) :
    ∃ k, ds[k]? = some d ∧ (m.sequence - (s.stream i).oldestSeq).toNat = k := by
  obtain ⟨k, hk⟩ := List.getElem?_of_mem (h.all_listed d m e hi)
  exact ⟨k, hk, position_of_law h hk e⟩

/-! ### What a law reads -/

/-- What the laws of stream `i` read of a descriptor. -/
def viewOf (i : StreamId) : Descriptor → Option (Nat ⊕ (Seq × Option DescId × Nat × Nat))
  | .free => none
  | .staged m => if m.stream = i then some (.inl m.blockCount) else none
  | .committed m => if m.stream = i then some (.inr (m.sequence, m.next, m.blockCount, m.readers)) else none

theorem view_committed {i : StreamId} {x : Descriptor} {a : Seq} {b : Option DescId} {c n : Nat}
    (h : viewOf i x = some (.inr (a, b, c, n))) :
    ∃ m, x = .committed m ∧ m.stream = i ∧ m.sequence = a ∧ m.next = b ∧ m.blockCount = c ∧ m.readers = n := by
  cases x with
  | free => simp [viewOf] at h
  | staged m => simp [viewOf] at h
  | committed m =>
    simp only [viewOf, Option.ite_none_right_eq_some, Option.some.injEq, Sum.inr.injEq, Prod.mk.injEq] at h
    exact ⟨m, rfl, h.1, h.2.1, h.2.2.1, h.2.2.2.1, h.2.2.2.2⟩

theorem view_staged {i : StreamId} {x : Descriptor} {c : Nat} (h : viewOf i x = some (.inl c)) :
    ∃ m, x = .staged m ∧ m.stream = i ∧ m.blockCount = c := by
  cases x with
  | free => simp [viewOf] at h
  | staged m =>
    simp only [viewOf, Option.ite_none_right_eq_some, Option.some.injEq, Sum.inl.injEq] at h
    exact ⟨m, rfl, h.1, h.2⟩
  | committed m => simp [viewOf] at h

theorem view_of_committed {i : StreamId} {x : Descriptor} {m : CommittedMessage} (e : x = .committed m)
    (h : m.stream = i) : viewOf i x = some (.inr (m.sequence, m.next, m.blockCount, m.readers)) := by
  simp [viewOf, e, h]

theorem view_of_staged {i : StreamId} {x : Descriptor} {m : StagedMessage} (e : x = .staged m) (h : m.stream = i) :
    viewOf i x = some (.inl m.blockCount) := by
  simp [viewOf, e, h]

/-- Two states that agree in what the laws of a stream read, but for its claim and starved need. -/
theorem law_congr {s t : State} {i : StreamId} {ds : List DescId} (h : StreamLaw s i ds) (c : Claim)
    (n : Option Nat) (a b : BitVec 32)
    (record : t.stream i = { s.stream i with claim := c, starvedNeed := n, commitTotal := a, shedTotal := b })
    (undef : (s.stream i).settings = none → t.stream i = s.stream i)
    (claimed : c = .none → (s.stream i).assembly = none ∧ n = none)
    (need : ∀ k, n = some k → (s.stream i).assembly = none ∧ 1 ≤ k ∧ k ≤ 64)
    (subs : ∀ p, (t.sub i p).map Subscription.cursor = (s.sub i p).map Subscription.cursor)
    (descs : ∀ d, viewOf i (t.pool.desc d) = viewOf i (s.pool.desc d)) : StreamLaw t i ds := by
  have back : ∀ d m, t.pool.desc d = .committed m → m.stream = i → ∃ o, s.pool.desc d = .committed o ∧ o.stream = i ∧
      o.sequence = m.sequence ∧ o.next = m.next ∧ o.blockCount = m.blockCount ∧ o.readers = m.readers := fun d m e hm =>
    view_committed ((descs d).symm.trans (view_of_committed e hm))
  have forth : ∀ d m, s.pool.desc d = .committed m → m.stream = i → ∃ o, t.pool.desc d = .committed o ∧ o.stream = i ∧
      o.sequence = m.sequence ∧ o.next = m.next ∧ o.blockCount = m.blockCount ∧ o.readers = m.readers := fun d m e hm =>
    view_committed ((descs d).trans (view_of_committed e hm))
  have counts : ∀ x p, countsMessage t i x p = countsMessage s i x p := fun x p => by
    have := subs p
    unfold countsMessage
    cases e : s.sub i p <;> cases f : t.sub i p <;> simp_all
  refine ⟨fun u => ?_, ?_, h.once, ?_, ?_, fun k d hk => ?_, fun d m e hm => ?_, ?_, fun d e => ?_, fun d m e hm => ?_, ?_,
    fun x e => ?_, fun e => ?_, fun k e => ?_, fun p u e => ?_, fun d m e hm => ?_⟩
  · have hs : (s.stream i).settings = none := by rw [record] at u; exact u
    obtain ⟨r, absent⟩ := h.undefined_record hs
    refine ⟨(undef hs).trans r, fun p => ?_⟩
    have := subs p
    rw [absent p] at this
    simpa using this
  · rw [record]; exact h.count
  · rw [record]; exact h.oldest_first
  · rw [record]; exact h.newest_last
  · obtain ⟨m, e, hm, seq, nx⟩ := h.numbered k d hk
    obtain ⟨o, eo, ho, so, no, _⟩ := forth d m e hm
    exact ⟨o, eo, ho, by rw [so, seq, record], by rw [no, nx]⟩
  · obtain ⟨o, eo, ho, _⟩ := back d m e hm
    exact h.all_listed d o eo ho
  · rw [record]; exact h.span
  · rw [record] at e
    obtain ⟨m, em, hm⟩ := h.assembly_staged d e
    obtain ⟨o, eo, ho, _⟩ := view_staged ((descs d).trans (view_of_staged em hm))
    exact ⟨o, eo, ho⟩
  · obtain ⟨o, eo, ho, _⟩ := view_staged ((descs d).symm.trans (view_of_staged e hm))
    rw [record]
    exact h.staged_assembly d o eo ho
  · have asm : assemblyBlocksOf t i = assemblyBlocksOf s i := by
      unfold assemblyBlocksOf
      rw [record]
      cases e : (s.stream i).assembly with
      | none => simp
      | some d =>
        obtain ⟨m, em, hm⟩ := h.assembly_staged d e
        obtain ⟨o, eo, _, bo⟩ := view_staged ((descs d).trans (view_of_staged em hm))
        simp [em, eo, bo]
    have sums : ds.map (committedBlocksOf t.pool) = ds.map (committedBlocksOf s.pool) := by
      refine List.map_congr_left (fun d hd => ?_)
      obtain ⟨k, hk⟩ := List.getElem?_of_mem hd
      obtain ⟨m, e, hm, _⟩ := h.numbered k d hk
      obtain ⟨o, eo, _, _, _, bo, _⟩ := forth d m e hm
      simp [committedBlocksOf, e, eo, bo]
    rw [asm, sums, record]
    exact h.held
  · rw [record] at e ⊢
    exact h.limit x e
  · rw [record] at e ⊢
    exact claimed e
  · rw [record] at e ⊢
    exact need k e
  · have := subs p
    rw [e] at this
    cases f : s.sub i p with
    | none => simp [f] at this
    | some v =>
      simp only [f, Option.map_some, Option.some.injEq] at this
      rw [record, this]
      exact h.cursors p v f
  · obtain ⟨o, eo, ho, so, _, _, ro⟩ := back d m e hm
    rw [← ro, h.readers d o eo ho, so]
    exact List.countP_congr (fun p _ => by rw [counts])

/-- The law of a stream that nothing it reads has changed. -/
theorem law_same {s t : State} {i : StreamId} {ds : List DescId} (h : StreamLaw s i ds)
    (record : t.stream i = s.stream i)
    (subs : ∀ p, (t.sub i p).map Subscription.cursor = (s.sub i p).map Subscription.cursor)
    (descs : ∀ d, viewOf i (t.pool.desc d) = viewOf i (s.pool.desc d)) : StreamLaw t i ds :=
  law_congr h (s.stream i).claim (s.stream i).starvedNeed (s.stream i).commitTotal (s.stream i).shedTotal record
    (fun _ => record) h.claimed h.need subs descs

/-! ### The tables as a whole -/

/-- The pool's accounts and chains, and the laws of every stream. -/
structure Lawful (s : State) : Prop where
  pool : PoolSound s.pool
  streams : ∀ i, ∃ ds, StreamLaw s i ds

theorem lawful_iff (s : State) :
    Lawful s ↔ (PoolAccounts s.pool ∧ ChainsOwned s.pool) ∧ ∀ i, StreamLaw s i (s.messages i) := by
  constructor
  · refine fun h => ⟨⟨h.pool.accounts, h.pool.chains⟩, fun i => ?_⟩
    obtain ⟨ds, l⟩ := h.streams i
    rw [messages_of_law l]
    exact l
  · exact fun h => ⟨⟨h.1.1, h.1.2⟩, fun i => ⟨_, h.2 i⟩⟩

/-- An operation on one stream. -/
theorem Lawful.of_one {s t : State} (h : Lawful s) (i : StreamId) (pool : PoolSound t.pool)
    (self : ∃ ds, StreamLaw t i ds) (streams : ∀ j, j ≠ i → t.stream j = s.stream j)
    (subs : ∀ j, j ≠ i → ∀ p, (t.sub j p).map Subscription.cursor = (s.sub j p).map Subscription.cursor)
    (descs : ∀ j, j ≠ i → ∀ d, viewOf j (t.pool.desc d) = viewOf j (s.pool.desc d)) : Lawful t := by
  refine ⟨pool, fun j => ?_⟩
  by_cases e : j = i
  · rw [e]
    exact self
  · obtain ⟨ds, l⟩ := h.streams j
    exact ⟨ds, law_same l (streams j e) (subs j e) (descs j e)⟩

/-- An operation that leaves what the laws read. -/
theorem Lawful.same {s t : State} (h : Lawful s) (pool : PoolSound t.pool) (streams : ∀ j, t.stream j = s.stream j)
    (subs : ∀ j p, (t.sub j p).map Subscription.cursor = (s.sub j p).map Subscription.cursor)
    (descs : ∀ j d, viewOf j (t.pool.desc d) = viewOf j (s.pool.desc d)) : Lawful t := by
  refine ⟨pool, fun j => ?_⟩
  obtain ⟨ds, l⟩ := h.streams j
  exact ⟨ds, law_same l (streams j) (subs j) (descs j)⟩

/-! ### Sequence arithmetic -/

theorem sub_succ_toNat {a b : Seq} {n : Nat} (h : (a - b).toNat = n + 1) : (a - (b + 1)).toNat = n := by
  have := (a - b).isLt
  bv_omega

theorem succ_sub_toNat {a b : Seq} {n : Nat} (h : (a - b).toNat = n) (lt : n < 65535) : (a + 1 - b).toNat = n + 1 := by
  bv_omega

/-! ### Removal of the oldest message -/

/-- Release of storage frees the descriptor and leaves the others. -/
theorem releaseMessage_desc (q : Pool) (d e : DescId) :
    (q.releaseMessage d).desc e = if d = e then .free else q.desc e := by
  have go : ∀ l : List BlockId, ((l.foldl Pool.returnBlock q).returnDescriptor d).desc e =
      if d = e then .free else q.desc e := by
    intro l
    have k := (Pool.returnBlocks_kept l q).2.1
    have := Pool.setDesc_desc (l.foldl Pool.returnBlock q) d e .free
    simp only [Pool.desc, k] at this
    exact this
  unfold Pool.releaseMessage
  cases f : q.desc d with
  | free =>
    by_cases de : d = e
    · subst de
      simp [f]
    · simp [de]
  | staged m => exact go _
  | committed m => exact go _

/-- What removal of the oldest message writes. -/
theorem removeOldest_eq {s : State} {i : StreamId} {d : DescId} {m : CommittedMessage}
    (o : (s.stream i).oldest = some d) (e : s.pool.desc d = .committed m) :
    s.removeOldest i = (s.setPool (s.pool.releaseMessage d)).setStream i
      { s.stream i with
        oldest := m.next
        newest := if m.next.isNone then none else (s.stream i).newest
        committedCount := (s.stream i).committedCount - 1
        oldestSeq := (s.stream i).oldestSeq + 1
        heldBlocks := (s.stream i).heldBlocks - m.blockCount } := by
  simp [State.removeOldest, o, e]

/-- Removal of the oldest message, at which no cursor stands, keeps the law of the stream. -/
theorem removeOldest_law {s : State} {i : StreamId} {d : DescId} {rest : List DescId} (h : StreamLaw s i (d :: rest))
    (clear : ∀ p u, s.sub i p = some u → u.cursor ≠ (s.stream i).oldestSeq) : StreamLaw (s.removeOldest i) i rest := by
  obtain ⟨m, e, hm, seq, nx⟩ := h.numbered 0 d rfl
  have rec0 := removeOldest_eq (h.oldest_first.trans rfl) e
  generalize s.removeOldest i = t at *
  have st : t.stream i = { s.stream i with
        oldest := m.next
        newest := if m.next.isNone then none else (s.stream i).newest
        committedCount := (s.stream i).committedCount - 1
        oldestSeq := (s.stream i).oldestSeq + 1
        heldBlocks := (s.stream i).heldBlocks - m.blockCount } := by
    rw [rec0, State.setStream_stream, if_pos rfl]
  have sub : ∀ p, t.sub i p = s.sub i p := fun p => by rw [rec0]; rfl
  have desc : ∀ c, t.pool.desc c = if d = c then .free else s.pool.desc c := fun c => by
    rw [rec0]
    exact releaseMessage_desc s.pool d c
  clear rec0
  have cnt : (s.stream i).committedCount = rest.length + 1 := h.count.symm
  have once := List.nodup_cons.mp h.once
  have nx : m.next = rest.head? := by rw [nx, List.head?_eq_getElem?]; rfl
  have position : ∀ p u, s.sub i p = some u → ∃ k, (u.cursor - (s.stream i).oldestSeq).toNat = k + 1 := by
    intro p u hu
    have ne := clear p u hu
    refine ⟨(u.cursor - (s.stream i).oldestSeq).toNat - 1, ?_⟩
    have : u.cursor - (s.stream i).oldestSeq ≠ 0 := fun x => ne (by bv_omega)
    have : (u.cursor - (s.stream i).oldestSeq).toNat ≠ 0 := fun x => this (BitVec.eq_of_toNat_eq (by simpa using x))
    omega
  refine ⟨fun u => ?_, ?_, once.2, ?_, ?_, fun k c hk => ?_, fun c n en hn => ?_, ?_, fun c ec => ?_, fun c n en hn => ?_,
    ?_, fun x ex => ?_, fun ec => ?_, fun k ek => ?_, fun p u hu => ?_, fun c n en hn => ?_⟩
  · have u' : (s.stream i).settings = none := by rw [st] at u; exact u
    obtain ⟨r, _⟩ := h.undefined_record u'
    rw [r] at cnt
    simp [StreamRecord.undefined] at cnt
  · rw [st]
    dsimp only
    omega
  · rw [st]
    exact nx
  · rw [st, nx]
    cases rest with
    | nil => rfl
    | cons c r =>
      have := h.newest_last
      rw [List.getLast?_cons_cons] at this
      exact this
  · obtain ⟨o, eo, ho, so, no⟩ := h.numbered (k + 1) c (by simpa using hk)
    have ne : d ≠ c := fun x => once.1 (x ▸ List.mem_of_getElem? hk)
    refine ⟨o, by rw [desc, if_neg ne]; exact eo, ho, ?_, by simpa using no⟩
    rw [so, st]
    dsimp only
    rw [BitVec.add_assoc]
    congr 1
    apply BitVec.eq_of_toNat_eq
    simp [BitVec.toNat_add, Nat.add_comm]
  · rw [desc] at en
    split at en
    · cases en
    · rename_i ne
      exact ((List.mem_cons.mp (h.all_listed c n en hn)).resolve_left (Ne.symm ne))
  · rw [st]
    dsimp only
    rw [sub_succ_toNat (h.span.trans cnt), cnt]
    rfl
  · rw [st] at ec
    obtain ⟨n, en, hn⟩ := h.assembly_staged c ec
    refine ⟨n, ?_, hn⟩
    rw [desc, if_neg]
    · exact en
    · rintro rfl
      simp [e] at en
  · rw [desc] at en
    split at en
    · cases en
    · rw [st]
      exact h.staged_assembly c n en hn
  · have asm : assemblyBlocksOf t i = assemblyBlocksOf s i := by
      unfold assemblyBlocksOf
      rw [st]
      cases ea : (s.stream i).assembly with
      | none => rfl
      | some c =>
        obtain ⟨n, en, _⟩ := h.assembly_staged c ea
        have ne : d ≠ c := by
          rintro rfl
          simp [e] at en
        simp [desc, ne]
    have sums : rest.map (committedBlocksOf t.pool) = rest.map (committedBlocksOf s.pool) := by
      refine List.map_congr_left (fun c hc => ?_)
      have ne : d ≠ c := fun x => once.1 (x ▸ hc)
      simp [committedBlocksOf, desc, ne]
    have held := h.held
    rw [List.map_cons, List.sum_cons] at held
    have first : committedBlocksOf s.pool d = m.blockCount := by simp [committedBlocksOf, e]
    rw [asm, sums, st]
    dsimp only
    omega
  · rw [st] at ex ⊢
    have := h.limit x ex
    dsimp only
    omega
  · rw [st] at ec ⊢
    exact h.claimed ec
  · rw [st] at ek ⊢
    exact h.need k ek
  · rw [sub] at hu
    obtain ⟨k, hk⟩ := position p u hu
    have := h.cursors p u hu
    rw [st]
    dsimp only
    rw [sub_succ_toNat hk]
    omega
  · rw [desc] at en
    split at en
    · cases en
    · rename_i ne
      rw [h.readers c n en hn]
      obtain ⟨k, hk, pos⟩ := listed_of_law h en hn
      cases k with
      | zero =>
        simp only [List.getElem?_cons_zero, Option.some.injEq] at hk
        exact absurd hk ne
      | succ k =>
        refine List.countP_congr (fun p _ => ?_)
        have : countsMessage s i n.sequence p = countsMessage t i n.sequence p := by
          unfold countsMessage
          rw [sub]
          cases hu : s.sub i p with
          | none => rfl
          | some u =>
            obtain ⟨j, hj⟩ := position p u hu
            simp only [st]
            rw [sub_succ_toNat hj, sub_succ_toNat pos, hj, pos]
            simp
        rw [this]

/-- Removal of the oldest message, at which no cursor stands, keeps the tables lawful. -/
theorem removeOldest_lawful {s : State} (h : Lawful s) (i : StreamId)
    (clear : (s.stream i).oldest ≠ none → ∀ p u, s.sub i p = some u → u.cursor ≠ (s.stream i).oldestSeq) :
    Lawful (s.removeOldest i) := by
  obtain ⟨ds, l⟩ := h.streams i
  cases ds with
  | nil =>
    have : (s.stream i).oldest = none := l.oldest_first
    simpa [State.removeOldest, this] using h
  | cons d rest =>
    have o : (s.stream i).oldest = some d := l.oldest_first
    obtain ⟨m, e, hm, _⟩ := l.numbered 0 d rfl
    have eq := removeOldest_eq o e
    refine h.of_one i ?_ ⟨rest, removeOldest_law l (clear (by simp [o]))⟩ (fun j ne => ?_) (fun j _ p => ?_)
      (fun j ne c => ?_)
    · rw [eq]
      exact releaseMessage_sound h.pool d
    · rw [eq, State.setStream_stream, if_neg (Ne.symm ne)]
      rfl
    · rw [eq]
      rfl
    · rw [eq]
      change viewOf j ((s.pool.releaseMessage d).desc c) = _
      rw [releaseMessage_desc]
      split
      · rename_i dc
        subst dc
        simp [viewOf, e, hm, Ne.symm ne]
      · rfl

/-! ### Cursors and readers remaining -/

/-- A count over a list without repetition, when one element no longer counts. -/
theorem countP_less {f g : Port → Bool} {l : List Port} (once : l.Nodup) (p : Port) (hp : p ∈ l)
    (off : ∀ q, q ≠ p → g q = f q) (before : f p = true) (after : g p = false) : l.countP g = l.countP f - 1 := by
  have : l.countP g + 1 = l.countP f := by
    induction l with
    | nil => cases hp
    | cons a r ih =>
      have n := List.nodup_cons.mp once
      by_cases e : a = p
      · subst e
        have rest : r.countP g = r.countP f :=
          List.countP_congr (fun q hq => by rw [off q (fun x => n.1 (x ▸ hq))])
        simp [before, after, rest]
      · have := ih n.2 ((List.mem_cons.mp hp).resolve_left (Ne.symm e))
        rw [List.countP_cons, List.countP_cons, off a e]
        omega
  omega

/-- A count over a list without repetition, when one more element counts. -/
theorem countP_more {f g : Port → Bool} {l : List Port} (once : l.Nodup) (p : Port) (hp : p ∈ l)
    (off : ∀ q, q ≠ p → g q = f q) (before : f p = false) (after : g p = true) : l.countP g = l.countP f + 1 := by
  have := countP_less once p hp (fun q hq => (off q hq).symm) after before
  have : 0 < l.countP g := List.countP_pos_iff.mpr ⟨p, hp, after⟩
  omega

theorem countP_same {f g : Port → Bool} {l : List Port} (h : ∀ q, g q = f q) : l.countP g = l.countP f :=
  List.countP_congr (fun q _ => by rw [h q])

/-- The law of a stream after an operation that changes cursors and readers remaining only. -/
theorem law_recount {s t : State} {i : StreamId} {ds : List DescId} (h : StreamLaw s i ds)
    (record : t.stream i = s.stream i)
    (absent : (s.stream i).settings = none → ∀ p, t.sub i p = none)
    (descs : ∀ d, t.pool.desc d = s.pool.desc d ∨
      ∃ m r, s.pool.desc d = .committed m ∧ t.pool.desc d = .committed { m with readers := r })
    (cursors : ∀ p u, t.sub i p = some u → (u.cursor - (s.stream i).oldestSeq).toNat ≤ (s.stream i).committedCount)
    (readers : ∀ k d m, ds[k]? = some d → t.pool.desc d = .committed m →
      m.readers = (List.finRange 4).countP (fun p => match t.sub i p with
        | some u => decide ((u.cursor - (s.stream i).oldestSeq).toNat ≤ k)
        | none => false)) : StreamLaw t i ds := by
  have back : ∀ d m, t.pool.desc d = .committed m → ∃ r, s.pool.desc d = .committed { m with readers := r } := by
    intro d m e
    rcases descs d with x | ⟨o, r, eo, x⟩
    · exact ⟨m.readers, by rw [← x]; exact e⟩
    · rw [e, Descriptor.committed.injEq] at x
      subst x
      exact ⟨o.readers, eo⟩
  have forth : ∀ d m, s.pool.desc d = .committed m → ∃ r, t.pool.desc d = .committed { m with readers := r } := by
    intro d m e
    rcases descs d with x | ⟨o, r, eo, x⟩
    · exact ⟨m.readers, by rw [x]; exact e⟩
    · rw [e, Descriptor.committed.injEq] at eo
      subst eo
      exact ⟨r, x⟩
  have staged : ∀ d m, t.pool.desc d = .staged m ↔ s.pool.desc d = .staged m := by
    intro d m
    rcases descs d with x | ⟨o, r, eo, x⟩
    · rw [x]
    · simp [eo, x]
  refine ⟨fun u => ?_, ?_, h.once, ?_, ?_, fun k d hk => ?_, fun d m e hm => ?_, ?_, fun d e => ?_, fun d m e hm => ?_, ?_,
    ?_, ?_, ?_, fun p u e => ?_, fun d m e hm => ?_⟩
  · rw [record] at u ⊢
    exact ⟨(h.undefined_record u).1, absent u⟩
  · rw [record]; exact h.count
  · rw [record]; exact h.oldest_first
  · rw [record]; exact h.newest_last
  · obtain ⟨m, e, hm, seq, nx⟩ := h.numbered k d hk
    obtain ⟨r, er⟩ := forth d m e
    exact ⟨_, er, hm, by rw [record]; exact seq, nx⟩
  · obtain ⟨r, er⟩ := back d m e
    exact h.all_listed d _ er hm
  · rw [record]; exact h.span
  · rw [record] at e
    obtain ⟨m, em, hm⟩ := h.assembly_staged d e
    exact ⟨m, (staged d m).mpr em, hm⟩
  · rw [record]
    exact h.staged_assembly d m ((staged d m).mp e) hm
  · have asm : assemblyBlocksOf t i = assemblyBlocksOf s i := by
      unfold assemblyBlocksOf
      rw [record]
      cases e : (s.stream i).assembly with
      | none => rfl
      | some d =>
        obtain ⟨m, em, _⟩ := h.assembly_staged d e
        simp [em, (staged d m).mpr em]
    have sums : ds.map (committedBlocksOf t.pool) = ds.map (committedBlocksOf s.pool) := by
      refine List.map_congr_left (fun d hd => ?_)
      obtain ⟨k, hk⟩ := List.getElem?_of_mem hd
      obtain ⟨m, e, _⟩ := h.numbered k d hk
      obtain ⟨r, er⟩ := forth d m e
      simp [committedBlocksOf, e, er]
    rw [asm, sums, record]
    exact h.held
  · rw [record]; exact h.limit
  · rw [record]; exact h.claimed
  · rw [record]; exact h.need
  · rw [record]
    exact cursors p u e
  · obtain ⟨r, er⟩ := back d m e
    obtain ⟨k, hk, pos⟩ := listed_of_law h er hm
    rw [readers k d m hk e]
    refine countP_same (fun p => ?_)
    unfold countsMessage
    rw [record]
    dsimp only at pos
    rw [pos]
    all_goals rfl

/-- The readers remaining of the message at a position, by the positions of the cursors. -/
theorem readers_at {s : State} {i : StreamId} {ds : List DescId} (h : StreamLaw s i ds) {k : Nat} {d : DescId}
    {m : CommittedMessage} (hk : ds[k]? = some d) (e : s.pool.desc d = .committed m) :
    m.readers = (List.finRange 4).countP (fun p => match s.sub i p with
      | some u => decide ((u.cursor - (s.stream i).oldestSeq).toNat ≤ k)
      | none => false) := by
  obtain ⟨o, eo, ho, _⟩ := h.numbered k d hk
  rw [e, Descriptor.committed.injEq] at eo
  subst eo
  rw [h.readers d m e ho]
  refine countP_same (fun p => ?_)
  unfold countsMessage
  rw [position_of_law h hk e]
  all_goals rfl

/-- Lowering readers remaining of listed messages, each listed once. -/
theorem lowerReaders_desc (ds : List DescId) (q : Pool) (once : ds.Nodup) (e : DescId) :
    (q.lowerReaders ds).desc e = if e ∈ ds then
      (match q.desc e with | .committed m => .committed { m with readers := m.readers - 1 } | x => x) else q.desc e := by
  unfold Pool.lowerReaders
  induction ds generalizing q with
  | nil => simp
  | cons d t ih =>
    have n := List.nodup_cons.mp once
    rw [List.foldl_cons, ih _ n.2, Pool.updateCommitted_desc]
    by_cases de : d = e
    · subst de
      simp only [if_neg n.1, if_true, List.mem_cons_self]
      all_goals rfl
    · simp [de, Ne.symm de]

/-- Raising readers remaining of listed messages, each listed once. -/
theorem raiseReaders_desc (ds : List DescId) (q : Pool) (once : ds.Nodup) (e : DescId) :
    (q.raiseReaders ds).desc e = if e ∈ ds then
      (match q.desc e with | .committed m => .committed { m with readers := m.readers + 1 } | x => x) else q.desc e := by
  unfold Pool.raiseReaders
  induction ds generalizing q with
  | nil => simp
  | cons d t ih =>
    have n := List.nodup_cons.mp once
    rw [List.foldl_cons, ih _ n.2, Pool.updateCommitted_desc]
    by_cases de : d = e
    · subst de
      simp only [if_neg n.1, if_true, List.mem_cons_self]
      all_goals rfl
    · simp [de, Ne.symm de]

/-- A subscription moves past the message at its cursor, whose readers remaining falls: by RELEASE or by a forced advance. -/
theorem advance_law {s t : State} {i : StreamId} {ds : List DescId} (h : StreamLaw s i ds) {p : Port} {u v : Subscription}
    {k : Nat} {d : DescId} (hu : s.sub i p = some u) (pos : (u.cursor - (s.stream i).oldestSeq).toNat = k)
    (hk : ds[k]? = some d) (record : t.stream i = s.stream i) (self : t.sub i p = some v) (cur : v.cursor = u.cursor + 1)
    (others : ∀ q, q ≠ p → t.sub i q = s.sub i q) (pool : t.pool = s.pool.lowerReaders [d]) : StreamLaw t i ds := by
  have lt : k < ds.length := (List.getElem?_eq_some_iff.mp hk).1
  have le : ds.length ≤ 512 := by simpa using h.once.length_le_card
  have cnt := h.count
  have desc : ∀ c, t.pool.desc c = if c ∈ [d] then
      (match s.pool.desc c with | .committed m => .committed { m with readers := m.readers - 1 } | x => x)
      else s.pool.desc c := fun c => by rw [pool]; exact lowerReaders_desc [d] s.pool (List.nodup_singleton d) c
  have vpos : (v.cursor - (s.stream i).oldestSeq).toNat = k + 1 := by
    rw [cur]
    exact succ_sub_toNat pos (by omega)
  refine law_recount h record (fun n q => ?_) (fun c => ?_) (fun q w hw => ?_) (fun j c m hj e => ?_)
  · have := (h.undefined_record n).2 p
    rw [hu] at this
    cases this
  · rw [desc]
    split
    · cases e : s.pool.desc c with
      | free => exact .inl rfl
      | staged m => exact .inl rfl
      | committed m => exact .inr ⟨m, _, rfl, rfl⟩
    · exact .inl rfl
  · by_cases qp : q = p
    · subst qp
      rw [self, Option.some.injEq] at hw
      subst hw
      omega
    · rw [others q qp] at hw
      exact h.cursors q w hw
  · obtain ⟨o, eo, _⟩ := h.numbered j c hj
    have base := readers_at h hj eo
    rw [desc, eo] at e
    have off : ∀ q, q ≠ p →
        (match t.sub i q with
          | some u => decide ((u.cursor - (s.stream i).oldestSeq).toNat ≤ j)
          | none => false) =
        (match s.sub i q with
          | some u => decide ((u.cursor - (s.stream i).oldestSeq).toNat ≤ j)
          | none => false) := fun q hq => by rw [others q hq]
    by_cases jk : j = k
    · subst jk
      rw [hk, Option.some.injEq] at hj
      subst hj
      simp only [List.mem_singleton, if_true, Descriptor.committed.injEq] at e
      subst e
      dsimp only
      rw [base]
      exact (countP_less (List.nodup_finRange 4) p (List.mem_finRange p) off (by simp [hu, pos])
        (by simp [self, vpos])).symm
    · have ne : c ≠ d := by
        rintro rfl
        exact jk ((List.getElem?_inj (List.getElem?_eq_some_iff.mp hj).1 h.once).mp (hj.trans hk.symm))
      simp only [List.mem_singleton, if_neg ne, Descriptor.committed.injEq] at e
      subst e
      rw [base]
      refine countP_same (fun q => ?_)
      by_cases qp : q = p
      · subst qp
        simp only [hu, self, pos, vpos, decide_eq_decide]
        omega
      · exact (off q qp).symm

/-- Lowering readers remaining of messages of one stream leaves what the laws of another read. -/
theorem lowerReaders_view {q : Pool} {ds : List DescId} {i j : StreamId} (once : ds.Nodup) (ne : j ≠ i)
    (own : ∀ d ∈ ds, ∀ m, q.desc d = .committed m → m.stream = i) (e : DescId) :
    viewOf j ((q.lowerReaders ds).desc e) = viewOf j (q.desc e) := by
  rw [lowerReaders_desc ds q once]
  split
  · rename_i he
    cases f : q.desc e with
    | free => rfl
    | staged m => rfl
    | committed m => simp [viewOf, own e he m f, Ne.symm ne]
  · rfl

/-- Raising readers remaining of messages of one stream leaves what the laws of another read. -/
theorem raiseReaders_view {q : Pool} {ds : List DescId} {i j : StreamId} (once : ds.Nodup) (ne : j ≠ i)
    (own : ∀ d ∈ ds, ∀ m, q.desc d = .committed m → m.stream = i) (e : DescId) :
    viewOf j ((q.raiseReaders ds).desc e) = viewOf j (q.desc e) := by
  rw [raiseReaders_desc ds q once]
  split
  · rename_i he
    cases f : q.desc e with
    | free => rfl
    | staged m => rfl
    | committed m => simp [viewOf, own e he m f, Ne.symm ne]
  · rfl

/-- The messages of a stream's list are the stream's. -/
theorem own_of_law {s : State} {i : StreamId} {ds : List DescId} (h : StreamLaw s i ds) :
    ∀ d ∈ ds, ∀ m, s.pool.desc d = .committed m → m.stream = i := by
  intro d hd m e
  obtain ⟨k, hk⟩ := List.getElem?_of_mem hd
  obtain ⟨o, eo, ho, _⟩ := h.numbered k d hk
  rw [e, Descriptor.committed.injEq] at eo
  exact eo ▸ ho

/-- A subscription moves past the message at its cursor: the tables stay lawful. -/
theorem advance_lawful {s t : State} (h : Lawful s) {i : StreamId} {ds : List DescId} (l : StreamLaw s i ds) {p : Port}
    {u v : Subscription} {k : Nat} {d : DescId} (hu : s.sub i p = some u)
    (pos : (u.cursor - (s.stream i).oldestSeq).toNat = k) (hk : ds[k]? = some d) (streams : ∀ j, t.stream j = s.stream j)
    (self : t.sub i p = some v) (cur : v.cursor = u.cursor + 1)
    (others : ∀ j q, j ≠ i ∨ q ≠ p → t.sub j q = s.sub j q) (pool : t.pool = s.pool.lowerReaders [d]) : Lawful t := by
  refine h.of_one i (by rw [pool]; exact lowerReaders_sound h.pool [d])
    ⟨ds, advance_law l hu pos hk (streams i) self cur (fun q hq => others i q (.inr hq)) pool⟩ (fun j _ => streams j)
    (fun j ne q => by rw [others j q (.inl ne)]) (fun j ne c => ?_)
  rw [pool]
  refine lowerReaders_view (List.nodup_singleton d) ne (fun e he => ?_) c
  rw [List.mem_singleton.mp he]
  exact own_of_law l d (List.mem_of_getElem? hk)

/-- The part of a list without repetition from a position on. -/
theorem mem_drop_iff {ds : List DescId} (once : ds.Nodup) {j k : Nat} {c : DescId} (hj : ds[j]? = some c) :
    c ∈ ds.drop k ↔ k ≤ j := by
  constructor
  · intro hc
    obtain ⟨n, hn⟩ := List.getElem?_of_mem hc
    rw [List.getElem?_drop] at hn
    have := (List.getElem?_inj (List.getElem?_eq_some_iff.mp hj).1 once).mp (hj.trans hn.symm)
    omega
  · intro le
    exact List.mem_of_getElem? (i := j - k) (by rw [List.getElem?_drop]; rw [← hj]; congr 1; omega)

/-- Removal of a subscription (R90): the tables stay lawful. -/
theorem dropSub_lawful {s : State} (h : Lawful s) (i : StreamId) (p : Port) : Lawful (s.dropSub i p) := by
  cases hu : s.sub i p with
  | none => simpa [State.dropSub, hu] using h
  | some u =>
    obtain ⟨ds, l⟩ := h.streams i
    have counted : s.countedBy i u = ds.drop (u.cursor - (s.stream i).oldestSeq).toNat := by
      unfold State.countedBy
      rw [messages_of_law l]
    have pool : (s.dropSub i p).pool = s.pool.lowerReaders (s.countedBy i u) := by
      simp [State.dropSub, hu]
    have stream : ∀ j, (s.dropSub i p).stream j = s.stream j := fun j => by simp [State.dropSub, hu]
    have sub : ∀ j q, (s.dropSub i p).sub j q = if i = j ∧ p = q then none else s.sub j q := fun j q => by
      simp [State.dropSub, hu, State.setSub_sub]
    generalize s.dropSub i p = t at *
    rw [counted] at pool
    generalize hk : (u.cursor - (s.stream i).oldestSeq).toNat = k at *
    have once : (ds.drop k).Nodup := l.once.sublist (List.drop_sublist _ _)
    have own : ∀ d ∈ ds.drop k, ∀ m, s.pool.desc d = .committed m → m.stream = i := fun d hd =>
      own_of_law l d (List.mem_of_mem_drop hd)
    have desc := fun c => lowerReaders_desc (ds.drop k) s.pool once c
    rw [← pool] at desc
    refine h.of_one i (by rw [pool]; exact lowerReaders_sound h.pool _) ⟨ds, ?_⟩ (fun j _ => stream j)
      (fun j ne q => by rw [sub, if_neg (fun x => ne x.1.symm)]) (fun j ne c => by rw [pool]; exact lowerReaders_view once ne own c)
    refine law_recount l (stream i) (fun n q => ?_) (fun c => ?_) (fun q w hw => ?_) (fun j c m hj e => ?_)
    · rw [sub]
      split
      · rfl
      · exact (l.undefined_record n).2 q
    · rw [desc]
      split
      · cases e : s.pool.desc c with
        | free => exact .inl rfl
        | staged m => exact .inl rfl
        | committed m => exact .inr ⟨m, _, rfl, rfl⟩
      · exact .inl rfl
    · rw [sub] at hw
      split at hw
      · cases hw
      · exact l.cursors q w hw
    · obtain ⟨o, eo, _⟩ := l.numbered j c hj
      have base := readers_at l hj eo
      rw [desc, eo] at e
      have self : t.sub i p = none := by rw [sub, if_pos ⟨rfl, rfl⟩]
      have off : ∀ q, q ≠ p → t.sub i q = s.sub i q := fun q hq => by rw [sub, if_neg (fun x => hq x.2.symm)]
      by_cases kj : k ≤ j
      · rw [if_pos ((mem_drop_iff l.once hj).mpr kj), Descriptor.committed.injEq] at e
        subst e
        dsimp only
        rw [base]
        exact (countP_less (List.nodup_finRange 4) p (List.mem_finRange p) (fun q hq => by rw [off q hq])
          (by simp [hu, hk, kj]) (by simp [self])).symm
      · rw [if_neg (fun x => kj ((mem_drop_iff l.once hj).mp x)), Descriptor.committed.injEq] at e
        subst e
        rw [base]
        refine countP_same (fun q => ?_)
        by_cases qp : q = p
        · subst qp
          simp [hu, self, hk, kj]
        · rw [off q qp]

/-- JOIN (R86 to R88) on a DEFINED stream without a subscription of the port: the tables stay lawful. -/
theorem joinStream_lawful {s : State} (h : Lawful s) (p : Port) (a : JoinArgs)
    (defined : (s.stream a.stream).settings ≠ none) (free : s.sub a.stream p = none) : Lawful (s.joinStream p a).1 := by
  obtain ⟨ds, l⟩ := h.streams a.stream
  generalize hi : a.stream = i at *
  have le : ds.length ≤ 512 := by simpa using l.once.length_le_card
  have stream : ∀ j, (s.joinStream p a).1.stream j = s.stream j := fun j => by simp [State.joinStream]
  by_cases nx : a.atNext = true
  · have pool : (s.joinStream p a).1.pool = s.pool := by simp [State.joinStream, nx]
    have sub : ∀ j q, (s.joinStream p a).1.sub j q = if i = j ∧ p = q then
        some (Subscription.fresh (s.stream i).nextSeq a.lagMark a.batch) else s.sub j q := fun j q => by
      simp [State.joinStream, nx, State.setSub_sub, hi]
    generalize (s.joinStream p a).1 = t at *
    refine h.of_one i (by rw [pool]; exact h.pool) ⟨ds, ?_⟩ (fun j _ => stream j)
      (fun j ne q => by rw [sub, if_neg (fun x => ne x.1.symm)]) (fun j ne c => by rw [pool])
    refine law_recount l (stream i) (fun n => absurd n defined) (fun c => .inl (by rw [pool])) (fun q w hw => ?_)
      (fun j c m hj e => ?_)
    · rw [sub] at hw
      split at hw
      · simp only [Option.some.injEq] at hw
        subst hw
        exact Nat.le_of_eq l.span
      · exact l.cursors q w hw
    · rw [pool] at e
      rw [readers_at l hj e]
      refine countP_same (fun q => ?_)
      have lt : j < ds.length := (List.getElem?_eq_some_iff.mp hj).1
      rw [sub]
      by_cases qp : p = q
      · subst qp
        simp only [true_and, if_true, free, Subscription.fresh, l.span]
        have := l.count
        simp
        omega
      · rw [if_neg (fun x => qp x.2)]
  · have pool : (s.joinStream p a).1.pool = s.pool.raiseReaders ds := by
      simp [State.joinStream, nx, hi, messages_of_law l]
    have sub : ∀ j q, (s.joinStream p a).1.sub j q = if i = j ∧ p = q then
        some (Subscription.fresh (s.stream i).oldestSeq a.lagMark a.batch) else s.sub j q := fun j q => by
      simp [State.joinStream, nx, State.setSub_sub, hi]
    generalize (s.joinStream p a).1 = t at *
    have desc := fun c => raiseReaders_desc ds s.pool l.once c
    rw [← pool] at desc
    refine h.of_one i (by rw [pool]; exact raiseReaders_sound h.pool _) ⟨ds, ?_⟩ (fun j _ => stream j)
      (fun j ne q => by rw [sub, if_neg (fun x => ne x.1.symm)])
      (fun j ne c => by rw [pool]; exact raiseReaders_view l.once ne (own_of_law l) c)
    refine law_recount l (stream i) (fun n => absurd n defined) (fun c => ?_) (fun q w hw => ?_) (fun j c m hj e => ?_)
    · rw [desc]
      split
      · cases e : s.pool.desc c with
        | free => exact .inl rfl
        | staged m => exact .inl rfl
        | committed m => exact .inr ⟨m, _, rfl, rfl⟩
      · exact .inl rfl
    · rw [sub] at hw
      split at hw
      · simp only [Option.some.injEq] at hw
        subst hw
        simp [Subscription.fresh]
      · exact l.cursors q w hw
    · obtain ⟨o, eo, _⟩ := l.numbered j c hj
      have base := readers_at l hj eo
      rw [desc, eo, if_pos (List.mem_of_getElem? hj), Descriptor.committed.injEq] at e
      subst e
      dsimp only
      rw [base]
      refine (countP_more (List.nodup_finRange 4) p (List.mem_finRange p) (fun q hq => ?_) (by simp [free]) ?_).symm
      · rw [sub, if_neg (fun x => hq x.2.symm)]
      · simp [sub, Subscription.fresh]

end Sys2Proof.Laws
end

