-- ==== Sys2Proof/Laws/StreamOperations.lean ====
section
/-! SUPPORT. The operations that commands and events share keep the tables lawful: retirement, the room decision's removals,
allocation, commit and abort of an assembly, claims, teardown and the re-evaluation. -/

namespace Sys2Proof.Laws

open Sys2Proof.Machine Sys2Proof.Safety

/-! ### Retirement -/

/-- When a stream may retire its oldest message, no cursor stands at it. -/
theorem clear_of_mayRetire {s : State} (h : Lawful s) {i : StreamId} (m : s.mayRetire i = true) (p : Port)
    (u : Subscription) (hu : s.sub i p = some u) : u.cursor ≠ (s.stream i).oldestSeq := by
  obtain ⟨ds, l⟩ := h.streams i
  intro eq
  unfold State.mayRetire at m
  split at m
  · rename_i x d _ od
    cases e : s.pool.desc d with
    | free => simp [e] at m
    | staged o => simp [e] at m
    | committed o =>
      simp only [e, Bool.and_eq_true, decide_eq_true_eq] at m
      have hk : ds[0]? = some d := by rw [← List.head?_eq_getElem?, ← l.oldest_first, od]
      have r := readers_at l hk e
      rw [m.1] at r
      have := List.countP_eq_zero.mp r.symm p (List.mem_finRange p)
      simp [hu, eq] at this
  · cases m

/-- Removal of the oldest messages while they may retire. -/
theorem retireLoop_lawful (i : StreamId) (n : Nat) {s : State} (h : Lawful s) : Lawful (State.retireLoop i n s) := by
  induction n generalizing s with
  | zero => exact h
  | succ n ih =>
    unfold State.retireLoop
    split
    · rename_i m
      exact ih (removeOldest_lawful h i (fun _ p u hu => clear_of_mayRetire h m p u hu))
    · exact h

/-- The retirement check (R30) keeps the tables lawful. -/
theorem retirementCheck_lawful {s : State} (h : Lawful s) (i : StreamId) : Lawful (s.retirementCheck i) :=
  retireLoop_lawful i _ h

/-! ### Operations that leave what the laws read -/

/-- An operation on notices, sessions or links. -/
theorem lawful_of_tables {s t : State} (h : Lawful s) (pool : t.pool = s.pool) (streams : ∀ j, t.stream j = s.stream j)
    (subs : ∀ j p, (t.sub j p).map Subscription.cursor = (s.sub j p).map Subscription.cursor) : Lawful t :=
  h.same (by rw [pool]; exact h.pool) streams subs (fun _ _ => by rw [pool])

/-- An operation that changes one subscription without moving its cursor. -/
theorem lawful_of_sub {s t : State} (h : Lawful s) (i : StreamId) (p : Port) {u v : Subscription} (hu : s.sub i p = some u)
    (cur : v.cursor = u.cursor) (pool : t.pool = s.pool) (streams : ∀ j, t.stream j = s.stream j)
    (subs : ∀ j q, t.sub j q = if i = j ∧ p = q then some v else s.sub j q) : Lawful t := by
  refine lawful_of_tables h pool streams (fun j q => ?_)
  rw [subs]
  split
  · rename_i e
    rw [← e.1, ← e.2, hu]
    simp [cur]
  · rfl

theorem setSub_lawful {s : State} (h : Lawful s) (i : StreamId) (p : Port) {u v : Subscription} (hu : s.sub i p = some u)
    (cur : v.cursor = u.cursor) : Lawful (s.setSub i p (some v)) :=
  lawful_of_sub h i p hu cur rfl (fun _ => rfl) (fun j q => State.setSub_sub s i j p q _)

theorem post_lawful {s : State} (h : Lawful s) (p : Port) (n : Notice) : Lawful (s.post p n) :=
  lawful_of_tables h (by simp) (fun _ => by simp) (fun _ _ => by simp)

theorem setQueue_lawful {s : State} (h : Lawful s) (p : Port) (q : NoticeQueue) : Lawful (s.setQueue p q) :=
  lawful_of_tables h rfl (fun _ => rfl) (fun _ _ => rfl)

theorem setSession_lawful {s : State} (h : Lawful s) (p : Port) (x : Session) : Lawful (s.setSession p x) :=
  lawful_of_tables h rfl (fun _ => rfl) (fun _ _ => rfl)

theorem startFlush_lawful {s : State} (h : Lawful s) (p : Port) : Lawful (s.startFlush p) := by
  unfold State.startFlush
  split
  · exact setSession_lawful h p _
  · exact h

/-- An ARRIVAL posted for a subscription, of which `v` differs from the one in the slot in no cursor. -/
theorem postArrival_lawful {s : State} (h : Lawful s) (p : Port) (i : StreamId) {u v : Subscription}
    (hu : s.sub i p = some u) (cur : v.cursor = u.cursor) (x : Seq) (c : BitVec 16) :
    Lawful (s.postArrival p i v x c) := by
  unfold State.postArrival
  dsimp only
  split
  · refine setSub_lawful (post_lawful h p _) i p (u := u) ?_ ?_
    · rw [post_sub]
      exact hu
    · exact cur
  · exact post_lawful h p _

/-! ### Claim, starved need and totals -/

/-- A stream record changed in claim, need and totals only. -/
theorem setRecord_lawful {s : State} (h : Lawful s) (i : StreamId) (c : Claim) (n : Option Nat) (a b : BitVec 32)
    (defined : (s.stream i).settings ≠ none)
    (claimed : c = .none → (s.stream i).assembly = none ∧ n = none)
    (need : ∀ k, n = some k → (s.stream i).assembly = none ∧ 1 ≤ k ∧ k ≤ 64) :
    Lawful (s.setStream i { s.stream i with claim := c, starvedNeed := n, commitTotal := a, shedTotal := b }) := by
  obtain ⟨ds, l⟩ := h.streams i
  refine h.of_one i h.pool ⟨ds, ?_⟩ (fun j ne => ?_) (fun _ _ _ => rfl) (fun _ _ _ => rfl)
  · exact law_congr l c n a b (by rw [State.setStream_stream, if_pos rfl]) (fun x => absurd x defined) claimed need
      (fun _ => rfl) (fun _ => rfl)
  · rw [State.setStream_stream, if_neg (Ne.symm ne)]

/-- An UNDEFINED stream has nothing. -/
theorem undefined_of {s : State} (h : Lawful s) (i : StreamId) (n : (s.stream i).settings = none) :
    s.stream i = StreamRecord.undefined ∧ ∀ p, s.sub i p = none := by
  obtain ⟨ds, l⟩ := h.streams i
  exact l.undefined_record n

/-- A stream with a claim is DEFINED. -/
theorem defined_of_claim {s : State} (h : Lawful s) (i : StreamId) (c : (s.stream i).claim ≠ .none) :
    (s.stream i).settings ≠ none := fun n => by
  rw [(undefined_of h i n).1] at c
  exact c rfl

/-- R77: the re-evaluation of one stream keeps the tables lawful. -/
theorem reevaluateStream_lawful {s : State} (h : Lawful s) (i : StreamId) : Lawful (s.reevaluateStream i) := by
  unfold State.reevaluateStream
  split
  · rename_i x need p hx hn hp
    split
    · obtain ⟨ds, l⟩ := h.streams i
      have c : (s.stream i).claim ≠ .none := fun e => by simp [e, Claim.holder] at hp
      have posted := post_lawful h p
        { kind := .room, stream := i, sequence := (s.stream i).nextSeq,
          count := BitVec.ofNat 16 s.pool.freeBlocks.length, aux := BitVec.ofNat 16 need }
      have := setRecord_lawful posted i (s.stream i).claim none (s.stream i).commitTotal (s.stream i).shedTotal
        (by rw [post_stream]; exact defined_of_claim h i c) (fun e => absurd e c) (fun k e => by cases e)
      rw [post_stream] at this
      exact this
    · exact h
  · exact h

theorem roomReevaluation_lawful {s : State} (h : Lawful s) : Lawful s.roomReevaluation := by
  unfold State.roomReevaluation
  generalize allStreams = l
  induction l generalizing s with
  | nil => exact h
  | cons i t ih => exact ih (reevaluateStream_lawful h i)

theorem reevaluateAfter_lawful {s : State} (h : Lawful s) (q : Pool) : Lawful (State.reevaluateAfter q s) := by
  unfold State.reevaluateAfter
  split
  · exact roomReevaluation_lawful h
  · exact h

/-! ### The room decision's removals -/

@[simp] theorem rearmLag_cursor (u : Subscription) (n : Nat) : (u.rearmLag n).cursor = u.cursor := by
  unfold Subscription.rearmLag
  split <;> rfl

@[simp] theorem forceAdvance_cursor (u : Subscription) (n : Seq) : (u.forceAdvance n).cursor = u.cursor + 1 := by
  unfold Subscription.forceAdvance
  simp

/-- The forced advances over some ports (R69, step 2): the tables stay lawful, and no cursor of theirs is left at the oldest
message. -/
theorem forcePorts_lawful {i : StreamId} {d : DescId} (ps : List Port) {s : State} (h : Lawful s)
    (oldest : (s.stream i).oldest = some d) :
    let t := ps.foldl (State.forcePort i d (s.stream i).oldestSeq) s
    Lawful t ∧ (∀ j, t.stream j = s.stream j) ∧
      (∀ p u, (p ∈ ps ∨ ∀ v, s.sub i p = some v → v.cursor ≠ (s.stream i).oldestSeq) → t.sub i p = some u →
        u.cursor ≠ (s.stream i).oldestSeq) := by
  induction ps generalizing s with
  | nil =>
    refine ⟨h, fun _ => rfl, fun p u c hu => ?_⟩
    exact c.elim (fun x => by cases x) (fun x => x u hu)
  | cons a r ih =>
    obtain ⟨ds, l⟩ := h.streams i
    have hk : ds[0]? = some d := by rw [← List.head?_eq_getElem?, ← l.oldest_first, oldest]
    have one : let t := State.forcePort i d (s.stream i).oldestSeq s a
        Lawful t ∧ (∀ j, t.stream j = s.stream j) ∧
          (∀ u, t.sub i a = some u → u.cursor ≠ (s.stream i).oldestSeq) ∧
          (∀ q, q ≠ a → t.sub i q = s.sub i q) := by
      unfold State.forcePort
      cases hu : s.sub i a with
      | none => exact ⟨h, fun _ => rfl, fun u e => by simp [hu] at e, fun _ _ => rfl⟩
      | some u =>
        dsimp only
        split
        · rename_i e
          refine ⟨advance_lawful h l hu (k := 0) (by simp [e]) hk (fun _ => rfl)
            (v := u.forceAdvance (s.stream i).nextSeq) ?_ (by simp) (fun j q ne => ?_) rfl, fun _ => rfl,
            fun v hv => ?_, fun q ne => ?_⟩
          · rw [State.setSub_sub, if_pos ⟨rfl, rfl⟩]
          · rw [State.setSub_sub, if_neg (fun x => ne.elim (fun y => y x.1.symm) (fun y => y x.2.symm))]
            rfl
          · rw [State.setSub_sub, if_pos ⟨rfl, rfl⟩, Option.some.injEq] at hv
            subst hv
            rw [forceAdvance_cursor, e]
            bv_omega
          · rw [State.setSub_sub, if_neg (fun x => ne x.2.symm)]
            rfl
        · rename_i e
          exact ⟨h, fun _ => rfl, fun v hv => by rw [hu, Option.some.injEq] at hv; exact hv ▸ e, fun _ _ => rfl⟩
    obtain ⟨o1, o2, o3, o4⟩ := one
    rw [List.foldl_cons]
    generalize State.forcePort i d (s.stream i).oldestSeq s a = w at *
    have := ih o1 (by rw [o2]; exact oldest)
    rw [o2] at this
    obtain ⟨r1, r2, r3⟩ := this
    refine ⟨r1, fun j => (r2 j).trans (o2 j), fun p u c hu => r3 p u ?_ hu⟩
    by_cases pa : p = a
    · subst pa
      exact .inr o3
    · rcases c with c | c
      · exact .inl ((List.mem_cons.mp c).resolve_left pa)
      · exact .inr (fun v hv => c v (by rw [← o4 p pa]; exact hv))

/-- One removal of the room decision (R69) keeps the tables lawful. -/
theorem shedOldest_lawful {s : State} (h : Lawful s) (i : StreamId) : Lawful (s.shedOldest i) := by
  unfold State.shedOldest
  split
  · exact h
  · rename_i d od
    cases e : s.pool.desc d with
    | free => exact h
    | staged m => exact h
    | committed m =>
      dsimp only
      obtain ⟨ds, l⟩ := h.streams i
      have hk : ds[0]? = some d := by rw [← List.head?_eq_getElem?, ← l.oldest_first, od]
      obtain ⟨o, eo, _, seq, _⟩ := l.numbered 0 d hk
      rw [e, Descriptor.committed.injEq] at eo
      subst eo
      have seq : m.sequence = (s.stream i).oldestSeq := by rw [seq]; simp
      have counted : Lawful (s.countShed i m) ∧ ((s.countShed i m).stream i).oldest = some d ∧
          ((s.countShed i m).stream i).oldestSeq = (s.stream i).oldestSeq := by
        unfold State.countShed
        split
        · refine ⟨?_, ?_, ?_⟩
          · have defined : (s.stream i).settings ≠ none := fun n => by
              rw [(l.undefined_record n).1] at od
              cases od
            exact setRecord_lawful h i (s.stream i).claim (s.stream i).starvedNeed (s.stream i).commitTotal
              ((s.stream i).shedTotal + 1) defined l.claimed l.need
          · rw [State.setStream_stream, if_pos rfl]
            exact od
          · rw [State.setStream_stream, if_pos rfl]
        · exact ⟨h, od, rfl⟩
      obtain ⟨c1, c2, c3⟩ := counted
      generalize s.countShed i m = w at *
      obtain ⟨f1, f2, f3⟩ := forcePorts_lawful allPorts c1 c2
      rw [seq, ← c3]
      refine removeOldest_lawful f1 i (fun _ p u hu => ?_)
      rw [f2]
      exact f3 p u (.inl (List.mem_finRange p)) hu

theorem shedMany_lawful (i : StreamId) (k : Nat) {s : State} (h : Lawful s) : Lawful (State.shedMany i k s) := by
  induction k generalizing s with
  | zero => exact h
  | succ k ih => exact ih (shedOldest_lawful h i)

theorem postLoss_lawful {s : State} (h : Lawful s) (b : State) (i : StreamId) (o p : Port) :
    Lawful (State.postLoss b i o s p) := by
  unfold State.postLoss
  split
  · rename_i old u _ hu
    split
    · dsimp only
      split
      · exact setSub_lawful (post_lawful h p _) i p (u := u) (by rw [post_sub]; exact hu) rfl
      · exact post_lawful h p _
    · exact h
  · exact h

theorem makeRoom_lawful {s : State} (h : Lawful s) (i : StreamId) (o : Port) (k : Nat) : Lawful (s.makeRoom i o k) := by
  unfold State.makeRoom
  refine retirementCheck_lawful ?_ i
  have : ∀ (l : List Port) (w : State), Lawful w → Lawful (l.foldl (State.postLoss s i o) w) := by
    intro l
    induction l with
    | nil => exact fun _ x => x
    | cons p t ih => exact fun w x => ih _ (postLoss_lawful x s i o p)
  exact this allPorts _ (shedMany_lawful i k h)

end Sys2Proof.Laws
end

