-- ==== Sys2Proof/Laws/StreamAssembly.lean ====
section
/-! SUPPORT. Assemblies, claims and teardown keep the tables lawful: the law of a stream whose assembly, claim or starved need
changes, and that of a stream to which a message is added. -/

namespace Sys2Proof.Laws

open Sys2Proof.Machine Sys2Proof.Safety

/-! ### A change of the assembly -/

/-- The law of a DEFINED stream after a change of its assembly, claim, starved need and held blocks; the committed messages and
the cursors stay. -/
theorem assembly_law {s t : State} {i : StreamId} {ds : List DescId} (h : StreamLaw s i ds) (a : Option DescId) (c : Claim)
    (n : Option Nat) (b : Nat) (defined : (s.stream i).settings ≠ none)
    (record : t.stream i = { s.stream i with assembly := a, claim := c, starvedNeed := n, heldBlocks := b })
    (claimed : c = .none → a = none ∧ n = none)
    (need : ∀ k, n = some k → a = none ∧ 1 ≤ k ∧ k ≤ 64)
    (subs : ∀ p, (t.sub i p).map Subscription.cursor = (s.sub i p).map Subscription.cursor)
    (committed : ∀ d m, t.pool.desc d = .committed m ↔ s.pool.desc d = .committed m)
    (staged : ∀ d m, t.pool.desc d = .staged m → m.stream = i → a = some d)
    (assembly : ∀ d, a = some d → ∃ m, t.pool.desc d = .staged m ∧ m.stream = i)
    (held : b + assemblyBlocksOf s i = (s.stream i).heldBlocks + assemblyBlocksOf t i)
    (limit : ∀ x, (s.stream i).settings = some x → b ≤ x.blockLimit) : StreamLaw t i ds := by
  have counts : ∀ x p, countsMessage t i x p = countsMessage s i x p := fun x p => by
    have := subs p
    unfold countsMessage
    cases e : s.sub i p <;> cases f : t.sub i p <;> simp_all
  have sums : ds.map (committedBlocksOf t.pool) = ds.map (committedBlocksOf s.pool) := by
    refine List.map_congr_left (fun d hd => ?_)
    obtain ⟨k, hk⟩ := List.getElem?_of_mem hd
    obtain ⟨m, e, _⟩ := h.numbered k d hk
    simp [committedBlocksOf, e, (committed d m).mpr e]
  refine ⟨fun u => ?_, by rw [record]; exact h.count, h.once, by rw [record]; exact h.oldest_first,
    by rw [record]; exact h.newest_last, fun k d hk => ?_, fun d m e hm => h.all_listed d m ((committed d m).mp e) hm,
    by rw [record]; exact h.span, fun d e => ?_, fun d m e hm => ?_, ?_, fun x e => ?_, fun e => ?_, fun k e => ?_,
    fun p u e => ?_, fun d m e hm => ?_⟩
  · rw [record] at u
    exact absurd u defined
  · obtain ⟨m, e, r⟩ := h.numbered k d hk
    exact ⟨m, (committed d m).mpr e, by rw [record]; exact r⟩
  · rw [record] at e
    exact assembly d e
  · rw [record]
    exact staged d m e hm
  · have := h.held
    rw [sums, record]
    dsimp only
    omega
  · rw [record] at e ⊢
    exact limit x e
  · rw [record] at e ⊢
    exact claimed e
  · rw [record] at e ⊢
    exact need k e
  · have := subs p
    rw [e] at this
    cases f : s.sub i p with
    | none => simp [f] at this
    | some v =>
      simp only [f, Option.map_some, Option.some.injEq] at this
      rw [record, this]
      exact h.cursors p v f
  · rw [h.readers d m ((committed d m).mp e) hm]
    exact List.countP_congr (fun p _ => by rw [counts])

/-- Abort of an assembly (R58), with any claim and starved need that a stream without one may have. -/
theorem endAssembly_lawful {s : State} (h : Lawful s) (i : StreamId) (c : Claim) (n : Option Nat)
    (defined : (s.stream i).settings ≠ none) (claimed : c = .none → n = none)
    (need : ∀ k, n = some k → (s.stream i).starvedNeed = n) :
    Lawful ((s.abortAssembly i).setStream i { (s.abortAssembly i).stream i with starvedNeed := n, claim := c }) := by
  obtain ⟨ds, l⟩ := h.streams i
  cases ea : (s.stream i).assembly with
  | none =>
    have : s.abortAssembly i = s := by simp [State.abortAssembly, ea]
    rw [this]
    exact setRecord_lawful h i c n (s.stream i).commitTotal (s.stream i).shedTotal defined (fun e => ⟨ea, claimed e⟩)
      (fun k e => l.need k ((need k e).trans e))
  | some d =>
    obtain ⟨m, em, hm⟩ := l.assembly_staged d ea
    have eq : s.abortAssembly i = (s.setPool (s.pool.releaseMessage d)).setStream i
        { s.stream i with assembly := none, heldBlocks := (s.stream i).heldBlocks - m.blockCount } := by
      simp [State.abortAssembly, ea, em]
    have none : n = none := by
      cases n with
      | none => rfl
      | some k =>
        have := (l.need k (need k rfl)).1
        simp [ea] at this
    rw [eq]
    simp only [State.setStream_stream, if_pos]
    have desc := fun e => releaseMessage_desc s.pool d e
    refine h.of_one i (releaseMessage_sound h.pool d) ⟨ds, ?_⟩ (fun j ne => ?_) (fun _ _ _ => rfl) (fun j ne e => ?_)
    · have blocks : assemblyBlocksOf s i = m.blockCount := by simp [assemblyBlocksOf, ea, em]
      have held := l.held
      refine assembly_law l Option.none c n ((s.stream i).heldBlocks - m.blockCount) defined ?_ (fun e => ⟨rfl, claimed e⟩)
        (fun k e => by rw [none] at e; cases e) (fun _ => rfl) (fun e o => ?_) (fun e o eo ho => ?_) (fun _ e => by cases e)
        ?_ (fun x ex => ?_)
      · simp
      · change (s.pool.releaseMessage d).desc e = _ ↔ _
        rw [desc]
        split
        · rename_i de
          subst de
          simp [em]
        · rfl
      · change (s.pool.releaseMessage d).desc e = _ at eo
        rw [desc] at eo
        split at eo
        · cases eo
        · rename_i ne
          have := (l.staged_assembly e o eo ho).symm.trans ea
          exact absurd (Option.some.inj this).symm ne
      · have : assemblyBlocksOf (((s.setPool (s.pool.releaseMessage d)).setStream i
            { s.stream i with assembly := Option.none, heldBlocks := (s.stream i).heldBlocks - m.blockCount }).setStream i
            { s.stream i with assembly := Option.none, heldBlocks := (s.stream i).heldBlocks - m.blockCount
                              starvedNeed := n, claim := c }) i = 0 := by
          simp [assemblyBlocksOf]
        rw [this, blocks]
        omega
      · have := l.limit x ex
        omega
    · rw [State.setStream_stream, if_neg (Ne.symm ne), State.setStream_stream, if_neg (Ne.symm ne)]
      rfl
    · change viewOf j ((s.pool.releaseMessage d).desc e) = _
      rw [desc]
      split
      · rename_i de
        subst de
        simp [viewOf, em, hm, Ne.symm ne]
      · rfl

/-- R58: abort of an assembly keeps the tables lawful. -/
theorem abortAssembly_lawful {s : State} (h : Lawful s) (i : StreamId) : Lawful (s.abortAssembly i) := by
  by_cases u : (s.stream i).settings = none
  · have := (undefined_of h i u).1
    have eq : s.abortAssembly i = s := by simp [State.abortAssembly, this, StreamRecord.undefined]
    rw [eq]
    exact h
  · obtain ⟨ds, l⟩ := h.streams i
    have r := endAssembly_lawful h i (s.stream i).claim (s.stream i).starvedNeed u (fun e => (l.claimed e).2) (fun _ e => e.symm ▸ rfl)
    obtain ⟨_, e⟩ := abortAssembly_stream s i
    refine lawful_of_tables r rfl (fun j => ?_) (fun _ _ => rfl)
    rw [State.setStream_stream]
    split
    · rename_i ij
      rw [← ij, e]
    · rfl

/-- R43: release of a claim keeps the tables lawful. -/
theorem releaseClaim_lawful {s : State} (h : Lawful s) (i : StreamId) (claim : (s.stream i).claim ≠ .none) :
    Lawful (s.releaseClaim i) :=
  endAssembly_lawful h i .none none (defined_of_claim h i claim) (fun _ => rfl) (fun _ e => by cases e)

/-- R40: takeover of a claim keeps the tables lawful. -/
theorem takeover_lawful {s : State} (h : Lawful s) (i : StreamId) (p q : Port) (claim : (s.stream i).claim ≠ .none) :
    Lawful (s.takeover i p q) := by
  unfold State.takeover
  refine reevaluateAfter_lawful (post_lawful (setSession_lawful ?_ p _) p _) _
  exact endAssembly_lawful h i (.held q) none (defined_of_claim h i claim) (fun e => by cases e) (fun _ e => by cases e)

/-! ### Teardown -/

theorem teardownClaim_lawful {s : State} (h : Lawful s) (p : Port) (i : StreamId) : Lawful (State.teardownClaim p s i) := by
  unfold State.teardownClaim
  split
  · rename_i b
    refine releaseClaim_lawful h i (fun e => ?_)
    simp [e, Claim.belongsTo] at b
  · exact h

theorem teardownSub_lawful {s : State} (h : Lawful s) (p : Port) (i : StreamId) : Lawful (State.teardownSub p s i) := by
  unfold State.teardownSub
  split
  · exact retirementCheck_lawful (dropSub_lawful h i p) i
  · exact h

/-- R140: the teardown of a port keeps the tables lawful. -/
theorem teardown_lawful {s : State} (h : Lawful s) (p : Port) : Lawful (s.teardown p) := by
  have claims : ∀ (l : List StreamId) (w : State), Lawful w → Lawful (l.foldl (State.teardownClaim p) w) := by
    intro l
    induction l with
    | nil => exact fun _ x => x
    | cons i t ih => exact fun w x => ih _ (teardownClaim_lawful x p i)
  have subs : ∀ (l : List StreamId) (w : State), Lawful w → Lawful (l.foldl (State.teardownSub p) w) := by
    intro l
    induction l with
    | nil => exact fun _ x => x
    | cons i t ih => exact fun w x => ih _ (teardownSub_lawful x p i)
  unfold State.teardown
  exact reevaluateAfter_lawful (setSession_lawful (setQueue_lawful (subs _ _ (claims _ _ h)) p _) p _) _

/-! ### OPEN -/

/-- The descriptors after an allocation: the one taken was FREE and is STAGED. -/
theorem allocate_desc {q t : Pool} (h : PoolSound q) {i : StreamId} {length : Nat} {tag : BitVec 16} {urgent : Bool} {d : DescId}
    (e : q.allocate i length tag urgent = some (d, t)) :
    q.desc d = .free ∧ ∃ m : StagedMessage, m.stream = i ∧ m.blockCount = blocksFor length ∧
      ∀ c, t.desc c = if d = c then .staged m else q.desc c := by
  unfold Pool.allocate at e
  dsimp only at e
  split at e
  · cases e
  · split at e
    · rename_i c rest b more hD hB
      simp only [Option.some.injEq, Prod.mk.injEq] at e
      obtain ⟨e1, e2⟩ := e
      subst e1
      refine ⟨(h.accounts.mem_freeDescriptors c).mp (by rw [hD]; exact List.mem_cons_self),
        { stream := i, declaredLength := length, fill := 0, firstBlock := b, blockCount := blocksFor length, tag := tag
          urgent := urgent, damaged := false }, rfl, rfl, fun k => ?_⟩
      rw [← e2, Pool.setDesc_desc]
      rw [Pool.stageChain_kept]
      rfl
    · cases e

/-- R49: allocation of an assembly that fits the block limit keeps the tables lawful. -/
theorem openAssembly_lawful {s : State} (h : Lawful s) (a : OpenArgs) (positive : 1 ≤ a.length)
    (claim : (s.stream a.stream).claim ≠ .none) (idle : (s.stream a.stream).assembly = none)
    (fits : ∀ x, (s.stream a.stream).settings = some x →
      (s.stream a.stream).heldBlocks + blocksFor a.length ≤ x.blockLimit) : Lawful (s.openAssembly a) := by
  unfold State.openAssembly
  cases e : s.pool.allocate a.stream a.length a.tag a.urgent with
  | none => exact h
  | some x =>
    obtain ⟨d, q⟩ := x
    dsimp only
    obtain ⟨free, m, hm, blocks, desc⟩ := allocate_desc h.pool e
    have sound := allocate_sound h.pool _ _ _ _ d positive e
    generalize hi : a.stream = i at *
    obtain ⟨ds, l⟩ := h.streams i
    refine h.of_one i sound ⟨ds, ?_⟩ (fun j ne => ?_) (fun _ _ _ => rfl) (fun j ne c => ?_)
    · refine assembly_law l (some d) (s.stream i).claim none ((s.stream i).heldBlocks + blocksFor a.length)
        (defined_of_claim h i claim) (by simp) (fun x => absurd x claim) (fun k x => by cases x) (fun _ => rfl)
        (fun c o => ?_) (fun c o eo ho => ?_) (fun c ec => ?_) ?_ fits
      · change q.desc c = _ ↔ _
        rw [desc]
        split
        · rename_i dc
          subst dc
          simp [free]
        · rfl
      · change q.desc c = _ at eo
        rw [desc] at eo
        split at eo
        · rename_i dc
          rw [dc]
        · have := (l.staged_assembly c o eo ho).symm.trans idle
          cases this
      · simp only [Option.some.injEq] at ec
        subst ec
        exact ⟨m, by change q.desc d = _; rw [desc, if_pos rfl], hm⟩
      · have before : assemblyBlocksOf s i = 0 := by simp [assemblyBlocksOf, idle]
        have after : assemblyBlocksOf ((s.setPool q).setStream i { s.stream i with
            assembly := some d, heldBlocks := (s.stream i).heldBlocks + blocksFor a.length, starvedNeed := none }) i =
            blocksFor a.length := by
          simp [assemblyBlocksOf, desc, blocks]
        rw [before, after]
        omega
    · rw [State.setStream_stream, if_neg (Ne.symm ne)]
      rfl
    · change viewOf j (q.desc c) = _
      rw [desc]
      split
      · rename_i dc
        subst dc
        simp [viewOf, free, hm, Ne.symm ne]
      · rfl

/-- R50: a refused OPEN of 1 to 4096 bytes keeps the tables lawful. -/
theorem recordNeed_lawful {s : State} (h : Lawful s) (i : StreamId) (length : Nat) (positive : 1 ≤ length)
    (bounded : length ≤ 4096) (claim : (s.stream i).claim ≠ .none) (idle : (s.stream i).assembly = none) :
    Lawful (s.recordNeed i (blocksFor length)) := by
  unfold State.recordNeed
  refine setRecord_lawful h i (s.stream i).claim (some (blocksFor length)) (s.stream i).commitTotal (s.stream i).shedTotal
    (defined_of_claim h i claim) (fun e => absurd e claim) (fun k e => ?_)
  simp only [Option.some.injEq] at e
  subst e
  refine ⟨idle, ?_, ?_⟩ <;> unfold blocksFor <;> omega

/-! ### The room that the removals make -/

/-- A descriptor but for readers remaining. -/
def withoutReaders : Descriptor → Descriptor
  | .committed m => .committed { m with readers := 0 }
  | x => x

theorem blocks_withoutReaders {q t : Pool} {d : DescId} (h : withoutReaders (t.desc d) = withoutReaders (q.desc d)) :
    committedBlocksOf t d = committedBlocksOf q d ∧ t.nextInStream d = q.nextInStream d := by
  unfold committedBlocksOf Pool.nextInStream
  cases e : t.desc d <;> cases f : q.desc d <;> simp_all [withoutReaders]

theorem forcePort_withoutReaders (i : StreamId) (d : DescId) (x : Seq) (s : State) (p : Port) (e : DescId) :
    withoutReaders ((State.forcePort i d x s p).pool.desc e) = withoutReaders (s.pool.desc e) := by
  unfold State.forcePort
  split
  · split
    · change withoutReaders ((s.pool.lowerReaders [d]).desc e) = _
      rw [lowerReaders_desc [d] s.pool (by simp)]
      split
      · cases s.pool.desc e <;> rfl
      · rfl
    · rfl
  · rfl

/-- One removal of the room decision: what it leaves of the stream, and of the other messages. -/
theorem shedOldest_room {s : State} {i : StreamId} {d : DescId} {rest : List DescId} (l : StreamLaw s i (d :: rest)) :
    let t := s.shedOldest i
    t.messages i = rest ∧ (t.stream i).heldBlocks + committedBlocksOf s.pool d = (s.stream i).heldBlocks ∧
      (t.stream i).settings = (s.stream i).settings ∧ (t.stream i).assembly = (s.stream i).assembly ∧
      (t.stream i).claim = (s.stream i).claim ∧
      (∀ e ∈ rest, committedBlocksOf t.pool e = committedBlocksOf s.pool e) := by
  obtain ⟨m, em, hm, _, nx⟩ := l.numbered 0 d rfl
  have od : (s.stream i).oldest = some d := l.oldest_first
  have once := List.nodup_cons.mp l.once
  generalize hw : allPorts.foldl (State.forcePort i d m.sequence) (s.countShed i m) = w
  have eq : s.shedOldest i = w.removeOldest i := by simp [State.shedOldest, od, em, hw]
  have same : (∃ a, w.stream i = { s.stream i with shedTotal := a }) ∧
      (∀ e, withoutReaders (w.pool.desc e) = withoutReaders (s.pool.desc e)) := by
    have go : ∀ (ps : List Port) (v : State), (ps.foldl (State.forcePort i d m.sequence) v).stream i = v.stream i ∧
        ∀ e, withoutReaders ((ps.foldl (State.forcePort i d m.sequence) v).pool.desc e) = withoutReaders (v.pool.desc e) := by
      intro ps
      induction ps with
      | nil => exact fun v => ⟨rfl, fun _ => rfl⟩
      | cons p t ih =>
        intro v
        obtain ⟨a, b⟩ := ih (State.forcePort i d m.sequence v p)
        refine ⟨a.trans ?_, fun e => (b e).trans (forcePort_withoutReaders i d m.sequence v p e)⟩
        rw [forcePort_kept]
        rfl
    obtain ⟨a, b⟩ := go allPorts (s.countShed i m)
    rw [hw] at a b
    constructor
    · rw [a]
      unfold State.countShed
      split
      · exact ⟨(s.stream i).shedTotal + 1, by simp⟩
      · exact ⟨(s.stream i).shedTotal, rfl⟩
    · intro e
      rw [b]
      unfold State.countShed
      split <;> rfl
  obtain ⟨⟨a, wr⟩, wd⟩ := same
  have wm : ∃ r, w.pool.desc d = .committed { m with readers := r } := by
    have := wd d
    rw [em] at this
    cases f : w.pool.desc d with
    | free => simp [f, withoutReaders] at this
    | staged o => simp [f, withoutReaders] at this
    | committed o =>
      simp only [f, withoutReaders, Descriptor.committed.injEq] at this
      refine ⟨o.readers, ?_⟩
      cases o
      cases m
      simp_all
  obtain ⟨r, wm⟩ := wm
  have rec0 := removeOldest_eq (s := w) (i := i) (by rw [wr]; exact od) wm
  have first : committedBlocksOf s.pool d = m.blockCount := by simp [committedBlocksOf, em]
  have desc : ∀ e ∈ rest, withoutReaders ((w.removeOldest i).pool.desc e) = withoutReaders (s.pool.desc e) := by
    intro e he
    rw [rec0]
    change withoutReaders ((w.pool.releaseMessage d).desc e) = _
    rw [releaseMessage_desc, if_neg (fun x : d = e => once.1 (x ▸ he))]
    exact wd e
  have st : (w.removeOldest i).stream i = { s.stream i with
      shedTotal := a
      oldest := m.next
      newest := if m.next.isNone then none else (s.stream i).newest
      committedCount := (s.stream i).committedCount - 1
      oldestSeq := (s.stream i).oldestSeq + 1
      heldBlocks := (s.stream i).heldBlocks - m.blockCount } := by
    rw [rec0, State.setStream_stream, if_pos rfl, wr]
  rw [eq]
  refine ⟨?_, ?_, by rw [st], by rw [st], by rw [st], fun e he => (blocks_withoutReaders (desc e he)).1⟩
  · unfold State.messages
    rw [st, ← l.count]
    have hd : m.next = rest.head? := by rw [nx, List.head?_eq_getElem?]; rfl
    dsimp only
    rw [hd]
    refine listFrom_of_links _ rest (fun k e hk => ?_)
    rw [(blocks_withoutReaders (desc e (List.mem_of_getElem? hk))).2]
    obtain ⟨o, eo, _, _, no⟩ := l.numbered (k + 1) e (by simpa using hk)
    simpa [Pool.nextInStream, eo] using no
  · have held := l.held
    rw [List.map_cons, List.sum_cons] at held
    rw [st, first]
    dsimp only
    omega

/-- The removals of the room decision leave the stream the blocks that the removed messages held. -/
theorem shedMany_room (i : StreamId) (k : Nat) {s : State} (h : Lawful s) :
    let t := State.shedMany i k s
    (t.stream i).heldBlocks + (((s.messages i).take k).map (committedBlocksOf s.pool)).sum = (s.stream i).heldBlocks ∧
      (t.stream i).settings = (s.stream i).settings ∧ (t.stream i).assembly = (s.stream i).assembly ∧
      (t.stream i).claim = (s.stream i).claim := by
  induction k generalizing s with
  | zero => simp [State.shedMany]
  | succ k ih =>
    obtain ⟨ds, l⟩ := h.streams i
    have mess := messages_of_law l
    have next := ih (shedOldest_lawful h i)
    cases ds with
    | nil =>
      have : (s.stream i).oldest = none := l.oldest_first
      have same : s.shedOldest i = s := by simp [State.shedOldest, this]
      unfold State.shedMany
      rw [same, mess] at next ⊢
      simpa using next
    | cons d rest =>
      obtain ⟨r1, r2, r3, r4, r5, r6⟩ := shedOldest_room l
      obtain ⟨n1, n2, n3, n4⟩ := next
      unfold State.shedMany
      refine ⟨?_, n2.trans r3, n3.trans r4, n4.trans r5⟩
      rw [mess, List.take_succ_cons, List.map_cons, List.sum_cons]
      have sums : (rest.take k).map (committedBlocksOf (s.shedOldest i).pool) =
          (rest.take k).map (committedBlocksOf s.pool) :=
        List.map_congr_left (fun e he => r6 e (List.mem_of_mem_take he))
      rw [r1, sums] at n1
      omega

/-- The retirement check frees blocks of a stream and takes none. -/
theorem retirementCheck_room (s : State) (i : StreamId) :
    ((s.retirementCheck i).stream i).heldBlocks ≤ (s.stream i).heldBlocks ∧
      ((s.retirementCheck i).stream i).settings = (s.stream i).settings ∧
      ((s.retirementCheck i).stream i).assembly = (s.stream i).assembly ∧
      ((s.retirementCheck i).stream i).claim = (s.stream i).claim := by
  have one : ∀ w : State, ((w.removeOldest i).stream i).heldBlocks ≤ (w.stream i).heldBlocks ∧
      ((w.removeOldest i).stream i).settings = (w.stream i).settings ∧
      ((w.removeOldest i).stream i).assembly = (w.stream i).assembly ∧
      ((w.removeOldest i).stream i).claim = (w.stream i).claim := by
    intro w
    unfold State.removeOldest
    split
    · simp
    · split <;> simp
  unfold State.retirementCheck
  generalize (s.stream i).committedCount = n
  induction n generalizing s with
  | zero => simp [State.retireLoop]
  | succ n ih =>
    unfold State.retireLoop
    split
    · obtain ⟨a, b, c, d⟩ := ih (s.removeOldest i)
      obtain ⟨e, f, g, k⟩ := one s
      exact ⟨Nat.le_trans a e, b.trans f, c.trans g, d.trans k⟩
    · simp

/-- R49, R68: a granted OPEN, with removals that cover its need, keeps the tables lawful. -/
theorem grantOpen_lawful {s : State} (h : Lawful s) (q : Port) (a : OpenArgs) (k : Nat) (positive : 1 ≤ a.length)
    (claim : (s.stream a.stream).claim ≠ .none) (idle : (s.stream a.stream).assembly = none)
    (covered : s.needCovered a.stream (blocksFor a.length) k = true) : Lawful (s.grantOpen q a k) := by
  simp only [State.needCovered, Bool.and_eq_true, decide_eq_true_eq] at covered
  have enough := covered.1.1
  unfold State.headroomAfter at enough
  obtain ⟨ds, l⟩ := h.streams a.stream
  have bound := l.limit
  unfold State.grantOpen
  split
  · rename_i zero
    refine openAssembly_lawful h a positive claim idle (fun x ex => ?_)
    have := bound x ex
    simp only [StreamRecord.headroom, ex, zero, List.take_zero, List.map_nil, List.sum_nil] at enough
    omega
  · obtain ⟨r1, r2, r3, r4⟩ := shedMany_room a.stream k h
    have kept : ∀ (ps : List Port) (w : State), (ps.foldl (State.postLoss s a.stream q) w).stream a.stream = w.stream a.stream := by
      intro ps
      induction ps with
      | nil => exact fun _ => rfl
      | cons p t ih =>
        intro w
        rw [List.foldl_cons, ih, postLoss_kept]
        rfl
    have room : ((s.makeRoom a.stream q k).stream a.stream).heldBlocks +
          (((s.messages a.stream).take k).map (committedBlocksOf s.pool)).sum ≤ (s.stream a.stream).heldBlocks ∧
        ((s.makeRoom a.stream q k).stream a.stream).settings = (s.stream a.stream).settings ∧
        ((s.makeRoom a.stream q k).stream a.stream).assembly = (s.stream a.stream).assembly ∧
        ((s.makeRoom a.stream q k).stream a.stream).claim = (s.stream a.stream).claim := by
      unfold State.makeRoom
      obtain ⟨c1, c2, c3, c4⟩ := retirementCheck_room (allPorts.foldl (State.postLoss s a.stream q) (State.shedMany a.stream k s)) a.stream
      rw [kept] at c1 c2 c3 c4
      refine ⟨?_, c2.trans r2, c3.trans r3, c4.trans r4⟩
      omega
    obtain ⟨m1, m2, m3, m4⟩ := room
    refine roomReevaluation_lawful (openAssembly_lawful (makeRoom_lawful h a.stream q k) a positive (by rw [m4]; exact claim)
      (by rw [m3]; exact idle) (fun x ex => ?_))
    rw [m2] at ex
    have := bound x ex
    have same : (((s.messages a.stream).take k).map s.pool.messageBlocks).sum =
        (((s.messages a.stream).take k).map (committedBlocksOf s.pool)).sum := rfl
    rw [same] at enough
    simp only [StreamRecord.headroom, ex] at enough
    omega

end Sys2Proof.Laws
end

