-- ==== Sys2Proof/Laws/StreamCommit.lean ====
section
/-! SUPPORT. A commit keeps the tables lawful: the message joins the committed list of its stream at the newest end, and every
present subscription counts it. -/

namespace Sys2Proof.Laws

open Sys2Proof.Machine Sys2Proof.Safety

/-- Linking the newest message to a new one keeps the pool sound. -/
theorem linkNewest_sound {q : Pool} (h : PoolSound q) (newest : Option DescId) (d : DescId) :
    PoolSound (q.linkNewest newest d) := by
  unfold Pool.linkNewest
  split
  · exact updateCommitted_sound h _ _ (fun _ => ⟨rfl, rfl, rfl, rfl⟩)
  · exact h

/-- The descriptors after a commit: the assembly's is COMMITTED, the former newest one leads to it, the others stay. -/
theorem commitAssembly_desc {s : State} (h : Lawful s) {i : StreamId} {d : DescId} {m : StagedMessage}
    (e : s.pool.desc d = .staged m) :
    (∃ o : CommittedMessage, (s.commitAssembly i d m).pool.desc d = .committed o ∧ o.stream = m.stream ∧
      o.sequence = (s.stream i).nextSeq ∧ o.next = none ∧ o.blockCount = blocksFor m.fill ∧ o.readers = s.presentCount i) ∧
    (∀ c, c ≠ d → (s.commitAssembly i d m).pool.desc c =
      match s.pool.desc c with
      | .committed o => .committed (if (s.stream i).newest = some c then { o with next := some d } else o)
      | x => x) := by
  obtain ⟨ds, l⟩ := h.streams i
  obtain ⟨_, _, _, _, _, desc⟩ := commitMessage_views d m (s.stream i).nextSeq s.stamp (s.presentCount i)
    (h.pool.chains.staged_chain d m e)
  have pool : (s.commitAssembly i d m).pool =
      (s.pool.commitMessage d m (s.stream i).nextSeq s.stamp (s.presentCount i)).linkNewest (s.stream i).newest d := rfl
  rw [pool]
  generalize s.pool.commitMessage d m (s.stream i).nextSeq s.stamp (s.presentCount i) = q at *
  have apart : (s.stream i).newest ≠ some d := by
    intro x
    have : d ∈ ds := by
      rw [l.newest_last] at x
      exact List.mem_of_getLast? x
    obtain ⟨k, hk⟩ := List.getElem?_of_mem this
    obtain ⟨o, eo, _⟩ := l.numbered k d hk
    rw [e] at eo
    cases eo
  have link : ∀ c, (q.linkNewest (s.stream i).newest d).desc c =
      if (s.stream i).newest = some c then
        (match q.desc c with | .committed o => .committed { o with next := some d } | x => x)
      else q.desc c := by
    intro c
    unfold Pool.linkNewest
    cases hn : (s.stream i).newest with
    | none => simp
    | some n =>
      rw [Pool.updateCommitted_desc]
      by_cases nc : n = c
      · subst nc
        rw [if_pos rfl, if_pos rfl]
        all_goals cases q.desc n <;> rfl
      · simp [nc]
  constructor
  · refine ⟨_, by rw [link, if_neg apart, desc, if_pos rfl], rfl, rfl, rfl, rfl, rfl⟩
  · intro c ne
    rw [link, desc, if_neg (Ne.symm ne)]
    cases s.pool.desc c <;> simp
    split <;> rfl

/-- R54 to R56, steps 1 to 3: a commit of at least one byte keeps the tables lawful. -/
theorem commitAssembly_lawful {s : State} (h : Lawful s) {i : StreamId} {d : DescId} {m : StagedMessage}
    (e : s.pool.desc d = .staged m) (asm : (s.stream i).assembly = some d) (positive : 1 ≤ m.fill) :
    Lawful (s.commitAssembly i d m) := by
  obtain ⟨⟨o, eo, so, qo, no, bo, ro⟩, others⟩ := commitAssembly_desc (i := i) h e
  have sound : PoolSound (s.commitAssembly i d m).pool :=
    linkNewest_sound (commitMessage_sound h.pool d m _ _ _ e positive) _ d
  have stream : ∀ j, (s.commitAssembly i d m).stream j = if i = j then
      { s.stream i with
        assembly := none
        oldest := if (s.stream i).oldest.isNone then some d else (s.stream i).oldest
        newest := some d
        committedCount := (s.stream i).committedCount + 1
        nextSeq := (s.stream i).nextSeq + 1
        heldBlocks := (s.stream i).heldBlocks - (m.blockCount - blocksFor m.fill)
        commitTotal := (s.stream i).commitTotal + 1 } else s.stream j := fun j => by
    unfold State.commitAssembly
    rw [State.setStream_stream]
    rfl
  have sub : ∀ j p, (s.commitAssembly i d m).sub j p = s.sub j p := fun _ _ => rfl
  generalize s.commitAssembly i d m = t at *
  obtain ⟨ds, l⟩ := h.streams i
  have lens := h.pool.chains.staged_lengths d m e
  obtain ⟨m', em', hm⟩ := l.assembly_staged d asm
  rw [e, Descriptor.staged.injEq] at em'
  subst em'
  have fresh : d ∉ ds := by
    intro x
    obtain ⟨k, hk⟩ := List.getElem?_of_mem x
    obtain ⟨o, eo, _⟩ := l.numbered k d hk
    rw [e] at eo
    cases eo
  have small : ds.length ≤ 512 := by simpa using l.once.length_le_card
  have cnt := l.count
  have kept : ∀ c n, s.pool.desc c = .committed n → ∃ x, t.pool.desc c = .committed { n with next := x } := by
    intro c n en
    have ne : c ≠ d := fun x => by
      rw [x, e] at en
      cases en
    rw [others c ne, en]
    dsimp only
    split
    · exact ⟨some d, rfl⟩
    · exact ⟨n.next, rfl⟩
  have back : ∀ c n, c ≠ d → t.pool.desc c = .committed n → ∃ x, s.pool.desc c = .committed { n with next := x } := by
    intro c n ne en
    rw [others c ne] at en
    cases f : s.pool.desc c with
    | free => simp [f] at en
    | staged _ => simp [f] at en
    | committed n' =>
      simp only [f, Descriptor.committed.injEq] at en
      refine ⟨n'.next, ?_⟩
      split at en <;> subst en <;> rfl
  have st := stream i
  rw [if_pos rfl] at st
  have last : ∀ k c, ds[k]? = some c → ((s.stream i).newest = some c ↔ k + 1 = ds.length) := by
    intro k c hk
    have lt := (List.getElem?_eq_some_iff.mp hk).1
    rw [l.newest_last, List.getLast?_eq_getElem?]
    constructor
    · intro x
      have : ds.length - 1 = k := (List.getElem?_inj (by omega) l.once).mp (x.trans hk.symm)
      omega
    · intro x
      rw [← hk]
      congr 1
      omega
  have position : ∀ p u, s.sub i p = some u → (u.cursor - (s.stream i).oldestSeq).toNat ≤ (s.stream i).committedCount := l.cursors
  refine h.of_one i sound ⟨ds ++ [d], ?_⟩ (fun j ne => by rw [stream, if_neg (Ne.symm ne)]) (fun _ _ _ => by rw [sub])
    (fun j ne c => ?_)
  · refine ⟨fun u => ?_, ?_, ?_, ?_, ?_, fun k c hk => ?_, fun c n en hn => ?_, ?_, fun c ec => ?_, fun c n en hn => ?_, ?_,
      fun x ex => ?_, fun ec => ?_, fun k ek => ?_, fun p u hu => ?_, fun c n en hn => ?_⟩
    · have : (s.stream i).settings = none := by rw [st] at u; exact u
      rw [(l.undefined_record this).1] at asm
      cases asm
    · rw [st]
      simp [cnt]
    · rw [List.nodup_append]
      exact ⟨l.once, by simp, fun a ha b hb x => fresh (List.mem_singleton.mp hb ▸ x ▸ ha)⟩
    · rw [st]
      dsimp only
      rw [l.oldest_first]
      cases ds <;> simp
    · rw [st]
      simp
    · rw [st]
      dsimp only
      by_cases kl : k < ds.length
      · rw [List.getElem?_append_left kl] at hk
        obtain ⟨n, en, hn, sn, nn⟩ := l.numbered k c hk
        have ne : c ≠ d := fun x => fresh (x ▸ List.mem_of_getElem? hk)
        have tc := others c ne
        rw [en] at tc
        dsimp only at tc
        by_cases kk : k + 1 = ds.length
        · rw [if_pos ((last k c hk).mpr kk)] at tc
          refine ⟨_, tc, hn, sn, ?_⟩
          simp [kk]
        · rw [if_neg (fun x => kk ((last k c hk).mp x))] at tc
          refine ⟨_, tc, hn, sn, ?_⟩
          rw [List.getElem?_append_left (by omega)]
          exact nn
      · have len := (List.getElem?_eq_some_iff.mp hk).1
        simp only [List.length_append, List.length_singleton] at len
        have : k = ds.length := by omega
        subst this
        simp only [List.getElem?_append_right (Nat.le_refl _), Nat.sub_self, List.getElem?_cons_zero, Option.some.injEq] at hk
        subst hk
        refine ⟨o, eo, so.trans hm, ?_, ?_⟩
        · rw [qo]
          have := l.span
          rw [← cnt] at this
          rw [← this, BitVec.ofNat_toNat, BitVec.setWidth_eq]
          bv_omega
        · rw [no]
          simp
    · by_cases cd : c = d
      · simp [cd]
      · obtain ⟨x, ex⟩ := back c n cd en
        exact List.mem_append_left _ (l.all_listed c _ ex hn)
    · rw [st]
      dsimp only
      exact succ_sub_toNat l.span (by omega)
    · rw [st] at ec
      cases ec
    · by_cases cd : c = d
      · rw [cd, eo] at en
        cases en
      · rw [others c cd] at en
        cases f : s.pool.desc c with
        | free => simp [f] at en
        | committed _ => simp [f] at en
        | staged n' =>
          simp only [f, Descriptor.staged.injEq] at en
          subst en
          have := (l.staged_assembly c n' f hn).symm.trans asm
          exact absurd (Option.some.inj this) cd
    · have before : assemblyBlocksOf s i = m.blockCount := by simp [assemblyBlocksOf, asm, e]
      have after : assemblyBlocksOf t i = 0 := by simp [assemblyBlocksOf, st]
      have sums : ds.map (committedBlocksOf t.pool) = ds.map (committedBlocksOf s.pool) := by
        refine List.map_congr_left (fun c hc => ?_)
        obtain ⟨k, hk⟩ := List.getElem?_of_mem hc
        obtain ⟨n, en, _⟩ := l.numbered k c hk
        obtain ⟨x, ex⟩ := kept c n en
        simp [committedBlocksOf, en, ex]
      have own : committedBlocksOf t.pool d = blocksFor m.fill := by simp [committedBlocksOf, eo, bo]
      have less : blocksFor m.fill ≤ m.blockCount := by
        rw [lens.1]
        unfold blocksFor
        have := lens.2.1
        omega
      have held := l.held
      rw [after, List.map_append, List.sum_append, sums, List.map_singleton, List.sum_singleton, own, st]
      dsimp only
      omega
    · rw [st] at ex ⊢
      have := l.limit x ex
      dsimp only
      omega
    · rw [st] at ec ⊢
      exact ⟨rfl, (l.claimed ec).2⟩
    · rw [st] at ek ⊢
      exact ⟨rfl, (l.need k ek).2⟩
    · rw [sub] at hu
      have := position p u hu
      rw [st]
      dsimp only
      omega
    · have counts : ∀ x p, countsMessage t i x p = countsMessage s i x p := fun x p => by
        unfold countsMessage
        rw [sub, st]
      by_cases cd : c = d
      · rw [cd, eo, Descriptor.committed.injEq] at en
        subst en
        rw [ro]
        refine List.countP_congr (fun p _ => ?_)
        rw [counts]
        unfold countsMessage
        cases hu : s.sub i p with
        | none => simp
        | some u =>
          have := position p u hu
          simp only [Option.isSome_some, decide_eq_true_eq, true_iff]
          rw [qo, l.span]
          exact this
      · obtain ⟨x, ex⟩ := back c n cd en
        have := l.readers c _ ex hn
        rw [this]
        exact List.countP_congr (fun p _ => by rw [counts])
  · by_cases cd : c = d
    · subst cd
      have : o.stream ≠ j := by rw [so, hm]; exact Ne.symm ne
      have ms : m.stream ≠ j := by rw [hm]; exact Ne.symm ne
      simp [viewOf, eo, e, this, ms]
    · rw [others c cd]
      cases f : s.pool.desc c with
      | free => rfl
      | staged _ => rfl
      | committed n =>
        dsimp only
        split
        · rename_i x
          have mem : c ∈ ds := by
            rw [l.newest_last] at x
            exact List.mem_of_getLast? x
          have : n.stream ≠ j := by rw [own_of_law l c mem n f]; exact Ne.symm ne
          simp [viewOf, this]
        · rfl

end Sys2Proof.Laws
end

