-- ==== Sys2Proof/Laws/StreamCommands.lean ====
section
/-! SUPPORT. Every command of Table 9.3, run on lawful tables, leaves them lawful; so do a lapse and its undoing, and a flush. -/

namespace Sys2Proof.Laws

open Sys2Proof.Machine Sys2Proof.Safety

/-! ### COMMIT -/

theorem arrivalEvaluation_lawful {s : State} (h : Lawful s) (i : StreamId) (x : Seq) (urgent : Bool) (p : Port) :
    Lawful (s.arrivalEvaluation i x urgent p) := by
  unfold State.arrivalEvaluation
  split
  · rename_i u hu
    dsimp only
    have counted := setSub_lawful h i p (v := { u with unannounced := min 512 (u.unannounced + 1) }) hu rfl
    split
    · exact postArrival_lawful counted p i (by rw [State.setSub_sub, if_pos ⟨rfl, rfl⟩]) rfl x _
    · exact counted
  · exact h

theorem lagEvaluation_lawful {s : State} (h : Lawful s) (i : StreamId) (x : Seq) (p : Port) :
    Lawful (s.lagEvaluation i x p) := by
  unfold State.lagEvaluation
  split
  · rename_i u hu
    split
    · exact setSub_lawful (post_lawful h p _) i p (u := u) (by rw [post_sub]; exact hu) rfl
    · exact h
  · exact h

theorem evaluatePort_lawful {s : State} (h : Lawful s) (i : StreamId) (x : Seq) (urgent : Bool) (p : Port) :
    Lawful (State.evaluatePort i x urgent s p) := by
  have e := lagEvaluation_lawful (arrivalEvaluation_lawful h i x urgent p) i x p
  unfold State.evaluatePort
  dsimp only
  split
  · exact startFlush_lawful e p
  · exact e

/-- R56: COMMIT keeps the tables lawful. -/
theorem commitStream_lawful {s : State} (h : Lawful s) {i : StreamId} {d : DescId} {m : StagedMessage}
    (e : s.pool.desc d = .staged m) (asm : (s.stream i).assembly = some d) (positive : 1 ≤ m.fill) :
    Lawful (s.commitStream i d m) := by
  have ports : ∀ (l : List Port) (w : State), Lawful w →
      Lawful (l.foldl (State.evaluatePort i (s.stream i).nextSeq m.urgent) w) := by
    intro l
    induction l with
    | nil => exact fun _ x => x
    | cons p t ih => exact fun w x => ih _ (evaluatePort_lawful x i _ _ p)
  unfold State.commitStream
  exact reevaluateAfter_lawful (retirementCheck_lawful (ports _ _ (commitAssembly_lawful h e asm positive)) i) _

/-! ### READ and RELEASE -/

theorem drawn_lawful {s : State} (h : Lawful s) : Lawful s.drawn :=
  lawful_of_tables h rfl (fun _ => rfl) (fun _ _ => rfl)

theorem testBlocks_lawful {s : State} (h : Lawful s) (l : List BlockId) : Lawful (testBlocks l s).1 := by
  rw [testBlocks_kept]
  exact lawful_of_tables h rfl (fun _ => rfl) (fun _ _ => rfl)

/-- R98: a failed flag and a damaged flag are nothing that the laws of the streams read. -/
theorem markFailed_lawful {s : State} (h : Lawful s) (d : DescId) (b : BlockId) : Lawful (s.markFailed d b) := by
  refine h.same (updateCommitted_sound (setFailed_sound h.pool b) d _ (fun _ => ⟨rfl, rfl, rfl, rfl⟩)) (fun _ => rfl)
    (fun _ _ => rfl) (fun j e => ?_)
  change viewOf j (Pool.desc (Pool.updateCommitted _ d _) e) = _
  rw [Pool.updateCommitted_desc]
  split
  · rename_i de
    subst de
    change viewOf j (match s.pool.desc d with | .committed m => _ | x => x) = _
    cases s.pool.desc d <;> rfl
  · rfl

theorem readSub_lawful {s : State} (h : Lawful s) (i : StreamId) (p : Port) {u : Subscription} (hu : s.sub i p = some u)
    (most : Nat) : Lawful (s.readSub i p u most).1 := by
  have plain : ∀ {w : State}, Lawful w → w.sub i p = some u → ∀ v : Subscription, v.cursor = u.cursor →
      Lawful (w.setSub i p (some v)) := fun x y v c => setSub_lawful x i p y c
  have nothing : Lawful (s.readNothing i p u).1 := plain h hu _ rfl
  unfold State.readSub
  split
  · exact nothing
  · split
    · exact nothing
    · split
      · split
        · exact plain h hu _ rfl
        · rename_i d _ _ _ _ _
          unfold State.readPiece
          dsimp only
          split
          · exact plain h hu _ rfl
          · generalize ht : testBlocks _ s = t
            have lt : Lawful t.1 := by rw [← ht]; exact testBlocks_lawful h _
            have st : t.1.sub i p = some u := by
              rw [← ht, testBlocks_kept]
              exact hu
            split
            · exact plain (markFailed_lawful lt d _) st _ rfl
            · exact plain lt st _ rfl
      · exact nothing

@[simp] theorem advance_cursor (u : Subscription) (n : Seq) : (u.advance n).cursor = u.cursor + 1 := by
  unfold Subscription.advance
  simp

/-- R100: RELEASE of an unread message keeps the tables lawful. -/
theorem releaseCursor_lawful {s : State} (h : Lawful s) (i : StreamId) (p : Port) {u : Subscription}
    (hu : s.sub i p = some u) (some_unread : unread (s.stream i) u ≠ 0) : Lawful (s.releaseCursor i p u) := by
  obtain ⟨ds, l⟩ := h.streams i
  have bound := l.cursors p u hu
  have span := l.span
  have small : ds.length ≤ 512 := by simpa using l.once.length_le_card
  have cnt := l.count
  unfold unread at some_unread
  have lt : (u.cursor - (s.stream i).oldestSeq).toNat < ds.length := by
    rcases Nat.lt_or_eq_of_le (cnt ▸ bound) with x | x
    · exact x
    · exfalso
      apply some_unread
      rw [← cnt] at span
      bv_omega
  have holds : (s.stream i).holds u.cursor = true := by
    simp only [StreamRecord.holds, Bool.and_eq_true, decide_eq_true_eq]
    omega
  have found : (s.messageAt i u.cursor).toList = [ds[(u.cursor - (s.stream i).oldestSeq).toNat]] := by
    rw [State.messageAt, if_pos holds, messages_of_law l, List.getElem?_eq_getElem lt]
    rfl
  unfold State.releaseCursor
  dsimp only
  rw [found]
  refine reevaluateAfter_lawful (retirementCheck_lawful ?_ i) _
  refine advance_lawful h l hu rfl (List.getElem?_eq_getElem lt) (fun _ => rfl) (v := u.advance (s.stream i).nextSeq) ?_
    (by simp) (fun j q ne => ?_) rfl
  · rw [State.setSub_sub, if_pos ⟨rfl, rfl⟩]
  · rw [State.setSub_sub, if_neg (fun x => ne.elim (fun y => y x.1.symm) (fun y => y x.2.symm))]
    rfl

/-! ### DEFINE and DISSOLVE -/

/-- R21: DEFINE of an UNDEFINED stream keeps the tables lawful. -/
theorem define_lawful {s : State} (h : Lawful s) (i : StreamId) (x : Settings) (undefined : (s.stream i).settings = none) :
    Lawful (s.setStream i (.fresh x)) := by
  obtain ⟨ds, l⟩ := h.streams i
  obtain ⟨rec0, absent⟩ := l.undefined_record undefined
  have empty : ds = [] := by
    have := l.count
    rw [rec0] at this
    exact List.eq_nil_of_length_eq_zero this
  subst empty
  have st : (s.setStream i (.fresh x)).stream i = .fresh x := by simp
  refine h.of_one i h.pool ⟨[], ?_⟩ (fun j ne => by rw [State.setStream_stream, if_neg (Ne.symm ne)]) (fun _ _ _ => rfl)
    (fun _ _ _ => rfl)
  have unlisted : ∀ d m, s.pool.desc d = .committed m → m.stream ≠ i := fun d m e hm => by
    have := l.all_listed d m e hm
    cases this
  have unstaged : ∀ d m, s.pool.desc d = .staged m → m.stream ≠ i := fun d m e hm => by
    have := l.staged_assembly d m e hm
    rw [rec0] at this
    cases this
  refine ⟨fun u => ?_, by rw [st]; rfl, List.nodup_nil, by rw [st]; rfl, by rw [st]; rfl, fun k d hk => by simp at hk,
    fun d m e hm => absurd hm (unlisted d m e), by rw [st]; simp [StreamRecord.fresh, StreamRecord.undefined], fun d e => ?_,
    fun d m e hm => absurd hm (unstaged d m e), ?_, fun y _ => ?_, fun _ => by rw [st]; exact ⟨rfl, rfl⟩, fun k e => ?_, fun p u e => ?_,
    fun d m e hm => absurd hm (unlisted d m e)⟩
  · rw [st] at u
    cases u
  · rw [st] at e
    cases e
  · simp [assemblyBlocksOf, StreamRecord.fresh, StreamRecord.undefined]
  · rw [st]
    exact Nat.zero_le _
  · rw [st] at e
    cases e
  · have : s.sub i p = some u := e
    rw [absent p] at this
    cases this

theorem removeMany_lawful (i : StreamId) (n : Nat) {s : State} (h : Lawful s) (absent : ∀ p, s.sub i p = none) :
    Lawful (State.removeMany i n s) := by
  induction n generalizing s with
  | zero => exact h
  | succ n ih =>
    refine ih (removeOldest_lawful h i (fun _ p u hu => by rw [absent p] at hu; cases hu)) (fun p => ?_)
    rw [removeOldest_kept]
    exact absent p

/-- Removal of every message of a stream leaves its committed count 0. -/
theorem removeMany_count (i : StreamId) (n : Nat) {s : State} (h : Lawful s) (absent : ∀ p, s.sub i p = none)
    (enough : (s.stream i).committedCount ≤ n) :
    ((State.removeMany i n s).stream i).committedCount = 0 ∧
      ((State.removeMany i n s).stream i).assembly = (s.stream i).assembly := by
  induction n generalizing s with
  | zero => exact ⟨by simpa [State.removeMany] using enough, rfl⟩
  | succ n ih =>
    have next := removeOldest_lawful h i (fun _ p u hu => by rw [absent p] at hu; cases hu)
    have subs : ∀ p, (s.removeOldest i).sub i p = none := fun p => by
      rw [removeOldest_kept]
      exact absent p
    obtain ⟨ds, l⟩ := h.streams i
    have one : ((s.removeOldest i).stream i).committedCount ≤ n ∧
        ((s.removeOldest i).stream i).assembly = (s.stream i).assembly := by
      cases ds with
      | nil =>
        have : (s.stream i).oldest = none := l.oldest_first
        have zero := l.count
        have same : s.removeOldest i = s := by simp [State.removeOldest, this]
        rw [same]
        exact ⟨by rw [← zero]; exact Nat.zero_le _, rfl⟩
      | cons d rest =>
        obtain ⟨m, e, _⟩ := l.numbered 0 d rfl
        rw [removeOldest_eq (l.oldest_first.trans rfl) e, State.setStream_stream_self]
        exact ⟨by dsimp only; omega, rfl⟩
    obtain ⟨a, b⟩ := ih next subs one.1
    exact ⟨a, b.trans one.2⟩

/-- R34: DISSOLVE of a stream that is not in use keeps the tables lawful. -/
theorem dissolveStream_lawful {s : State} (h : Lawful s) (i : StreamId) (claim : (s.stream i).claim = .none)
    (absent : ∀ p, s.sub i p = none) : Lawful (s.dissolveStream i) := by
  unfold State.dissolveStream
  dsimp only
  refine reevaluateAfter_lawful ?_ _
  have emptied := removeMany_lawful i (s.stream i).committedCount h absent
  obtain ⟨zero, asm⟩ := removeMany_count i (s.stream i).committedCount h absent (Nat.le_refl _)
  have subs : ∀ p, (State.removeMany i (s.stream i).committedCount s).sub i p = none := fun p => by
    rw [removeMany_keeps (fun w => w.sub i p) i (fun w => by rw [removeOldest_kept]; rfl)]
    exact absent p
  have idle : (s.stream i).assembly = none := by
    obtain ⟨ds, l⟩ := h.streams i
    exact (l.claimed claim).1
  rw [idle] at asm
  generalize State.removeMany i (s.stream i).committedCount s = w at *
  obtain ⟨ds, l⟩ := emptied.streams i
  have empty : ds = [] := List.eq_nil_of_length_eq_zero (l.count.trans zero)
  subst empty
  have st : (w.setStream i .undefined).stream i = .undefined := by simp
  refine emptied.of_one i emptied.pool ⟨[], ?_⟩ (fun j ne => by rw [State.setStream_stream, if_neg (Ne.symm ne)])
    (fun _ _ _ => rfl) (fun _ _ _ => rfl)
  have unlisted : ∀ d m, w.pool.desc d = .committed m → m.stream ≠ i := fun d m e hm => by
    have := l.all_listed d m e hm
    cases this
  have unstaged : ∀ d m, w.pool.desc d = .staged m → m.stream ≠ i := fun d m e hm => by
    have := l.staged_assembly d m e hm
    rw [asm] at this
    cases this
  refine ⟨fun _ => ⟨st, subs⟩, by rw [st]; rfl, List.nodup_nil, by rw [st]; rfl, by rw [st]; rfl, fun k d hk => by simp at hk,
    fun d m e hm => absurd hm (unlisted d m e), by rw [st]; simp [StreamRecord.undefined], fun d e => ?_,
    fun d m e hm => absurd hm (unstaged d m e), ?_, fun y e => ?_, fun _ => by rw [st]; exact ⟨rfl, rfl⟩, fun k e => ?_, fun p u e => ?_,
    fun d m e hm => absurd hm (unlisted d m e)⟩
  · rw [st] at e
    cases e
  · simp [assemblyBlocksOf, StreamRecord.undefined]
  · rw [st] at e
    cases e
  · rw [st] at e
    cases e
  · have : w.sub i p = some u := e
    rw [subs p] at this
    cases this

/-! ### APPEND and SCRUB -/

/-- R9: APPEND keeps the tables lawful. -/
theorem storePayload_lawful {s : State} (h : Lawful s) {d : DescId} {m : StagedMessage} (e : s.pool.desc d = .staged m)
    (data : List Byte) (room : m.fill + data.length ≤ m.declaredLength) :
    Lawful (s.setPool (s.pool.storePayload d m data)) := by
  obtain ⟨_, _, _, _, desc⟩ := storePayload_views s.pool d m data
  refine h.same (storePayload_sound h.pool d m data e room) (fun _ => rfl) (fun _ _ => rfl) (fun j c => ?_)
  change viewOf j ((s.pool.storePayload d m data).desc c) = _
  rw [desc]
  split
  · rename_i dc
    subst dc
    simp [viewOf, e]
  · rfl

theorem scrubPass_views (q : Pool) (b : BlockId) :
    (∀ d, (q.scrubPass b).desc d = q.desc d) ∧ (q.scrubPass b).quarantine = q.quarantine.erase b := by
  unfold Pool.scrubPass
  generalize Memory.writeBlock b (fun _ => 0) 64 q.bytes = m
  dsimp only
  generalize Config.storedCheck _ = c
  exact ⟨fun _ => rfl, rfl⟩

theorem scrubFail_views (q : Pool) (b : BlockId) (draw : Nat) :
    (∀ d, (q.scrubFail b draw).desc d = q.desc d) ∧
      ∀ c ∈ q.quarantine.erase b, c ∈ (q.scrubFail b draw).quarantine := by
  unfold Pool.scrubFail
  generalize Memory.writeBlock b (Config.scrubResidue draw) 64 q.bytes = m
  dsimp only
  split
  · exact ⟨fun _ => rfl, fun _ h => h⟩
  · exact ⟨fun _ => rfl, fun _ h => List.mem_append_left _ h⟩

theorem scrubBlocks_lawful (l : List BlockId) {s : State} (h : Lawful s) (once : l.Nodup)
    (inQ : ∀ b ∈ l, b ∈ s.pool.quarantine) (c : ScrubCounts) : Lawful (scrubBlocks l s c).1 := by
  induction l generalizing s c with
  | nil => exact h
  | cons b t ih =>
    have hb := inQ b List.mem_cons_self
    obtain ⟨fresh, rest⟩ := List.nodup_cons.mp once
    have apart : ∀ x ∈ t, x ≠ b := fun x hx e => fresh (e ▸ hx)
    obtain ⟨passDesc, passQ⟩ := scrubPass_views s.pool b
    obtain ⟨failDesc, failQ⟩ := scrubFail_views s.pool b s.draws
    have soundPass := scrubPass_sound h.pool b hb
    have soundFail := scrubFail_sound h.pool b s.draws hb
    unfold scrubBlocks
    generalize s.pool.scrubPass b = q at *
    generalize s.pool.scrubFail b s.draws = r at *
    have pass : Lawful (s.setPool q).drawn :=
      drawn_lawful (h.same soundPass (fun _ => rfl) (fun _ _ => rfl) (fun j e => congrArg (viewOf j) (passDesc e)))
    have fail : Lawful (s.setPool r).drawn :=
      drawn_lawful (h.same soundFail (fun _ => rfl) (fun _ _ => rfl) (fun j e => congrArg (viewOf j) (failDesc e)))
    have stays : ∀ x ∈ t, x ∈ s.pool.quarantine.erase b := fun x hx =>
      (List.mem_erase_of_ne (apart x hx)).mpr (inQ x (List.mem_cons_of_mem _ hx))
    have inPass : ∀ x ∈ t, x ∈ q.quarantine := fun x hx => by rw [passQ]; exact stays x hx
    have inFail : ∀ x ∈ t, x ∈ r.quarantine := fun x hx => failQ x (stays x hx)
    split
    · exact ih pass rest inPass _
    · split
      · exact ih fail rest inFail _
      · exact ih fail rest inFail _

/-! ### Notices, sessions and events -/

theorem processNotice_lawful {s : State} (h : Lawful s) (p : Port) (n : Notice) : Lawful (State.processNotice p s n) := by
  unfold State.processNotice
  split
  · exact h
  · rename_i u hu
    split
    · dsimp only
      have cleared := setSub_lawful h n.stream p (v := { u with arrivalQueued := false }) hu rfl
      split
      · exact postArrival_lawful cleared p n.stream (by rw [State.setSub_sub, if_pos ⟨rfl, rfl⟩]) rfl _ _
      · exact cleared
    · exact setSub_lawful h n.stream p hu rfl
    all_goals exact h

theorem takeNotices_lawful {s : State} (h : Lawful s) (p : Port) (k : Nat) : Lawful (s.takeNotices p k) := by
  have records : ∀ (l : List Notice) (w : State), Lawful w → Lawful (l.foldl (State.processNotice p) w) := by
    intro l
    induction l with
    | nil => exact fun _ x => x
    | cons n t ih => exact fun w x => ih _ (processNotice_lawful x p n)
  unfold State.takeNotices State.flushAfterTake
  dsimp only
  split
  · exact startFlush_lawful (records _ _ (setQueue_lawful h p _)) p
  · exact records _ _ (setQueue_lawful h p _)

/-- R28, R105: a lapse moves claims and subscriptions and nothing else that the laws read. -/
theorem lapseHoldings_lawful {s : State} (h : Lawful s) (p : Port) : Lawful (s.lapseHoldings p) := by
  refine ⟨h.pool, fun i => ?_⟩
  obtain ⟨ds, l⟩ := h.streams i
  have keep : (s.stream i).claim.toStale p = .none → (s.stream i).claim = .none := fun e => by
    unfold Claim.toStale at e
    split at e
    · cases e
    · exact e
  refine ⟨ds, law_congr l ((s.stream i).claim.toStale p) (s.stream i).starvedNeed (s.stream i).commitTotal (s.stream i).shedTotal
    (lapseHoldings_stream s p i) (fun n => ?_) (fun e => l.claimed (keep e)) l.need (fun q => ?_) (fun _ => rfl)⟩
  · have r := (l.undefined_record n).1
    rw [lapseHoldings_stream, r]
    rfl
  · rw [lapseHoldings_sub]
    split
    · rename_i pq
      subst pq
      cases s.sub i p <;> rfl
    · rfl

/-- R28, R106: the undoing of a lapse. -/
theorem restoreHoldings_lawful {s : State} (h : Lawful s) (p : Port) : Lawful (s.restoreHoldings p) := by
  refine ⟨h.pool, fun i => ?_⟩
  obtain ⟨ds, l⟩ := h.streams i
  have keep : (s.stream i).claim.toHeld p = .none → (s.stream i).claim = .none := fun e => by
    unfold Claim.toHeld at e
    split at e
    · cases e
    · exact e
  refine ⟨ds, law_congr l ((s.stream i).claim.toHeld p) (s.stream i).starvedNeed (s.stream i).commitTotal (s.stream i).shedTotal
    (restoreHoldings_stream s p i) (fun n => ?_) (fun e => l.claimed (keep e)) l.need (fun q => ?_) (fun _ => rfl)⟩
  · have r := (l.undefined_record n).1
    rw [restoreHoldings_stream, r]
    rfl
  · rw [restoreHoldings_sub]
    split
    · rename_i pq
      subst pq
      cases s.sub i p <;> rfl
    · rfl

theorem flushStream_lawful {s : State} (h : Lawful s) (p : Port) (i : StreamId) : Lawful (State.flushStream p s i) := by
  unfold State.flushStream
  split
  · rename_i u hu
    split
    · exact postArrival_lawful h p i hu rfl _ _
    · exact h
  · exact h

theorem startFlushIfPending_lawful {s : State} (h : Lawful s) (p : Port) : Lawful (s.startFlushIfPending p) := by
  unfold State.startFlushIfPending
  split
  · exact startFlush_lawful h p
  · exact h

theorem flushPort_lawful {s : State} (h : Lawful s) (p : Port) : Lawful (s.flushPort p) := by
  have streams : ∀ (l : List StreamId) (w : State), Lawful w → Lawful (l.foldl (State.flushStream p) w) := by
    intro l
    induction l with
    | nil => exact fun _ x => x
    | cons i t ih => exact fun w x => ih _ (flushStream_lawful x p i)
  exact startFlushIfPending_lawful (setSession_lawful (streams _ _ h) p _) p

/-! ### Every command -/

/-- R48: the length that OPEN accepts. -/
theorem openArgs_length {r : Request} {a : OpenArgs} (e : r.openArgs = some a) : 1 ≤ a.length ∧ a.length ≤ 4096 := by
  unfold Request.openArgs at e
  split at e
  · simp only [Option.bind_eq_bind, Option.bind_eq_some_iff, Option.pure_def, Option.some.injEq] at e
    obtain ⟨_, _, _, _, n, hl, _, _, e⟩ := e
    subst e
    unfold inRange at hl
    split at hl
    · simp only [Option.some.injEq] at hl
      subst hl
      assumption
    · cases hl
  · cases e

theorem decideRoom_lawful {s : State} (h : Lawful s) (q : Port) (a : OpenArgs) (x : Settings) (positive : 1 ≤ a.length)
    (bounded : a.length ≤ 4096) (claim : (s.stream a.stream).claim ≠ .none) (idle : (s.stream a.stream).assembly = none) :
    Lawful (s.decideRoom q a x).1 := by
  unfold State.decideRoom
  dsimp only
  split
  · rename_i k hk
    exact grantOpen_lawful h q a k positive claim idle (List.find?_some hk)
  · exact recordNeed_lawful h a.stream a.length positive bounded claim idle

theorem writer_claim {s : State} {i : StreamId} {q : Port} (e : s.writerRefusal i q = none) :
    (s.stream i).claim = .held q := by
  unfold State.writerRefusal at e
  split at e
  · cases e
  · split at e
    · cases e
    · rename_i c
      exact Classical.not_not.mp c

theorem assemblyOf_some {s : State} {i : StreamId} {d : DescId} {m : StagedMessage} (e : s.assemblyOf i = some (d, m)) :
    (s.stream i).assembly = some d ∧ s.pool.desc d = .staged m := by
  unfold State.assemblyOf at e
  split at e
  · cases e
  · rename_i c hc
    split at e
    · rename_i n hn
      simp only [Option.some.injEq, Prod.mk.injEq] at e
      obtain ⟨e1, e2⟩ := e
      subst e1 e2
      exact ⟨hc, hn⟩
    · cases e

theorem runAttach_lawful (p : Port) (r : Request) {s : State} (h : Lawful s) : Lawful (runAttach p r s).1 := by
  unfold runAttach
  split
  · exact h
  · split
    · unfold runAttachResume
      dsimp only
      refine startFlushIfPending_lawful (setSession_lawful ?_ p _) p
      split
      · exact setSession_lawful h p _
      · exact restoreHoldings_lawful (setSession_lawful h p _) p
    · exact setSession_lawful (teardown_lawful h p) p _

theorem runDetach_lawful (p : Port) (r : Request) {s : State} (h : Lawful s) : Lawful (runDetach p r s).1 := by
  unfold runDetach
  split
  · exact h
  · exact setSession_lawful (teardown_lawful h p) p _

theorem runPing_lawful (p : Port) (r : Request) {s : State} (h : Lawful s) : Lawful (runPing p r s).1 := by
  unfold runPing
  split <;> exact h

theorem runPortInfo_lawful (p : Port) (r : Request) {s : State} (h : Lawful s) : Lawful (runPortInfo p r s).1 := by
  unfold runPortInfo
  split <;> exact h

theorem runDefine_lawful (p : Port) (r : Request) {s : State} (h : Lawful s) : Lawful (runDefine p r s).1 := by
  unfold runDefine
  split
  · exact h
  · split
    · exact h
    · rename_i d
      exact define_lawful h _ _ (by simpa [StreamRecord.defined] using d)

theorem runDissolve_lawful (p : Port) (r : Request) {s : State} (h : Lawful s) : Lawful (runDissolve p r s).1 := by
  unfold runDissolve
  split
  · exact h
  · split
    · exact h
    · split
      · exact h
      · rename_i i _ _ d
        simp only [State.streamInUse, Bool.or_eq_true, bne_iff_ne, ne_eq, not_or, Classical.not_not] at d
        refine dissolveStream_lawful h i d.1 (fun q => ?_)
        have := List.countP_eq_zero.mp d.2 q (List.mem_finRange q)
        simpa using this

theorem runStreamInfo_lawful (p : Port) (r : Request) {s : State} (h : Lawful s) : Lawful (runStreamInfo p r s).1 := by
  unfold runStreamInfo
  split
  · exact h
  · split <;> exact h

theorem runClaim_lawful (p : Port) (r : Request) {s : State} (h : Lawful s) : Lawful (runClaim p r s).1 := by
  unfold runClaim
  split
  · exact h
  · rename_i a _
    split
    · exact h
    · rename_i d
      split
      · rename_i hc
        obtain ⟨ds, l⟩ := h.streams a.stream
        exact setRecord_lawful h a.stream (.held p) (s.stream a.stream).starvedNeed (s.stream a.stream).commitTotal
          (s.stream a.stream).shedTotal (fun n => by simp [StreamRecord.defined, n] at d) (fun e => by cases e) l.need
      · split <;> exact h
      · rename_i hc
        split
        · exact takeover_lawful h _ _ p (by rw [hc]; simp)
        · exact h

theorem runUnclaim_lawful (p : Port) (r : Request) {s : State} (h : Lawful s) : Lawful (runUnclaim p r s).1 := by
  unfold runUnclaim
  split
  · exact h
  · split
    · exact h
    · split
      · exact h
      · rename_i d
        refine reevaluateAfter_lawful (releaseClaim_lawful h _ ?_) _
        rw [Classical.not_not.mp d]
        simp

theorem runOpen_lawful (p : Port) (r : Request) {s : State} (h : Lawful s) : Lawful (runOpen p r s).1 := by
  unfold runOpen
  split
  · exact h
  · rename_i a ha
    obtain ⟨positive, bounded⟩ := openArgs_length ha
    split
    · exact h
    · split
      · exact h
      · rename_i c
        split
        · exact h
        · rename_i idle
          split
          · exact h
          · refine decideRoom_lawful h p a _ positive bounded ?_ (by simpa using idle)
            rw [Classical.not_not.mp c]
            simp

theorem runAppend_lawful (p : Port) (r : Request) {s : State} (h : Lawful s) : Lawful (runAppend p r s).1 := by
  unfold runAppend
  split
  · exact h
  · split
    · exact h
    · split
      · exact h
      · rename_i hm
        split
        · exact h
        · rename_i room
          exact storePayload_lawful h (assemblyOf_some hm).2 _ (by omega)

theorem runCommit_lawful (p : Port) (r : Request) {s : State} (h : Lawful s) : Lawful (runCommit p r s).1 := by
  unfold runCommit
  split
  · exact h
  · split
    · exact h
    · split
      · exact h
      · rename_i hm
        split
        · exact h
        · rename_i positive
          obtain ⟨asm, e⟩ := assemblyOf_some hm
          dsimp only
          exact commitStream_lawful h e asm (Nat.pos_of_ne_zero positive)

theorem runAbort_lawful (p : Port) (r : Request) {s : State} (h : Lawful s) : Lawful (runAbort p r s).1 := by
  unfold runAbort
  split
  · exact h
  · split
    · exact h
    · split
      · exact h
      · exact reevaluateAfter_lawful (abortAssembly_lawful h _) _

theorem runJoin_lawful (p : Port) (r : Request) {s : State} (h : Lawful s) : Lawful (runJoin p r s).1 := by
  unfold runJoin
  split
  · exact h
  · split
    · exact h
    · rename_i d
      split
      · exact h
      · rename_i free
        exact joinStream_lawful h p _ (fun n => by simp [StreamRecord.defined, n] at d) (by simpa using free)

theorem runLeave_lawful (p : Port) (r : Request) {s : State} (h : Lawful s) : Lawful (runLeave p r s).1 := by
  unfold runLeave
  split
  · exact h
  · split
    · exact h
    · split
      · exact h
      · exact reevaluateAfter_lawful (retirementCheck_lawful (dropSub_lawful h _ p) _) _

theorem evictSub_lawful {s : State} (h : Lawful s) (i : StreamId) (p q : Port) (u : Subscription) :
    Lawful (s.evictSub i p q u) := by
  have noted := post_lawful (setSession_lawful (dropSub_lawful h i p) p
    { (s.dropSub i p).session p with evicted := ((s.dropSub i p).session p).evicted + 1 }) p
      { kind := .evicted, stream := i, sequence := u.cursor, count := BitVec.ofNat 16 (unread (s.stream i) u),
        aux := BitVec.ofNat 16 q.val }
  exact reevaluateAfter_lawful (retirementCheck_lawful noted i) _

theorem runEvict_lawful (p : Port) (r : Request) {s : State} (h : Lawful s) : Lawful (runEvict p r s).1 := by
  unfold runEvict
  split
  · exact h
  · split
    · exact h
    · split
      · exact h
      · split
        · exact h
        · dsimp only
          exact evictSub_lawful h _ _ p _

theorem runRead_lawful (p : Port) (r : Request) {s : State} (h : Lawful s) : Lawful (runRead p r s).1 := by
  unfold runRead
  split
  · exact h
  · split
    · exact h
    · split
      · exact h
      · rename_i hu
        exact readSub_lawful h _ p hu _

theorem runRelease_lawful (p : Port) (r : Request) {s : State} (h : Lawful s) : Lawful (runRelease p r s).1 := by
  unfold runRelease
  split
  · exact h
  · split
    · exact h
    · split
      · exact h
      · rename_i hu
        split
        · exact h
        · split
          · exact h
          · rename_i un
            exact releaseCursor_lawful h _ p hu un

theorem runSubInfo_lawful (p : Port) (r : Request) {s : State} (h : Lawful s) : Lawful (runSubInfo p r s).1 := by
  unfold runSubInfo
  split
  · exact h
  · split
    · exact h
    · split
      · exact h
      · rename_i hu
        dsimp only
        split
        · exact setSub_lawful h _ p hu rfl
        · exact h

theorem runTakeNotices_lawful (p : Port) (r : Request) {s : State} (h : Lawful s) : Lawful (runTakeNotices p r s).1 := by
  unfold runTakeNotices
  split
  · exact h
  · exact takeNotices_lawful h p _

theorem runPoolInfo_lawful (p : Port) (r : Request) {s : State} (h : Lawful s) : Lawful (runPoolInfo p r s).1 := by
  unfold runPoolInfo
  split <;> exact h

theorem runScrub_lawful (p : Port) (r : Request) {s : State} (h : Lawful s) : Lawful (runScrub p r s).1 := by
  unfold runScrub
  split
  · exact h
  · rename_i n _
    split
    · exact h
    · exact reevaluateAfter_lawful (scrubBlocks_lawful _ h
        (h.pool.accounts.quarantine_once.sublist (List.take_sublist _ _)) (fun b hb => List.mem_of_mem_take hb) _) _

/-- A command with no operands, or with bad ones, or that a rule refuses, leaves the tables as they are; every other answer is
one of the operations above. -/
theorem runCommand_lawful (c : Command) (p : Port) (r : Request) {s : State} (h : Lawful s) :
    Lawful (runCommand c p r s).1 := by
  cases c
  · exact runAttach_lawful p r h
  · exact runDetach_lawful p r h
  · exact runPing_lawful p r h
  · exact runPortInfo_lawful p r h
  · exact runDefine_lawful p r h
  · exact runDissolve_lawful p r h
  · exact runStreamInfo_lawful p r h
  · exact runClaim_lawful p r h
  · exact runUnclaim_lawful p r h
  · exact runOpen_lawful p r h
  · exact runAppend_lawful p r h
  · exact runCommit_lawful p r h
  · exact runAbort_lawful p r h
  · exact runJoin_lawful p r h
  · exact runLeave_lawful p r h
  · exact runEvict_lawful p r h
  · exact runRead_lawful p r h
  · exact runRelease_lawful p r h
  · exact runSubInfo_lawful p r h
  · exact runTakeNotices_lawful p r h
  · exact runPoolInfo_lawful p r h
  · exact runScrub_lawful p r h

/-- R128, R129: whatever the session gate decides, the tables stay lawful. -/
theorem takeRequest_lawful (p : Port) (r : Request) {s : State} (h : Lawful s) : Lawful (takeRequest p r s).1 := by
  unfold takeRequest
  split
  · unfold takeCommand
    split
    · exact runCommand_lawful _ p r (setSession_lawful h p _)
    · split
      · exact runCommand_lawful _ p r h
      · exact h
    · split
      · exact runCommand_lawful _ p r h
      · exact h
  · unfold takeBadCommand
    split
    · exact setSession_lawful h p _
    · exact h
    · exact h

/-! ### The starting values -/

/-- R18, R19: the pool at its starting values, every stream UNDEFINED and every subscription ABSENT. -/
theorem lawful_powerOn {s : State} (pool : s.pool = Pool.powerOn) (streams : ∀ i, s.stream i = StreamRecord.undefined)
    (subs : ∀ i p, s.sub i p = none) : Lawful s := by
  refine ⟨by rw [pool]; exact poolSound_powerOn, fun i => ⟨[], ?_⟩⟩
  have free : ∀ d, s.pool.desc d = .free := fun d => by rw [pool]; exact get_replicate _ d
  have r := streams i
  refine ⟨fun _ => ⟨r, subs i⟩, by rw [r]; rfl, List.nodup_nil, by rw [r]; rfl, by rw [r]; rfl,
    fun k d hk => by simp at hk, fun d m e => by simp [free] at e, by rw [r]; simp [StreamRecord.undefined],
    fun d e => (by rw [r] at e; cases e), fun d m e => by simp [free] at e,
    by simp [assemblyBlocksOf, r, StreamRecord.undefined], fun x e => (by rw [r] at e; cases e),
    fun _ => (by rw [r]; exact ⟨rfl, rfl⟩), fun n e => (by rw [r] at e; cases e),
    fun p u e => (by rw [subs] at e; cases e), fun d m e => by simp [free] at e⟩

end Sys2Proof.Laws
end

