-- ==== Sys2Proof/Tests/Slice0.lean ====
section
/-! SUPPORT. Tests: ill-formed commands, worked values of the spec, one small step for each command, and for each statement
of Obligations.lean a state and operands that meet its hypotheses. -/

namespace Sys2Proof.Tests

open Sys2Proof.Machine Sys2Proof.Safety Sys2Proof.Laws

set_option maxRecDepth 10000
set_option Elab.async false

/-! ### Ill-formed commands -/

theorem test_sound_request_fits : (Instr.ping 0 7 [] []).wellFormed = true := by decide
theorem test_refuses_17_params : (Instr.ping 0 7 (List.replicate 17 0) []).wellFormed = false := by decide
theorem test_refuses_257_payload : (Instr.append 0 7 [3] (List.replicate 257 0)).wellFormed = false := by decide +kernel
theorem test_takes_256_payload : (Instr.append 0 7 [3] (List.replicate 256 0)).wellFormed = true := by decide +kernel
theorem test_attach_adds_mode : (Instr.attachFresh 0 7 (List.replicate 16 0) []).wellFormed = false := by decide
theorem test_attach_takes_15 : (Instr.attachResume 0 7 (List.replicate 15 0) []).wellFormed = true := by decide
theorem test_bad_command_refuses_code : (Instr.badCommand 0 7 (some 0x51) [] []).wellFormed = false := by decide
theorem test_bad_command_takes_gap : (Instr.badCommand 0 7 (some 0x52) [] []).wellFormed = true := by decide
theorem test_bad_command_takes_disagreement : (Instr.badCommand 0 7 none [] []).wellFormed = true := by decide
theorem test_rise_refuses_8_bits : (Instr.csRise 0 [] (List.replicate 8 true)).wellFormed = false := by decide
theorem test_rise_takes_7_bits : (Instr.csRise 0 [] (List.replicate 7 true)).wellFormed = true := by decide

/-! ### Worked values of the spec -/

/-- R162: the CRC-16 of the ASCII characters 1 to 9 is 29B1 hex. -/
theorem test_crc_digits : crc16 [0x31, 0x32, 0x33, 0x34, 0x35, 0x36, 0x37, 0x38, 0x39] = 0x29B1 := by decide +kernel
/-- R162: of no bytes it is the initial value. -/
theorem test_crc_empty : crc16 [] = 0xFFFF := by decide
/-- R161, Table 9.1: the fixed part of a frame with one parameter and three payload bytes. -/
theorem test_frame_layout : (requestFrame 0x29 0x23 [0x05] [1, 2, 3]).take 16 =
    [0x5A, 0x29, 0x23, 0xDC, 0x00, 0x01, 0xFF, 0xFE, 0x05, 0x00, 0x03, 0xFF, 0xFC, 1, 2, 3] := by decide +kernel
theorem test_frame_length : (requestFrame 0x29 0x23 [0x05] [1, 2, 3]).length = 20 := by decide +kernel
/-- R163: the link byte of a link after reset is A0 hex. -/
theorem test_link_byte_reset : State.reset.linkByte 2 = 0xA0 := by decide +kernel

/-! ### Small states -/

/-- The state that a command leads to. -/
def after (c : Instr) (s : State) : State :=
  match exec c s with
  | .next t => t
  | _ => s

/-- The reply that the core holds. -/
def reply (s : State) : Option Reply := s.core.map (fun e => e.reply)

/-- After the initialisation pass. -/
def idle : State := { State.reset with phase := .operating }

/-- An ATTACHED session with no lease. -/
def attached : Session := { Session.powerOn with state := .attached }

/-- A port with flush period 2 and both mask bits. -/
def watching (timer : Timer) : Session :=
  { attached with flushPeriod := 2, flushTimer := timer, mask := { response := true, notice := true } }

/-- All four ports ATTACHED. -/
def online : State := { idle with sessions := Vector.replicate 4 attached }

/-- A stream of this policy with this claim: block limit 2, longest message 100 bytes, retain depth 0. -/
def madeStream (x : Policy) (c : Claim) : StreamRecord :=
  { StreamRecord.undefined with
    settings := some { policy := x, blockLimit := 2, maxLength := 100, retainDepth := 0 }, claim := c }

/-- Stream 3 under SHED, stream 4 under HOLD, both with this claim. -/
def definedWith (c : Claim) : State := (online.setStream 3 (madeStream .shed c)).setStream 4 (madeStream .hold c)

/-- The two streams without a claim. -/
def defined : State := definedWith .none

/-- Port 0 holds both claims. -/
def claimed : State := definedWith (.held 0)

/-- A block of descriptor `d` in this state. -/
def heldBlock (x : BlockState) (d : DescId) (next : Option BlockId) (fill : Nat) : BlockRecord :=
  { BlockRecord.powerOn with state := x, owner := some d, next := next, fill := fill }

/-- An assembly of stream 3: 100 bytes declared, `fill` of them received, in blocks 0 and 1. -/
def assembly (fill : Nat) : StagedMessage :=
  { stream := 3, declaredLength := 100, fill := fill, firstBlock := 0, blockCount := 2, tag := 9, urgent := false,
    damaged := false }

/-- The pool that holds it in descriptor 0. -/
def stagedPool (fill : Nat) (bytes : Memory) : Pool :=
  ((({ Pool.powerOn with
       bytes := bytes, freeBlocks := (List.finRange 2048).drop 2,
       freeDescriptors := (List.finRange 512).drop 1 } : Pool).setBlock 0 (heldBlock .staged 0 (some 1) fill)).setBlock 1
    (heldBlock .staged 0 none 0)).setDesc 0 (.staged (assembly fill))

/-- A state with that assembly on stream 3, whose claim is `c`. -/
def assembling (c : Claim) (fill : Nat) (bytes : Memory) : State :=
  ((definedWith c).setPool (stagedPool fill bytes)).setStream 3
    { madeStream .shed c with assembly := some 0, heldBlocks := 2 }

/-- Stream 3 has an empty assembly. -/
def opened : State := assembling (.held 0) 0 []

/-- Its first three bytes are 1, 2, 3. -/
def filled : State := assembling (.held 0) 3 [(0, 1), (1, 2), (2, 3)]

/-- A subscription with lag mark 1 and arrival batch 2. -/
def reader (x : SubState) (armed : Bool) (unannounced : Nat) : Subscription :=
  { Subscription.fresh 0 1 2 with state := x, lagArmed := armed, unannounced := unannounced }

/-- Port 1, with a flush period, is subscribed to stream 3. -/
def joined : State := (filled.setSub 3 1 (some (reader .active true 0))).setSession 1 (watching .idle)

/-- The message of descriptor `d` of stream `i`, sequence 0, from block `b` on. -/
def message (i : StreamId) (b : BlockId) (bytes blocks readers : Nat) : CommittedMessage :=
  { stream := i, sequence := 0, declaredLength := 100, committedLength := bytes, firstBlock := b, blockCount := blocks,
    tag := 9, urgent := false, stamp := 0, readers := readers, damaged := false, next := none }

/-- The pool that holds a message of three bytes of stream 3 in descriptor 0, block 0, and one of 65 bytes of stream 4 in
descriptor 1, blocks 1 and 2. -/
def committedPool (readers : Nat) : Pool :=
  ((((({ Pool.powerOn with
         bytes := [(0, 1), (1, 2), (2, 3)], freeBlocks := (List.finRange 2048).drop 3,
         freeDescriptors := (List.finRange 512).drop 2 } : Pool).setBlock 0 (heldBlock .committed 0 none 3)).setBlock 1
    (heldBlock .committed 1 (some 2) 64)).setBlock 2 (heldBlock .committed 1 none 1)).setDesc 0
    (.committed (message 3 0 3 1 readers))).setDesc 1 (.committed (message 4 1 65 2 readers))

/-- A stream with one message, in descriptor `d`. -/
def oneMessage (x : Policy) (d : DescId) (held : Nat) : StreamRecord :=
  { madeStream x (.held 0) with
    oldest := some d, newest := some d, committedCount := 1, nextSeq := 1, heldBlocks := held, commitTotal := 1 }

/-- The LAG notice of stream 3. -/
def lagNotice : Notice := { kind := .lag, stream := 3, sequence := 0, count := 1, aux := 1 }

/-- Both streams hold a message that port 1 has not read; its subscriptions are in state `x`, its session is `session`. -/
def readable (x : SubState) (session : Session) : State :=
  ((((((online.setPool (committedPool 1)).setStream 3 (oneMessage .shed 0 1)).setStream 4
    (oneMessage .hold 1 2)).setSub 3 1 (some (reader x false 1))).setSub 4 1 (some (reader x true 1))).setQueue 1
    { records := [lagNotice], dropped := 0 }).setSession 1 session

/-- Port 1 reads. -/
def committed : State := readable .active (watching (.running 2))

/-- Port 1 is away. -/
def lapsedReader : State := readable .lapsed .powerOn

/-- Port 0 is away with its claims STALE, an assembly open on stream 3. -/
def staleWriter : State := (assembling (.stale 0) 3 []).setSession 0 .powerOn

/-- The state with a transaction of port 0 in progress. -/
def inTransaction (s : State) : State :=
  (s.setPins 0 { csLow := true, prstAsserted := false }).setLink 0
    { s.link 0 with transaction := some (s.beginTransaction 0) }

/-- A PING request. -/
def pingRequest : Request := { id := 1, code := some 0x03, params := [], payload := [] }

/-- The core executes a PING of port 0. -/
def executing : State :=
  (online.setLink 0 { Link.powerOn with state := .executing pingRequest, lastId := 1 }).setCore
    (some { port := 0, reply := { status := .ok, result := [0, 0, 0], payload := [] } })

/-- A PING of port 0 waits. -/
def waiting : State := online.setLink 0 { Link.powerOn with state := .waiting pingRequest, lastId := 1 }

/-- What makes a state one in which a request of port `p` is taken at once. -/
theorem atOnce_of {s : State} {p : Port}
    (h : s.phase = .operating ∧ s.refclk = true ∧ s.core = none ∧ (∀ q : Port, (s.link q).isWaiting = false) ∧
      (s.link p).state = .idle ∧ s.pinsOf p = { csLow := false, prstAsserted := false }) : TakesAtOnce s p :=
  ⟨h.1, h.2.1, h.2.2.1, h.2.2.2.1, h.2.2.2.2.1, h.2.2.2.2.2⟩

/-- And one in which port `p` is ATTACHED. -/
theorem attached_of {s : State} {p : Port}
    (h : (s.phase = .operating ∧ s.refclk = true ∧ s.core = none ∧ (∀ q : Port, (s.link q).isWaiting = false) ∧
      (s.link p).state = .idle ∧ s.pinsOf p = { csLow := false, prstAsserted := false }) ∧
      (s.session p).state = .attached) : Attached s p := ⟨atOnce_of h.1, h.2⟩

theorem idle_atOnce : TakesAtOnce idle 0 := atOnce_of (by decide +kernel)
theorem online_attached : Attached online 0 := attached_of (by decide +kernel)
theorem defined_attached : Attached defined 0 := attached_of (by decide +kernel)
theorem claimed_attached : Attached claimed 0 := attached_of (by decide +kernel)
theorem opened_attached : Attached opened 0 := attached_of (by decide +kernel)
theorem filled_attached : Attached filled 0 := attached_of (by decide +kernel)
theorem committed_attached : Attached committed 0 := attached_of (by decide +kernel)
theorem reader_attached : Attached committed 1 := attached_of (by decide +kernel)
theorem staleWriter_attached : Attached staleWriter 2 := attached_of (by decide +kernel)
theorem lapsedReader_attached : Attached lapsedReader 0 := attached_of (by decide +kernel)

/-! ### One step for each command -/

/-- R138, R139: FRESH from DETACHED: the former state 0, nothing held. -/
theorem test_attach_fresh : reply (after (.attachFresh 0 1 [5, 2, 3] []) idle) =
    some { status := .ok, result := [0, 0, 0, 0, 0, 0, 0], payload := [] } := by decide +kernel
/-- R132: a lease period of 5 loads 50 ticks. -/
theorem test_attach_lease : ((after (.attachFresh 0 1 [5, 2, 3] []) idle).session 0).leaseTimer = .running 50 := by
  decide +kernel
/-- R136, R106: RESUME brings the STALE claim back. -/
theorem test_attach_resume : ((after (.attachResume 0 1 [5, 2, 3] []) staleWriter).stream 3).claim = .held 0 := by
  decide +kernel
/-- R141: DETACH reports the two claims. -/
theorem test_detach : reply (after (.detach 0 1 [] []) claimed) =
    some { status := .ok, result := [2, 0], payload := [] } := by decide +kernel
/-- R145: PING reports the stamp. -/
theorem test_ping : reply (after (.ping 0 1 [] []) { online with stamp := 0x012345 }) =
    some { status := .ok, result := [0x01, 0x23, 0x45], payload := [] } := by decide +kernel
/-- R128: PING from a DETACHED port is refused. -/
theorem test_ping_detached : reply (after (.ping 0 1 [] []) idle) =
    some { status := .notAttached, result := [], payload := [] } := by decide +kernel
/-- R146: PORT_INFO passes the gate; the mask of reset is 01 hex. -/
theorem test_port_info : reply (after (.portInfo 0 1 [] []) idle) =
    some { status := .ok, result := [0, 0, 0, 0, 0, 0, 1, 0, 0, 0, 0, 0, 0], payload := [] } := by decide +kernel
/-- R21: a block limit below the blocks of the longest message is a bad argument. -/
theorem test_define_limit : reply (after (.define 0 1 [5, 1, 0, 1, 0, 65, 0] []) online) =
    some { status := .badArgument, result := [], payload := [] } := by decide +kernel
/-- R22: DEFINE leaves the claim NONE. -/
theorem test_define : (after (.define 0 1 [3, 1, 0, 2, 0, 100, 0] []) online).stream 3 = madeStream .shed .none := by decide +kernel
/-- R33: DISSOLVE of a claimed stream is refused. -/
theorem test_dissolve_in_use : reply (after (.dissolve 0 1 [3] []) claimed) =
    some { status := .inUse, result := [], payload := [] } := by decide +kernel
/-- R36: STREAM_INFO of a claimed stream: the claim byte is HELD by port 0. -/
theorem test_stream_info : reply (after (.streamInfo 0 1 [3] []) claimed) =
    some { status := .ok
           result := [1, 0, 2, 0, 100, 0, 4, 0, 0, 0, 0, 0, 0, 0, 0, 0, 0, 0, 0, 0, 0, 0, 0, 0]
           payload := [] } := by decide +kernel
/-- R39: CLAIM of a stream that another port holds. -/
theorem test_claim_held : reply (after (.claim 2 1 [3, 1] []) claimed) =
    some { status := .heldByOther, result := [], payload := [] } := by decide +kernel
/-- R40, R58: a takeover frees the blocks of the assembly. -/
theorem test_claim_takeover : (after (.claim 2 1 [3, 1] []) staleWriter).pool.freeBlocks.length = 2048 := by
  decide +kernel
/-- R41: it posts a CLAIM_LOST notice that says that an assembly was aborted. -/
theorem test_claim_lost : ((after (.claim 2 1 [3, 1] []) staleWriter).queue 0).records =
    [{ kind := .claimLost, stream := 3, sequence := 0, count := 1, aux := 2 }] := by decide +kernel
/-- R42: UNCLAIM by a port that does not hold the claim. -/
theorem test_unclaim_other : reply (after (.unclaim 2 1 [3] []) claimed) =
    some { status := .notWriter, result := [], payload := [] } := by decide +kernel
/-- R49: OPEN of 100 bytes takes two blocks from the front. -/
theorem test_open : (after (.openMessage 0 1 [3, 0, 100, 0, 9, 0] []) claimed).pool.desc 0 = .staged (assembly 0) := by decide +kernel
/-- R9: APPEND stores its bytes at the front of block 0. -/
theorem test_append : (after (.append 0 1 [3] [1, 2, 3]) opened).pool.bytes = [(0, 1), (1, 2), (2, 3)] := by decide +kernel
/-- R51: APPEND past the declared length is refused whole. -/
theorem test_append_overlength : reply (after (.append 0 1 [3] (List.replicate 98 7)) filled) =
    some { status := .overlength, result := [], payload := [] } := by decide +kernel
/-- R53: COMMIT reports sequence 0 and 3 bytes. -/
theorem test_commit : reply (after (.commit 0 1 [3] []) joined) =
    some { status := .ok, result := [0, 0, 0, 3, 0, 0, 0], payload := [] } := by decide +kernel
/-- R10, R119, R116: the surplus block goes back, port 1 gets a LAG notice and its flush timer starts. -/
theorem test_commit_effects :
    let t := after (.commit 0 1 [3] []) joined
    (t.stream 3).heldBlocks = 1 ∧ (t.queue 1).records = [lagNotice] ∧ (t.session 1).flushTimer = .running 2 := by
  decide +kernel
/-- R59: ABORT without an assembly. -/
theorem test_abort_none : reply (after (.abort 0 1 [3] []) claimed) =
    some { status := .noAssembly, result := [], payload := [] } := by decide +kernel
/-- R66, R69: an OPEN on the full SHED stream removes the message that port 1 has not read. -/
theorem test_open_sheds : reply (after (.openMessage 0 1 [3, 0, 65, 0, 0, 0] []) committed) =
    some { status := .ok, result := [2, 0, 1], payload := [] } := by decide +kernel
/-- R73: and posts the loss. -/
theorem test_open_loss : ((after (.openMessage 0 1 [3, 0, 65, 0, 0, 0] []) committed).queue 1).records =
    [lagNotice, { kind := .loss, stream := 3, sequence := 0, count := 1, aux := 0 }] := by decide +kernel
/-- R67: under HOLD the same OPEN is refused with FULL. -/
theorem test_open_full : reply (after (.openMessage 0 1 [4, 0, 1, 0, 0, 0] []) committed) =
    some { status := .full, result := [], payload := [] } := by decide +kernel
/-- R86: JOIN at the oldest message. -/
theorem test_join_oldest : reply (after (.join 2 1 [3, 0, 0, 0, 1] []) committed) =
    some { status := .ok, result := [0, 0, 0, 1], payload := [] } := by decide +kernel
/-- R91, R30: LEAVE of the only reader retires the message. -/
theorem test_leave : ((after (.leave 1 1 [3] []) committed).stream 3).committedCount = 0 := by decide +kernel
/-- R93: EVICT of a LAPSED subscription reports its unread count. -/
theorem test_evict : reply (after (.evict 0 1 [3, 1] []) lapsedReader) =
    some { status := .ok, result := [0, 1], payload := [] } := by decide +kernel
/-- R92: EVICT of an ACTIVE one is refused. -/
theorem test_evict_active : reply (after (.evict 0 1 [3, 1] []) committed) =
    some { status := .notLapsed, result := [], payload := [] } := by decide +kernel
/-- R95: READ with nothing to read. -/
theorem test_read_nothing : reply (after (.read 1 1 [3, 1, 0] []) joined) =
    some { status := .nothing, result := [0], payload := [] } := by decide +kernel
/-- R98: READ of a block whose failed flag is set: damaged before the first byte. -/
theorem test_read_damaged :
    reply (after (.read 1 1 [3, 1, 0] [])
      (committed.setPool (committed.pool.setBlock 0 { committed.pool.block 0 with failed := true }))) =
    some { status := .damaged, result := [0, 0, 0, 3, 0, 9, 0, 0, 0, 2, 0, 0, 0, 0], payload := [] } := by
  decide +kernel
/-- R99: RELEASE of a sequence that is not the cursor. -/
theorem test_release_gone : reply (after (.release 1 1 [3, 0, 5] []) committed) =
    some { status := .gone, result := [0, 0, 0, 1], payload := [] } := by decide +kernel
/-- R100: RELEASE of the cursor. -/
theorem test_release : reply (after (.release 1 1 [3, 0, 0] []) committed) =
    some { status := .ok, result := [0, 1, 0, 0], payload := [] } := by decide +kernel
/-- R103: SUB_INFO: ACTIVE, one unread, lag disarmed, lag mark 1, batch 2, one unannounced. -/
theorem test_sub_info : reply (after (.subInfo 1 1 [3, 0] []) committed) =
    some { status := .ok, result := [1, 0, 0, 0, 1, 0, 0, 0, 0, 0, 0, 1, 2, 0, 1], payload := [] } := by
  decide +kernel
/-- R122, R168: TAKE_NOTICES of the LAG notice. -/
theorem test_take_notices : reply (after (.takeNotices 1 1 [8] []) committed) =
    some { status := .ok, result := [1, 0, 0], payload := [2, 3, 0, 0, 0, 1, 0, 1] } := by decide +kernel
/-- R17: POOL_INFO after the pass: 2048 blocks and 512 descriptors free. -/
theorem test_pool_info : reply (after (.poolInfo 0 1 [] []) online) =
    some { status := .ok, result := [8, 0, 0, 0, 0, 0, 0, 0, 0, 0, 2, 0, 0, 0, 0, 0], payload := [] } := by
  decide +kernel
/-- R14: SCRUB with an empty quarantine list. -/
theorem test_scrub_empty : reply (after (.scrub 0 1 [16] []) online) =
    some { status := .quarantineEmpty, result := [0, 0, 0], payload := [] } := by decide +kernel
/-- R128: a code outside Table 9.3, from a port in any state. -/
theorem test_bad_command : reply (after (.badCommand 0 1 (some 0xFF) [] []) idle) =
    some { status := .badCommand, result := [], payload := [] } := by decide +kernel
/-- R149: at the fall of CSn the link answers its link byte. -/
theorem test_cs_fall : ((after (.csFall 1) committed).link 1).transaction.map (fun t => t.misoByte 0) = some 0xA4 := by
  decide +kernel
/-- R151: a frame cut short sets TRUNCATED. -/
theorem test_cs_rise_truncated :
    ((after (.csRise 0 ((requestFrame 1 0x03 [] []).take 15) []) (inTransaction online)).link 0).flags =
      { truncated := true, badcheck := false, collided := false, superseded := false } := by decide +kernel
/-- R151: a whole PING frame with filler after it is answered as PING. -/
theorem test_cs_rise_ping :
    reply (after (.csRise 0 (requestFrame 1 0x03 [] [] ++ [0xFF, 0xFF]) [true]) (inTransaction online)) =
      some { status := .ok, result := [0, 0, 0], payload := [] } := by decide +kernel
/-- R142: PRSTn lapses the subscriptions and detaches the session. -/
theorem test_port_reset :
    let t := after (.portReset 1) committed
    (t.session 1).state = .detached ∧ (t.sub 3 1).map (fun u => u.state) = some .lapsed := by decide +kernel
/-- R171: RESETn undefines every stream. -/
theorem test_reset_assert : ((after .resetAssert committed).stream 3).settings = none := by decide +kernel
/-- R18: its release starts the pass. -/
theorem test_reset_release : (after .resetRelease { State.reset with phase := .inReset }).phase = .initialising := by decide +kernel
/-- R18: the end of the pass. -/
theorem test_init_pass_end : (after .initPassEnd State.reset).phase = .operating := by decide +kernel
/-- R131: a tick lowers the flush timer. -/
theorem test_tick : ((after .tick committed).session 1).flushTimer = .running 1 := by decide +kernel
/-- R117: the expiry of the flush timer announces the message. -/
theorem test_flush_expiry : ((after (.flushExpiry 1) (readable .active (watching .expired))).queue 1).records =
    [lagNotice, { kind := .arrival, stream := 3, sequence := 0, count := 1, aux := 2 },
     { kind := .arrival, stream := 4, sequence := 0, count := 1, aux := 2 }] := by decide +kernel
/-- R133: the expiry of the lease timer lapses the session. -/
theorem test_lease_expiry :
    ((after (.leaseExpiry 0) (online.setSession 0 { attached with leaseTimer := .expired })).session 0).state = .lapsed := by decide +kernel
/-- R157: the completion makes the link READY. -/
theorem test_command_completion : ((after .commandCompletion executing).link 0).state.code = 3 := by
  decide +kernel
/-- R171: PRSTn released. -/
theorem test_port_reset_release :
    ((after (.portResetRelease 0) (online.setPins 0 { csLow := true, prstAsserted := true })).pinsOf 0).prstAsserted = false := by decide +kernel
/-- R130: the stamp wraps. -/
theorem test_stamp_wraps : (after .stampCounterRise { online with stamp := 0xFFFFFF }).stamp = 0 := by decide +kernel
/-- R171: while REFCLK stands still no tick counts. -/
theorem test_refclk_stop : ((after .tick (after .refclkStop committed)).session 1).flushTimer = .running 2 := by decide +kernel
/-- R171: when it returns, the waiting frame is granted. -/
theorem test_refclk_return : reply (after .refclkReturn { waiting with refclk := false }) =
    some { status := .ok, result := [0, 0, 0], payload := [] } := by decide +kernel

/-! ### The hypotheses of the statements can be met

One theorem for each statement that has hypotheses, with a state and operands for each of its clauses. -/

/-- A state whose queue holds a command. -/
def queued (c : Instr) (s : State) : State := { s with pending := [c] }

theorem witness_StepRunsFrontCommand : (queued .tick online).pending = [.tick] ∧ online.pending = [] := ⟨rfl, rfl⟩

theorem lapsed_atOnce : TakesAtOnce (online.setSession 0 { attached with state := .lapsed }) 0 :=
  atOnce_of (by decide +kernel)

theorem witness_SessionGate :
    TakesAtOnce idle 0 ∧ (idle.session 0).state = .detached ∧ namesNoCommand none = true ∧
      namesNoCommand (some 0xFF) = true ∧
      TakesAtOnce (online.setSession 0 { attached with state := .lapsed }) 0 ∧
      ((online.setSession 0 { attached with state := .lapsed }).session 0).state = .lapsed ∧
      TakesAtOnce online 0 ∧ PassesGate online 0 .ping ∧ PassesGate idle 0 .attach ∧ PassesGate idle 0 .portInfo :=
  ⟨idle_atOnce, by decide +kernel, by decide, by decide, lapsed_atOnce, by decide +kernel, online_attached.atOnce,
    .inl online_attached.attached, .inr (.inl rfl), .inr (.inr rfl)⟩

/-- The greatest parameters that DEFINE takes, and one step past each. -/
theorem witness_ArgumentChecks :
    TakesAtOnce online 0 ∧ PassesGate online 0 .define ∧
      ¬BadArguments .define [63, 1, 8, 0, 16, 0, 15] [] ∧ BadArguments .define [64, 1, 8, 0, 16, 0, 15] [] ∧
      BadArguments .define [63, 2, 8, 0, 16, 0, 15] [] ∧ BadArguments .define [63, 1, 8, 1, 16, 0, 15] [] ∧
      BadArguments .define [63, 1, 8, 0, 16, 1, 15] [] ∧ BadArguments .define [63, 1, 8, 0, 16, 0, 16] [] ∧
      BadArguments .define [63, 1, 0, 63, 16, 0, 15] [] ∧ ¬BadArguments .define [63, 1, 0, 64, 16, 0, 15] [] ∧
      ¬BadArguments .attach [1, 255, 255, 3] [] ∧ BadArguments .attach [1, 255, 255, 4] [] ∧
      ¬BadArguments .attach [0, 0, 0, 0] [] ∧ BadArguments .attach [0, 0, 0] [] ∧
      ¬BadArguments .openMessage [0, 16, 0, 0, 0, 1] [] ∧ BadArguments .openMessage [0, 0, 0, 0, 0, 1] [] ∧
      ¬BadArguments .join [0, 1, 1, 255, 8] [] ∧ BadArguments .join [0, 1, 2, 0, 8] [] ∧
      BadArguments .join [0, 1, 1, 255, 0] [] ∧ ¬BadArguments .evict [0, 3] [] ∧ BadArguments .evict [0, 4] [] ∧
      ¬BadArguments .read [0, 1, 0] [] ∧ BadArguments .read [0, 1, 1] [] ∧ BadArguments .read [0, 0, 0] [] ∧
      ¬BadArguments .takeNotices [8] [] ∧ BadArguments .takeNotices [9] [] ∧ BadArguments .takeNotices [0] [] ∧
      ¬BadArguments .scrub [16] [] ∧ BadArguments .scrub [17] [] ∧ BadArguments .append [0] [] ∧
      ¬BadArguments .append [0] [1] ∧ BadArguments .ping [] [1] ∧ ¬BadArguments .ping [] [] ∧
      ¬BadArguments .release [0, 255, 255] [] ∧ BadArguments .release [0, 0] [] ∧
      ¬BadArguments .subInfo [0, 1] [] ∧ BadArguments .subInfo [0, 2] [] ∧ ¬BadArguments .commit [63] [] ∧
      BadArguments .commit [64] [] :=
  ⟨online_attached.atOnce, .inl online_attached.attached, by
    and_intros <;> dsimp only [BadArguments] <;> decide +kernel⟩

theorem witness_FreshAndDetach :
    TakesAtOnce idle 0 ∧ TakesAtOnce claimed 0 ∧ Attached claimed 0 ∧ (3 : Byte).toNat < 4 :=
  ⟨idle_atOnce, claimed_attached.atOnce, claimed_attached, by decide⟩

theorem staleWriter_atOnce : TakesAtOnce staleWriter 0 := atOnce_of (by decide +kernel)

theorem witness_AttachResumeRestoresHoldings :
    TakesAtOnce staleWriter 0 ∧ (staleWriter.session 0).state ≠ .attached ∧ (staleWriter.stream 3).claim = .stale 0 ∧
      (staleWriter.stream 5).claim ≠ .stale 0 ∧ TakesAtOnce claimed 0 ∧ (claimed.session 0).state = .attached ∧
      TakesAtOnce lapsedReader 1 ∧ lapsedReader.sub 3 1 = some (reader .lapsed false 1) :=
  ⟨staleWriter_atOnce, by decide +kernel, by decide +kernel, by decide +kernel, claimed_attached.atOnce,
    by decide +kernel, atOnce_of (by decide +kernel), by decide +kernel⟩

theorem witness_TeardownEndsHoldings :
    (filled.stream 3).claim = .held 0 ∧ (staleWriter.stream 3).claim = .stale 0 ∧
      (filled.stream 5).claim ≠ .held 0 ∧ (filled.stream 5).claim ≠ .stale 0 := by decide +kernel

theorem witness_PingReportsStamp :
    TakesAtOnce idle 0 ∧ (idle.session 0).state = .detached ∧
      TakesAtOnce (online.setSession 0 { attached with state := .lapsed }) 0 ∧ TakesAtOnce online 0 ∧
      (online.session 0).state = .attached :=
  ⟨idle_atOnce, by decide +kernel, lapsed_atOnce, online_attached.atOnce, online_attached.attached⟩

theorem witness_PortInfoReportsSession : TakesAtOnce idle 0 ∧ TakesAtOnce committed 1 :=
  ⟨idle_atOnce, reader_attached.atOnce⟩

/-- The least and the greatest settings. -/
theorem witness_DefineMakesStream :
    Attached defined 0 ∧ (defined.stream 3).settings ≠ none ∧ (defined.stream 5).settings = none ∧
      ((0 : Byte).toNat ≤ 1 ∧ 1 ≤ paramWord [5, 0, 0, 1, 0, 64, 0] 2 ∧ paramWord [5, 0, 0, 1, 0, 64, 0] 2 ≤ 2048 ∧
        1 ≤ paramWord [5, 0, 0, 1, 0, 64, 0] 4 ∧ paramWord [5, 0, 0, 1, 0, 64, 0] 4 ≤ 4096 ∧
        (paramWord [5, 0, 0, 1, 0, 64, 0] 4 + 63) / 64 ≤ paramWord [5, 0, 0, 1, 0, 64, 0] 2) ∧
      ((1 : Byte).toNat ≤ 1 ∧ 1 ≤ paramWord [5, 1, 8, 0, 16, 0, 15] 2 ∧ paramWord [5, 1, 8, 0, 16, 0, 15] 2 ≤ 2048 ∧
        1 ≤ paramWord [5, 1, 8, 0, 16, 0, 15] 4 ∧ paramWord [5, 1, 8, 0, 16, 0, 15] 4 ≤ 4096 ∧ (15 : Byte).toNat ≤ 15 ∧
        (paramWord [5, 1, 8, 0, 16, 0, 15] 4 + 63) / 64 ≤ paramWord [5, 1, 8, 0, 16, 0, 15] 2) :=
  ⟨defined_attached, by decide +kernel, by decide +kernel, by decide +kernel, by decide +kernel⟩

theorem witness_DissolveEmptiesStream :
    Attached defined 0 ∧ (defined.stream 5).settings = none ∧ (defined.stream 3).settings ≠ none ∧
      ((defined.stream 3).claim = .none ∧ ∀ q : Port, defined.sub 3 q = none) ∧ Attached claimed 0 ∧
      (claimed.stream 3).settings ≠ none ∧ (claimed.stream 3).claim ≠ .none ∧ Attached committed 0 ∧
      committed.sub 3 1 ≠ none :=
  ⟨defined_attached, by decide +kernel, by decide +kernel, by decide +kernel, claimed_attached, by decide +kernel,
    by decide +kernel, committed_attached, by decide +kernel⟩

theorem witness_StreamInfoReportsStream :
    Attached committed 0 ∧ (committed.stream 5).settings = none ∧
      (committed.stream 3).settings =
        some { policy := .shed, blockLimit := 2, maxLength := 100, retainDepth := 0 } :=
  ⟨committed_attached, by decide +kernel, by decide +kernel⟩

theorem witness_ClaimTable :
    Attached defined 0 ∧ (defined.stream 5).settings = none ∧ (defined.stream 3).settings ≠ none ∧
      (defined.stream 3).claim = .none ∧ Attached claimed 0 ∧ (claimed.stream 3).claim = .held 0 ∧
      Attached (definedWith (.held 2)) 0 ∧ ((definedWith (.held 2)).stream 3).claim = .held 2 ∧
      Attached staleWriter 2 ∧ (staleWriter.stream 3).claim = .stale 0 ∧ (staleWriter.stream 3).settings ≠ none ∧
      (1 : Byte).toNat ≤ 1 :=
  ⟨defined_attached, by decide +kernel, by decide +kernel, by decide +kernel, claimed_attached, by decide +kernel,
    attached_of (by decide +kernel), by decide +kernel, staleWriter_attached, by decide +kernel, by decide +kernel,
    by decide⟩

theorem witness_TakeoverMovesClaim :
    Attached staleWriter 2 ∧ (0 : Port) ≠ 2 ∧ (staleWriter.stream 3).settings ≠ none ∧
      (staleWriter.stream 3).claim = .stale 0 := ⟨staleWriter_attached, by decide, by decide +kernel, by decide +kernel⟩

theorem witness_UnclaimReleasesClaim :
    Attached claimed 0 ∧ (claimed.stream 5).settings = none ∧ (claimed.stream 3).settings ≠ none ∧
      (claimed.stream 3).claim = .held 0 ∧ Attached defined 0 ∧ (defined.stream 3).settings ≠ none ∧
      (defined.stream 3).claim ≠ .held 0 :=
  ⟨claimed_attached, by decide +kernel, by decide +kernel, by decide +kernel, defined_attached, by decide +kernel,
    by decide +kernel⟩

theorem witness_WriterRefusals :
    (Attached defined 0 ∧ ¬BadArguments .openMessage [streamByte 3, 0, 1, 0, 0, 0] [] ∧
      ¬BadArguments .append [streamByte 3] [7] ∧ ¬BadArguments .commit [streamByte 3] [] ∧
      ¬BadArguments .abort [streamByte 3] [] ∧ (defined.stream 5).settings = none ∧
      (defined.stream 3).settings ≠ none ∧ (defined.stream 3).claim ≠ .held 0) ∧
    (Attached claimed 0 ∧ (claimed.stream 3).settings ≠ none ∧ (claimed.stream 3).claim = .held 0 ∧
      (claimed.stream 3).assembly = none) ∧
    (Attached opened 0 ∧ (opened.stream 3).settings ≠ none ∧ (opened.stream 3).claim = .held 0 ∧
      (opened.stream 3).assembly = some 0 ∧ opened.pool.desc 0 = .staged (assembly 0) ∧ (assembly 0).fill = 0) ∧
    (1 ≤ paramWord [streamByte 3, 0, 101, 0, 0, 0] 1 ∧ paramWord [streamByte 3, 0, 101, 0, 0, 0] 1 ≤ 4096 ∧
      (claimed.stream 3).settings = some { policy := .shed, blockLimit := 2, maxLength := 100, retainDepth := 0 } ∧
      100 < paramWord [streamByte 3, 0, 101, 0, 0, 0] 1) :=
  ⟨⟨defined_attached, by
      and_intros <;> (try dsimp only [BadArguments]) <;> decide +kernel⟩,
    ⟨claimed_attached, by decide +kernel, by decide +kernel, by decide +kernel⟩,
    ⟨opened_attached, by decide +kernel, by decide +kernel, by decide +kernel, by decide +kernel, rfl⟩,
    ⟨by decide +kernel, by decide +kernel, by decide +kernel, by decide +kernel⟩⟩

/-- The settings of the two test streams. -/
abbrev made (x : Policy) : Settings := { policy := x, blockLimit := 2, maxLength := 100, retainDepth := 0 }

theorem free_once (n : Nat) : ((List.finRange 2048).drop n).Nodup :=
  (List.nodup_finRange 2048).sublist (List.drop_sublist _ _)

theorem claimed_free : claimed.pool.freeBlocks = (List.finRange 2048).drop 0 := by
  simp only [claimed, definedWith, State.setStream_pool, online, idle, State.reset, Pool.powerOn, List.drop_zero]

theorem witness_OpenReservesAssembly :
    Attached claimed 0 ∧ 1 ≤ paramWord [streamByte 3, 0, 100, 0, 0, 0] 1 ∧
      paramWord [streamByte 3, 0, 100, 0, 0, 0] 1 ≤ 100 ∧ (claimed.stream 3).settings = some (made .shed) ∧
      (claimed.stream 3).claim = .held 0 ∧ (claimed.stream 3).assembly = none ∧ Covers claimed 3 (made .shed) 2 0 ∧
      claimed.pool.freeBlocks.Nodup :=
  ⟨claimed_attached, by decide +kernel, by decide +kernel, by decide +kernel, by decide +kernel, by decide +kernel,
    ⟨by decide +kernel, by decide +kernel, by decide +kernel⟩, by rw [claimed_free]; exact free_once 0⟩

/-- The state `committed` with these free lists. -/
def starved (blocks : List BlockId) (descriptors : List DescId) : State :=
  committed.setPool { committed.pool with freeBlocks := blocks, freeDescriptors := descriptors }

theorem claimed_pool : claimed.pool = Pool.powerOn := by
  simp only [claimed, definedWith, State.setStream_pool, online, idle, State.reset]

/-- One removal is needed and granted under SHED; under HOLD nothing is eligible and the OPEN is refused with FULL; with no
free blocks a SHED stream that may give up one is refused with POOL_EMPTY; with no free descriptor a HOLD stream with room
is refused with NO_DESCRIPTOR. -/
theorem witness_RoomDecision :
    (Attached committed 0 ∧ IsEligibleCount committed 3 (made .shed) 1 ∧ Covers committed 3 (made .shed) 2 1 ∧
      ¬Covers committed 3 (made .shed) 2 0 ∧ (committed.stream 3).settings = some (made .shed) ∧
      (committed.stream 3).claim = .held 0 ∧ (committed.stream 3).assembly = none) ∧
    (IsEligibleCount committed 4 (made .hold) 0 ∧ ¬Covers committed 4 (made .hold) 1 0 ∧
      (committed.stream 4).settings = some (made .hold) ∧ (committed.stream 4).claim = .held 0 ∧
      (committed.stream 4).assembly = none) ∧
    (IsEligibleCount (starved [] [2]) 3 (made .shed) 1 ∧ ¬Covers (starved [] [2]) 3 (made .shed) 2 0 ∧
      ¬Covers (starved [] [2]) 3 (made .shed) 2 1) ∧
    (let s := claimed.setPool { claimed.pool with freeDescriptors := [] }
     IsEligibleCount s 4 (made .hold) 0 ∧ ¬Covers s 4 (made .hold) 1 0) ∧
    (2 ≤ claimed.pool.freeBlocks.length ∧ claimed.pool.freeBlocks.Nodup ∧
      claimed.pool.freeDescriptors = 0 :: (List.finRange 512).tail) := by
  refine ⟨⟨committed_attached, ?_, ?_, ?_, by decide +kernel, by decide +kernel, by decide +kernel⟩,
    ⟨⟨by decide +kernel, fun q u h _ => Nat.zero_le _, .inr ⟨1, reader .active true 1, by decide +kernel, rfl, by decide +kernel⟩⟩,
      ?_, by decide +kernel, by decide +kernel, by decide +kernel⟩, ⟨?_, ?_, ?_⟩, ⟨⟨by decide +kernel, fun q u h _ => Nat.zero_le _, .inl (by decide +kernel)⟩, ?_⟩,
    by decide +kernel, claimed_pool ▸ poolSound_powerOn.accounts.freeBlocks_once, by decide +kernel⟩
  · change 1 = (committed.stream 3).committedCount
    decide +kernel
  · exact ⟨by decide +kernel, by decide +kernel, by decide +kernel⟩
  · rintro ⟨h, _⟩
    revert h
    decide +kernel
  · rintro ⟨h, _⟩
    revert h
    decide +kernel
  · change 1 = ((starved [] [2]).stream 3).committedCount
    decide +kernel
  · rintro ⟨_, h, _⟩
    revert h
    decide +kernel
  · rintro ⟨_, h, _⟩
    revert h
    decide +kernel
  · rintro ⟨_, _, h⟩
    revert h
    decide +kernel

theorem witness_RoomRemovalForcesReaders :
    (committed.stream 3).oldest = some 0 ∧ committed.pool.desc 0 = .committed (message 3 0 3 1 1) ∧
      committed.sub 3 0 = none ∧ committed.sub 3 1 = some (reader .active false 1) ∧
      (reader .active false 1).cursor = (message 3 0 3 1 1).sequence ∧
      ((committed.setSub 3 2 (some { reader .active true 0 with cursor := 1 })).sub 3 2) =
        some { reader .active true 0 with cursor := 1 } ∧
      ({ reader .active true 0 with cursor := 1 } : Subscription).cursor ≠ (message 3 0 3 1 1).sequence := by
  decide +kernel

theorem filled_chain : ChainOf filled.pool 0 .staged 0 2 :=
  ⟨by decide +kernel, by decide +kernel, by decide +kernel, by decide +kernel, by decide +kernel⟩

theorem committed_chain : ChainOf committed.pool 1 .committed 1 2 :=
  ⟨by decide +kernel, by decide +kernel, by decide +kernel, by decide +kernel, by decide +kernel⟩

theorem filled_canonical : MemoryCanonical filled := by
  have : filled.pool.bytes = [(0, 1), (1, 2), (2, 3)] := by decide +kernel
  rw [MemoryCanonical, this]
  decide

/-- 97 more bytes fit exactly, 98 do not. -/
theorem witness_AppendStoresPayload :
    Attached filled 0 ∧ (filled.stream 3).settings ≠ none ∧ (filled.stream 3).claim = .held 0 ∧
      (filled.stream 3).assembly = some 0 ∧ filled.pool.desc 0 = .staged (assembly 3) ∧
      (assembly 3).fill + 97 ≤ (assembly 3).declaredLength ∧ (assembly 3).declaredLength < (assembly 3).fill + 98 ∧
      MemoryCanonical filled ∧ ChainOf filled.pool 0 .staged (assembly 3).firstBlock (assembly 3).blockCount ∧
      (assembly 3).declaredLength ≤ 64 * (assembly 3).blockCount :=
  ⟨filled_attached, by decide +kernel, by decide +kernel, by decide +kernel, by decide +kernel, by decide, by decide,
    filled_canonical, filled_chain, by decide⟩

theorem witness_CommitCompletes :
    Attached filled 0 ∧ (filled.stream 3).settings ≠ none ∧ (filled.stream 3).claim = .held 0 ∧
      (filled.stream 3).assembly = some 0 ∧ filled.pool.desc 0 = .staged (assembly 3) ∧ (assembly 3).fill ≠ 0 :=
  ⟨filled_attached, by decide +kernel, by decide +kernel, by decide +kernel, by decide +kernel, by decide⟩

theorem witness_CommitMakesMessage :
    filled.pool.desc 0 = .staged (assembly 3) ∧ (filled.stream 3).newest ≠ some 0 ∧
      ChainOf filled.pool 0 .staged (assembly 3).firstBlock (assembly 3).blockCount ∧ 1 ≤ (assembly 3).fill ∧
      (assembly 3).fill ≤ 64 * (assembly 3).blockCount ∧
      (∀ b ∈ filled.pool.chain (assembly 3).firstBlock (assembly 3).blockCount, (filled.pool.block b).failed = false) ∧
      (filled.stream 3).newest ≠ some 7 ∧ 7 ∉ filled.pool.chain (assembly 3).firstBlock (assembly 3).blockCount ∧
      (committed.stream 3).newest = some 0 ∧ committed.pool.desc 0 = .committed (message 3 0 3 1 1) :=
  ⟨by decide +kernel, by decide +kernel, filled_chain, by decide, by decide, by decide +kernel, by decide +kernel,
    by decide +kernel, by decide +kernel, by decide +kernel⟩

theorem witness_AbortDiscardsAssembly :
    Attached opened 0 ∧ (opened.stream 3).settings ≠ none ∧ (opened.stream 3).claim = .held 0 ∧
      (opened.stream 3).assembly = some 0 ∧ opened.pool.desc 0 = .staged (assembly 0) :=
  ⟨opened_attached, by decide +kernel, by decide +kernel, by decide +kernel, by decide +kernel⟩

theorem witness_StorageReleases :
    (filled.pool.desc 0 = .staged (assembly 3) ∧ ChainOf filled.pool 0 .staged 0 2) ∧
      (committed.pool.desc 1 = .committed (message 4 1 65 2 1) ∧ ChainOf committed.pool 1 .committed 1 2) ∧
      ((committed.stream 4).oldest = some 1 ∧ (committed.stream 4).assembly = none) ∧
      (filled.stream 3).assembly = some 0 :=
  ⟨⟨by decide +kernel, filled_chain⟩, ⟨by decide +kernel, committed_chain⟩, by decide +kernel, by decide +kernel⟩

theorem witness_RoomReevaluation :
    opened.pool.freeBlocks.length < claimed.pool.freeBlocks.length ∧
      ¬(claimed.pool.freeBlocks.length < claimed.pool.freeBlocks.length ∨
        claimed.pool.freeDescriptors.length < claimed.pool.freeDescriptors.length) ∧
      roomNoticeOf (claimed.setStream 3 { madeStream .shed (.held 0) with starvedNeed := some 2 }) 0 3 ≠ none ∧
      (∀ p : Port, roomNoticeOf claimed p 3 = none) := by decide +kernel

theorem witness_SubscriptionRemoval :
    committed.pool.desc 0 = .committed (message 3 0 3 1 1) ∧ (∀ m, committed.pool.desc 7 ≠ .committed m) ∧
      committed.sub 3 1 = some (reader .active false 1) := by
  refine ⟨by decide +kernel, fun m h => ?_, by decide +kernel⟩
  rw [show committed.pool.desc 7 = .free by decide +kernel] at h
  cases h

/-- Port 1's queue is full. -/
def crowded (session : Session) : State :=
  (readable .active session).setQueue 1 { records := List.replicate 32 lagNotice, dropped := 0 }

/-- Port 1's subscription to stream 3 as an OPEN has forced it, without and with a LOSS notice queued. -/
def forced (queuedLoss : Bool) : Subscription := { reader .active true 0 with cursor := 1, lossQueued := queuedLoss }

theorem witness_PostingRule :
    (committed.queue 1).records.length < 32 ∧ 32 ≤ ((crowded attached).queue 1).records.length ∧
      committed.sub 3 1 = some (reader .active false 1) ∧ (reader .active false 1).cursor = 0 ∧
      (committed.setSub 3 1 (some (forced false))).sub 3 1 = some (forced false) ∧
      (forced false).cursor ≠ (reader .active false 1).cursor ∧ (forced false).lossQueued = false ∧
      (committed.setSub 3 1 (some (forced true))).sub 3 1 = some (forced true) ∧ (forced true).lossQueued = true ∧
      ((crowded attached).setSub 3 1 (some (forced false))).sub 3 1 = some (forced false) := by decide +kernel

/-- The flush timer starts where it is IDLE with a period, and not where it runs. -/
theorem witness_ArrivalEvaluation :
    online.sub 3 1 = none ∧ joined.sub 3 1 = some (reader .active true 0) ∧
      ((joined.session 1).flushTimer = .idle ∧ (joined.session 1).flushPeriod ≠ 0) ∧
      committed.sub 4 1 = some (reader .active true 1) ∧ (committed.session 1).flushTimer ≠ .idle := by decide +kernel

theorem witness_JoinCreatesSubscription :
    Attached defined 0 ∧ (defined.stream 5).settings = none ∧ (defined.stream 3).settings ≠ none ∧
      defined.sub 3 0 = none ∧ Attached committed 1 ∧ committed.sub 3 1 ≠ none ∧
      paramWord [3, 1, 0x01, 0xFF, 8] 2 ≤ 511 ∧ 1 ≤ (8 : Byte).toNat ∧ (8 : Byte).toNat ≤ 8 :=
  ⟨defined_attached, by decide +kernel, by decide +kernel, by decide +kernel, reader_attached, by decide +kernel,
    by decide +kernel, by decide, by decide⟩

theorem witness_LeaveAndEvict :
    (Attached committed 1 ∧ (committed.stream 5).settings = none ∧ (committed.stream 3).settings ≠ none ∧
      committed.sub 3 1 = some (reader .active false 1)) ∧
    (Attached committed 0 ∧ committed.sub 3 0 = none ∧ (reader .active false 1).state = .active) ∧
    (Attached lapsedReader 0 ∧ (lapsedReader.stream 3).settings ≠ none ∧
      lapsedReader.sub 3 1 = some (reader .lapsed false 1) ∧ (reader .lapsed false 1).state = .lapsed ∧ (1 : Port) ≠ 0) :=
  ⟨⟨reader_attached, by decide +kernel, by decide +kernel, by decide +kernel⟩,
    ⟨committed_attached, by decide +kernel, rfl⟩,
    ⟨lapsedReader_attached, by decide +kernel, by decide +kernel, rfl, by decide⟩⟩

theorem committed_cursor (u : Subscription) (h : u.cursor = 0) : AtCursor committed 3 u 0 (message 3 0 3 1 1) := by
  have e : (committed.stream 3).oldestSeq = 0 := by decide +kernel
  refine ⟨?_, ?_, ?_, by decide +kernel⟩
  · rw [h]
    decide +kernel
  · rw [h, e]
    decide +kernel
  · rw [h, e]
    decide +kernel

theorem joined_attached : Attached joined 1 := attached_of (by decide +kernel)

/-- Nothing to read in `joined`; a damaged stop and the end of the message are fields of the subscription. -/
theorem witness_ReadWithoutPiece :
    Attached committed 1 ∧ (committed.stream 5).settings = none ∧ (committed.stream 3).settings ≠ none ∧
      committed.sub 3 0 = none ∧ Attached joined 1 ∧ (joined.stream 3).nextSeq = (reader .active true 0).cursor ∧
      AtCursor committed 3 { reader .active false 1 with damagedStop := true } 0 (message 3 0 3 1 1) ∧
      AtCursor committed 3 { reader .active false 1 with readOffset := 3 } 0 (message 3 0 3 1 1) ∧
      paramWord [3, 1, 0] 1 = 256 ∧ paramWord [3, 0, 1] 1 = 1 :=
  ⟨reader_attached, by decide +kernel, by decide +kernel, by decide +kernel, joined_attached, by decide +kernel,
    committed_cursor _ rfl, committed_cursor _ rfl, by decide, by decide⟩

theorem witness_ReadDeliversPiece :
    Attached committed 1 ∧ (committed.stream 3).settings ≠ none ∧
      committed.sub 3 1 = some (reader .active false 1) ∧
      AtCursor committed 3 (reader .active false 1) 0 (message 3 0 3 1 1) ∧
      (reader .active false 1).damagedStop = false ∧
      (reader .active false 1).readOffset < (message 3 0 3 1 1).committedLength :=
  ⟨reader_attached, by decide +kernel, by decide +kernel, committed_cursor _ rfl, rfl, by decide⟩

theorem witness_ReleaseAdvancesCursor :
    Attached committed 1 ∧ (committed.stream 5).settings = none ∧ committed.sub 3 0 = none ∧
      committed.sub 3 1 = some (reader .active false 1) ∧ (0 : Byte) ++ (5 : Byte) ≠ (reader .active false 1).cursor ∧
      (0 : Byte) ++ (0 : Byte) = (reader .active false 1).cursor ∧ Attached joined 1 ∧
      (joined.stream 3).nextSeq = (reader .active true 0).cursor ∧
      AtCursor committed 3 (reader .active false 1) 0 (message 3 0 3 1 1) :=
  ⟨reader_attached, by decide +kernel, by decide +kernel, by decide +kernel, by decide, by decide, joined_attached,
    by decide +kernel, committed_cursor _ rfl⟩

theorem witness_SubInfoReportsSubscription :
    Attached committed 1 ∧ (committed.stream 5).settings = none ∧ (committed.stream 3).settings ≠ none ∧
      committed.sub 3 1 = some (reader .active false 1) ∧ Attached committed 0 ∧ committed.sub 3 0 = none ∧
      (1 : Byte).toNat ≤ 1 :=
  ⟨reader_attached, by decide +kernel, by decide +kernel, by decide +kernel, committed_attached, by decide +kernel,
    by decide⟩

theorem witness_TakeNoticesEmptiesQueue :
    Attached committed 1 ∧ 1 ≤ (1 : Byte).toNat ∧ (8 : Byte).toNat ≤ 8 ∧ committed.sub 3 0 = none ∧
      committed.sub 3 1 = some (reader .active false 1) ∧
      (reader .active false 1).unannounced < (reader .active false 1).arrivalBatch ∧
      (committed.setSub 3 1 (some (reader .active false 2))).sub 3 1 = some (reader .active false 2) ∧
      (reader .active false 2).arrivalBatch ≤ (reader .active false 2).unannounced ∧
      (committed.queue 1).records.length < 32 :=
  ⟨reader_attached, by decide, by decide, by decide +kernel, by decide +kernel, by decide, by decide +kernel, by decide,
    by decide +kernel⟩

theorem witness_PoolInfoCounts : Attached committed 0 := committed_attached

/-- Blocks 5 and 9 in quarantine, the first with three failures behind it. -/
def quarantined : State :=
  online.setPool
    { (online.pool.setBlock 5 { BlockRecord.powerOn with state := .quarantined, failed := true, scrubFailures := 3 }).setBlock
        9 { BlockRecord.powerOn with state := .quarantined, failed := true } with quarantine := [5, 9] }

theorem quarantined_list : quarantined.pool.quarantine = [5, 9] := rfl

theorem witness_ScrubTestsBatch :
    Attached online 0 ∧ online.pool.quarantine = [] ∧ Attached quarantined 0 ∧ quarantined.pool.quarantine ≠ [] ∧
      quarantined.pool.quarantine.Nodup ∧ 1 ≤ (1 : Byte).toNat ∧ (16 : Byte).toNat ≤ 16 ∧ MemoryCanonical quarantined :=
  ⟨online_attached, by decide +kernel, attached_of (by decide +kernel), by rw [quarantined_list]; decide,
    by rw [quarantined_list]; decide, by decide, by decide, by
      rw [MemoryCanonical, show quarantined.pool.bytes = [] by decide +kernel]
      exact Memory.wf_empty⟩

theorem online_alive (p : Port) : LinkAlive online p := by
  refine ⟨by decide, ?_⟩
  revert p
  decide +kernel

/-- Port 0's PRSTn is asserted. -/
def held : State := online.setPins 0 { csLow := false, prstAsserted := true }

theorem held_dead : ¬LinkAlive held 0 := by
  rintro ⟨_, h⟩
  revert h
  decide +kernel

/-- Port 1 after its TAKE_NOTICES, which has emptied its queue. -/
def noticesTaken : State := after (.takeNotices 1 1 [8] []) committed

/-- R126: a TAKE_NOTICES that empties the queue, under both mask bits: ATTn stays asserted through its response. -/
theorem test_take_notices_keeps_attn :
    committed.attnAsserted 1 = true ∧ (noticesTaken.queue 1).records = [] ∧ noticesTaken.attnAsserted 1 = true ∧
      noticesTaken.linkByte 1 = 0xA6 ∧ (after .commandCompletion noticesTaken).attnAsserted 1 = true ∧
      (after .commandCompletion noticesTaken).linkByte 1 = 0xA3 := by decide +kernel

theorem notices_show : NoticeShows committed 1 := .inl (by decide +kernel)

theorem notices_hidden : ¬NoticeShows online 0 := by
  rintro (h | ⟨r, e, h, _⟩)
  · exact h (by decide +kernel)
  · rw [show (online.link 0).state = .idle by decide +kernel] at h
    cases h

theorem witness_FallDecidesTransaction :
    ((inTransaction online).pinsOf 0).csLow = true ∧ (held.pinsOf 0).csLow = false ∧ ¬LinkAlive held 0 ∧
      (online.pinsOf 0).csLow = false ∧ LinkAlive online 0 ∧ ¬NoticeShows online 0 ∧
      (committed.pinsOf 1).csLow = false ∧ LinkAlive committed 1 ∧ NoticeShows committed 1 :=
  ⟨by decide +kernel, by decide +kernel, held_dead, by decide +kernel, online_alive 0, notices_hidden,
    by decide +kernel, ⟨by decide, by decide +kernel⟩, notices_show⟩

/-- A response with a payload byte. -/
def response : Response :=
  { id := 7, flags := LinkFlags.clear, reply := { status := .ok, result := [1, 2], payload := [3] }, crc := 0 }

theorem witness_FrameLayouts :
    ({ linkByte := 0xA0, response := none } : Transaction).response = none ∧
      ({ linkByte := 0xA3, response := some response } : Transaction).response = some response ∧
      (List.replicate 16 (0 : Byte)).length ≤ 16 ∧ (List.replicate 256 (0 : Byte)).length ≤ 256 := by decide +kernel

theorem witness_RiseJudgesFrame :
    (online.pinsOf 0).csLow = false ∧
      ((online.setPins 0 { csLow := true, prstAsserted := false }).pinsOf 0).csLow = true ∧
      ((online.setPins 0 { csLow := true, prstAsserted := false }).link 0).transaction = none ∧
      ((inTransaction online).pinsOf 0).csLow = true ∧
      ((inTransaction online).link 0).transaction = some { linkByte := 0xA0, response := none } := by decide +kernel

theorem witness_FrameCarriesCommand :
    LinkAlive (inTransaction online) 0 ∧ ((inTransaction online).pinsOf 0).csLow = true ∧
      ((inTransaction online).link 0).transaction = some { linkByte := 0xA0, response := none } ∧
      namesNoCommand (some 0xFF) = true :=
  ⟨⟨by decide, by decide +kernel⟩, by decide +kernel, by decide +kernel, by decide⟩

/-- The response of port 0 has been placed. -/
def ready : State := online.setLink 0 { Link.powerOn with state := .ready response }

/-- The core executes for port 0 and a request of port 1 waits. -/
def contended : State := executing.setLink 1 { Link.powerOn with state := .waiting pingRequest, lastId := 1 }

theorem witness_GoodFrameByLinkState :
    (rowRequest (.ping 0 1 [] []) = some (0, pingRequest) ∧
      rowRequest (.attachResume 2 1 [0, 0, 3] []) =
        some (2, { id := 1, code := some 1, params := [1, 0, 0, 3], payload := [] }) ∧
      rowRequest (.badCommand 1 1 none [] []) = some (1, { id := 1, code := none, params := [], payload := [] }) ∧
      rowRequest (.append 0 1 [3] (List.replicate 257 0)) =
        some (0, { id := 1, code := some 0x23, params := [3], payload := List.replicate 257 0 })) ∧
    (ready.phase = .operating ∧ LinkAlive ready 0 ∧ (ready.pinsOf 0).csLow = false ∧
      (ready.link 0).state = .ready response) ∧
    (executing.phase = .operating ∧ LinkAlive executing 2 ∧ (executing.pinsOf 2).csLow = false ∧
      (executing.link 2).state = .idle ∧ executing.core ≠ none) ∧
    (LinkAlive contended 0 ∧ LinkAlive contended 1 ∧ (contended.link 0).state = .executing pingRequest ∧
      (contended.link 1).state = .waiting pingRequest ∧ contended.core ≠ none ∧ (contended.pinsOf 1).csLow = false) ∧
    (let s : State := { waiting with refclk := false }
     LinkAlive s 0 ∧ LinkAlive s 1 ∧ (s.link 0).state = .waiting pingRequest ∧ (s.link 1).state = .idle ∧
       s.core = none ∧ s.refclk = false) ∧
    (¬LinkAlive held 0 ∧ ((inTransaction online).pinsOf 0).csLow = true ∧ LinkAlive online 0 ∧
      256 < (List.replicate 257 (0 : Byte)).length) :=
  ⟨⟨rfl, rfl, rfl, rfl⟩, ⟨rfl, ⟨by decide, by decide +kernel⟩, by decide +kernel, by decide +kernel⟩,
    ⟨rfl, ⟨by decide, by decide +kernel⟩, by decide +kernel, by decide +kernel, by decide +kernel⟩,
    ⟨⟨by decide, by decide +kernel⟩, ⟨by decide, by decide +kernel⟩, by decide +kernel, by decide +kernel,
      by decide +kernel, by decide +kernel⟩,
    ⟨⟨by decide, by decide +kernel⟩, ⟨by decide, by decide +kernel⟩, by decide +kernel, by decide +kernel, rfl, rfl⟩,
    ⟨held_dead, by decide +kernel, online_alive 0, by decide⟩⟩

theorem witness_NotReadyDuringPass :
    rowRequest (.ping 0 1 [] []) = some (0, pingRequest) ∧
      State.reset.phase = .initialising ∧ LinkAlive State.reset 0 ∧ (State.reset.pinsOf 0).csLow = false ∧
      (State.reset.link 0).state = .idle ∧
      (State.reset.setLink 0 { Link.powerOn with state := .ready response }).phase = .initialising ∧
      LinkAlive (State.reset.setLink 0 { Link.powerOn with state := .ready response }) 0 ∧
      ((State.reset.setLink 0 { Link.powerOn with state := .ready response }).link 0).state = .ready response :=
  ⟨rfl, rfl, ⟨by decide, by decide +kernel⟩, by decide +kernel, by decide +kernel, rfl, ⟨by decide, by decide +kernel⟩,
    by decide +kernel⟩

theorem witness_AttentionLine :
    Attached committed 1 ∧ (committed.link 1).discardMark = false ∧
      (committed.session 1).mask = { response := true, notice := true } ∧ (committed.queue 1).records ≠ [] ∧
      NoticeShows committed 1 ∧ ¬NoticeShows online 0 :=
  ⟨reader_attached, by decide +kernel, by decide +kernel, by decide +kernel, notices_show, notices_hidden⟩

/-- After the completion of `executing` nothing waits; after that of `contended` the first that waits is port 1, one place
after the pointer, and port 0 does not. -/
theorem witness_CompletionPlacesAndGrants :
    (online.core = none ∧ executing.phase = .operating ∧ executing.refclk = true ∧
      executing.core = some { port := 0, reply := { status := .ok, result := [0, 0, 0], payload := [] } }) ∧
    (∀ q : Port, ((executing.completeCommand
      { port := 0, reply := { status := .ok, result := [0, 0, 0], payload := [] } }).link q).isWaiting = false) ∧
    (let t := contended.completeCommand
       { port := 0, reply := { status := .ok, result := [0, 0, 0], payload := [] } }
     (t.link (contended.pointer + 1)).state = .waiting pingRequest ∧
       ∀ j < (1 : Fin 4), (t.link (contended.pointer + j)).isWaiting = false) := by decide +kernel

theorem witness_PortResetDetaches :
    ((after .refclkStop online).refclk = false ∧ (held.pinsOf 0).prstAsserted = true) ∧
      (({ online with phase := .inReset } : State).refclk = true ∧
        (({ online with phase := .inReset } : State).pinsOf 0).prstAsserted = false) ∧
      (committed.refclk = true ∧ (committed.pinsOf 1).prstAsserted = false ∧ committed.phase ≠ .inReset) := by
  decide +kernel

theorem witness_ResetAndPass :
    (after .refclkStop online).refclk = false ∧ online.refclk = true ∧
      ({ State.reset with phase := .inReset } : State).phase = .inReset ∧ online.phase ≠ .inReset ∧
      State.reset.refclk = true ∧ State.reset.phase = .initialising ∧
      (∀ q : Port, (State.reset.link q).isWaiting = false) := by decide +kernel

/-- The lease timer runs at 2 and the flush timer at 1; on port 1 both are IDLE. -/
def ticking : State := online.setSession 0 { attached with leaseTimer := .running 2, flushTimer := .running 1 }

theorem witness_TickLowersTimers :
    (after .refclkStop online).refclk = false ∧ ({ online with phase := .inReset } : State).phase = .inReset ∧
      ticking.refclk = true ∧ ticking.phase ≠ .inReset ∧ (ticking.session 0).leaseTimer = .running 2 ∧
      (ticking.session 0).flushTimer = .running 1 ∧ (ticking.session 1).leaseTimer = .idle ∧
      (ticking.session 1).flushTimer = .idle := by decide +kernel

theorem witness_StampRises :
    (after .refclkStop online).refclk = false ∧ online.refclk = true ∧ online.phase ≠ .inReset ∧
      ({ online with stamp := 16777215 } : State).stamp = 16777215 ∧ (∃ t, exec .tick online = .next t) :=
  ⟨by decide +kernel, rfl, by decide, rfl, _, rfl⟩

theorem witness_LeaseExpiryLapses :
    let s := claimed.setSession 0 { attached with leaseTimer := .expired }
    (s.refclk = true ∧ s.phase ≠ .inReset ∧ (s.session 0).leaseTimer = .expired) ∧
      (claimed.session 0).leaseTimer ≠ .expired ∧ (s.stream 3).claim = .held 0 ∧ (s.stream 5).claim ≠ .held 0 := by
  decide +kernel

/-- With one notice queued the two announcements fit; with 32 none does. -/
theorem witness_FlushExpiryAnnounces :
    (let s := readable .active (watching .expired)
     s.refclk = true ∧ s.phase ≠ .inReset ∧ (s.session 1).flushTimer = .expired ∧
       (s.queue 1).records.length + 2 ≤ 32 ∧ s.sub 3 1 = some (reader .active false 1)) ∧
    (let s := crowded (watching .expired)
     s.refclk = true ∧ s.phase ≠ .inReset ∧ (s.session 1).flushTimer = .expired ∧
       (s.queue 1).records.length = 32 ∧ s.sub 3 1 = some (reader .active false 1)) ∧
    (committed.session 1).flushTimer ≠ .expired := by decide +kernel

theorem witness_RefclkStopsTime :
    (after .refclkStop online).refclk = false ∧ (∀ q : Port, (online.link q).isWaiting = false) ∧
      waiting.phase = .operating ∧ waiting.core = none ∧
      (waiting.link (waiting.pointer + 0)).state = .waiting pingRequest ∧
      (∀ j < (0 : Fin 4), (waiting.link (waiting.pointer + j)).isWaiting = false) := by decide +kernel

theorem witness_PayloadBytesKept :
    TakesAtOnce online 0 ∧ (∃ t, exec (rowOf .ping 0 1 [] []) online = .next t) ∧
      (∃ t, exec (.attachResume 0 1 [0, 0, 1] []) online = .next t) ∧
      (∃ t, exec (.badCommand 0 1 none [] []) online = .next t) ∧ (∀ q : Port, (online.link q).isWaiting = false) ∧
      (∃ t, exec .tick online = .next t) ∧
      (∀ q : Port, ((inTransaction online).link q).isWaiting = false) ∧
      (∃ t, exec (.csRise 0 [0xFF] []) (inTransaction online) = .next t ∧ t.core = (inTransaction online).core) :=
  ⟨online_attached.atOnce, ⟨_, rfl⟩, ⟨_, rfl⟩, ⟨_, rfl⟩, by decide +kernel, ⟨_, rfl⟩, by decide +kernel,
    after (.csRise 0 [0xFF] []) (inTransaction online), rfl, by decide +kernel⟩

theorem witness_StepKeepsMemoryAndQueues :
    MemoryCanonical (queued (.append 0 1 [3] [4, 0, 5]) filled) ∧
      QueueBounds (queued (.append 0 1 [3] [4, 0, 5]) filled) ∧
      (∃ t, step (queued (.append 0 1 [3] [4, 0, 5]) filled) = .next t) :=
  ⟨filled_canonical, by unfold QueueBounds; decide +kernel, _, rfl⟩

theorem witness_StepKeepsPool :
    let s := queued (.openMessage 0 1 [3, 0, 100, 0, 9, 0] []) claimed
    PoolAccounts s.pool ∧ ChainsOwned s.pool ∧ ∃ t, step s = .next t := by
  have h : PoolSound claimed.pool := claimed_pool ▸ poolSound_powerOn
  exact ⟨h.accounts, h.chains, _, rfl⟩

theorem online_lawful : Lawful online :=
  lawful_powerOn (by simp only [online, idle, State.reset]) (fun i => get_replicate _ i)
    (fun i p => by
      change ((Vector.replicate 64 (Vector.replicate 4 none)).get i).get p = none
      rw [get_replicate, get_replicate])

/-- A stream that a port has defined and claimed. -/
theorem madeStream_lawful {s : State} (h : Lawful s) (i : StreamId) (x : Policy) (u : s.stream i = .undefined) :
    Lawful (s.setStream i (madeStream x (.held 0))) := by
  have d := define_lawful h i (made x) (by rw [u]; rfl)
  have c := setRecord_lawful d i (.held 0) none 0 0 (by simp [StreamRecord.fresh]) (fun e => by cases e)
    (fun k e => by cases e)
  simp only [State.setStream_stream_self, setStream_setStream] at c
  exact c

theorem witness_StepKeepsStreams :
    let s := queued (.openMessage 0 1 [3, 0, 100, 0, 9, 0] []) claimed
    PoolAccounts s.pool ∧ ChainsOwned s.pool ∧ StreamsLawful s ∧ ∃ t, step s = .next t := by
  have h : Lawful claimed := madeStream_lawful (madeStream_lawful online_lawful 3 .shed (get_replicate _ _)) 4 .hold
    (by
      rw [State.setStream_stream, if_neg (by decide)]
      exact get_replicate _ _)
  have q : Lawful (queued (.openMessage 0 1 [3, 0, 100, 0, 9, 0] []) claimed) :=
    lawful_of_tables h rfl (fun _ => rfl) (fun _ _ => rfl)
  obtain ⟨⟨a, b⟩, c⟩ := (lawful_iff _).mp q
  exact ⟨a, b, ⟨c, fun n => absurd rfl n⟩, _, rfl⟩

theorem claimed_agrees : SessionAgreement claimed := by
  have none : ∀ (i : StreamId) (p : Port), claimed.sub i p = none := by decide +kernel
  exact ⟨by decide +kernel, by decide +kernel, fun i p u h => (by simp [none i p] at h), by decide +kernel⟩

theorem claimed_timers (p : Port) : TimersInRange (claimed.session p) := by
  have e : claimed.session p = attached := by
    revert p
    decide +kernel
  rw [e]
  exact ⟨by decide, by decide, fun n h => (by simp [attached, Session.powerOn] at h),
    fun n h => (by simp [attached, Session.powerOn] at h), by decide, by decide, by decide⟩

theorem witness_StepKeepsSessions :
    let s := queued (.portReset 0) claimed
    SessionAgreement s ∧ (∀ p : Port, TimersInRange (s.session p)) ∧ ∃ t, step s = .next t :=
  ⟨⟨claimed_agrees.held_attached, claimed_agrees.stale_away, claimed_agrees.active_attached, claimed_agrees.counts_clear⟩,
    claimed_timers, _, rfl⟩

theorem contended_agrees : LinkCoreAgree contended := by
  have core : contended.core = some { port := 0, reply := { status := .ok, result := [0, 0, 0], payload := [] } } := rfl
  refine ⟨fun p h => ⟨_, core, ?_⟩, fun p h => ⟨_, core, ?_⟩, fun e h => ?_, fun h => ?_, fun h => absurd rfl h⟩
  · revert p
    decide +kernel
  · revert p
    decide +kernel
  · rw [core, Option.some.injEq] at h
    subst h
    decide +kernel
  · revert h
    decide +kernel

theorem witness_StepKeepsLinkCore :
    let s := queued .commandCompletion contended
    LinkCoreAgree s ∧ ∃ t, step s = .next t :=
  ⟨⟨contended_agrees.executing_core, contended_agrees.discard_core, contended_agrees.core_link,
    contended_agrees.granted_at_once, contended_agrees.quiet_outside⟩, _, rfl⟩

end Sys2Proof.Tests
end

section
/-! SUPPORT. The stream commands and the operations that release storage: DISSOLVE (R33, R34), the release of a message's
storage (R11), the removal of the oldest committed message (R29) and the abort of an assembly (R58). -/

namespace Sys2Proof.Proofs.Streams

open Sys2Proof.Machine Sys2Proof.Safety Sys2Proof.Laws

/-! ### Release of a message's storage (R11) -/

/-- A descriptor returned to its free list leaves the blocks and their lists. -/
@[simp] theorem returnDescriptor_block (q : Pool) (d : DescId) (b : BlockId) :
    (q.returnDescriptor d).block b = q.block b := rfl
@[simp] theorem returnDescriptor_freeBlocks (q : Pool) (d : DescId) :
    (q.returnDescriptor d).freeBlocks = q.freeBlocks := rfl
@[simp] theorem returnDescriptor_quarantine (q : Pool) (d : DescId) :
    (q.returnDescriptor d).quarantine = q.quarantine := rfl
@[simp] theorem returnDescriptor_freeDescriptors (q : Pool) (d : DescId) :
    (q.returnDescriptor d).freeDescriptors = q.freeDescriptors ++ [d] := rfl

/-- Descriptor `d` is STAGED or COMMITTED, as `x` says of its blocks, and its message has `count` blocks from `first` on. -/
def HoldsMessage (q : Pool) (d : DescId) (x : BlockState) (first : BlockId) (count : Nat) : Prop :=
  (∃ m, q.desc d = .staged m ∧ m.firstBlock = first ∧ m.blockCount = count ∧ x = .staged) ∨
    (∃ m, q.desc d = .committed m ∧ m.firstBlock = first ∧ m.blockCount = count ∧ x = .committed)

/-- Release of a message returns the blocks of its chain in chain order, then its descriptor. -/
theorem HoldsMessage.releaseMessage_eq {q : Pool} {d : DescId} {x : BlockState} {first : BlockId} {count : Nat}
    (h : HoldsMessage q d x first count) :
    q.releaseMessage d = ((q.chain first count).foldl Pool.returnBlock q).returnDescriptor d := by
  obtain ⟨m, e, rfl, rfl, -⟩ | ⟨m, e, rfl, rfl, -⟩ := h <;> simp only [Pool.releaseMessage, e]

/-- The blocks in the chain of a staged or committed message are held. -/
theorem HoldsMessage.blocks_held {q : Pool} {d : DescId} {x : BlockState} {first : BlockId} {count : Nat}
    (h : HoldsMessage q d x first count) (k : ChainOf q d x first count) :
    ∀ b ∈ q.chain first count, (q.block b).isHeld := by
  intro b hb
  rw [BlockRecord.isHeld, k.blocks_state b hb]
  obtain ⟨-, -, -, -, rfl⟩ | ⟨-, -, -, -, rfl⟩ := h
  · exact .inl rfl
  · exact .inr rfl

/-- Release of a message: every block of its chain is returned, and no other block changes. -/
theorem releaseMessage_block {q : Pool} {d : DescId} {x : BlockState} {first : BlockId} {count : Nat}
    (h : HoldsMessage q d x first count) (k : ChainOf q d x first count) (b : BlockId) :
    (q.releaseMessage d).block b = if b ∈ q.chain first count then (q.block b).returned else q.block b := by
  obtain ⟨block, -, -⟩ := Pool.returnBlocks_held _ q k.blocks_once (h.blocks_held k)
  rw [h.releaseMessage_eq, returnDescriptor_block, block]

/-- Release of a message: the unfailed blocks of its chain join the free list and the failed ones the quarantine list, each
in chain order. -/
theorem releaseMessage_lists {q : Pool} {d : DescId} {x : BlockState} {first : BlockId} {count : Nat}
    (h : HoldsMessage q d x first count) (k : ChainOf q d x first count) :
    (q.releaseMessage d).freeBlocks =
        q.freeBlocks ++ (q.chain first count).filter (fun b => !(q.block b).failed) ∧
      (q.releaseMessage d).quarantine =
        q.quarantine ++ (q.chain first count).filter (fun b => (q.block b).failed) := by
  obtain ⟨-, free, quarantine⟩ := Pool.returnBlocks_held _ q k.blocks_once (h.blocks_held k)
  rw [h.releaseMessage_eq, returnDescriptor_freeBlocks, returnDescriptor_quarantine]
  exact ⟨free, quarantine⟩

/-- Release of a message: its descriptor joins the back of the descriptor free list. -/
theorem releaseMessage_freeDescriptors {q : Pool} {d : DescId} {x : BlockState} {first : BlockId} {count : Nat}
    (h : HoldsMessage q d x first count) : (q.releaseMessage d).freeDescriptors = q.freeDescriptors ++ [d] := by
  obtain ⟨-, -, freeDescriptors⟩ := Pool.returnBlocks_kept (q.chain first count) q
  rw [h.releaseMessage_eq, returnDescriptor_freeDescriptors, freeDescriptors]

/-! ### Abort of an assembly (R58) -/

/-- Abort leaves a stream without an assembly as it is. -/
theorem abortAssembly_of_none {s : State} {i : StreamId} (a : (s.stream i).assembly = none) : s.abortAssembly i = s := by
  simp only [State.abortAssembly, a]

/-- What abort of an assembly writes. -/
theorem abortAssembly_eq {s : State} {i : StreamId} {d : DescId} {m : StagedMessage}
    (a : (s.stream i).assembly = some d) (e : s.pool.desc d = .staged m) :
    s.abortAssembly i = (s.setPool (s.pool.releaseMessage d)).setStream i
      { s.stream i with assembly := none, heldBlocks := (s.stream i).heldBlocks - m.blockCount } := by
  simp only [State.abortAssembly, a, e]

/-- Settles O25: the release through the return of the chain's blocks, the removal and the abort by their equations. -/
theorem storageReleases : Obligations.StorageReleases := by
  unfold Obligations.StorageReleases
  refine ⟨fun q d x first count h k => ?_, fun s i d m o e => ?_,
    fun s i => ⟨abortAssembly_of_none, fun d m => abortAssembly_eq⟩⟩
  · have h : HoldsMessage q d x first count := h
    obtain ⟨free, quarantine⟩ := releaseMessage_lists h k
    refine ⟨free, quarantine, releaseMessage_freeDescriptors h, ?_, fun e ne => ?_, fun b hb => ?_, fun b hb => ?_,
      releaseMessage_bytes q d⟩
    · rw [releaseMessage_desc, if_pos rfl]
    · rw [releaseMessage_desc, if_neg (Ne.symm ne)]
    · rw [releaseMessage_block h k, if_pos hb, BlockRecord.returned]
    · rw [releaseMessage_block h k, if_neg hb]
  · simp only [removeOldest_eq o e, Option.isNone_iff_eq_none]

/-! ### DISSOLVE (R33, R34) -/

/-- R55: no subscription of a stream is present exactly when every slot of it is ABSENT. -/
theorem presentCount_eq_zero (s : State) (i : StreamId) : s.presentCount i = 0 ↔ ∀ q : Port, s.sub i q = none := by
  simp [State.presentCount, allPorts]

/-- R33: a stream is in use exactly when it has a claim or a present subscription. -/
theorem streamInUse_iff (s : State) (i : StreamId) :
    s.streamInUse i = true ↔ (s.stream i).claim ≠ .none ∨ ∃ q : Port, s.sub i q ≠ none := by
  simp only [State.streamInUse, Bool.or_eq_true, bne_iff_ne, ne_eq, presentCount_eq_zero, not_forall]

/-- R33: DISSOLVE of an UNDEFINED stream is refused. -/
theorem runDissolve_undefined {r : Request} {s : State} {i : StreamId} (p : Port) (a : r.streamArg = some i)
    (u : (s.stream i).settings = none) : runDissolve p r s = (s, refusal .noStream) := by
  simp [runDissolve, a, not_defined u, replyStatus, refusal]

/-- R33: DISSOLVE of a stream in use is refused. -/
theorem runDissolve_inUse {r : Request} {s : State} {i : StreamId} (p : Port) (a : r.streamArg = some i)
    (u : (s.stream i).settings ≠ none) (b : s.streamInUse i = true) :
    runDissolve p r s = (s, refusal .inUse) := by
  simp [runDissolve, a, defined_of_ne u, b, replyStatus, refusal]

/-- R34: DISSOLVE of a DEFINED stream that is not in use. -/
theorem runDissolve_passes {r : Request} {s : State} {i : StreamId} (p : Port) (a : r.streamArg = some i)
    (u : (s.stream i).settings ≠ none) (b : ¬s.streamInUse i = true) :
    runDissolve p r s = (s.dissolveStream i, refusal .ok) := by
  simp [runDissolve, a, defined_of_ne u, b, replyStatus, refusal]

/-- What the row of a command of an ATTACHED port, taken at once, answers, from what the command answers on the tables. -/
theorem exec_attached_of_run {s t : State} {p : Port} {c : Command} {id : Byte} {params payload : List Byte} {reply : Reply}
    (h : Attached s p) (fits : (requestOf c id params payload).params.length ≤ 16 ∧ payload.length ≤ 256)
    (run : runCommand c p (requestOf c id params payload) (taken s p (requestOf c id params payload)) = (t, reply)) :
    exec (rowOf c p id params payload) s = .next (answered t p reply) := by
  rw [exec_attached h c id params payload fits, run]

/-- Settles O12, by the three outcomes of DISSOLVE on the state in which it acts. -/
theorem dissolveEmptiesStream : Obligations.DissolveEmptiesStream := by
  unfold Obligations.DissolveEmptiesStream
  intro s p id i h r inUse
  have arg : r.streamArg = some i := streamArg_good i id _
  have fits : r.params.length ≤ 16 ∧ r.payload.length ≤ 256 := by simp [r]
  have used : (taken s p r).streamInUse i = true ↔ inUse := streamInUse_iff (taken s p r) i
  refine ⟨fun u => ?_, fun u b => ?_, fun u b => ?_⟩
  · exact exec_attached_of_run (c := .dissolve) h fits (runDissolve_undefined p arg u)
  · exact exec_attached_of_run (c := .dissolve) h fits (runDissolve_inUse p arg u (used.mpr b))
  · exact exec_attached_of_run (c := .dissolve) h fits (runDissolve_passes p arg u (fun c => b (used.mp c)))

end Sys2Proof.Proofs.Streams
end

section
/-! SUPPORT. The takeover of a STALE claim (R40) and the loss that its holder is told of (R41). -/

namespace Sys2Proof.Proofs.Claims

open Sys2Proof.Machine Sys2Proof.Safety Sys2Proof.Laws Sys2Proof.Proofs.Streams

/-! ### What an abort leaves (R58) -/

/-- Abort of an assembly leaves the sessions. -/
@[simp] theorem abortAssembly_session (s : State) (i : StreamId) (q : Port) :
    (s.abortAssembly i).session q = s.session q := by
  rw [abortAssembly_kept]
  rfl

/-- Abort of an assembly leaves its stream's numbering. -/
@[simp] theorem abortAssembly_nextSeq (s : State) (i : StreamId) :
    ((s.abortAssembly i).stream i).nextSeq = (s.stream i).nextSeq := by
  rw [(abortAssembly_stream s i).2]

/-! ### Takeover (R40, R41) -/

/-- R40: the state once port `p` has taken the claim of stream `i`, before the loss is counted: the assembly aborted, the need
cleared, the claim HELD by `p`. -/
def claimMoved (s : State) (i : StreamId) (p : Port) : State :=
  (s.abortAssembly i).setStream i { (s.abortAssembly i).stream i with starvedNeed := none, claim := .held p }

@[simp] theorem claimMoved_session (s : State) (i : StreamId) (p q : Port) :
    (claimMoved s i p).session q = s.session q := by
  simp [claimMoved]

@[simp] theorem claimMoved_nextSeq (s : State) (i : StreamId) (p : Port) :
    ((claimMoved s i p).stream i).nextSeq = (s.stream i).nextSeq := by
  simp [claimMoved]

/-- R41: the notice that tells of the claim that port `p` has taken, from the stream before the takeover. -/
def claimLostNotice (i : StreamId) (x : StreamRecord) (p : Port) : Notice :=
  { kind := .claimLost, stream := i, sequence := x.nextSeq, count := if x.assembly = none then 0 else 1,
    aux := BitVec.ofNat 16 p.val }

/-- R41: the loss, told in the terms of the state before the takeover. -/
theorem loseClaim_claimMoved (s : State) (i : StreamId) (q p : Port) :
    (claimMoved s i p).loseClaim i q p (s.stream i).assembly.isSome =
      ((claimMoved s i p).setSession q { s.session q with claimsLost := (s.session q).claimsLost + 1 }).post q
        (claimLostNotice i (s.stream i) p) := by
  have lost : (if (s.stream i).assembly.isSome then 1 else 0 : BitVec 16) =
      if (s.stream i).assembly = none then 0 else 1 := by
    cases (s.stream i).assembly <;> simp
  simp only [State.loseClaim, claimLostNotice, claimMoved_session, claimMoved_nextSeq, lost]

/-- R40: the takeover by port `p` of the claim of port `q`, in the terms of the state before it. -/
theorem takeover_eq (s : State) (i : StreamId) (q p : Port) :
    s.takeover i q p = State.reevaluateAfter s.pool
      (((claimMoved s i p).setSession q { s.session q with claimsLost := (s.session q).claimsLost + 1 }).post q
        (claimLostNotice i (s.stream i) p)) := by
  rw [← loseClaim_claimMoved, claimMoved, State.takeover]

/-- R39, R40: CLAIM with the takeover flag, of a STALE claim, is a takeover. -/
theorem runClaim_takeover {r : Request} {s : State} {i : StreamId} {q : Port} (p : Port)
    (a : r.streamFlagArgs = some { stream := i, flag := true }) (u : (s.stream i).settings ≠ none)
    (c : (s.stream i).claim = .stale q) : runClaim p r s = (s.takeover i q p, refusal .ok) := by
  simp [runClaim, a, defined_of_ne u, c, replyStatus, refusal]

/-- Settles O15: the command is a takeover on the state in which the request acts, where the session of the port that loses
the claim is as before. -/
theorem takeoverMovesClaim : Obligations.TakeoverMovesClaim := by
  unfold Obligations.TakeoverMovesClaim
  intro s p q id i h ne u c r aborted moved counted noticed
  have arg : r.streamFlagArgs = some { stream := i, flag := true } := streamFlagArgs_good i 0x01 id _ (by decide)
  have told : (taken s p r).takeover i q p = State.reevaluateAfter s.pool noticed := by
    rw [takeover_eq, taken_session_ne s p q r ne, taken_pool, taken_stream]
    rfl
  rw [← told]
  exact exec_attached_of_run (c := .claim) h (by simp [requestOf]) (runClaim_takeover p arg u c)

end Sys2Proof.Proofs.Claims
end

section
/-! SUPPORT. The subscription commands: JOIN (R85 to R88), LEAVE and EVICT (R91 to R93), RELEASE (R99, R100) and SUB_INFO
(R103, R104). Each has one equation per outcome of its rule, on the state in which the request acts. -/

namespace Sys2Proof.Proofs.Subscriptions

open Sys2Proof.Machine Sys2Proof.Safety Sys2Proof.Laws Sys2Proof.Proofs.Streams

/-! ### The unread count (R81) -/

/-- The unread count as a 16-bit field is the difference of the sequences. -/
@[simp] theorem ofNat_unread (x : StreamRecord) (u : Subscription) :
    BitVec.ofNat 16 (unread x u) = x.nextSeq - u.cursor := by
  rw [unread, BitVec.ofNat_toNat, BitVec.setWidth_eq]

/-- The unread count as the results carry it. -/
@[simp] theorem byte2_unread (x : StreamRecord) (u : Subscription) :
    byte2 (unread x u) = bytes16 (x.nextSeq - u.cursor) := by
  rw [byte2, ofNat_unread]

/-- A 16-bit word counts nothing exactly when it is the word 0. -/
theorem toNat_eq_zero_iff (x : Seq) : x.toNat = 0 ↔ x = 0 := by
  rw [BitVec.toNat_eq]
  rfl

/-- Nothing is unread exactly when the cursor is the next sequence. -/
theorem unread_eq_zero_iff (x : StreamRecord) (u : Subscription) : unread x u = 0 ↔ x.nextSeq = u.cursor := by
  rw [unread, toNat_eq_zero_iff, sub_eq_zero]

/-- The cursor and the unread count, as JOIN and RELEASE report them. -/
theorem cursorFields_eq (x : StreamRecord) (u : Subscription) :
    cursorFields x u = bytes16 u.cursor ++ bytes16 (x.nextSeq - u.cursor) := by
  rw [cursorFields, byte2_unread]

/-- The cursor and the unread count of a subscription with nothing unread. -/
theorem cursorFields_of_caughtUp {x : StreamRecord} {u : Subscription} (h : x.nextSeq = u.cursor) :
    cursorFields x u = bytes16 u.cursor ++ [0, 0] := by
  rw [cursorFields_eq, h, sub_self]
  rfl

/-! ### JOIN (R85 to R88) -/

/-- R85: JOIN of an UNDEFINED stream is refused. -/
theorem runJoin_undefined (s : State) (p : Port) {r : Request} {a : JoinArgs} (arg : r.joinArgs = some a)
    (d : (s.stream a.stream).settings = none) : runJoin p r s = (s, refusal .noStream) := by
  simp [runJoin, arg, not_defined d, replyStatus, refusal]

/-- R85: JOIN is refused where the port's subscription is present. -/
theorem runJoin_present (s : State) (p : Port) {r : Request} {a : JoinArgs} (arg : r.joinArgs = some a)
    (d : (s.stream a.stream).settings ≠ none) (h : s.sub a.stream p ≠ none) :
    runJoin p r s = (s, refusal .alreadySubscribed) := by
  simp [runJoin, arg, defined_of_ne d, Option.isSome_iff_ne_none.mpr h, replyStatus, refusal]

/-- R86: JOIN of a DEFINED stream where the port's subscription is absent. -/
theorem runJoin_passes (s : State) (p : Port) {r : Request} {a : JoinArgs} (arg : r.joinArgs = some a)
    (d : (s.stream a.stream).settings ≠ none) (h : s.sub a.stream p = none) : runJoin p r s = s.joinStream p a := by
  simp [runJoin, arg, defined_of_ne d, h]

/-- R88: a subscription created at NEXT has nothing unread, and the pool stays. -/
theorem joinStream_next (s : State) (p : Port) {a : JoinArgs} (h : a.atNext = true) :
    s.joinStream p a =
      (s.setSub a.stream p (some (Subscription.fresh (s.stream a.stream).nextSeq a.lagMark a.batch)),
        { status := .ok, result := bytes16 (s.stream a.stream).nextSeq ++ [0, 0], payload := [] }) := by
  have fields : cursorFields (s.stream a.stream) (.fresh (s.stream a.stream).nextSeq a.lagMark a.batch) =
      bytes16 (s.stream a.stream).nextSeq ++ [0, 0] := cursorFields_of_caughtUp rfl
  simp only [State.joinStream, h, if_true, fields, replyFields]
  rfl

/-- R87: a subscription created at OLDEST counts every committed message of the stream. -/
theorem joinStream_oldest (s : State) (p : Port) {a : JoinArgs} (h : a.atNext = false) :
    s.joinStream p a =
      ((s.setPool (s.pool.raiseReaders (s.messages a.stream))).setSub a.stream p
          (some (Subscription.fresh (s.stream a.stream).oldestSeq a.lagMark a.batch)),
        { status := .ok
          result := bytes16 (s.stream a.stream).oldestSeq ++
            bytes16 ((s.stream a.stream).nextSeq - (s.stream a.stream).oldestSeq)
          payload := [] }) := by
  simp only [State.joinStream, h, Bool.false_eq_true, if_false, cursorFields_eq, replyFields, Subscription.fresh]

/-- Settles O31, by the two refusals of JOIN and its two starts. -/
theorem joinCreatesSubscription : Obligations.JoinCreatesSubscription := by
  unfold Obligations.JoinCreatesSubscription
  intro s p id i start l1 l0 batch h params r fresh hstart hlag hmin hmax
  have fits : r.params.length ≤ 16 ∧ r.payload.length ≤ 256 := by simp [r, params]
  have lag : paramWord params 2 = (word16 l1 l0).toNat := paramWord_eq params 2
  have arg : r.joinArgs = some { stream := i, atNext := decide (start.toNat = 1), lagMark := paramWord params 2,
                                 batch := batch.toNat } := by
    rw [lag] at hlag ⊢
    exact joinArgs_good i start l1 l0 batch id _ hstart hlag hmin hmax
  refine ⟨fun d => ?_, fun d present => ?_, fun d absent e => ?_, fun d absent e => ?_⟩
  · exact exec_attached_of_run (c := .join) h fits (runJoin_undefined (taken s p r) p arg d)
  · exact exec_attached_of_run (c := .join) h fits (runJoin_present (taken s p r) p arg d present)
  · exact exec_attached_of_run (c := .join) h fits
      ((runJoin_passes (taken s p r) p arg d absent).trans (joinStream_next (taken s p r) p (by simp [e])))
  · exact exec_attached_of_run (c := .join) h fits
      ((runJoin_passes (taken s p r) p arg d absent).trans (joinStream_oldest (taken s p r) p (by simp [e])))

/-! ### LEAVE (R91) -/

/-- R91: LEAVE of an UNDEFINED stream is refused. -/
theorem runLeave_undefined (s : State) (p : Port) {r : Request} {i : StreamId} (arg : r.streamArg = some i)
    (d : (s.stream i).settings = none) : runLeave p r s = (s, refusal .noStream) := by
  simp [runLeave, arg, not_defined d, replyStatus, refusal]

/-- R91: LEAVE is refused where the port's subscription is absent. -/
theorem runLeave_absent (s : State) (p : Port) {r : Request} {i : StreamId} (arg : r.streamArg = some i)
    (d : (s.stream i).settings ≠ none) (h : s.sub i p = none) : runLeave p r s = (s, refusal .notSubscribed) := by
  simp [runLeave, arg, defined_of_ne d, h, replyStatus, refusal]

/-- R91: LEAVE of a present subscription. -/
theorem runLeave_passes (s : State) (p : Port) {r : Request} {i : StreamId} {u : Subscription}
    (arg : r.streamArg = some i) (d : (s.stream i).settings ≠ none) (h : s.sub i p = some u) :
    runLeave p r s =
      (State.reevaluateAfter s.pool ((s.dropSub i p).retirementCheck i),
        { status := .ok, result := bytes16 ((s.stream i).nextSeq - u.cursor), payload := [] }) := by
  simp [runLeave, arg, defined_of_ne d, h, State.leaveStream, replyFields]

/-! ### EVICT (R92, R93) -/

/-- R92: EVICT on an UNDEFINED stream is refused. -/
theorem runEvict_undefined (s : State) (p : Port) {r : Request} {a : EvictArgs} (arg : r.evictArgs = some a)
    (d : (s.stream a.stream).settings = none) : runEvict p r s = (s, refusal .noStream) := by
  simp [runEvict, arg, not_defined d, replyStatus, refusal]

/-- R92: EVICT of an absent subscription is refused. -/
theorem runEvict_absent (s : State) (p : Port) {r : Request} {a : EvictArgs} (arg : r.evictArgs = some a)
    (d : (s.stream a.stream).settings ≠ none) (h : s.sub a.stream a.port = none) :
    runEvict p r s = (s, refusal .notSubscribed) := by
  simp [runEvict, arg, defined_of_ne d, h, replyStatus, refusal]

/-- R92: EVICT of an ACTIVE subscription is refused. -/
theorem runEvict_active (s : State) (p : Port) {r : Request} {a : EvictArgs} {u : Subscription}
    (arg : r.evictArgs = some a) (d : (s.stream a.stream).settings ≠ none) (h : s.sub a.stream a.port = some u)
    (active : u.state = .active) : runEvict p r s = (s, refusal .notLapsed) := by
  simp [runEvict, arg, defined_of_ne d, h, active, replyStatus, refusal]

/-- R93: EVICT of a LAPSED subscription. -/
theorem runEvict_lapsed (s : State) (p : Port) {r : Request} {a : EvictArgs} {u : Subscription}
    (arg : r.evictArgs = some a) (d : (s.stream a.stream).settings ≠ none) (h : s.sub a.stream a.port = some u)
    (lapsed : u.state = .lapsed) :
    runEvict p r s =
      (s.evictSub a.stream a.port p u,
        { status := .ok, result := bytes16 ((s.stream a.stream).nextSeq - u.cursor), payload := [] }) := by
  simp [runEvict, arg, defined_of_ne d, h, lapsed, replyFields]

/-- Removal of a subscription leaves the sessions. -/
@[simp] theorem dropSub_session (s : State) (i : StreamId) (p q : Port) : (s.dropSub i p).session q = s.session q := by
  rw [dropSub_kept]
  rfl

/-- R93: eviction by port `p` of port `q`'s subscription, in the terms of the state before it. -/
theorem evictSub_eq (s : State) (i : StreamId) (q p : Port) (u : Subscription) :
    s.evictSub i q p u = State.reevaluateAfter s.pool
      ((((s.dropSub i q).setSession q { s.session q with evicted := (s.session q).evicted + 1 }).post q
        { kind := .evicted, stream := i, sequence := u.cursor, count := (s.stream i).nextSeq - u.cursor,
          aux := BitVec.ofNat 16 p.val }).retirementCheck i) := by
  simp only [State.evictSub, State.noteEviction, dropSub_session, ofNat_unread]

/-- Settles O32, by the outcomes of the two commands on the state in which the request acts, where the session of the port
that is evicted is as before. -/
theorem leaveAndEvict : Obligations.LeaveAndEvict := by
  unfold Obligations.LeaveAndEvict
  constructor
  · intro s p id i h r
    have fits : r.params.length ≤ 16 ∧ r.payload.length ≤ 256 := by simp [r]
    have arg : r.streamArg = some i := streamArg_good i id _
    refine ⟨fun d => ?_, fun d absent => ?_, fun u d present => ?_⟩
    · exact exec_attached_of_run (c := .leave) h fits (runLeave_undefined (taken s p r) p arg d)
    · exact exec_attached_of_run (c := .leave) h fits (runLeave_absent (taken s p r) p arg d absent)
    · exact exec_attached_of_run (c := .leave) h fits (runLeave_passes (taken s p r) p arg d present)
  · intro s p q id i h params r
    have fits : r.params.length ≤ 16 ∧ r.payload.length ≤ 256 := by simp [r, params]
    have arg : r.evictArgs = some { stream := i, port := q } := evictArgs_good i q id _
    refine ⟨fun d => ?_, fun d absent => ?_, fun u d present active => ?_, fun u d present lapsed ne => ?_⟩
    · exact exec_attached_of_run (c := .evict) h fits (runEvict_undefined (taken s p r) p arg d)
    · exact exec_attached_of_run (c := .evict) h fits (runEvict_absent (taken s p r) p arg d absent)
    · exact exec_attached_of_run (c := .evict) h fits (runEvict_active (taken s p r) p arg d present active)
    · intro dropped counted noticed
      have removed : (taken s p r).evictSub i q p u = State.reevaluateAfter s.pool (noticed.retirementCheck i) := by
        rw [evictSub_eq, taken_session_ne s p q r ne, taken_pool, taken_stream]
      have run := runEvict_lapsed (taken s p r) p arg d present lapsed
      simp only [removed, taken_stream] at run
      exact exec_attached_of_run (c := .evict) h fits run

/-! ### RELEASE (R99, R100) -/

/-- R99: RELEASE on an UNDEFINED stream is refused. -/
theorem runRelease_undefined (s : State) (p : Port) {r : Request} {a : ReleaseArgs} (arg : r.releaseArgs = some a)
    (d : (s.stream a.stream).settings = none) : runRelease p r s = (s, refusal .noStream) := by
  simp [runRelease, arg, not_defined d, replyStatus, refusal]

/-- R99: RELEASE is refused where the port's subscription is absent. -/
theorem runRelease_absent (s : State) (p : Port) {r : Request} {a : ReleaseArgs} (arg : r.releaseArgs = some a)
    (d : (s.stream a.stream).settings ≠ none) (h : s.sub a.stream p = none) :
    runRelease p r s = (s, refusal .notSubscribed) := by
  simp [runRelease, arg, defined_of_ne d, h, replyStatus, refusal]

/-- R99: RELEASE of another sequence than the cursor answers GONE. -/
theorem runRelease_gone (s : State) (p : Port) {r : Request} {a : ReleaseArgs} {u : Subscription}
    (arg : r.releaseArgs = some a) (d : (s.stream a.stream).settings ≠ none) (h : s.sub a.stream p = some u)
    (other : a.sequence ≠ u.cursor) :
    runRelease p r s =
      (s, { status := .gone, result := bytes16 u.cursor ++ bytes16 ((s.stream a.stream).nextSeq - u.cursor),
            payload := [] }) := by
  simp [runRelease, arg, defined_of_ne d, h, other, cursorFields_eq, replyFields]

/-- R99: RELEASE at the cursor with nothing unread answers NOTHING. -/
theorem runRelease_nothing (s : State) (p : Port) {r : Request} {a : ReleaseArgs} {u : Subscription}
    (arg : r.releaseArgs = some a) (d : (s.stream a.stream).settings ≠ none) (h : s.sub a.stream p = some u)
    (same : a.sequence = u.cursor) (caughtUp : (s.stream a.stream).nextSeq = u.cursor) :
    runRelease p r s = (s, { status := .nothing, result := bytes16 u.cursor ++ [0, 0], payload := [] }) := by
  simp [runRelease, arg, defined_of_ne d, h, same, (unread_eq_zero_iff _ _).mpr caughtUp,
    cursorFields_of_caughtUp caughtUp, replyFields]

/-- R100: RELEASE at the cursor with a message unread. -/
theorem runRelease_passes (s : State) (p : Port) {r : Request} {a : ReleaseArgs} {u : Subscription}
    (arg : r.releaseArgs = some a) (d : (s.stream a.stream).settings ≠ none) (h : s.sub a.stream p = some u)
    (same : a.sequence = u.cursor) (behind : (s.stream a.stream).nextSeq ≠ u.cursor) :
    runRelease p r s =
      (s.releaseCursor a.stream p u,
        { status := .ok,
          result := bytes16 (u.cursor + 1) ++ bytes16 ((s.stream a.stream).nextSeq - (u.cursor + 1)), payload := [] }) := by
  simp [runRelease, arg, defined_of_ne d, h, same, (unread_eq_zero_iff _ _).not.mpr behind, cursorFields_eq, replyFields]

/-- R120: the re-arm sets the lag-armed flag and nothing else. -/
theorem rearmLag_eq (u : Subscription) (left : Nat) :
    u.rearmLag left = { u with lagArmed := u.lagArmed || (u.lagMark ≠ 0 && left ≤ u.lagMark / 2) } := by
  by_cases c : u.lagMark ≠ 0 ∧ left ≤ u.lagMark / 2
  · simp [Subscription.rearmLag, c]
  · have stays : (u.lagMark ≠ 0 && left ≤ u.lagMark / 2 : Bool) = false := by simpa using c
    rw [Subscription.rearmLag, if_neg c, stays, Bool.or_false]

/-- R100, steps 2 to 5: the subscription after its cursor's message is released, field by field. -/
theorem advance_eq (u : Subscription) (next : Seq) :
    u.advance next = { u with
      cursor := u.cursor + 1
      readOffset := 0
      damagedStop := false
      unannounced := if next - (u.cursor + 1) = 0 then 0 else u.unannounced
      lagArmed := u.lagArmed || (u.lagMark ≠ 0 && (next - (u.cursor + 1)).toNat ≤ u.lagMark / 2) } := by
  simp only [Subscription.advance, rearmLag_eq, toNat_eq_zero_iff]

/-- R25: the message at the cursor is found by its position. -/
theorem messageAt_cursor {s : State} {i : StreamId} {u : Subscription} {d : DescId} {m : CommittedMessage}
    (at_d : AtCursor s i u d m) : s.messageAt i u.cursor = some d := by
  have inside := at_d.position_held
  have holds : (s.stream i).holds u.cursor = true := by
    simp only [StreamRecord.holds, Bool.and_eq_true, decide_eq_true_eq]
    omega
  rw [State.messageAt, if_pos holds, at_d.found]

/-- R84: readers remaining of one committed message lowered by one. -/
theorem lowerReaders_one {q : Pool} {d : DescId} {m : CommittedMessage} (e : q.desc d = .committed m) :
    q.lowerReaders [d] = q.setDesc d (.committed { m with readers := m.readers - 1 }) := by
  simp only [Pool.lowerReaders, List.foldl_cons, List.foldl_nil, Pool.updateCommitted, e]

/-- R100: what giving up the message at the cursor does. -/
theorem releaseCursor_eq {s : State} {i : StreamId} {u : Subscription} {d : DescId} {m : CommittedMessage} (p : Port)
    (at_d : AtCursor s i u d m) :
    s.releaseCursor i p u = State.reevaluateAfter s.pool
      (((s.setPool (s.pool.setDesc d (.committed { m with readers := m.readers - 1 }))).setSub i p
        (some (u.advance (s.stream i).nextSeq))).retirementCheck i) := by
  simp only [State.releaseCursor, messageAt_cursor at_d, Option.toList_some, lowerReaders_one at_d.committed]

/-- Settles O35, by the answers of RELEASE in the order of R99, and for the release itself the equations of the message at
the cursor and of the advance. -/
theorem releaseAdvancesCursor : Obligations.ReleaseAdvancesCursor := by
  unfold Obligations.ReleaseAdvancesCursor
  intro s p id i s1 s0 h params r next
  have fits : r.params.length ≤ 16 ∧ r.payload.length ≤ 256 := by simp [r, params]
  have arg : r.releaseArgs = some { stream := i, sequence := s1 ++ s0 } := releaseArgs_good i s1 s0 id _
  refine ⟨fun d => ?_, fun d absent => ?_,
    fun u d present => ⟨fun other => ?_, fun same caughtUp => ?_, fun e m same at_e => ?_⟩⟩
  · exact exec_attached_of_run (c := .release) h fits (runRelease_undefined (taken s p r) p arg d)
  · exact exec_attached_of_run (c := .release) h fits (runRelease_absent (taken s p r) p arg d absent)
  · have run := runRelease_gone (taken s p r) p arg d present other
    simp only [taken_stream] at run
    exact exec_attached_of_run (c := .release) h fits run
  · exact exec_attached_of_run (c := .release) h fits (runRelease_nothing (taken s p r) p arg d present same caughtUp)
  · intro left advanced lowered
    have at_taken : AtCursor (taken s p r) i u e m := ⟨at_e.has_unread, at_e.position_held, at_e.found, at_e.committed⟩
    have released : (taken s p r).releaseCursor i p u = State.reevaluateAfter s.pool
        ((((taken s p r).setPool lowered).setSub i p (some advanced)).retirementCheck i) := by
      rw [releaseCursor_eq p at_taken, advance_eq, taken_pool, taken_stream]
    have run := runRelease_passes (taken s p r) p arg d present same at_e.has_unread
    simp only [released, taken_stream] at run
    exact exec_attached_of_run (c := .release) h fits run

/-! ### SUB_INFO (R103, R104) -/

/-- R103: SUB_INFO on an UNDEFINED stream is refused. -/
theorem runSubInfo_undefined (s : State) (p : Port) {r : Request} {a : StreamFlagArgs} (arg : r.streamFlagArgs = some a)
    (d : (s.stream a.stream).settings = none) : runSubInfo p r s = (s, refusal .noStream) := by
  simp [runSubInfo, arg, not_defined d, replyStatus, refusal]

/-- R103: SUB_INFO is refused where the port's subscription is absent. -/
theorem runSubInfo_absent (s : State) (p : Port) {r : Request} {a : StreamFlagArgs} (arg : r.streamFlagArgs = some a)
    (d : (s.stream a.stream).settings ≠ none) (h : s.sub a.stream p = none) :
    runSubInfo p r s = (s, refusal .notSubscribed) := by
  simp [runSubInfo, arg, defined_of_ne d, h, replyStatus, refusal]

/-- R103, R104: SUB_INFO of a present subscription. -/
theorem runSubInfo_passes (s : State) (p : Port) {r : Request} {a : StreamFlagArgs} {u : Subscription}
    (arg : r.streamFlagArgs = some a) (d : (s.stream a.stream).settings ≠ none) (h : s.sub a.stream p = some u) :
    runSubInfo p r s =
      (if a.flag = true then s.setSub a.stream p (some { u with lossTotal := 0 }) else s,
        { status := .ok, result := subInfoResult (s.stream a.stream) u, payload := [] }) := by
  simp [runSubInfo, arg, defined_of_ne d, h, replyFields]

/-- Five flags as a byte: the first has weight 1, each further one twice the weight of the one before. -/
theorem flagsByte_five (a b c d e : Bool) :
    flagsByte [a, b, c, d, e] = BitVec.ofNat 8 ((if a then 1 else 0) + (if b then 2 else 0) + (if c then 4 else 0) +
      (if d then 8 else 0) + (if e then 16 else 0)) := by
  revert a b c d e
  decide

/-- Table 9.5b: the state code of a present subscription. -/
theorem subStateCode_present (u : Subscription) : subStateCode (some u) = if u.state = .active then 1 else 2 := by
  cases e : u.state <;> simp [subStateCode, e]

/-- Table 9.5: the result of SUB_INFO, with its codes and flags written out. -/
theorem subInfoResult_eq (x : StreamRecord) (u : Subscription) :
    subInfoResult x u = byte1 (if u.state = .active then 1 else 2) ++ bytes16 u.cursor ++
      bytes16 (x.nextSeq - u.cursor) ++ byte2 u.readOffset ++
      byte1 ((if u.damagedStop then 1 else 0) + (if u.lostSinceRead then 2 else 0) +
        (if u.lossQueued then 4 else 0) + (if u.lagArmed then 8 else 0) + (if u.arrivalQueued then 16 else 0)) ++
      byte2 u.lossTotal ++ byte2 u.lagMark ++ byte1 u.arrivalBatch ++ byte2 u.unannounced := by
  rw [subInfoResult, byte2_unread, subStateCode_present, Subscription.flagsByte, flagsByte_five]
  rfl

/-- Settles O36, by the outcomes of SUB_INFO; its flag parameter is at most 1, so that it asks for the clearing exactly
when it is 1. -/
theorem subInfoReportsSubscription : Obligations.SubInfoReportsSubscription := by
  unfold Obligations.SubInfoReportsSubscription
  intro s p id i flag h hflag params r
  have fits : r.params.length ≤ 16 ∧ r.payload.length ≤ 256 := by simp [r, params]
  have arg : r.streamFlagArgs = some { stream := i, flag := decide (flag.toNat = 1) } :=
    streamFlagArgs_good i flag id _ hflag
  refine ⟨fun d => ?_, fun d absent => ?_, fun u d present => ?_⟩
  · exact exec_attached_of_run (c := .subInfo) h fits (runSubInfo_undefined (taken s p r) p arg d)
  · exact exec_attached_of_run (c := .subInfo) h fits (runSubInfo_absent (taken s p r) p arg d absent)
  · intro cleared
    have run := runSubInfo_passes (taken s p r) p arg d present
    simp only [decide_eq_true_eq, taken_stream, subInfoResult_eq] at run
    exact exec_attached_of_run (c := .subInfo) h fits run

end Sys2Proof.Proofs.Subscriptions
end

section
/-! SUPPORT. The session gate from a port that is not ATTACHED (R128), and PING (R145): one equation per outcome, on the
state in which the request acts. -/

namespace Sys2Proof.Proofs.Sessions

open Sys2Proof.Machine Sys2Proof.Safety Sys2Proof.Laws Sys2Proof.Proofs.Streams

/-! ### The session gate (R128) -/

/-- R128: from a DETACHED port the gate refuses a command that it does not pass, and nothing changes. -/
theorem takeCommand_detached {s : State} {p : Port} {c : Command} (r : Request)
    (detached : (s.session p).state = .detached) (stopped : c.passesAnyGate = false) :
    takeCommand c p r s = (s, refusal .notAttached) := by
  simp [takeCommand, detached, stopped, replyStatus, refusal]

/-- R128: from a LAPSED port the gate refuses a command that it does not pass, and nothing changes. -/
theorem takeCommand_lapsed {s : State} {p : Port} {c : Command} (r : Request)
    (lapsed : (s.session p).state = .lapsed) (stopped : c.passesAnyGate = false) :
    takeCommand c p r s = (s, refusal .lapsed) := by
  simp [takeCommand, lapsed, stopped, replyStatus, refusal]

/-- What the row of a command, taken at once from a port in any session state, answers, from what the gate and the command
answer on the state of the grant. -/
theorem exec_atOnce_of_take {s t : State} {p : Port} {c : Command} {id : Byte} {params payload : List Byte} {reply : Reply}
    (h : TakesAtOnce s p) (fits : (requestOf c id params payload).params.length ≤ 16 ∧ payload.length ≤ 256)
    (take : takeCommand c p (requestOf c id params payload) (granted s p (requestOf c id params payload)) = (t, reply)) :
    exec (rowOf c p id params payload) s = .next (answered t p reply) := by
  have named : (requestOf c id params payload).command = some c := command_of_code c _ _ _
  rw [exec_rowOf, presentRequest_atOnce h _ fits, takeRequest, named]
  simp only [take]

/-! ### PING (R145) -/

/-- R145: PING with parameter or payload bytes is refused. -/
theorem runPing_operands (s : State) (p : Port) {r : Request} (operands : r.params.length ≠ 0 ∨ r.payload ≠ []) :
    runPing p r s = (s, refusal .badArgument) := by
  rw [runPing, (noOperands_none r).mpr operands]
  rfl

/-- R145: PING without operands reports the stamp counter. -/
theorem runPing_passes (s : State) (p : Port) {r : Request} (params : r.params = []) (payload : r.payload = []) :
    runPing p r s = (s, { status := .ok, result := bytes24 s.stamp, payload := [] }) := by
  simp [runPing, noOperands, params, payload, replyFields]

/-- Settles O9: the gate refuses PING by the session state, and from an ATTACHED port PING has its two outcomes on the state
in which the request acts, whose stamp counter is as before. -/
theorem pingReportsStamp : Obligations.PingReportsStamp := by
  unfold Obligations.PingReportsStamp
  intro s p id params payload h paramsFit payloadFits r
  have fits : (requestOf .ping id params payload).params.length ≤ 16 ∧ payload.length ≤ 256 := ⟨paramsFit, payloadFits⟩
  refine ⟨fun detached => ?_, fun lapsed => ?_, fun attached operands => ?_, fun attached noParams noPayload => ?_⟩
  · exact exec_atOnce_of_take (c := .ping) h fits (takeCommand_detached r detached rfl)
  · exact exec_atOnce_of_take (c := .ping) h fits (takeCommand_lapsed r lapsed rfl)
  · have bad : r.params.length ≠ 0 ∨ r.payload ≠ [] := operands.imp_left List.length_eq_zero_iff.not.mpr
    exact exec_attached_of_run (c := .ping) ⟨h, attached⟩ fits (runPing_operands (taken s p r) p bad)
  · exact exec_attached_of_run (c := .ping) ⟨h, attached⟩ fits (runPing_passes (taken s p r) p noParams noPayload)

end Sys2Proof.Proofs.Sessions
end

section
/-! SUPPORT. What one step can do: every command and event is a chain of changes, each to one part of the state. What every
change keeps, every step keeps. -/

namespace Sys2Proof.Proofs.Steps

open Sys2Proof.Machine Sys2Proof.Safety Sys2Proof.Laws

/-! ### Changes -/

/-- One change that command or event `c` makes: to a link, the pins, the core, the pointer or REFCLK, by the request that the
core takes, or by the event itself. -/
inductive Change (c : Instr) : State → State → Prop where
  | link (s : State) (p : Port) (l : Link) : Change c s (s.setLink p l)
  | pins (s : State) (p : Port) (x : PortPins) : Change c s (s.setPins p x)
  | core (s : State) (e : Option Executing) : Change c s (s.setCore e)
  | pointer (s : State) (p : Port) : Change c s (s.setPointer p)
  | clock (s : State) (b : Bool) : Change c s { s with refclk := b }
  | request (s : State) (p : Port) (r : Request) (operating : s.phase = .operating) : Change c s (takeRequest p r s).1
  | portReset (s : State) (p : Port) (event : c = .portReset p) : Change c s ((s.lapseHoldings p).detachSession p)
  | enterReset (s : State) (event : c = .resetAssert) : Change c s s.enterReset
  | leaveReset (s : State) (event : c = .resetRelease) (inReset : s.phase = .inReset) : Change c s s.leaveReset
  | endPass (s : State) (event : c = .initPassEnd) (initialising : s.phase = .initialising) : Change c s s.endPass
  | microsecond (s : State) (event : c = .stampCounterRise) : Change c s s.microsecond
  | tick (s : State) (event : c = .tick) : Change c s s.tickAll
  | lapse (s : State) (p : Port) (event : c = .leaseExpiry p) : Change c s (s.lapsePort p)
  | flush (s : State) (p : Port) (event : c = .flushExpiry p) (expired : (s.session p).flushTimer = .expired) :
      Change c s (s.flushPort p)

/-- A chain of changes of one command or event. -/
abbrev Changes (c : Instr) : State → State → Prop := Relation.ReflTransGen (Change c)

/-! ### The arbiter and the links -/

/-- The grant of a request: the link, the pointer, the request on the tables, the core. -/
theorem changes_grant (c : Instr) {s : State} (operating : s.phase = .operating) (p : Port) (r : Request) :
    Changes c s (s.grant p r) :=
  (((Relation.ReflTransGen.single (.link s p _)).tail (.pointer _ (p + 1))).tail (.request _ p r operating)).tail
    (.core _ _)

/-- The core can be granted only in operation. -/
theorem operating_of_available {s : State} (h : s.coreAvailable = true) : s.phase = .operating := by
  simp only [State.coreAvailable, Bool.and_eq_true, decide_eq_true_eq] at h
  exact h.1.1

/-- What the arbiter does: it grants a WAITING link's request, or nothing. -/
theorem arbitrate_cases (s : State) :
    s.arbitrate = s ∨
      ∃ p r, s.coreAvailable = true ∧ (s.link p).state = .waiting r ∧ s.arbitrate = s.grant p r := by
  unfold State.arbitrate
  split
  next available =>
    split
    next => exact .inl rfl
    next p found =>
      split
      next r waits => exact .inr ⟨p, r, available, waits, rfl⟩
      next => exact .inl rfl
  next => exact .inl rfl

theorem changes_arbitrate (c : Instr) (s : State) : Changes c s s.arbitrate := by
  obtain same | ⟨p, r, available, -, granted⟩ := arbitrate_cases s
  · rw [same]
  · rw [granted]
    exact changes_grant c (operating_of_available available) p r

theorem changes_goodFrame (c : Instr) (s : State) (p : Port) (r : Request) : Changes c s (s.goodFrame p r) := by
  unfold State.goodFrame
  split
  · exact (Relation.ReflTransGen.single (.link s p _)).trans (changes_arbitrate c _)
  · exact (Relation.ReflTransGen.single (.link s p _)).tail (.link _ p _)
  · exact .refl

theorem changes_presentRequest (c : Instr) (s : State) (p : Port) (r : Request) :
    Changes c s (s.presentRequest p r) := by
  unfold State.presentRequest
  split
  · split
    · exact .single (.link s p _)
    · exact changes_goodFrame c s p r
  · exact .refl

/-! ### The edges of CSn -/

theorem changes_chipSelectFall (c : Instr) (s : State) (p : Port) : Changes c s (s.chipSelectFall p) := by
  unfold State.chipSelectFall
  split
  · exact .refl
  · have lowered : Changes c s (s.setPins p { s.pinsOf p with csLow := true }) := .single (.pins s p _)
    dsimp only
    split
    · exact lowered.tail (.link _ p _)
    · exact lowered

theorem changes_judgeReceived (c : Instr) (s : State) (p : Port) (j : Judgement) : Changes c s (s.judgeReceived p j) := by
  cases j with
  | noFrame => exact .refl
  | truncated => exact .single (.link s p _)
  | badcheck => exact .single (.link s p _)
  | good r => exact changes_goodFrame c s p r

theorem changes_chipSelectRise (c : Instr) (s : State) (p : Port) (received : List Byte) :
    Changes c s (s.chipSelectRise p received) := by
  unfold State.chipSelectRise
  split
  · have raised : Changes c s (s.setPins p { s.pinsOf p with csLow := false }) := .single (.pins s p _)
    dsimp only
    split
    · exact (raised.tail (.link _ p _)).trans (changes_judgeReceived c _ p _)
    · exact raised
  · exact .refl

/-! ### The other events -/

theorem changes_assertPrst (s : State) (p : Port) : Changes (.portReset p) s (s.assertPrst p) := by
  unfold State.assertPrst
  split
  · have asserted : Changes (.portReset p) s (s.setPins p { s.pinsOf p with prstAsserted := true }) := .single (.pins s p _)
    dsimp only
    split
    · exact asserted
    · exact (asserted.tail (.portReset _ p rfl)).tail (.link _ p _)
  · exact .refl

theorem changes_complete (c : Instr) (s : State) : Changes c s s.complete := by
  unfold State.complete
  split
  next e _ =>
    have completed : Changes c s (s.completeCommand e) := by
      unfold State.completeCommand
      split
      · exact (Relation.ReflTransGen.single (.link s e.port _)).tail (.core _ none)
      · exact (Relation.ReflTransGen.single (.link s e.port _)).tail (.core _ none)
    exact completed.trans (changes_arbitrate c _)
  next => exact .refl

/-- An event whose cause may not be there makes its changes or none. -/
theorem changes_ite {c : Instr} {s t : State} {b : Prop} [Decidable b] (h : b → Changes c s t) :
    Changes c s (if b then t else s) := by
  split
  next hb => exact h hb
  next => exact .refl

/-! ### Every command and event -/

/-- Every command and event answers a next state, which its changes lead to. -/
theorem exec_changes (c : Instr) (s : State) : ∃ t, exec c s = .next t ∧ Changes c s t := by
  cases row : rowRequest c with
  | some x => exact ⟨_, exec_of_rowRequest row s, changes_presentRequest c s x.1 x.2⟩
  | none =>
    cases c <;> simp only [rowRequest, reduceCtorEq] at row
    case csFall p => exact ⟨_, rfl, changes_chipSelectFall _ s p⟩
    case csRise p received lastBits => exact ⟨_, rfl, changes_chipSelectRise _ s p received⟩
    case portReset p => exact ⟨_, rfl, changes_assertPrst s p⟩
    case resetAssert => exact ⟨_, rfl, changes_ite fun _ => .single (.enterReset s rfl)⟩
    case resetRelease =>
      exact ⟨_, rfl, changes_ite fun b => .single (.leaveReset s rfl (by simp at b; exact b.2))⟩
    case initPassEnd =>
      refine ⟨_, rfl, changes_ite fun b => ?_⟩
      exact (Relation.ReflTransGen.single (.endPass s rfl (by simp at b; exact b.2))).trans (changes_arbitrate _ _)
    case tick => exact ⟨_, rfl, changes_ite fun _ => .single (.tick s rfl)⟩
    case leaseExpiry p => exact ⟨_, rfl, changes_ite fun _ => .single (.lapse s p rfl)⟩
    case flushExpiry p =>
      exact ⟨_, rfl, changes_ite fun b => .single (.flush s p rfl (by simp at b; exact b.2))⟩
    case commandCompletion => exact ⟨_, rfl, changes_ite fun _ => changes_complete _ s⟩
    case portResetRelease p => exact ⟨_, rfl, changes_ite fun _ => .single (.pins s p _)⟩
    case stampCounterRise => exact ⟨_, rfl, changes_ite fun _ => .single (.microsecond s rfl)⟩
    case refclkStop => exact ⟨_, rfl, .single (.clock s false)⟩
    case refclkReturn =>
      exact ⟨_, rfl, (Relation.ReflTransGen.single (.clock s true)).trans (changes_arbitrate _ _)⟩

/-- What every change of a command keeps, the command keeps. -/
theorem exec_keeps {P : State → Prop} {c : Instr} (change : ∀ s t, Change c s t → P s → P t) {s t : State} (h : P s)
    (e : exec c s = .next t) : P t := by
  obtain ⟨w, ew, changes⟩ := exec_changes c s
  obtain rfl : w = t := by simpa [ew] using e
  clear e ew
  induction changes with
  | refl => exact h
  | tail _ last ih => exact change _ _ last ih

/-- What no change breaks and what does not read the queue of commands, every step keeps. -/
theorem step_keeps {P : State → Prop} (change : ∀ c s t, Change c s t → P s → P t)
    (pending : ∀ s l, P s → P { s with pending := l }) {s t : State} (h : P s) (e : step s = .next t) : P t := by
  unfold step at e
  split at e
  next => simpa [← Host.Outcome.next.inj e] using h
  next c rest _ => exact exec_keeps (change c) (pending s rest h) e

/-- Settles O1: both clauses are the branches of the step. -/
theorem stepRunsFrontCommand : Obligations.StepRunsFrontCommand := by
  unfold Obligations.StepRunsFrontCommand
  refine ⟨fun s c rest h => ?_, fun s h => ?_⟩ <;> simp only [step, h]

/-- The parts outside the tables that no command on the tables writes. -/
theorem takeRequest_kept (p : Port) (r : Request) (s : State) :
    (takeRequest p r s).1.pending = s.pending ∧ (takeRequest p r s).1.stamp = s.stamp ∧
      (takeRequest p r s).1.phase = s.phase := by
  have h := takeRequest_outside p r s
  simp only [State.outside, Prod.mk.injEq] at h
  obtain ⟨-, -, -, -, stamp, -, phase, -, pending⟩ := h
  exact ⟨pending, stamp, phase⟩

/-- What a port's flush leaves outside the tables. -/
@[simp] theorem flushPort_outside (s : State) (p : Port) : (s.flushPort p).outside = s.outside := by
  have served : (allStreams.foldl (State.flushStream p) s).outside = s.outside := by
    refine foldl_keeps State.outside _ (fun w i => ?_) _ s
    unfold State.flushStream
    split
    · split
      · exact State.postArrival_outside w p i _ _ _
      · rfl
    · rfl
  rw [State.flushPort, State.startFlushIfPending_outside, State.stopFlush, State.setSession_outside, served]

/-- Every change leaves the queue of commands. -/
theorem change_pending {c : Instr} {s t : State} (h : Change c s t) : t.pending = s.pending := by
  cases h with
  | request p r operating => exact (takeRequest_kept p r s).1
  | flush p event expired =>
    have out := flushPort_outside s p
    simp only [State.outside, Prod.mk.injEq] at out
    exact out.2.2.2.2.2.2.2.2
  | _ => rfl

/-- Settles O2: a next state is there for every command and event, and no change writes the queue of commands. -/
theorem everyCommandAnswersNext : Obligations.EveryCommandAnswersNext := by
  unfold Obligations.EveryCommandAnswersNext
  intro c s
  obtain ⟨t, e, -⟩ := exec_changes c s
  refine ⟨t, e, exec_keeps (P := fun w => w.pending = s.pending) (fun v w change h => ?_) rfl e⟩
  rw [change_pending change, h]

end Sys2Proof.Proofs.Steps
end

section
/-! SUPPORT. What a command can do to the tables: a chain of writes, each to one table, with what is known where it is made.
What every write keeps, every command and every flush keeps. -/

namespace Sys2Proof.Proofs.TableWrites

open Sys2Proof.Machine Sys2Proof.Safety Sys2Proof.Laws

/-! ### Writes -/

/-- The periods of an ATTACH fit their bytes. -/
def AttachArgs.InRange (a : AttachArgs) : Prop := a.leasePeriod ≤ 255 ∧ a.flushPeriod ≤ 255

/-- Port `p` holds nothing: no claim and no subscription. -/
def HoldsNothing (s : State) (p : Port) : Prop :=
  ∀ i : StreamId, (s.stream i).claim.belongsTo p = false ∧ s.sub i p = none

/-- One write of command `c` (none for a flush) to the tables, the queues, the sessions or the pool. -/
inductive Write (c : Option Command) : State → State → Prop where
  /-- A stream record: its claim stays or ends. -/
  | stream (s : State) (i : StreamId) (r : StreamRecord) (claim : r.claim = (s.stream i).claim ∨ r.claim = .none) :
      Write c s (s.setStream i r)
  /-- A stream record: an ATTACHED port takes the claim. -/
  | claim (s : State) (i : StreamId) (r : StreamRecord) (q : Port) (attached : (s.session q).state = .attached)
      (held : r.claim = .held q) : Write c s (s.setStream i r)
  /-- A subscription, whose state stays. -/
  | sub (s : State) (i : StreamId) (p : Port) (u v : Subscription) (present : s.sub i p = some u) (state : v.state = u.state) :
      Write c s (s.setSub i p (some v))
  /-- The removal of a subscription. -/
  | absent (s : State) (i : StreamId) (p : Port) : Write c s (s.setSub i p none)
  /-- The subscription of an ATTACHED port created. -/
  | join (s : State) (i : StreamId) (p : Port) (u : Subscription) (attached : (s.session p).state = .attached)
      (active : u.state = .active) : Write c s (s.setSub i p (some u))
  | post (s : State) (p : Port) (n : Notice) : Write c s (s.post p n)
  /-- Notices taken from a queue; its count of dropped notices stays or ends. -/
  | thin (s : State) (p : Port) (l : List Notice) (d : Nat) (fewer : l.length ≤ (s.queue p).records.length)
      (count : d ≤ (s.queue p).dropped) : Write c s (s.setQueue p { records := l, dropped := d })
  | lease (s : State) (p : Port) (attached : (s.session p).state = .attached) : Write c s (s.restartLease p)
  | startFlush (s : State) (i : StreamId) (p : Port) (pending : s.subPending p i = true) : Write c s (s.startFlush p)
  | stopFlush (s : State) (p : Port) : Write c s (s.stopFlush p)
  /-- The loss of a STALE claim counted. -/
  | lost (s : State) (i : StreamId) (p : Port) (stale : (s.stream i).claim = .stale p) :
      Write c s (s.setSession p { s.session p with claimsLost := (s.session p).claimsLost + 1 })
  /-- The eviction of a LAPSED subscription counted. -/
  | evicted (s : State) (i : StreamId) (p : Port) (u : Subscription) (present : s.sub i p = some u)
      (lapsed : u.state = .lapsed) : Write c s (s.setSession p { s.session p with evicted := (s.session p).evicted + 1 })
  | clear (s : State) (p : Port) : Write c s (s.clearCounts p)
  /-- A session ATTACHED, its counts clear, after a teardown. -/
  | attach (s : State) (p : Port) (a : AttachArgs) (range : AttachArgs.InRange a) (empty : HoldsNothing s p)
      (clear : (s.session p).claimsLost = 0 ∧ (s.session p).evicted = 0) : Write c s (s.writeSettings p a)
  /-- A session ATTACHED, its counts clear, with its holdings restored. -/
  | resume (s : State) (p : Port) (a : AttachArgs) (range : AttachArgs.InRange a)
      (away : (s.session p).state ≠ .attached) (clear : (s.session p).claimsLost = 0 ∧ (s.session p).evicted = 0) :
      Write c s ((s.restoreHoldings p).writeSettings p a)
  /-- The settings of an ATTACHED session. -/
  | settings (s : State) (p : Port) (a : AttachArgs) (range : AttachArgs.InRange a)
      (attached : (s.session p).state = .attached) : Write c s (s.writeSettings p a)
  /-- A session DETACHED after a teardown. -/
  | detach (s : State) (p : Port) (empty : HoldsNothing s p) : Write c s (s.detachSession p)
  | release (s : State) (d : DescId) : Write c s (s.setPool (s.pool.releaseMessage d))
  | lower (s : State) (ds : List DescId) : Write c s (s.setPool (s.pool.lowerReaders ds))
  | raise (s : State) (ds : List DescId) : Write c s (s.setPool (s.pool.raiseReaders ds))
  | allocate (s : State) (i : StreamId) (n : Nat) (tag : BitVec 16) (urgent : Bool) (d : DescId) (q : Pool) (positive : 1 ≤ n)
      (taken : s.pool.allocate i n tag urgent = some (d, q)) : Write c s (s.setPool q)
  | store (s : State) (d : DescId) (m : StagedMessage) (data : List Byte) (appends : c = some .append)
      (staged : s.pool.desc d = .staged m) (room : m.fill + data.length ≤ m.declaredLength) :
      Write c s (s.setPool (s.pool.storePayload d m data))
  | commit (s : State) (d : DescId) (m : StagedMessage) (x : Seq) (stamp : BitVec 24) (readers : Nat)
      (newest : Option DescId) (staged : s.pool.desc d = .staged m) (positive : 1 ≤ m.fill) :
      Write c s (s.setPool ((s.pool.commitMessage d m x stamp readers).linkNewest newest d))
  | fail (s : State) (d : DescId) (b : BlockId) : Write c s (s.markFailed d b)
  | scrubPass (s : State) (b : BlockId) (scrubs : c = some .scrub) (quarantined : b ∈ s.pool.quarantine) :
      Write c s (s.setPool (s.pool.scrubPass b))
  | scrubFail (s : State) (b : BlockId) (draw : Nat) (scrubs : c = some .scrub) (quarantined : b ∈ s.pool.quarantine) :
      Write c s (s.setPool (s.pool.scrubFail b draw))
  | drawn (s : State) : Write c s s.drawn

/-- A chain of writes of one command. -/
abbrev Writes (c : Option Command) : State → State → Prop := Relation.ReflTransGen (Write c)

section Operations

variable {c : Option Command}

/-- A fold of operations that are chains of writes is a chain of writes. -/
theorem writes_foldl {α : Type} {f : State → α → State} (h : ∀ w x, Writes c w (f w x)) (l : List α) (s : State) :
    Writes c s (l.foldl f s) := by
  induction l generalizing s with
  | nil => exact .refl
  | cons x rest ih => exact (h s x).trans (ih _)

/-! ### Notices and the flush timer -/

theorem writes_postArrival {s : State} {p : Port} {i : StreamId} {u v : Subscription} (present : s.sub i p = some v)
    (state : u.state = v.state) (x : Seq) (cause : BitVec 16) : Writes c s (s.postArrival p i u x cause) := by
  have posted (n : Notice) : Writes c s (s.post p n) := .single (.post s p n)
  unfold State.postArrival
  dsimp only
  split
  · exact (posted _).tail (.sub _ i p v _ (by rw [post_sub, present]) state)
  · exact posted _

theorem writes_flushStream (p : Port) (s : State) (i : StreamId) : Writes c s (State.flushStream p s i) := by
  unfold State.flushStream
  split
  next u present =>
    split
    · exact writes_postArrival present rfl _ _
    · exact .refl
  next => exact .refl

theorem writes_startFlushIfPending (s : State) (p : Port) : Writes c s (s.startFlushIfPending p) := by
  unfold State.startFlushIfPending
  split
  next pending =>
    obtain ⟨i, -, h⟩ := List.any_eq_true.mp pending
    exact .single (.startFlush s i p h)
  next => exact .refl

theorem writes_flushPort (s : State) (p : Port) : Writes c s (s.flushPort p) :=
  ((writes_foldl (writes_flushStream p) allStreams s).tail (.stopFlush _ p)).trans (writes_startFlushIfPending _ p)

/-! ### Removal, retirement, re-evaluation -/

theorem writes_removeOldest (s : State) (i : StreamId) : Writes c s (s.removeOldest i) := by
  unfold State.removeOldest
  split
  · exact .refl
  next d _ =>
    split
    · exact (Relation.ReflTransGen.single (.release s d)).tail (.stream _ i _ (.inl rfl))
    · exact .refl

theorem writes_removeMany (i : StreamId) (n : Nat) (s : State) : Writes c s (State.removeMany i n s) := by
  induction n generalizing s with
  | zero => exact .refl
  | succ n ih => exact (writes_removeOldest s i).trans (ih _)

theorem writes_retireLoop (i : StreamId) (n : Nat) (s : State) : Writes c s (State.retireLoop i n s) := by
  induction n generalizing s with
  | zero => exact .refl
  | succ n ih =>
    unfold State.retireLoop
    split
    · exact (writes_removeOldest s i).trans (ih _)
    · exact .refl

theorem writes_retirementCheck (s : State) (i : StreamId) : Writes c s (s.retirementCheck i) :=
  writes_retireLoop i _ s

theorem writes_reevaluateStream (s : State) (i : StreamId) : Writes c s (s.reevaluateStream i) := by
  unfold State.reevaluateStream
  split
  · split
    · exact (Relation.ReflTransGen.single (.post s _ _)).tail (.stream _ i _ (.inl (by simp)))
    · exact .refl
  · exact .refl

theorem writes_roomReevaluation (s : State) : Writes c s s.roomReevaluation :=
  writes_foldl writes_reevaluateStream allStreams s

theorem writes_reevaluateAfter (q : Pool) (s : State) : Writes c s (State.reevaluateAfter q s) := by
  unfold State.reevaluateAfter
  split
  · exact writes_roomReevaluation s
  · exact .refl

/-! ### Claims and subscriptions -/

theorem writes_abortAssembly (s : State) (i : StreamId) : Writes c s (s.abortAssembly i) := by
  unfold State.abortAssembly
  split
  · exact .refl
  next d _ =>
    split
    · exact (Relation.ReflTransGen.single (.release s d)).tail (.stream _ i _ (.inl rfl))
    · exact .single (.stream s i _ (.inl rfl))

theorem writes_releaseClaim (s : State) (i : StreamId) : Writes c s (s.releaseClaim i) :=
  (writes_abortAssembly s i).tail (.stream _ i _ (.inr rfl))

theorem writes_dropSub (s : State) (i : StreamId) (p : Port) : Writes c s (s.dropSub i p) := by
  unfold State.dropSub
  split
  · exact .refl
  next u _ =>
    exact ((Relation.ReflTransGen.single (.lower s (s.countedBy i u))).tail
      (.thin _ p _ _ (List.length_filter_le _ _) le_rfl)).tail (.absent _ i p)

theorem writes_teardownClaim (p : Port) (s : State) (i : StreamId) : Writes c s (State.teardownClaim p s i) := by
  unfold State.teardownClaim
  split
  · exact writes_releaseClaim s i
  · exact .refl

theorem writes_teardownSub (p : Port) (s : State) (i : StreamId) : Writes c s (State.teardownSub p s i) := by
  unfold State.teardownSub
  split
  · exact (writes_dropSub s i p).trans (writes_retirementCheck _ i)
  · exact .refl

theorem writes_teardown (s : State) (p : Port) : Writes c s (s.teardown p) := by
  have claims := writes_foldl (c := c) (writes_teardownClaim p) allStreams s
  have subs := claims.trans (writes_foldl (writes_teardownSub p) allStreams _)
  exact ((subs.tail (.thin _ p [] 0 (Nat.zero_le _) (Nat.zero_le _))).tail (.clear _ p)).trans
    (writes_reevaluateAfter s.pool _)

end Operations

end Sys2Proof.Proofs.TableWrites
end

section
/-! SUPPORT. The teardown of a port (R140): what each of its folds does to one stream and one slot, and what it leaves. -/

namespace Sys2Proof.Proofs.Teardown

open Sys2Proof.Machine Sys2Proof.Safety Sys2Proof.Laws Sys2Proof.Proofs.Claims Sys2Proof.Proofs.Subscriptions

/-! ### Folds over the streams -/

/-- A fold over distinct items, of which only item `i` touches a view, shows what the step of `i` makes of the view. -/
theorem foldl_view {σ ι γ : Type} (view : σ → γ) (f : σ → ι → σ) (i : ι) (other : ∀ w j, j ≠ i → view (f w j) = view w)
    {l : List ι} (once : l.Nodup) (mem : i ∈ l) (s : σ) : ∃ w, view w = view s ∧ view (l.foldl f s) = view (f w i) := by
  induction l generalizing s with
  | nil => exact absurd mem (List.not_mem_nil)
  | cons j rest ih =>
    obtain ⟨out, rest_once⟩ := List.nodup_cons.mp once
    by_cases e : j = i
    · subst e
      have stays : ∀ (m : List ι) (w : σ), j ∉ m → view (m.foldl f w) = view w := by
        intro m
        induction m with
        | nil => exact fun _ _ => rfl
        | cons k ks ihk =>
          intro w h
          obtain ⟨ne, h⟩ := not_or.mp (List.mem_cons.not.mp h)
          rw [List.foldl_cons, ihk _ h, other w k (Ne.symm ne)]
      exact ⟨s, rfl, stays rest _ out⟩
    · obtain ⟨w, hw, hview⟩ := ih rest_once ((List.mem_cons.mp mem).resolve_left (Ne.symm e)) (f s j)
      exact ⟨w, by rw [hw, other s j e], hview⟩

theorem mem_allStreams (i : StreamId) : i ∈ allStreams := List.mem_finRange i

theorem allStreams_nodup : allStreams.Nodup := List.nodup_finRange 64

/-! ### Step 1: the claims -/

/-- The claim of a port, HELD or STALE. -/
theorem belongsTo_iff (x : Claim) (p : Port) : x.belongsTo p = true ↔ x = .held p ∨ x = .stale p := by
  cases x <;> simp [Claim.belongsTo]

@[simp] theorem abortAssembly_stream_ne {s : State} {i j : StreamId} (ne : j ≠ i) :
    (s.abortAssembly i).stream j = s.stream j := by
  unfold State.abortAssembly
  split
  · rfl
  · split <;> simp [State.setStream_stream, Ne.symm ne]

theorem teardownClaim_stream_ne {p : Port} (s : State) {i j : StreamId} (ne : j ≠ i) :
    (State.teardownClaim p s j).stream i = s.stream i := by
  unfold State.teardownClaim
  split
  · simp [State.releaseClaim, State.setStream_stream, ne, abortAssembly_stream_ne (Ne.symm ne)]
  · rfl

/-- The record of a stream without its assembly, its claim, its starved need and its held blocks. -/
def ended (r : StreamRecord) (held : Nat) : StreamRecord :=
  { r with assembly := none, claim := .none, starvedNeed := none, heldBlocks := held }

theorem releaseClaim_stream (s : State) (i : StreamId) :
    ∃ held, (s.releaseClaim i).stream i = ended (s.stream i) held := by
  refine ⟨((s.abortAssembly i).stream i).heldBlocks, ?_⟩
  rw [State.releaseClaim, State.setStream_stream_self, (abortAssembly_stream s i).2, ended]

/-- The streams once the claims of port `p` are released. -/
theorem claims_stream (s : State) (p : Port) (i : StreamId) :
    ∃ held, (allStreams.foldl (State.teardownClaim p) s).stream i =
      if (s.stream i).claim.belongsTo p then ended (s.stream i) held else s.stream i := by
  obtain ⟨w, before, after⟩ := foldl_view (fun w : State => w.stream i) (State.teardownClaim p) i
    (fun w j ne => teardownClaim_stream_ne w ne) allStreams_nodup (mem_allStreams i) s
  rw [after, State.teardownClaim, before]
  split
  · obtain ⟨held, h⟩ := releaseClaim_stream w i
    exact ⟨held, by rw [h, before]⟩
  · exact ⟨0, before⟩

/-- A view that the release of a claim leaves, the release of a port's claims leaves. -/
theorem claims_keep {γ : Type} (g : State → γ) (h : ∀ w i, g (w.releaseClaim i) = g w) (s : State) (p : Port) :
    g (allStreams.foldl (State.teardownClaim p) s) = g s := by
  refine foldl_keeps g _ (fun w i => ?_) allStreams s
  unfold State.teardownClaim
  split
  · exact h w i
  · rfl

/-! ### Step 2: the subscriptions -/

theorem dropSub_sub (s : State) (i j : StreamId) (p q : Port) :
    (s.dropSub i p).sub j q = if i = j ∧ p = q then none else s.sub j q := by
  unfold State.dropSub
  split
  next absent =>
    split
    next h => rw [← h.1, ← h.2, absent]
    next => rfl
  next => simp [State.setSub_sub]

@[simp] theorem dropSub_stream (s : State) (i j : StreamId) (p : Port) : (s.dropSub i p).stream j = s.stream j := by
  rw [dropSub_kept]
  rfl

@[simp] theorem retirementCheck_sub (s : State) (i j : StreamId) (q : Port) :
    (s.retirementCheck i).sub j q = s.sub j q := by
  rw [retirementCheck_kept]
  rfl

@[simp] theorem retirementCheck_session (s : State) (i : StreamId) (q : Port) :
    (s.retirementCheck i).session q = s.session q := by
  rw [retirementCheck_kept]
  rfl

@[simp] theorem retirementCheck_queue (s : State) (i : StreamId) (q : Port) :
    (s.retirementCheck i).queue q = s.queue q := by
  rw [retirementCheck_kept]
  rfl

theorem teardownSub_sub (s : State) (i j : StreamId) (p q : Port) :
    (State.teardownSub p s i).sub j q = if i = j ∧ p = q then none else s.sub j q := by
  unfold State.teardownSub
  split
  · rw [retirementCheck_sub, dropSub_sub]
  next absent =>
    split
    next h =>
      rw [← h.1, ← h.2]
      simpa using absent
    next => rfl

/-- A view that the removal of a subscription and a removal of the oldest message leave, the removal of a port's
subscriptions leaves. -/
theorem subs_keep {γ : Type} (g : State → γ) (p : Port) (drop : ∀ w i, g (w.dropSub i p) = g w)
    (remove : ∀ w i, g (w.removeOldest i) = g w) (s : State) : g (allStreams.foldl (State.teardownSub p) s) = g s := by
  refine foldl_keeps g _ (fun w i => ?_) allStreams s
  unfold State.teardownSub
  split
  · rw [retirementCheck_keeps g i (fun v => remove v i), drop]
  · rfl

/-- The slots once the subscriptions of port `p` are removed. -/
theorem subs_sub (s : State) (p q : Port) (i : StreamId) :
    (allStreams.foldl (State.teardownSub p) s).sub i q = if q = p then none else s.sub i q := by
  obtain ⟨w, before, after⟩ := foldl_view (fun w : State => w.sub i q) (State.teardownSub p) i
    (fun w j ne => by simp [teardownSub_sub, ne]) allStreams_nodup (mem_allStreams i) s
  rw [after, teardownSub_sub, before]
  simp [eq_comm]

/-- The fields of a stream record that the removal of a message leaves. -/
def lasting (r : StreamRecord) :
    Option Settings × Claim × Option DescId × Seq × Option Nat × BitVec 32 × BitVec 32 :=
  (r.settings, r.claim, r.assembly, r.nextSeq, r.starvedNeed, r.commitTotal, r.shedTotal)

theorem removeOldest_lasting (s : State) (i j : StreamId) :
    lasting ((s.removeOldest i).stream j) = lasting (s.stream j) := by
  by_cases e : j = i
  · subst e
    unfold State.removeOldest
    split
    · rfl
    · split <;> simp [lasting]
  · rw [removeOldest_stream_ne s i j e]

theorem removeOldest_session (s : State) (i : StreamId) (q : Port) : (s.removeOldest i).session q = s.session q := by
  rw [removeOldest_kept]
  rfl

/-! ### The re-evaluation -/

@[simp] theorem reevaluateAfter_sub (q : Pool) (s : State) (i : StreamId) (p : Port) :
    (State.reevaluateAfter q s).sub i p = s.sub i p := by
  rw [reevaluateAfter_kept]
  rfl

@[simp] theorem reevaluateAfter_session (q : Pool) (s : State) (p : Port) :
    (State.reevaluateAfter q s).session p = s.session p := by
  rw [reevaluateAfter_kept]
  rfl

@[simp] theorem reevaluateAfter_pool (q : Pool) (s : State) : (State.reevaluateAfter q s).pool = s.pool := by
  rw [reevaluateAfter_kept]

/-- A re-evaluation clears starved needs, and writes nothing else of a stream. -/
theorem reevaluateAfter_stream (q : Pool) (s : State) (j : StreamId) :
    ∃ need, (need = none ∨ need = (s.stream j).starvedNeed) ∧
      (State.reevaluateAfter q s).stream j = { s.stream j with starvedNeed := need } := by
  have one : ∀ (w : State) (i : StreamId), ∃ need, (need = none ∨ need = (w.stream j).starvedNeed) ∧
      (w.reevaluateStream i).stream j = { w.stream j with starvedNeed := need } := by
    intro w i
    unfold State.reevaluateStream
    split
    · split
      · by_cases e : i = j
        · subst e
          exact ⟨none, .inl rfl, by simp⟩
        · exact ⟨_, .inr rfl, by simp [State.setStream_stream, e]⟩
      · exact ⟨_, .inr rfl, rfl⟩
    · exact ⟨_, .inr rfl, rfl⟩
  have all : ∀ (l : List StreamId) (w : State), ∃ need, (need = none ∨ need = (w.stream j).starvedNeed) ∧
      (l.foldl State.reevaluateStream w).stream j = { w.stream j with starvedNeed := need } := by
    intro l
    induction l with
    | nil => exact fun w => ⟨_, .inr rfl, rfl⟩
    | cons i rest ih =>
      intro w
      obtain ⟨n, hn, hw⟩ := one w i
      obtain ⟨m, hm, hv⟩ := ih (w.reevaluateStream i)
      refine ⟨m, ?_, by rw [List.foldl_cons, hv, hw]⟩
      rw [hw] at hm
      exact hm.elim .inl (fun e => e ▸ hn)
  unfold State.reevaluateAfter
  split
  · exact all allStreams s
  · exact ⟨_, .inr rfl, rfl⟩

/-- A re-evaluation posts ROOM notices to the holders of claims, and to no other port. -/
theorem reevaluateAfter_queue (q : Pool) (s : State) (p : Port) (none : ∀ i, (s.stream i).claim.belongsTo p = false) :
    (State.reevaluateAfter q s).queue p = s.queue p := by
  have one : ∀ (w : State) (i : StreamId), (w.stream i).claim.belongsTo p = false →
      (w.reevaluateStream i).queue p = w.queue p := by
    intro w i h
    unfold State.reevaluateStream
    split
    next r holder =>
      split
      · rw [State.setStream_queue, post_queue_ne]
        rintro rfl
        revert holder h
        cases (w.stream i).claim <;> simp [Claim.holder, Claim.belongsTo]
      · rfl
    · rfl
  have all : ∀ (l : List StreamId) (w : State), (∀ i, (w.stream i).claim.belongsTo p = false) →
      (l.foldl State.reevaluateStream w).queue p = w.queue p := by
    intro l
    induction l with
    | nil => exact fun _ _ => rfl
    | cons i rest ih =>
      intro w h
      rw [List.foldl_cons, ih _ (fun j => by rw [reevaluateStream_stream]; exact h j), one w i (h i)]
  unfold State.reevaluateAfter
  split
  · exact all allStreams s none
  · rfl

/-! ### The teardown as a whole (R140) -/

/-- The state once port `p` holds no claim and no subscription any more. -/
def released (s : State) (p : Port) : State :=
  allStreams.foldl (State.teardownSub p) (allStreams.foldl (State.teardownClaim p) s)

@[simp] theorem released_session (s : State) (p q : Port) : (released s p).session q = s.session q := by
  rw [released, subs_keep (fun w => w.session q) p (fun w i => dropSub_session w i p q) (removeOldest_session · · q),
    claims_keep (fun w => w.session q) (fun w i => by rw [releaseClaim_kept]; rfl)]

theorem released_sub (s : State) (p q : Port) (i : StreamId) :
    (released s p).sub i q = if q = p then none else s.sub i q := by
  rw [released, subs_sub, claims_keep (fun w => w.sub i q) (fun w i => by rw [releaseClaim_kept]; rfl)]

theorem released_bytes (s : State) (p : Port) : (released s p).pool.bytes = s.pool.bytes := by
  rw [released, subs_keep (fun w => w.pool.bytes) p (fun w i => dropSub_bytes w i p) removeOldest_bytes,
    claims_keep (fun w => w.pool.bytes) abortAssembly_bytes]

theorem released_lasting (s : State) (p : Port) (i : StreamId) :
    ∃ held, lasting ((released s p).stream i) =
      lasting (if (s.stream i).claim.belongsTo p then ended (s.stream i) held else s.stream i) := by
  obtain ⟨held, h⟩ := claims_stream s p i
  refine ⟨held, ?_⟩
  rw [released, subs_keep (fun w => lasting (w.stream i)) p (fun w j => by rw [dropSub_stream])
    (removeOldest_lasting · · i), h]

theorem released_claim (s : State) (p : Port) (i : StreamId) : ((released s p).stream i).claim.belongsTo p = false := by
  obtain ⟨held, h⟩ := released_lasting s p i
  simp only [lasting, Prod.mk.injEq] at h
  rw [h.2.1]
  split
  · rfl
  next other => exact Bool.eq_false_iff.mpr other

theorem teardown_eq (s : State) (p : Port) :
    s.teardown p = State.reevaluateAfter s.pool (((released s p).setQueue p .empty).setSession p
      { s.session p with claimsLost := 0, evicted := 0 }) := by
  have folds : allStreams.foldl (State.teardownSub p) (allStreams.foldl (State.teardownClaim p) s) = released s p := by
    rw [released]
  simp only [State.teardown, folds, State.setQueue_session, released_session]

theorem teardown_session (s : State) (p q : Port) :
    (s.teardown p).session q = if p = q then { s.session p with claimsLost := 0, evicted := 0 } else s.session q := by
  rw [teardown_eq, reevaluateAfter_session, State.setSession_session, State.setQueue_session, released_session]

theorem teardown_sub (s : State) (p q : Port) (i : StreamId) :
    (s.teardown p).sub i q = if q = p then none else s.sub i q := by
  rw [teardown_eq, reevaluateAfter_sub, State.setSession_sub, State.setQueue_sub, released_sub]

theorem teardown_bytes (s : State) (p : Port) : (s.teardown p).pool.bytes = s.pool.bytes := by
  rw [teardown_eq, reevaluateAfter_pool, State.setSession_pool, State.setQueue_pool, released_bytes]

theorem teardown_queue (s : State) (p : Port) : (s.teardown p).queue p = .empty := by
  have none : ∀ i, ((((released s p).setQueue p .empty).setSession p
      { s.session p with claimsLost := 0, evicted := 0 }).stream i).claim.belongsTo p = false := fun i => by
    rw [State.setSession_stream, State.setQueue_stream, released_claim]
  rw [teardown_eq, reevaluateAfter_queue _ _ _ none, State.setSession_queue, State.setQueue_queue_self]

/-- What the teardown leaves of a stream's record: the streams of the port's claims are ended, the others only lose a need
that is met. -/
theorem teardown_stream (s : State) (p : Port) (i : StreamId) :
    ∃ held need, (need = none ∨ (¬(s.stream i).claim.belongsTo p ∧ need = (s.stream i).starvedNeed)) ∧
      lasting ((s.teardown p).stream i) =
        lasting { (if (s.stream i).claim.belongsTo p then ended (s.stream i) held else s.stream i) with
          starvedNeed := need } := by
  obtain ⟨held, h⟩ := released_lasting s p i
  obtain ⟨need, hn, e⟩ := reevaluateAfter_stream s.pool (((released s p).setQueue p .empty).setSession p
    { s.session p with claimsLost := 0, evicted := 0 }) i
  simp only [State.setSession_stream, State.setQueue_stream] at hn e
  rw [← teardown_eq] at e
  simp only [lasting, Prod.mk.injEq] at h
  obtain ⟨settings, claim, assembly, nextSeq, starved, commits, sheds⟩ := h
  refine ⟨held, need, ?_, by simp only [e, lasting, settings, claim, assembly, nextSeq, commits, sheds]⟩
  rw [starved] at hn
  split at hn
  · exact .inl (hn.elim id id)
  next other => exact hn.imp_right fun h => ⟨other, h⟩

/-- After a teardown the port holds nothing. -/
theorem teardown_claim (s : State) (p : Port) (i : StreamId) : ((s.teardown p).stream i).claim.belongsTo p = false := by
  obtain ⟨need, -, e⟩ := reevaluateAfter_stream s.pool (((released s p).setQueue p .empty).setSession p
    { s.session p with claimsLost := 0, evicted := 0 }) i
  rw [teardown_eq, e, State.setSession_stream, State.setQueue_stream, released_claim]

/-- Settles O8: the composition by definition, the rest by what the folds leave of each stream and each slot. -/
theorem teardownEndsHoldings : Obligations.TeardownEndsHoldings := by
  unfold Obligations.TeardownEndsHoldings
  intro s p t endClaim endSub composed
  have claimStep : State.teardownClaim p = endClaim := by
    funext w i
    simp only [State.teardownClaim, belongsTo_iff, endClaim, State.releaseClaim]
  have subStep : State.teardownSub p = endSub := by
    funext w i
    simp only [State.teardownSub, Option.isSome_iff_ne_none, endSub]
  have same : released s p = composed := by
    rw [released, claimStep, subStep, allStreams]
  refine ⟨by rw [← same]; exact teardown_eq s p, fun i => ?_, teardown_queue s p, ?_, fun q ne => ⟨?_, fun i => ?_⟩,
    fun i => ⟨fun notHeld notStale => ?_, fun mine => ?_, ?_⟩, fun a => by rw [teardown_bytes]⟩
  · have none := (belongsTo_iff _ _).not.mp (Bool.eq_false_iff.mp (teardown_claim s p i))
    exact ⟨fun h => none (.inl h), fun h => none (.inr h), by rw [teardown_sub, if_pos rfl]⟩
  · rw [teardown_session, if_pos rfl]
  · rw [teardown_session, if_neg (Ne.symm ne)]
  · rw [teardown_sub, if_neg ne]
  all_goals
    obtain ⟨held, need, hn, h⟩ := teardown_stream s p i
    simp only [lasting, Prod.mk.injEq] at h
    obtain ⟨settings, claim, assembly, nextSeq, starved, commits, sheds⟩ := h
  · have other : ¬(s.stream i).claim.belongsTo p = true := by rw [belongsTo_iff]; simp [notHeld, notStale]
    rw [if_neg other] at claim assembly
    exact ⟨claim, assembly⟩
  · have belongs := (belongsTo_iff _ _).mpr mine
    rw [if_pos belongs] at claim assembly
    exact ⟨claim, assembly, by rw [starved]; exact hn.resolve_right fun h => h.1 belongs⟩
  · rw [settings, nextSeq, commits, sheds]
    split <;> exact ⟨rfl, rfl, rfl, rfl⟩

end Sys2Proof.Proofs.Teardown
end

section
/-! SUPPORT. Every command of Table 9.3, and the taking of any request, is a chain of writes to the tables. -/

namespace Sys2Proof.Proofs.TableWrites

open Sys2Proof.Machine Sys2Proof.Safety Sys2Proof.Laws Sys2Proof.Proofs.Teardown

section Commands

variable {c : Option Command}

/-! ### Session commands -/

theorem attachArgs_inRange {r : Request} {a : AttachArgs} (e : r.attachArgs = some a) : AttachArgs.InRange a := by
  unfold Request.attachArgs at e
  split at e
  next mode lease flush mask _ =>
    simp only [Option.bind_eq_bind, Option.bind_eq_some_iff, Option.pure_def, Option.some.injEq] at e
    obtain ⟨-, -, -, -, -, -, rfl⟩ := e
    exact ⟨Nat.lt_succ_iff.mp lease.isLt, Nat.lt_succ_iff.mp flush.isLt⟩
  next => exact absurd e (by simp)

theorem teardown_holdsNothing (s : State) (p : Port) : HoldsNothing (s.teardown p) p := fun i =>
  ⟨teardown_claim s p i, by rw [teardown_sub, if_pos rfl]⟩

theorem writes_runAttachFresh (p : Port) {a : AttachArgs} (range : AttachArgs.InRange a) (s : State) :
    Writes c s (runAttachFresh p a s).1 := by
  have clear : ((s.teardown p).session p).claimsLost = 0 ∧ ((s.teardown p).session p).evicted = 0 := by
    rw [teardown_session, if_pos rfl]
    exact ⟨rfl, rfl⟩
  exact (writes_teardown s p).tail (.attach _ p a range (teardown_holdsNothing s p) clear)

theorem writes_runAttachResume (p : Port) {a : AttachArgs} (range : AttachArgs.InRange a) (s : State) :
    Writes c s (runAttachResume p a s).1 := by
  have cleared : Writes c s (s.clearCounts p) := .single (.clear s p)
  have session : (s.clearCounts p).session p = { s.session p with claimsLost := 0, evicted := 0 } :=
    State.setSession_session_self s p _
  unfold runAttachResume
  dsimp only
  split
  next attached =>
    exact (cleared.tail (.settings _ p a range (by rw [session]; exact attached))).trans (writes_startFlushIfPending _ p)
  next away =>
    have restored := cleared.tail (.resume _ p a range (by rw [session]; exact away) (by rw [session]; exact ⟨rfl, rfl⟩))
    exact restored.trans (writes_startFlushIfPending _ p)

theorem writes_runAttach (p : Port) (r : Request) (s : State) : Writes c s (runAttach p r s).1 := by
  unfold runAttach
  split
  · exact .refl
  next a e =>
    split
    · exact writes_runAttachResume p (attachArgs_inRange e) s
    · exact writes_runAttachFresh p (attachArgs_inRange e) s

theorem writes_runDetach (p : Port) (r : Request) (s : State) : Writes c s (runDetach p r s).1 := by
  unfold runDetach
  split
  · exact .refl
  · exact (writes_teardown s p).tail (.detach _ p (teardown_holdsNothing s p))

theorem writes_runPing (p : Port) (r : Request) (s : State) : Writes c s (runPing p r s).1 := by
  unfold runPing
  split <;> exact .refl

theorem writes_runPortInfo (p : Port) (r : Request) (s : State) : Writes c s (runPortInfo p r s).1 := by
  unfold runPortInfo
  split <;> exact .refl

/-! ### Stream commands -/

theorem writes_runDefine (p : Port) (r : Request) (s : State) : Writes c s (runDefine p r s).1 := by
  unfold runDefine
  split
  · exact .refl
  · split
    · exact .refl
    · exact .single (.stream s _ _ (.inr rfl))

theorem writes_runDissolve (p : Port) (r : Request) (s : State) : Writes c s (runDissolve p r s).1 := by
  unfold runDissolve
  split
  · exact .refl
  next i _ =>
    split
    · exact .refl
    · split
      · exact .refl
      · exact ((writes_removeMany i _ s).tail (.stream _ i _ (.inr rfl))).trans (writes_reevaluateAfter s.pool _)

theorem writes_runStreamInfo (p : Port) (r : Request) (s : State) : Writes c s (runStreamInfo p r s).1 := by
  unfold runStreamInfo
  split
  · exact .refl
  · split <;> exact .refl

/-! ### Claims -/

/-- The count of a lost claim may be written before the takeover. -/
theorem takeover_lost_first (s : State) (i : StreamId) (p q : Port) :
    (((s.abortAssembly i).setStream i { (s.abortAssembly i).stream i with starvedNeed := none, claim := .held q }).setSession p
        { s.session p with claimsLost := (s.session p).claimsLost + 1 }) =
      (((s.setSession p { s.session p with claimsLost := (s.session p).claimsLost + 1 }).abortAssembly i).setStream i
        { (s.abortAssembly i).stream i with starvedNeed := none, claim := .held q }) := by
  have commute : (s.setSession p { s.session p with claimsLost := (s.session p).claimsLost + 1 }).abortAssembly i =
      (s.abortAssembly i).setSession p { s.session p with claimsLost := (s.session p).claimsLost + 1 } := by
    unfold State.abortAssembly
    simp only [State.setSession_stream, State.setSession_pool]
    split
    · rfl
    · split <;> rfl
  rw [commute]
  rfl

theorem writes_takeover {s : State} {i : StreamId} {p q : Port} (attached : (s.session q).state = .attached)
    (stale : (s.stream i).claim = .stale p) : Writes c s (s.takeover i p q) := by
  have counted : Writes c s (s.setSession p { s.session p with claimsLost := (s.session p).claimsLost + 1 }) :=
    .single (.lost s i p stale)
  have aborted := counted.trans (writes_abortAssembly _ i)
  have still : (((s.setSession p { s.session p with claimsLost := (s.session p).claimsLost + 1 }).abortAssembly i).session
      q).state = .attached := by
    rw [Claims.abortAssembly_session, State.setSession_session]
    split
    next e => rw [e]; exact attached
    next => exact attached
  have moved := aborted.tail (.claim _ i { (s.abortAssembly i).stream i with starvedNeed := none, claim := .held q } q still rfl)
  rw [← takeover_lost_first] at moved
  rw [Claims.takeover_eq]
  exact (moved.tail (.post _ p _)).trans (writes_reevaluateAfter s.pool _)

theorem writes_runClaim {q : Port} {s : State} (attached : (s.session q).state = .attached) (r : Request) :
    Writes c s (runClaim q r s).1 := by
  unfold runClaim
  split
  · exact .refl
  · split
    · exact .refl
    · split
      · exact .single (.claim s _ _ q attached rfl)
      · split <;> exact .refl
      next stale =>
        split
        · exact writes_takeover attached stale
        · exact .refl

theorem writes_runUnclaim (q : Port) (r : Request) (s : State) : Writes c s (runUnclaim q r s).1 := by
  unfold runUnclaim
  split
  · exact .refl
  next i _ =>
    split
    · exact .refl
    · split
      · exact .refl
      · exact (writes_releaseClaim s i).trans (writes_reevaluateAfter s.pool _)

/-! ### OPEN -/

@[simp] theorem rearmLag_state (u : Subscription) (n : Nat) : (u.rearmLag n).state = u.state := by
  unfold Subscription.rearmLag
  split <;> rfl

@[simp] theorem forceAdvance_state (u : Subscription) (next : Seq) : (u.forceAdvance next).state = u.state := by
  rw [Subscription.forceAdvance, rearmLag_state]

@[simp] theorem advance_state (u : Subscription) (next : Seq) : (u.advance next).state = u.state := by
  rw [Subscription.advance, rearmLag_state]

theorem writes_forcePort (i : StreamId) (d : DescId) (x : Seq) (s : State) (p : Port) :
    Writes c s (State.forcePort i d x s p) := by
  unfold State.forcePort
  split
  next u present =>
    split
    · exact (Relation.ReflTransGen.single (.lower s [d])).tail (.sub _ i p u _ present (forceAdvance_state u _))
    · exact .refl
  next => exact .refl

theorem writes_countShed (s : State) (i : StreamId) (m : CommittedMessage) : Writes c s (s.countShed i m) := by
  unfold State.countShed
  split
  · exact .single (.stream s i _ (.inl rfl))
  · exact .refl

theorem writes_shedOldest (s : State) (i : StreamId) : Writes c s (s.shedOldest i) := by
  unfold State.shedOldest
  split
  · exact .refl
  next d _ =>
    split
    next m _ =>
      exact ((writes_countShed s i m).trans (writes_foldl (writes_forcePort i d m.sequence) allPorts _)).trans
        (writes_removeOldest _ i)
    next => exact .refl

theorem writes_shedMany (i : StreamId) (k : Nat) (s : State) : Writes c s (State.shedMany i k s) := by
  induction k generalizing s with
  | zero => exact .refl
  | succ k ih => exact (writes_shedOldest s i).trans (ih _)

theorem writes_postLoss (before : State) (i : StreamId) (opener : Port) (s : State) (p : Port) :
    Writes c s (State.postLoss before i opener s p) := by
  have posted (n : Notice) : Writes c s (s.post p n) := .single (.post s p n)
  unfold State.postLoss
  split
  next u _ present =>
    split
    · dsimp only
      split
      · exact (posted _).tail (.sub _ i p u _ (by rw [post_sub, present]) rfl)
      · exact posted _
    · exact .refl
  next => exact .refl

theorem writes_makeRoom (s : State) (i : StreamId) (opener : Port) (k : Nat) : Writes c s (s.makeRoom i opener k) :=
  ((writes_shedMany i k s).trans (writes_foldl (writes_postLoss s i opener) allPorts _)).trans (writes_retirementCheck _ i)

theorem writes_openAssembly (s : State) {a : OpenArgs} (positive : 1 ≤ a.length) : Writes c s (s.openAssembly a) := by
  unfold State.openAssembly
  split
  next d q e =>
    exact (Relation.ReflTransGen.single (.allocate s _ _ _ _ d q positive e)).tail (.stream _ a.stream _ (.inl rfl))
  next => exact .refl

theorem writes_grantOpen (s : State) (opener : Port) {a : OpenArgs} (positive : 1 ≤ a.length) (k : Nat) :
    Writes c s (s.grantOpen opener a k) := by
  unfold State.grantOpen
  split
  · exact writes_openAssembly s positive
  · exact ((writes_makeRoom s a.stream opener k).trans (writes_openAssembly _ positive)).trans (writes_roomReevaluation _)

theorem writes_runOpen (q : Port) (r : Request) (s : State) : Writes c s (runOpen q r s).1 := by
  unfold runOpen
  split
  · exact .refl
  next a e =>
    split
    · exact .refl
    next x _ =>
      split
      · exact .refl
      · split
        · exact .refl
        · split
          · exact .refl
          · unfold State.decideRoom
            dsimp only
            split
            · exact writes_grantOpen s q (openArgs_length e).1 _
            · exact .single (.stream s a.stream _ (.inl rfl))

/-! ### APPEND, COMMIT, ABORT -/

theorem writes_runAppend (q : Port) (r : Request) (s : State) : Writes (some .append) s (runAppend q r s).1 := by
  unfold runAppend
  split
  · exact .refl
  · split
    · exact .refl
    · split
      · exact .refl
      next d m e =>
        split
        · exact .refl
        next room => exact .single (.store s d m r.payload rfl (assemblyOf_some e).2 (Nat.not_lt.mp room))

theorem writes_arrivalEvaluation (s : State) (i : StreamId) (x : Seq) (urgent : Bool) (p : Port) :
    Writes c s (s.arrivalEvaluation i x urgent p) := by
  unfold State.arrivalEvaluation
  split
  next u present =>
    have counted : Writes c s (s.setSub i p (some { u with unannounced := min 512 (u.unannounced + 1) })) :=
      .single (.sub s i p u _ present rfl)
    dsimp only
    split
    · exact counted.trans (writes_postArrival (State.setSub_sub_self s i p _) rfl _ _)
    · exact counted
  next => exact .refl

theorem writes_lagEvaluation (s : State) (i : StreamId) (x : Seq) (p : Port) : Writes c s (s.lagEvaluation i x p) := by
  unfold State.lagEvaluation
  split
  next u present =>
    split
    · exact (Relation.ReflTransGen.single (.post s p _)).tail (.sub _ i p u _ (by rw [post_sub, present]) rfl)
    · exact .refl
  next => exact .refl

theorem writes_evaluatePort (i : StreamId) (x : Seq) (urgent : Bool) (s : State) (p : Port) :
    Writes c s (State.evaluatePort i x urgent s p) := by
  have evaluated := (writes_arrivalEvaluation (c := c) s i x urgent p).trans (writes_lagEvaluation _ i x p)
  unfold State.evaluatePort
  dsimp only
  split
  next pending => exact evaluated.tail (.startFlush _ i p pending)
  next => exact evaluated

theorem writes_commitStream (s : State) (i : StreamId) {d : DescId} {m : StagedMessage} (staged : s.pool.desc d = .staged m)
    (positive : 1 ≤ m.fill) : Writes c s (s.commitStream i d m) := by
  have committed : Writes c s (s.commitAssembly i d m) :=
    (Relation.ReflTransGen.single (.commit s d m _ _ _ _ staged positive)).tail (.stream _ i _ (.inl rfl))
  exact ((committed.trans (writes_foldl (writes_evaluatePort i _ m.urgent) allPorts _)).trans
    (writes_retirementCheck _ i)).trans (writes_reevaluateAfter s.pool _)

theorem writes_runCommit (q : Port) (r : Request) (s : State) : Writes c s (runCommit q r s).1 := by
  unfold runCommit
  split
  · exact .refl
  next i _ =>
    split
    · exact .refl
    · split
      · exact .refl
      next d m e =>
        split
        · exact .refl
        next filled =>
          dsimp only
          exact writes_commitStream s i (assemblyOf_some e).2 (Nat.one_le_iff_ne_zero.mpr filled)

theorem writes_runAbort (q : Port) (r : Request) (s : State) : Writes c s (runAbort q r s).1 := by
  unfold runAbort
  split
  · exact .refl
  next i _ =>
    split
    · exact .refl
    · split
      · exact .refl
      · exact (writes_abortAssembly s i).trans (writes_reevaluateAfter s.pool _)

/-! ### JOIN, LEAVE, EVICT -/

theorem writes_runJoin {p : Port} {s : State} (attached : (s.session p).state = .attached) (r : Request) :
    Writes c s (runJoin p r s).1 := by
  unfold runJoin
  split
  · exact .refl
  next a _ =>
    split
    · exact .refl
    · split
      · exact .refl
      · unfold State.joinStream
        dsimp only
        split
        · exact .single (.join s _ p _ attached rfl)
        · exact (Relation.ReflTransGen.single (.raise s _)).tail (.join _ _ p _ attached rfl)

theorem writes_runLeave (p : Port) (r : Request) (s : State) : Writes c s (runLeave p r s).1 := by
  unfold runLeave
  split
  · exact .refl
  next i _ =>
    split
    · exact .refl
    · split
      · exact .refl
      · exact ((writes_dropSub s i p).trans (writes_retirementCheck _ i)).trans (writes_reevaluateAfter s.pool _)

/-- The count of an eviction may be written before the removal. -/
theorem dropSub_setSession (s : State) (i : StreamId) (p : Port) (x : Session) :
    (s.dropSub i p).setSession p x = (s.setSession p x).dropSub i p := by
  unfold State.dropSub
  simp only [State.setSession_sub]
  split <;> rfl

theorem writes_evictSub (s : State) (i : StreamId) {p : Port} (q : Port) {u : Subscription} (present : s.sub i p = some u)
    (lapsed : u.state = .lapsed) : Writes c s (s.evictSub i p q u) := by
  have counted : Writes c s (s.setSession p { s.session p with evicted := (s.session p).evicted + 1 }) :=
    .single (.evicted s i p u present lapsed)
  have dropped := counted.trans (writes_dropSub _ i p)
  rw [← dropSub_setSession] at dropped
  rw [Subscriptions.evictSub_eq]
  exact ((dropped.tail (.post _ p _)).trans (writes_retirementCheck _ i)).trans (writes_reevaluateAfter s.pool _)

theorem writes_runEvict (q : Port) (r : Request) (s : State) : Writes c s (runEvict q r s).1 := by
  unfold runEvict
  split
  · exact .refl
  next a _ =>
    split
    · exact .refl
    · split
      · exact .refl
      next u present =>
        split
        · exact .refl
        next lapsed =>
          dsimp only
          exact writes_evictSub s a.stream q present lapsed

/-! ### READ, RELEASE, SUB_INFO -/

theorem writes_testBlocks (l : List BlockId) (s : State) : Writes c s (testBlocks l s).1 := by
  induction l generalizing s with
  | nil => exact .refl
  | cons b rest ih =>
    unfold testBlocks
    split
    · exact .refl
    · split
      · exact .single (.drawn s)
      · exact (Relation.ReflTransGen.single (.drawn s)).trans (ih _)

theorem testBlocks_sub (l : List BlockId) (s : State) (i : StreamId) (p : Port) : (testBlocks l s).1.sub i p = s.sub i p := by
  rw [testBlocks_kept]
  rfl

theorem writes_readSub {s : State} {i : StreamId} {p : Port} {u : Subscription} (present : s.sub i p = some u) (most : Nat) :
    Writes c s (s.readSub i p u most).1 := by
  have reported : Writes c s (s.setSub i p (some u.lostReported)) := .single (.sub s i p u _ present rfl)
  unfold State.readSub
  split
  · exact reported
  · split
    · exact reported
    next d _ =>
      split
      next m _ =>
        split
        · exact reported
        · unfold State.readPiece
          dsimp only
          split
          · exact reported
          · split
            next k b _ =>
              exact ((writes_testBlocks _ s).tail (.fail _ d b)).tail
                (.sub _ i p u _ ((testBlocks_sub _ s i p).trans present) rfl)
            next =>
              exact (writes_testBlocks _ s).tail (.sub _ i p u _ ((testBlocks_sub _ s i p).trans present) rfl)
      next => exact reported

theorem writes_runRead (p : Port) (r : Request) (s : State) : Writes c s (runRead p r s).1 := by
  unfold runRead
  split
  · exact .refl
  · split
    · exact .refl
    · split
      · exact .refl
      next present => exact writes_readSub present _

theorem writes_runRelease (p : Port) (r : Request) (s : State) : Writes c s (runRelease p r s).1 := by
  unfold runRelease
  split
  · exact .refl
  next a _ =>
    split
    · exact .refl
    · split
      · exact .refl
      next u present =>
        split
        · exact .refl
        · split
          · exact .refl
          · exact (((Relation.ReflTransGen.single (.lower s _)).tail
              (.sub _ a.stream p u _ present (advance_state u _))).trans (writes_retirementCheck _ a.stream)).trans
              (writes_reevaluateAfter s.pool _)

theorem writes_runSubInfo (p : Port) (r : Request) (s : State) : Writes c s (runSubInfo p r s).1 := by
  unfold runSubInfo
  split
  · exact .refl
  next a _ =>
    split
    · exact .refl
    · split
      · exact .refl
      next u present =>
        dsimp only
        split
        · exact .single (.sub s a.stream p u _ present rfl)
        · exact .refl

/-! ### TAKE_NOTICES, POOL_INFO, SCRUB -/

theorem writes_processNotice (p : Port) (s : State) (n : Notice) : Writes c s (State.processNotice p s n) := by
  unfold State.processNotice
  split
  · exact .refl
  next u present =>
    split
    · have cleared : Writes c s (s.setSub n.stream p (some { u with arrivalQueued := false })) :=
        .single (.sub s n.stream p u _ present rfl)
      dsimp only
      split
      · exact cleared.trans (writes_postArrival (State.setSub_sub_self s n.stream p _) rfl _ _)
      · exact cleared
    · exact .single (.sub s n.stream p u _ present rfl)
    all_goals exact .refl

theorem writes_takeNotices (s : State) (p : Port) (k : Nat) : Writes c s (s.takeNotices p k) := by
  have removed : Writes c s (s.setQueue p { records := (s.queue p).records.drop k, dropped := 0 }) :=
    .single (.thin s p _ 0 (by simp) (Nat.zero_le _))
  have processed := removed.trans (writes_foldl (writes_processNotice p) ((s.queue p).records.take k) _)
  unfold State.takeNotices State.flushAfterTake
  dsimp only
  split
  next starts =>
    obtain ⟨n, -, h⟩ := List.any_eq_true.mp starts
    exact processed.tail (.startFlush _ n.stream p (Bool.and_eq_true _ _ ▸ h).2)
  next => exact processed

theorem writes_runTakeNotices (p : Port) (r : Request) (s : State) : Writes c s (runTakeNotices p r s).1 := by
  unfold runTakeNotices
  split
  · exact .refl
  · exact writes_takeNotices s p _

theorem writes_runPoolInfo (p : Port) (r : Request) (s : State) : Writes c s (runPoolInfo p r s).1 := by
  unfold runPoolInfo
  split <;> exact .refl

/-- The blocks of a batch are still quarantined when their turn comes. -/
theorem writes_scrubBlocks (l : List BlockId) (s : State) (n : ScrubCounts) (inQ : l.Subperm s.pool.quarantine) :
    Writes (some .scrub) s (scrubBlocks l s n).1 := by
  induction l generalizing s n with
  | nil => exact .refl
  | cons b rest ih =>
    have mem : b ∈ s.pool.quarantine := inQ.subset (List.mem_cons_self)
    have left : rest.Subperm (s.pool.quarantine.erase b) := by simpa using inQ.erase b
    have leftFail : rest.Subperm (s.pool.scrubFail b s.draws).quarantine := by
      unfold Pool.scrubFail
      dsimp only
      split
      · exact left
      · exact left.trans (List.sublist_append_left _ _).subperm
    have failed : Writes (some .scrub) s (s.setPool (s.pool.scrubFail b s.draws)).drawn :=
      (Relation.ReflTransGen.single (.scrubFail s b s.draws rfl mem)).tail (.drawn _)
    unfold scrubBlocks
    split
    · exact ((Relation.ReflTransGen.single (.scrubPass s b rfl mem)).tail (.drawn _)).trans (ih _ _ left)
    · split
      · exact failed.trans (ih _ _ leftFail)
      · exact failed.trans (ih _ _ leftFail)

theorem writes_runScrub (p : Port) (r : Request) (s : State) : Writes (some .scrub) s (runScrub p r s).1 := by
  unfold runScrub
  split
  · exact .refl
  · split
    · exact .refl
    · exact (writes_scrubBlocks _ s _ (List.take_sublist _ _).subperm).trans (writes_reevaluateAfter s.pool _)

end Commands

/-! ### Any request -/

/-- A command that passes the gate of an ATTACHED port is a chain of writes. -/
theorem writes_runCommand (c : Command) {p : Port} {s : State}
    (gate : (s.session p).state = .attached ∨ c.passesAnyGate = true) (r : Request) :
    Writes (some c) s (runCommand c p r s).1 := by
  cases c
  case attach => exact writes_runAttach p r s
  case portInfo => exact writes_runPortInfo p r s
  all_goals have attached : (s.session p).state = .attached := gate.resolve_right (by simp [Command.passesAnyGate])
  case detach => exact writes_runDetach p r s
  case ping => exact writes_runPing p r s
  case define => exact writes_runDefine p r s
  case dissolve => exact writes_runDissolve p r s
  case streamInfo => exact writes_runStreamInfo p r s
  case claim => exact writes_runClaim attached r
  case unclaim => exact writes_runUnclaim p r s
  case openMessage => exact writes_runOpen p r s
  case append => exact writes_runAppend p r s
  case commit => exact writes_runCommit p r s
  case abort => exact writes_runAbort p r s
  case join => exact writes_runJoin attached r
  case leave => exact writes_runLeave p r s
  case evict => exact writes_runEvict p r s
  case read => exact writes_runRead p r s
  case release => exact writes_runRelease p r s
  case subInfo => exact writes_runSubInfo p r s
  case takeNotices => exact writes_runTakeNotices p r s
  case poolInfo => exact writes_runPoolInfo p r s
  case scrub => exact writes_runScrub p r s

/-- The taking of a request by the core is a chain of writes. -/
theorem writes_takeRequest (p : Port) (r : Request) (s : State) : Writes r.command s (takeRequest p r s).1 := by
  unfold takeRequest
  split
  next c named =>
    rw [named]
    unfold takeCommand
    split
    next attached =>
      have still : ((s.restartLease p).session p).state = .attached := by
        rw [State.restartLease, State.setSession_session_self]
        exact attached
      exact (Relation.ReflTransGen.single (.lease s p attached)).trans (writes_runCommand c (.inl still) r)
    · split
      next passes => exact writes_runCommand c (.inr passes) r
      next => exact .refl
    · split
      next passes => exact writes_runCommand c (.inr passes) r
      next => exact .refl
  next =>
    unfold takeBadCommand
    split
    next attached => exact .single (.lease s p attached)
    · exact .refl
    · exact .refl

/-- What every write keeps, a chain of writes keeps. -/
theorem writes_keep {c : Option Command} {P : State → Prop} (write : ∀ s t, Write c s t → P s → P t) {s t : State} (h : P s)
    (run : Writes c s t) : P t := by
  induction run with
  | refl => exact h
  | tail _ last ih => exact write _ _ last ih

end Sys2Proof.Proofs.TableWrites
end

section
/-! SUPPORT. What every step keeps: the memory's canonical form and the queue bounds, the pool, the laws of the streams, the
sessions. Each is kept by every write of a command and by every other change. -/

namespace Sys2Proof.Proofs.StepInvariants

open Sys2Proof.Machine Sys2Proof.Safety Sys2Proof.Laws Sys2Proof.Proofs.Steps Sys2Proof.Proofs.TableWrites

/-! ### The bytes of the Block Pool -/

theorem lowerReaders_bytes (q : Pool) (ds : List DescId) : (q.lowerReaders ds).bytes = q.bytes := by
  rw [Pool.lowerReaders_kept]

theorem raiseReaders_bytes (q : Pool) (ds : List DescId) : (q.raiseReaders ds).bytes = q.bytes := by
  rw [Pool.raiseReaders_kept]

theorem allocate_bytes {q t : Pool} {i : StreamId} {n : Nat} {tag : BitVec 16} {urgent : Bool} {d : DescId}
    (e : q.allocate i n tag urgent = some (d, t)) : t.bytes = q.bytes := by
  unfold Pool.allocate at e
  dsimp only at e
  split at e
  · exact absurd e (by simp)
  · split at e
    · simp only [Option.some.injEq, Prod.mk.injEq] at e
      rw [← e.2, Pool.setDesc_bytes, Pool.stageChain_kept]
    · exact absurd e (by simp)

theorem endChain_bytes (q : Pool) (b : Option BlockId) : (q.endChain b).bytes = q.bytes := by
  cases b <;> rfl

theorem commitMessage_bytes (q : Pool) (d : DescId) (m : StagedMessage) (x : Seq) (stamp : BitVec 24) (readers : Nat) :
    (q.commitMessage d m x stamp readers).bytes = q.bytes := by
  unfold Pool.commitMessage
  dsimp only
  rw [Pool.setDesc_bytes, (Pool.returnBlocks_kept _ _).1, endChain_bytes, (Pool.commitBlocks_block _ _).1]

theorem linkNewest_bytes (q : Pool) (newest : Option DescId) (d : DescId) : (q.linkNewest newest d).bytes = q.bytes := by
  unfold Pool.linkNewest
  split
  · rw [Pool.updateCommitted_kept]
  · rfl

theorem markFailed_bytes (s : State) (d : DescId) (b : BlockId) : (s.markFailed d b).pool.bytes = s.pool.bytes := by
  rw [State.markFailed, State.setPool_pool, Pool.updateCommitted_kept, Pool.setBlock_bytes]

theorem startFlush_pool (s : State) (p : Port) : (s.startFlush p).pool = s.pool := by
  rw [startFlush_kept]

/-- Only APPEND and SCRUB write payload bytes, and they keep the canonical form. -/
theorem write_bytes {c : Option Command} {s t : State} (h : Write c s t) :
    t.pool.bytes = s.pool.bytes ∨
      ((c = some .append ∨ c = some .scrub) ∧ (Memory.wf s.pool.bytes → Memory.wf t.pool.bytes)) := by
  cases h
  case store d m data appends staged room => exact .inr ⟨.inl appends, storePayload_wf s.pool d m data⟩
  case scrubPass b scrubs quarantined => exact .inr ⟨.inr scrubs, fun h => (scrub_wf s.pool b 0 h).1⟩
  case scrubFail b draw scrubs quarantined => exact .inr ⟨.inr scrubs, fun h => (scrub_wf s.pool b draw h).2⟩
  all_goals left
  case post p n => rw [post_pool]
  case startFlush p i pending => rw [startFlush_pool]
  case release d => exact releaseMessage_bytes s.pool d
  case lower ds => exact lowerReaders_bytes s.pool ds
  case raise ds => exact raiseReaders_bytes s.pool ds
  case allocate taken => exact allocate_bytes taken
  case commit d m x stamp readers newest staged positive =>
    rw [State.setPool_pool, linkNewest_bytes, commitMessage_bytes]
  case fail d b => exact markFailed_bytes s d b
  all_goals rfl

/-- A request other than APPEND and SCRUB leaves every payload byte. -/
theorem takeRequest_bytes (p : Port) (r : Request) (s : State) (append : r.command ≠ some .append)
    (scrub : r.command ≠ some .scrub) : (takeRequest p r s).1.pool.bytes = s.pool.bytes :=
  writes_keep (P := fun w => w.pool.bytes = s.pool.bytes)
    (fun _ _ write h => ((write_bytes write).resolve_right fun x => x.1.elim append scrub).trans h) rfl
    (writes_takeRequest p r s)

theorem flushPort_bytes (s : State) (p : Port) : (s.flushPort p).pool.bytes = s.pool.bytes :=
  writes_keep (c := none) (P := fun w => w.pool.bytes = s.pool.bytes)
    (fun _ _ write h => ((write_bytes write).resolve_right fun x => x.1.elim nofun nofun).trans h) rfl
    (writes_flushPort s p)

theorem change_memory {c : Instr} {s t : State} (change : Change c s t) (h : MemoryCanonical s) : MemoryCanonical t := by
  cases change
  case request p r operating =>
    exact writes_keep (P := MemoryCanonical)
      (fun _ _ write k => (write_bytes write).elim (fun e => by rw [MemoryCanonical, e]; exact k) (fun e => e.2 k)) h
      (writes_takeRequest p r s)
  case flush p event expired =>
    rw [MemoryCanonical, flushPort_bytes]
    exact h
  case enterReset => exact reset_wf
  case endPass => exact Memory.wf_empty
  all_goals exact h

/-! ### The notice queues -/

theorem write_queues {c : Option Command} {s t : State} (write : Write c s t) (h : QueueBounds s) : QueueBounds t := by
  cases write
  case post p n => exact fun q => post_bounds s p q n (h q)
  case startFlush =>
    rw [startFlush_kept]
    exact h
  case thin p l d fewer count =>
    intro q
    rw [State.setQueue_queue]
    split
    · exact ⟨fewer.trans (h p).1, count.trans (h p).2⟩
    · exact h q
  case scrubPass b scrubs quarantined => simpa only [QueueBounds, State.setPool_queue] using h
  all_goals exact h

theorem change_queues {c : Instr} {s t : State} (change : Change c s t) (h : QueueBounds s) : QueueBounds t := by
  cases change
  case request p r operating => exact writes_keep (fun _ _ => write_queues) h (writes_takeRequest p r s)
  case flush p event expired => exact writes_keep (c := none) (fun _ _ => write_queues) h (writes_flushPort s p)
  case enterReset =>
    intro q
    have empty : s.enterReset.queue q = .empty := get_replicate _ q
    rw [empty]
    exact ⟨Nat.zero_le _, Nat.zero_le _⟩
  all_goals exact h

/-- Settles O56: both properties are kept by every change and do not read the queue of commands. -/
theorem stepKeepsMemoryAndQueues : Obligations.StepKeepsMemoryAndQueues := by
  unfold Obligations.StepKeepsMemoryAndQueues
  exact ⟨fun _ _ => step_keeps (fun _ _ _ => change_memory) (fun _ _ => id),
    fun _ _ => step_keeps (fun _ _ _ => change_queues) (fun _ _ => id)⟩

/-! ### The pool -/

theorem write_pool {c : Option Command} {s t : State} (write : Write c s t) (h : PoolSound s.pool) : PoolSound t.pool := by
  cases write
  case post p n =>
    rw [post_pool]
    exact h
  case startFlush p i pending =>
    rw [startFlush_pool]
    exact h
  case release d => exact releaseMessage_sound h d
  case lower ds => exact lowerReaders_sound h ds
  case raise ds => exact raiseReaders_sound h ds
  case allocate i n tag urgent d q positive taken => exact allocate_sound h i n tag urgent d positive taken
  case store d m data appends staged room => exact storePayload_sound h d m data staged room
  case commit d m x stamp readers newest staged positive =>
    exact linkNewest_sound (commitMessage_sound h d m x stamp readers staged positive) newest d
  case fail d b => exact updateCommitted_sound (setFailed_sound h b) d _ (fun _ => ⟨rfl, rfl, rfl, rfl⟩)
  case scrubPass b scrubs quarantined => exact scrubPass_sound h b quarantined
  case scrubFail b draw scrubs quarantined => exact scrubFail_sound h b draw quarantined
  all_goals exact h

theorem change_pool {c : Instr} {s t : State} (change : Change c s t) (h : PoolSound s.pool) : PoolSound t.pool := by
  cases change
  case request p r operating =>
    exact writes_keep (P := fun w => PoolSound w.pool) (fun _ _ => write_pool) h (writes_takeRequest p r s)
  case flush p event expired =>
    exact writes_keep (c := none) (P := fun w => PoolSound w.pool) (fun _ _ => write_pool) h (writes_flushPort s p)
  case enterReset => exact poolSound_powerOn
  case endPass => exact poolSound_powerOn
  all_goals exact h

/-- Settles O57: every change keeps the soundness of the pool. -/
theorem stepKeepsPool : Obligations.StepKeepsPool := by
  unfold Obligations.StepKeepsPool
  intro s t accounts chains e
  have sound : PoolSound t.pool := step_keeps (P := fun w => PoolSound w.pool) (fun _ _ _ => change_pool) (fun _ _ => id)
    ⟨accounts, chains⟩ e
  exact ⟨sound.accounts, sound.chains⟩

/-! ### The streams -/

/-- The laws of the tables, and that every stream is UNDEFINED outside operation. -/
structure TablesLawful (s : State) : Prop where
  lawful : Lawful s
  outside : s.phase ≠ .operating → ∀ i, (s.stream i).settings = none

/-- A flush leaves the Stream Table. -/
theorem flushPort_streams (s : State) (p : Port) : (s.flushPort p).streams = s.streams := by
  have one : ∀ (w : State) (i : StreamId), (State.flushStream p w i).streams = w.streams := by
    intro w i
    unfold State.flushStream
    split
    · split
      · rw [postArrival_kept]
      · rfl
    · rfl
  have restart : ∀ w : State, (w.startFlushIfPending p).streams = w.streams := by
    intro w
    unfold State.startFlushIfPending
    split
    · rw [startFlush_kept]
    · rfl
  rw [State.flushPort, restart, State.stopFlush, State.setSession_streams, foldl_keeps State.streams _ one]

/-- Tables at their starting values are lawful. -/
theorem lawful_start {s : State} (h : TablesLawful s) (away : s.phase ≠ .operating) : Lawful s.endPass := by
  have record (i : StreamId) := undefined_of h.lawful i (h.outside away i)
  exact lawful_powerOn rfl (fun i => (record i).1) (fun i => (record i).2)

theorem change_streams {c : Instr} {s t : State} (change : Change c s t) (h : TablesLawful s) : TablesLawful t := by
  cases change
  case request p r operating =>
    refine ⟨takeRequest_lawful p r h.lawful, fun away => absurd ?_ away⟩
    rw [(takeRequest_kept p r s).2.2, operating]
  case portReset p event =>
    refine ⟨setSession_lawful (lapseHoldings_lawful h.lawful p) p _, fun away i => ?_⟩
    have record : ((s.lapseHoldings p).detachSession p).stream i = _ := lapseHoldings_stream s p i
    rw [record]
    exact h.outside away i
  case lapse p event =>
    refine ⟨setSession_lawful (lapseHoldings_lawful h.lawful p) p _, fun away i => ?_⟩
    have record : (s.lapsePort p).stream i = _ := lapseHoldings_stream s p i
    rw [record]
    exact h.outside away i
  case flush p event expired =>
    refine ⟨flushPort_lawful h.lawful p, fun away i => ?_⟩
    have out := flushPort_outside s p
    simp only [State.outside, Prod.mk.injEq] at out
    obtain ⟨-, -, -, -, -, -, phase, -, -⟩ := out
    rw [phase] at away
    rw [State.stream, flushPort_streams]
    exact h.outside away i
  case enterReset =>
    have start : ∀ i, s.enterReset.stream i = StreamRecord.undefined := fun i => get_replicate _ i
    refine ⟨lawful_powerOn rfl start (fun i p => ?_), fun _ i => by rw [start i]; rfl⟩
    show ((Vector.replicate 64 (Vector.replicate 4 none)).get i).get p = none
    rw [get_replicate, get_replicate]
  case leaveReset event inReset =>
    have away : s.phase ≠ .operating := by simp [inReset]
    exact ⟨lawful_of_tables h.lawful rfl (fun _ => rfl) (fun _ _ => rfl), fun _ => h.outside away⟩
  case endPass event initialising =>
    exact ⟨lawful_start h (by simp [initialising]), fun away => absurd rfl away⟩
  all_goals exact ⟨lawful_of_tables h.lawful rfl (fun _ => rfl) (fun _ _ => rfl), h.outside⟩

/-- Settles O60: every change keeps the laws of the tables, whose committed lists are those of the state. -/
theorem stepKeepsStreams : Obligations.StepKeepsStreams := by
  unfold Obligations.StepKeepsStreams
  intro s t accounts chains streams e
  have before : TablesLawful s := ⟨(lawful_iff s).mpr ⟨⟨accounts, chains⟩, streams.each⟩, streams.outside⟩
  have after : TablesLawful t := step_keeps (fun _ _ _ => change_streams)
    (fun _ _ h => ⟨lawful_of_tables h.lawful rfl (fun _ => rfl) (fun _ _ => rfl), h.outside⟩) before e
  exact ⟨((lawful_iff t).mp after.lawful).2, after.outside⟩

end Sys2Proof.Proofs.StepInvariants
end

section
/-! SUPPORT. Every step keeps the agreement of claims, subscriptions, counts and timers with the sessions. -/

namespace Sys2Proof.Proofs.SessionInvariant

open Sys2Proof.Machine Sys2Proof.Safety Sys2Proof.Laws Sys2Proof.Proofs.Steps Sys2Proof.Proofs.TableWrites
  Sys2Proof.Proofs.StepInvariants Sys2Proof.Proofs.Teardown

/-! ### Timers -/

theorem loadLease_range {period : Nat} (h : period ≤ 255) (n : Nat) (e : loadLease period = .running n) :
    1 ≤ n ∧ n ≤ 2550 := by
  unfold loadLease at e
  split at e
  · exact absurd e (by simp)
  · rw [Timer.running.injEq] at e
    omega

/-- A session ATTACHED by an ATTACH. -/
theorem timers_writeSettings {x : Session} {a : AttachArgs} (range : AttachArgs.InRange a) :
    TimersInRange { x with
      state := .attached, leasePeriod := a.leasePeriod, leaseTimer := loadLease a.leasePeriod,
      flushPeriod := a.flushPeriod, flushTimer := .idle, mask := a.mask } where
  leasePeriod_le := range.1
  flushPeriod_le := range.2
  lease_range := loadLease_range range.1
  flush_range := nofun
  lease_attached := fun _ => rfl
  flush_attached := fun _ => rfl
  detached_defaults := nofun

/-- A session DETACHED. -/
theorem timers_detached (x : Session) :
    TimersInRange { x with
      state := .detached, leasePeriod := 0, leaseTimer := .idle, flushPeriod := 0, flushTimer := .idle, mask := .default } where
  leasePeriod_le := Nat.zero_le _
  flushPeriod_le := Nat.zero_le _
  lease_range := nofun
  flush_range := nofun
  lease_attached := fun h => absurd rfl h
  flush_attached := fun h => absurd rfl h
  detached_defaults := fun _ => ⟨rfl, rfl, rfl⟩

/-- A session LAPSED. -/
theorem timers_lapsed {x : Session} (h : TimersInRange x) :
    TimersInRange { x with state := .lapsed, leaseTimer := .idle, flushTimer := .idle } where
  leasePeriod_le := h.leasePeriod_le
  flushPeriod_le := h.flushPeriod_le
  lease_range := nofun
  flush_range := nofun
  lease_attached := fun h => absurd rfl h
  flush_attached := fun h => absurd rfl h
  detached_defaults := nofun

/-- The lease of an ATTACHED session restarted. -/
theorem timers_lease {x : Session} (h : TimersInRange x) (attached : x.state = .attached) :
    TimersInRange { x with leaseTimer := loadLease x.leasePeriod } where
  leasePeriod_le := h.leasePeriod_le
  flushPeriod_le := h.flushPeriod_le
  lease_range := loadLease_range h.leasePeriod_le
  flush_range := h.flush_range
  lease_attached := fun _ => attached
  flush_attached := h.flush_attached
  detached_defaults := h.detached_defaults

/-- The flush timer of an ATTACHED session started. -/
theorem timers_flush {x : Session} (h : TimersInRange x) (attached : x.state = .attached) (positive : x.flushPeriod ≠ 0) :
    TimersInRange { x with flushTimer := .running x.flushPeriod } where
  leasePeriod_le := h.leasePeriod_le
  flushPeriod_le := h.flushPeriod_le
  lease_range := h.lease_range
  flush_range := fun n e => by
    have le := h.flushPeriod_le
    rw [Timer.running.injEq] at e
    omega
  lease_attached := h.lease_attached
  flush_attached := fun _ => attached
  detached_defaults := h.detached_defaults

/-- The flush timer of a session stopped. -/
theorem timers_stopFlush {x : Session} (h : TimersInRange x) : TimersInRange { x with flushTimer := .idle } where
  leasePeriod_le := h.leasePeriod_le
  flushPeriod_le := h.flushPeriod_le
  lease_range := h.lease_range
  flush_range := nofun
  lease_attached := h.lease_attached
  flush_attached := fun h => absurd rfl h
  detached_defaults := h.detached_defaults

/-- The counts of a session are not read by the laws of its timers. -/
theorem timers_counts {x : Session} (h : TimersInRange x) (lost evicted : Nat) :
    TimersInRange { x with claimsLost := lost, evicted := evicted } :=
  ⟨h.leasePeriod_le, h.flushPeriod_le, h.lease_range, h.flush_range, h.lease_attached, h.flush_attached,
    h.detached_defaults⟩

theorem timer_tick_range {x : Timer} {most : Nat} (h : ∀ n, x = .running n → 1 ≤ n ∧ n ≤ most) (n : Nat)
    (e : x.tick = .running n) : 1 ≤ n ∧ n ≤ most := by
  cases x with
  | idle => exact absurd e (by simp [Timer.tick])
  | expired => exact absurd e (by simp [Timer.tick])
  | running k =>
    have bound := h k rfl
    simp only [Timer.tick] at e
    split at e
    · exact absurd e (by simp)
    · rw [Timer.running.injEq] at e
      omega

theorem timer_tick_idle (x : Timer) : x.tick = .idle ↔ x = .idle := by
  cases x with
  | idle => simp [Timer.tick]
  | expired => simp [Timer.tick]
  | running n =>
    simp only [Timer.tick]
    split <;> simp

/-- A tick of a session's timers. -/
theorem timers_tick {x : Session} (h : TimersInRange x) : TimersInRange x.tick where
  leasePeriod_le := h.leasePeriod_le
  flushPeriod_le := h.flushPeriod_le
  lease_range := timer_tick_range h.lease_range
  flush_range := timer_tick_range h.flush_range
  lease_attached := fun runs => h.lease_attached ((timer_tick_idle _).not.mp runs)
  flush_attached := fun runs => h.flush_attached ((timer_tick_idle _).not.mp runs)
  detached_defaults := h.detached_defaults

/-! ### The agreement -/

/-- The agreement of sessions and holdings, and the laws of every port's timers. -/
structure SessionsLawful (s : State) : Prop where
  agree : SessionAgreement s
  timers : ∀ p, TimersInRange (s.session p)

/-- A change that keeps the session states and the clear counts of ATTACHED ports, keeps or ends claims or gives them to
ATTACHED ports, and keeps the state of subscriptions or creates them ACTIVE for ATTACHED ports. -/
theorem agree_of_tables {s t : State} (h : SessionAgreement s)
    (states : ∀ p, (t.session p).state = (s.session p).state)
    (counts : ∀ p, (s.session p).state = .attached → (t.session p).claimsLost = 0 ∧ (t.session p).evicted = 0)
    (claims : ∀ i, (t.stream i).claim = (s.stream i).claim ∨ (t.stream i).claim = .none ∨
      ∃ q, (t.stream i).claim = .held q ∧ (s.session q).state = .attached)
    (subs : ∀ i p u, t.sub i p = some u → (∃ v, s.sub i p = some v ∧ u.state = v.state) ∨
      (u.state = .active ∧ (s.session p).state = .attached)) : SessionAgreement t where
  held_attached i p e := by
    rw [states]
    obtain same | ended | ⟨q, held, attached⟩ := claims i
    · exact h.held_attached i p (same ▸ e)
    · exact absurd (ended ▸ e) (by simp)
    · rw [e, Claim.held.injEq] at held
      exact held ▸ attached
  stale_away i p e := by
    rw [states]
    obtain same | ended | ⟨q, held, -⟩ := claims i
    · exact h.stale_away i p (same ▸ e)
    · exact absurd (ended ▸ e) (by simp)
    · exact absurd (held ▸ e) (by simp)
  active_attached i p u e := by
    rw [states]
    obtain ⟨v, present, state⟩ | ⟨active, attached⟩ := subs i p u e
    · rw [state]
      exact h.active_attached i p v present
    · exact ⟨fun _ => attached, fun _ => active⟩
  counts_clear p attached := counts p (states p ▸ attached)

/-- A change of one session that keeps its state and its laws, and its counts where it is ATTACHED. -/
theorem setSession_lawful {s : State} (h : SessionsLawful s) (p : Port) {x : Session} (state : x.state = (s.session p).state)
    (counts : (s.session p).state = .attached → x.claimsLost = 0 ∧ x.evicted = 0) (timers : TimersInRange x) :
    SessionsLawful (s.setSession p x) := by
  refine ⟨agree_of_tables h.agree (fun q => ?_) (fun q attached => ?_) (fun _ => .inl rfl)
    (fun _ _ u e => .inl ⟨u, e, rfl⟩), fun q => ?_⟩
  all_goals
    rw [State.setSession_session]
    split
  next e => rw [state, e]
  next => rfl
  next e =>
    subst e
    exact counts attached
  next => exact h.agree.counts_clear q attached
  next => exact timers
  next => exact h.timers q

/-- A change that leaves the sessions. -/
theorem lawful_of_sessions {s t : State} (h : SessionsLawful s) (sessions : ∀ p, t.session p = s.session p)
    (claims : ∀ i, (t.stream i).claim = (s.stream i).claim ∨ (t.stream i).claim = .none ∨
      ∃ q, (t.stream i).claim = .held q ∧ (s.session q).state = .attached)
    (subs : ∀ i p u, t.sub i p = some u → (∃ v, s.sub i p = some v ∧ u.state = v.state) ∨
      (u.state = .active ∧ (s.session p).state = .attached)) : SessionsLawful t :=
  ⟨agree_of_tables h.agree (fun p => by rw [sessions]) (fun p attached => by rw [sessions]; exact h.agree.counts_clear p attached)
    claims subs, fun p => by rw [sessions]; exact h.timers p⟩

/-- A change that leaves the sessions, the claims and the subscriptions. -/
theorem lawful_of_same {s t : State} (h : SessionsLawful s) (sessions : t.sessions = s.sessions) (streams : t.streams = s.streams)
    (subs : t.subs = s.subs) : SessionsLawful t :=
  lawful_of_sessions h (fun p => by rw [State.session, sessions]; rfl)
    (fun i => .inl (by rw [State.stream, streams]; rfl))
    (fun i p u e => .inl ⟨u, by rw [← e, State.sub, State.sub, subs], rfl⟩)

/-- A change of one stream's record. -/
theorem setStream_lawful {s : State} (h : SessionsLawful s) (i : StreamId) (r : StreamRecord)
    (claim : r.claim = (s.stream i).claim ∨ r.claim = .none ∨ ∃ q, r.claim = .held q ∧ (s.session q).state = .attached) :
    SessionsLawful (s.setStream i r) := by
  refine lawful_of_sessions h (fun _ => rfl) (fun j => ?_) (fun _ _ u e => .inl ⟨u, e, rfl⟩)
  rw [State.setStream_stream]
  split
  next e =>
    subst e
    exact claim
  next => exact .inl rfl

/-- A change of one slot. -/
theorem setSub_lawful {s : State} (h : SessionsLawful s) (i : StreamId) (p : Port) (x : Option Subscription)
    (state : ∀ u, x = some u → (∃ v, s.sub i p = some v ∧ u.state = v.state) ∨
      (u.state = .active ∧ (s.session p).state = .attached)) : SessionsLawful (s.setSub i p x) := by
  refine lawful_of_sessions h (fun _ => rfl) (fun _ => .inl rfl) (fun j q u e => ?_)
  rw [State.setSub_sub] at e
  split at e
  next same =>
    obtain ⟨rfl, rfl⟩ := same
    exact state u e
  next => exact .inl ⟨u, e, rfl⟩

/-- A new session of a port that holds nothing agrees with the holdings of the other ports. -/
theorem replaceSession_lawful {s : State} (h : SessionsLawful s) (p : Port) {x : Session} (empty : HoldsNothing s p)
    (counts : x.state = .attached → x.claimsLost = 0 ∧ x.evicted = 0) (timers : TimersInRange x) :
    SessionsLawful (s.setSession p x) := by
  have other (i : StreamId) := (belongsTo_iff _ _).not.mp (Bool.eq_false_iff.mp (empty i).1)
  refine ⟨⟨fun i q e => ?_, fun i q e => ?_, fun i q u e => ?_, fun q attached => ?_⟩, fun q => ?_⟩
  · have ne : p ≠ q := fun same => other i (.inl (same ▸ e))
    rw [State.setSession_session, if_neg ne]
    exact h.agree.held_attached i q e
  · have ne : p ≠ q := fun same => other i (.inr (same ▸ e))
    rw [State.setSession_session, if_neg ne]
    exact h.agree.stale_away i q e
  · have ne : p ≠ q := by
      rintro rfl
      exact absurd ((empty i).2.symm.trans e) (by simp)
    rw [State.setSession_session, if_neg ne]
    exact h.agree.active_attached i q u e
  · rw [State.setSession_session] at attached ⊢
    split at attached
    next same =>
      rw [if_pos same]
      exact counts attached
    next ne =>
      rw [if_neg ne]
      exact h.agree.counts_clear q attached
  · rw [State.setSession_session]
    split
    · exact timers
    · exact h.timers q

theorem toHeld_eq_held {p q : Port} {x : Claim} (e : x.toHeld p = .held q) : x = .held q ∨ (x = .stale p ∧ q = p) := by
  unfold Claim.toHeld at e
  split at e
  next stale => exact .inr ⟨stale, (Claim.held.inj e).symm⟩
  next => exact .inl e

theorem toHeld_eq_stale {p q : Port} {x : Claim} (e : x.toHeld p = .stale q) : x = .stale q ∧ q ≠ p := by
  unfold Claim.toHeld at e
  split at e
  · exact absurd e (by simp)
  next other => exact ⟨e, fun same => other (same ▸ e)⟩

theorem toStale_eq_held {p q : Port} {x : Claim} (e : x.toStale p = .held q) : x = .held q ∧ q ≠ p := by
  unfold Claim.toStale at e
  split at e
  · exact absurd e (by simp)
  next other => exact ⟨e, fun same => other (same ▸ e)⟩

theorem toStale_eq_stale {p q : Port} {x : Claim} (e : x.toStale p = .stale q) : x = .stale q ∨ q = p := by
  unfold Claim.toStale at e
  split at e
  · exact .inr (Claim.stale.inj e).symm
  next => exact .inl e

/-- The holdings of a port lapse with its session. -/
theorem lapseHoldings_lawful {s : State} (h : SessionsLawful s) (p : Port) {x : Session} (away : x.state ≠ .attached)
    (timers : TimersInRange x) : SessionsLawful ((s.lapseHoldings p).setSession p x) := by
  have stream (i : StreamId) : (((s.lapseHoldings p).setSession p x).stream i).claim = (s.stream i).claim.toStale p := by
    rw [State.setSession_stream, lapseHoldings_stream]
  have session (q : Port) : ((s.lapseHoldings p).setSession p x).session q = if p = q then x else s.session q :=
    State.setSession_session _ p q x
  refine ⟨⟨fun i q e => ?_, fun i q e => ?_, fun i q u e => ?_, fun q attached => ?_⟩, fun q => ?_⟩
  · rw [stream] at e
    obtain ⟨held, ne⟩ := toStale_eq_held e
    rw [session, if_neg (Ne.symm ne)]
    exact h.agree.held_attached i q held
  · rw [stream] at e
    rw [session]
    split
    · exact away
    next ne => exact h.agree.stale_away i q ((toStale_eq_stale e).resolve_right (Ne.symm ne))
  · rw [State.setSession_sub, lapseHoldings_sub] at e
    rw [session]
    split at e
    next same =>
      obtain ⟨v, -, rfl⟩ := Option.map_eq_some_iff.mp e
      rw [if_pos same]
      exact ⟨nofun, fun attached => absurd attached away⟩
    next ne =>
      rw [if_neg ne]
      exact h.agree.active_attached i q u e
  · rw [session] at attached ⊢
    split at attached
    · exact absurd attached away
    next ne =>
      rw [if_neg ne]
      exact h.agree.counts_clear q attached
  · rw [session]
    split
    · exact timers
    · exact h.timers q

/-- The holdings of a port come back with its session. -/
theorem restoreHoldings_lawful {s : State} (h : SessionsLawful s) (p : Port) {x : Session} (attached : x.state = .attached)
    (counts : x.claimsLost = 0 ∧ x.evicted = 0) (timers : TimersInRange x) :
    SessionsLawful ((s.restoreHoldings p).setSession p x) := by
  have stream (i : StreamId) : (((s.restoreHoldings p).setSession p x).stream i).claim = (s.stream i).claim.toHeld p := by
    rw [State.setSession_stream, restoreHoldings_stream]
  have session (q : Port) : ((s.restoreHoldings p).setSession p x).session q = if p = q then x else s.session q :=
    State.setSession_session _ p q x
  refine ⟨⟨fun i q e => ?_, fun i q e => ?_, fun i q u e => ?_, fun q there => ?_⟩, fun q => ?_⟩
  · rw [stream] at e
    rw [session]
    split
    · exact attached
    next ne =>
      exact h.agree.held_attached i q ((toHeld_eq_held e).resolve_right fun c => ne c.2.symm)
  · rw [stream] at e
    obtain ⟨stale, ne⟩ := toHeld_eq_stale e
    rw [session, if_neg (Ne.symm ne)]
    exact h.agree.stale_away i q stale
  · rw [State.setSession_sub, restoreHoldings_sub] at e
    rw [session]
    split at e
    next same =>
      obtain ⟨v, -, rfl⟩ := Option.map_eq_some_iff.mp e
      rw [if_pos same]
      exact ⟨fun _ => attached, fun _ => rfl⟩
    next ne =>
      rw [if_neg ne]
      exact h.agree.active_attached i q u e
  · rw [session] at there ⊢
    split
    · exact counts
    next ne =>
      rw [if_neg ne] at there
      exact h.agree.counts_clear q there
  · rw [session]
    split
    · exact timers
    · exact h.timers q

/-! ### Every write and every change -/

/-- A port with a pending subscription is ATTACHED. -/
theorem attached_of_pending {s : State} (h : SessionAgreement s) {i : StreamId} {p : Port} (pending : s.subPending p i = true) :
    (s.session p).state = .attached := by
  unfold State.subPending at pending
  split at pending
  next u present =>
    simp only [Subscription.isPending, Bool.and_eq_true, decide_eq_true_eq] at pending
    exact (h.active_attached i p u present).mp pending.1.1
  next => exact absurd pending (by simp)

theorem startFlush_sessions {s : State} (h : SessionsLawful s) {p : Port} (attached : (s.session p).state = .attached) :
    SessionsLawful (s.startFlush p) := by
  unfold State.startFlush
  split
  next starts =>
    exact setSession_lawful h p rfl (h.agree.counts_clear p) (timers_flush (h.timers p) attached starts.2)
  next => exact h

theorem write_sessions {c : Option Command} {s t : State} (write : Write c s t) (h : SessionsLawful s) : SessionsLawful t := by
  cases write
  case stream i r claim => exact setStream_lawful h i r (claim.imp_right .inl)
  case claim i r q attached held => exact setStream_lawful h i r (.inr (.inr ⟨q, held, attached⟩))
  case sub i p u v present state =>
    exact setSub_lawful h i p _ fun w e => .inl ⟨u, present, Option.some.inj e ▸ state⟩
  case absent i p => exact setSub_lawful h i p _ nofun
  case join i p u attached active => exact setSub_lawful h i p _ fun w e => .inr ⟨Option.some.inj e ▸ active, attached⟩
  case post p n =>
    rw [post_kept]
    exact lawful_of_same h rfl rfl rfl
  case lease p attached => exact setSession_lawful h p rfl (h.agree.counts_clear p) (timers_lease (h.timers p) attached)
  case startFlush p i pending => exact startFlush_sessions h (attached_of_pending h.agree pending)
  case stopFlush p => exact setSession_lawful h p rfl (h.agree.counts_clear p) (timers_stopFlush (h.timers p))
  case lost i p stale =>
    exact setSession_lawful h p rfl (fun attached => absurd attached (h.agree.stale_away i p stale))
      (timers_counts (h.timers p) _ _)
  case evicted i p u present lapsed =>
    refine setSession_lawful h p rfl (fun attached => ?_) (timers_counts (h.timers p) _ _)
    exact absurd ((h.agree.active_attached i p u present).mpr attached) (by simp [lapsed])
  case clear p => exact setSession_lawful h p rfl (fun _ => ⟨rfl, rfl⟩) (timers_counts (h.timers p) 0 0)
  case attach p a range empty clear =>
    exact replaceSession_lawful h p empty (fun _ => clear) (timers_writeSettings range)
  case resume p a range away clear => exact restoreHoldings_lawful h p rfl clear (timers_writeSettings range)
  case settings p a range attached =>
    exact setSession_lawful h p attached.symm (h.agree.counts_clear p) (timers_writeSettings range)
  case detach p empty => exact replaceSession_lawful h p empty nofun (timers_detached _)
  case scrubPass b scrubs quarantined =>
    exact lawful_of_same h (State.setPool_sessions s _) (State.setPool_streams s _) (State.setPool_subs s _)
  all_goals exact lawful_of_same h rfl rfl rfl

/-- With every session at its power-on value, every stream UNDEFINED and every subscription ABSENT. -/
theorem sessions_powerOn {s : State} (session : ∀ p, s.session p = .powerOn) (stream : ∀ i, s.stream i = .undefined)
    (absent : ∀ i p, s.sub i p = none) : SessionsLawful s := by
  refine ⟨⟨fun i p e => ?_, fun i p e => ?_, fun i p u e => ?_, fun p e => ?_⟩, fun p => ?_⟩
  · exact absurd (stream i ▸ e) (by simp [StreamRecord.undefined])
  · exact absurd (stream i ▸ e) (by simp [StreamRecord.undefined])
  · exact absurd ((absent i p).symm.trans e) (by simp)
  · exact absurd (session p ▸ e) (by simp [Session.powerOn])
  · rw [session p]
    exact timers_detached .powerOn

theorem change_sessions {c : Instr} {s t : State} (change : Change c s t) (h : SessionsLawful s) : SessionsLawful t := by
  cases change
  case request p r operating => exact writes_keep (fun _ _ => write_sessions) h (writes_takeRequest p r s)
  case flush p event expired => exact writes_keep (c := none) (fun _ _ => write_sessions) h (writes_flushPort s p)
  case portReset p event => exact lapseHoldings_lawful h p (by simp) (timers_detached _)
  case lapse p event => exact lapseHoldings_lawful h p (by simp) (timers_lapsed (h.timers p))
  case enterReset =>
    refine sessions_powerOn (fun p => get_replicate _ p) (fun i => get_replicate _ i) (fun i p => ?_)
    show ((Vector.replicate 64 (Vector.replicate 4 none)).get i).get p = none
    rw [get_replicate, get_replicate]
  case tick =>
    have session (p : Port) : s.tickAll.session p = (s.session p).tick := get_map Session.tick s.sessions p
    refine ⟨agree_of_tables h.agree (fun p => by rw [session p]; rfl) (fun p attached => ?_) (fun _ => .inl rfl)
      (fun _ _ u e => .inl ⟨u, e, rfl⟩), fun p => ?_⟩
    · rw [session p]
      exact h.agree.counts_clear p attached
    · rw [session p]
      exact timers_tick (h.timers p)
  all_goals exact lawful_of_same h rfl rfl rfl

/-- Settles O58: every change keeps the agreement and the laws of the timers together. -/
theorem stepKeepsSessions : Obligations.StepKeepsSessions := by
  unfold Obligations.StepKeepsSessions
  intro s t agree timers e
  have after : SessionsLawful t := step_keeps (fun _ _ _ => change_sessions) (fun _ _ h => lawful_of_same h rfl rfl rfl)
    ⟨agree, timers⟩ e
  exact ⟨after.agree, after.timers⟩

end Sys2Proof.Proofs.SessionInvariant
end

section
/-! SUPPORT. Every step keeps the agreement of the Exchange Core and the links: every event keeps it but for the links that
wait, and the arbiter grants what waits. -/

namespace Sys2Proof.Proofs.LinkInvariant

open Sys2Proof.Machine Sys2Proof.Safety Sys2Proof.Laws Sys2Proof.Proofs.Steps

/-! ### The agreement without the arbiter -/

/-- The agreement of core and links, whether or not a request waits while the core can be granted. -/
structure CoreLinks (s : State) : Prop where
  executing_core : ∀ p : Port, (s.link p).isExecuting = true → ∃ e, s.core = some e ∧ e.port = p
  discard_core : ∀ p : Port, (s.link p).discardMark = true → ∃ e, s.core = some e ∧ e.port = p
  core_link : ∀ e, s.core = some e → ((s.link e.port).isExecuting = true ↔ (s.link e.port).discardMark = false)
  quiet_outside : s.phase ≠ .operating → s.core = none ∧ ∀ p : Port, (s.link p).requestBuffer = none

theorem coreLinks_of_agree {s : State} (h : LinkCoreAgree s) : CoreLinks s :=
  ⟨h.executing_core, h.discard_core, h.core_link, h.quiet_outside⟩

/-- The agreement, where no request waits or the core cannot be granted. -/
theorem agree_of_coreLinks {s : State} (h : CoreLinks s)
    (granted : s.coreAvailable = true → ∀ p : Port, (s.link p).isWaiting = false) : LinkCoreAgree s :=
  ⟨h.executing_core, h.discard_core, h.core_link, granted, h.quiet_outside⟩

/-- A core that executes a command cannot be granted. -/
theorem not_available_of_core {s : State} {e : Executing} (h : s.core = some e) : s.coreAvailable = false := by
  simp [State.coreAvailable, h]

theorem core_none_of_available {s : State} (h : s.coreAvailable = true) : s.core = none := by
  simp only [State.coreAvailable, Bool.and_eq_true, Option.isNone_iff_eq_none] at h
  exact h.2

theorem isExecuting_of_buffer {l : Link} (h : l.requestBuffer = none) : l.isExecuting = false ∧ l.isWaiting = false := by
  revert h
  cases e : l.state <;> simp [Link.requestBuffer, Link.isExecuting, Link.isWaiting, e]

theorem isWaiting_iff (l : Link) : l.isWaiting = true ↔ ∃ r, l.state = .waiting r := by
  cases e : l.state <;> simp [Link.isWaiting, e]

/-- A change of one link that keeps whether it is EXECUTING and its discard mark, and holds no request outside operation. -/
theorem setLink_coreLinks {s : State} (h : CoreLinks s) (p : Port) {l : Link}
    (executing : l.isExecuting = (s.link p).isExecuting) (mark : l.discardMark = (s.link p).discardMark)
    (quiet : s.phase ≠ .operating → l.requestBuffer = none) : CoreLinks (s.setLink p l) := by
  have exec_same (q : Port) : ((s.setLink p l).link q).isExecuting = (s.link q).isExecuting := by
    rw [State.setLink_link]
    split
    next e => rw [executing, e]
    next => rfl
  have mark_same (q : Port) : ((s.setLink p l).link q).discardMark = (s.link q).discardMark := by
    rw [State.setLink_link]
    split
    next e => rw [mark, e]
    next => rfl
  refine ⟨fun q x => h.executing_core q (exec_same q ▸ x), fun q x => h.discard_core q (mark_same q ▸ x), fun e he => ?_,
    fun away => ⟨(h.quiet_outside away).1, fun q => ?_⟩⟩
  · rw [exec_same, mark_same]
    exact h.core_link e he
  · rw [State.setLink_link]
    split
    · exact quiet away
    · exact (h.quiet_outside away).2 q

/-- A change that leaves the links, the core and the phase. -/
theorem coreLinks_congr {s t : State} (h : CoreLinks s) (links : t.links = s.links) (core : t.core = s.core)
    (phase : t.phase = s.phase) : CoreLinks t := by
  have link (p : Port) : t.link p = s.link p := by rw [State.link, links]; rfl
  refine ⟨fun p x => ?_, fun p x => ?_, fun e x => ?_, fun away => ?_⟩
  · rw [core]
    exact h.executing_core p (link p ▸ x)
  · rw [core]
    exact h.discard_core p (link p ▸ x)
  · rw [link]
    exact h.core_link e (core ▸ x)
  · rw [core]
    exact ⟨(h.quiet_outside (phase ▸ away)).1, fun p => link p ▸ (h.quiet_outside (phase ▸ away)).2 p⟩

/-- A change that leaves the links, the core, the phase and REFCLK. -/
theorem agree_congr {s t : State} (h : LinkCoreAgree s) (links : t.links = s.links) (core : t.core = s.core)
    (phase : t.phase = s.phase) (refclk : t.refclk = s.refclk) : LinkCoreAgree t := by
  refine agree_of_coreLinks (coreLinks_congr (coreLinks_of_agree h) links core phase) fun available p => ?_
  have before : s.coreAvailable = true := by
    rw [← available, State.coreAvailable, State.coreAvailable, core, phase, refclk]
  rw [State.link, links]
  exact h.granted_at_once before p

/-- A change of one link that keeps whether it is EXECUTING and its discard mark, and makes no request wait. -/
theorem setLink_agree {s : State} (h : LinkCoreAgree s) (p : Port) {l : Link}
    (executing : l.isExecuting = (s.link p).isExecuting) (mark : l.discardMark = (s.link p).discardMark)
    (waiting : l.isWaiting = true → (s.link p).isWaiting = true)
    (quiet : s.phase ≠ .operating → l.requestBuffer = none) : LinkCoreAgree (s.setLink p l) := by
  refine agree_of_coreLinks (setLink_coreLinks (coreLinks_of_agree h) p executing mark quiet) fun available q => ?_
  rw [State.setLink_link]
  split
  · have none : (s.link p).isWaiting = false := h.granted_at_once available p
    exact Bool.eq_false_iff.mpr fun w => by simp [waiting w] at none
  · exact h.granted_at_once available q

/-- A change of one link that leaves its state and its discard mark. -/
theorem setLink_same_agree {s : State} (h : LinkCoreAgree s) (p : Port) {l : Link} (state : l.state = (s.link p).state)
    (mark : l.discardMark = (s.link p).discardMark) : LinkCoreAgree (s.setLink p l) := by
  refine setLink_agree h p ?_ mark ?_ fun away => ?_
  · rw [Link.isExecuting, state]
    rfl
  · rw [Link.isWaiting, state]
    exact id
  · rw [Link.requestBuffer, state]
    exact (h.quiet_outside away).2 p

/-! ### The arbiter -/

/-- What is outside the tables after a grant. -/
theorem grant_outside (s : State) (p : Port) (r : Request) :
    (s.grant p r).links = (s.setLink p { s.link p with state := .executing r }).links ∧
      (∃ e, (s.grant p r).core = some e ∧ e.port = p) ∧ (s.grant p r).phase = s.phase := by
  have out := takeRequest_outside p r ((s.setLink p { s.link p with state := .executing r }).setPointer (p + 1))
  simp only [State.outside, Prod.mk.injEq] at out
  obtain ⟨links, -, -, -, -, -, phase, -, -⟩ := out
  exact ⟨links, ⟨_, rfl, rfl⟩, phase⟩

/-- A grant makes the link EXECUTING what the core executes. -/
theorem grant_agree {s : State} (h : CoreLinks s) (available : s.coreAvailable = true) (p : Port) (r : Request) :
    LinkCoreAgree (s.grant p r) := by
  have free := core_none_of_available available
  have no_mark (q : Port) : (s.link q).discardMark = false := by
    refine Bool.eq_false_iff.mpr fun x => ?_
    obtain ⟨e, he, -⟩ := h.discard_core q x
    exact absurd (free.symm.trans he) (by simp)
  have no_exec (q : Port) : (s.link q).isExecuting = false := by
    refine Bool.eq_false_iff.mpr fun x => ?_
    obtain ⟨e, he, -⟩ := h.executing_core q x
    exact absurd (free.symm.trans he) (by simp)
  obtain ⟨links, ⟨e, core, port⟩, phase⟩ := grant_outside s p r
  have link (q : Port) : (s.grant p r).link q = if p = q then { s.link p with state := .executing r } else s.link q := by
    rw [State.link, links]
    exact State.setLink_link s p q _
  refine agree_of_coreLinks ⟨fun q x => ?_, fun q x => ?_, fun f he => ?_, fun away => ?_⟩ fun again => ?_
  · rw [link] at x
    split at x
    next same => exact ⟨e, core, port.trans same⟩
    next => simp [no_exec q] at x
  · rw [link] at x
    split at x
    next => simp [no_mark p] at x
    next => simp [no_mark q] at x
  · obtain rfl : e = f := Option.some.inj (core.symm.trans he)
    rw [link, if_pos port.symm]
    simp [Link.isExecuting, no_mark p]
  · exact absurd (phase.trans (operating_of_available available)) away
  · simp [not_available_of_core core] at again

/-- Without a WAITING link the arbiter finds none; with one it finds one. -/
theorem nextGranted_eq_none (s : State) : s.nextGranted = none ↔ ∀ p : Port, (s.link p).isWaiting = false := by
  have all : ∀ x q : Port, q ∈ grantOrder x := by decide
  simp only [State.nextGranted, List.find?_eq_none, Bool.not_eq_true]
  exact ⟨fun h p => h p (all s.pointer p), fun h p _ => h p⟩

/-- A link that the arbiter finds is WAITING. -/
theorem nextGranted_waiting {s : State} {p : Port} (h : s.nextGranted = some p) : ∃ r, (s.link p).state = .waiting r :=
  (isWaiting_iff _).mp (List.find?_some (p := fun q => (s.link q).isWaiting) h)

/-- After the arbiter no request waits while the core can be granted. -/
theorem arbitrate_agree {s : State} (h : CoreLinks s) : LinkCoreAgree s.arbitrate := by
  unfold State.arbitrate
  split
  next available =>
    split
    next none => exact agree_of_coreLinks h fun _ => (nextGranted_eq_none s).mp none
    next p found =>
      obtain ⟨r, waits⟩ := nextGranted_waiting found
      rw [waits]
      exact grant_agree h available p r
  next busy => exact agree_of_coreLinks h fun available => absurd available busy

/-! ### Good frames -/

theorem receiveGood_kept (l : Link) (r : Request) :
    (l.receiveGood r).isExecuting = l.isExecuting ∧ (l.receiveGood r).discardMark = l.discardMark := by
  cases e : l.state <;>
    simp [Link.receiveGood, Link.accept, Link.supersede, Link.setSuperseded, Link.setCollided, Link.isExecuting, e]

theorem supersede_discardMark (l : Link) : l.supersede.discardMark = l.discardMark := by
  cases e : l.state <;> simp [Link.supersede, Link.setSuperseded, e]

theorem goodFrame_agree {s : State} (h : LinkCoreAgree s) (p : Port) (r : Request) : LinkCoreAgree (s.goodFrame p r) := by
  unfold State.goodFrame
  split
  next operating =>
    obtain ⟨executing, mark⟩ := receiveGood_kept (s.link p) r
    exact arbitrate_agree (setLink_coreLinks (coreLinks_of_agree h) p executing mark fun away => absurd operating away)
  next initialising =>
    have quiet := isExecuting_of_buffer ((h.quiet_outside (by simp [initialising])).2 p)
    unfold State.answerNotReady State.placeResponse
    rw [setLink_setLink]
    refine setLink_agree h p ?_ ?_ nofun (fun _ => rfl)
    · rw [quiet.1]
      rfl
    · rw [State.setLink_link_self]
      exact supersede_discardMark _
  next => exact h

theorem presentRequest_agree {s : State} (h : LinkCoreAgree s) (p : Port) (r : Request) :
    LinkCoreAgree (s.presentRequest p r) := by
  unfold State.presentRequest
  split
  · split
    · exact setLink_same_agree h p rfl rfl
    · exact goodFrame_agree h p r
  · exact h

/-! ### Events -/

theorem setPins_agree {s : State} (h : LinkCoreAgree s) (p : Port) (x : PortPins) : LinkCoreAgree (s.setPins p x) :=
  agree_congr h rfl rfl rfl rfl

theorem chipSelectFall_agree {s : State} (h : LinkCoreAgree s) (p : Port) : LinkCoreAgree (s.chipSelectFall p) := by
  unfold State.chipSelectFall
  split
  · exact h
  · dsimp only
    split
    · exact setLink_same_agree (setPins_agree h p _) p rfl rfl
    · exact setPins_agree h p _

/-- The settlement of collection leaves a link that holds a request. -/
theorem settleCollection_cases (l : Link) (t : Transaction) (n : Nat) :
    l.settleCollection t n = l ∨ ((∃ r, l.state = .ready r) ∧ l.settleCollection t n = { l with state := .idle }) := by
  unfold Link.settleCollection
  split
  next r e =>
    split
    · exact .inr ⟨⟨r, e⟩, rfl⟩
    · exact .inl rfl
  next => exact .inl rfl

theorem settled_agree {s : State} (h : LinkCoreAgree s) (p : Port) (t : Transaction) (n : Nat) (area : List Byte) :
    LinkCoreAgree (s.setLink p { (s.link p).settleCollection t n with transaction := none, receiveArea := area }) := by
  obtain same | ⟨⟨r, ready⟩, idle⟩ := settleCollection_cases (s.link p) t n
  · rw [same]
    exact setLink_same_agree h p rfl rfl
  · rw [idle]
    refine setLink_agree h p ?_ rfl nofun (fun _ => rfl)
    simp [Link.isExecuting, ready]

theorem chipSelectRise_agree {s : State} (h : LinkCoreAgree s) (p : Port) (received : List Byte) :
    LinkCoreAgree (s.chipSelectRise p received) := by
  unfold State.chipSelectRise
  split
  · have raised := setPins_agree h p { s.pinsOf p with csLow := false }
    dsimp only
    split
    next t _ =>
      have settled := settled_agree raised p t received.length (received.take receiveAreaSize)
      unfold State.endTransaction State.judgeReceived
      dsimp only
      split
      · exact settled
      · exact setLink_same_agree settled p rfl rfl
      · exact setLink_same_agree settled p rfl rfl
      · exact goodFrame_agree settled p _
    next => exact raised
  · exact h

/-- A port reset drops the request of its link; the core then drops the response. -/
theorem resetLink_agree {s : State} (h : LinkCoreAgree s) (p : Port) : LinkCoreAgree (s.setLink p (s.link p).portReset) := by
  have link (q : Port) : (s.setLink p (s.link p).portReset).link q = if p = q then (s.link p).portReset else s.link q :=
    State.setLink_link s p q _
  have mark : (s.link p).portReset.discardMark = true → ∃ e, s.core = some e ∧ e.port = p := fun x =>
    (Bool.or_eq_true _ _ ▸ x : (s.link p).discardMark = true ∨ (s.link p).isExecuting = true).elim (h.discard_core p)
      (h.executing_core p)
  refine ⟨fun q x => ?_, fun q x => ?_, fun e he => ?_, fun available q => ?_, fun away => ⟨(h.quiet_outside away).1, fun q => ?_⟩⟩
  · rw [link] at x
    split at x
    · simp [Link.portReset, Link.isExecuting] at x
    · exact h.executing_core q x
  · rw [link] at x
    split at x
    next same =>
      obtain ⟨e, he, port⟩ := mark x
      exact ⟨e, he, port.trans same⟩
    next => exact h.discard_core q x
  · rw [link]
    split
    next same =>
      have agree := h.core_link e he
      rw [← same] at agree
      have reset : (s.link p).portReset.discardMark = true := by
        cases x : (s.link p).discardMark
        · simp [Link.portReset, agree.mpr x]
        · simp [Link.portReset, x]
      rw [reset]
      simp [Link.portReset, Link.isExecuting]
    next => exact h.core_link e he
  · rw [link]
    split
    · rfl
    · exact h.granted_at_once available q
  · rw [link]
    split
    · rfl
    · exact (h.quiet_outside away).2 q

theorem assertPrst_agree {s : State} (h : LinkCoreAgree s) (p : Port) : LinkCoreAgree (s.assertPrst p) := by
  unfold State.assertPrst
  split
  · dsimp only
    split
    · exact setPins_agree h p _
    · have lapsed : LinkCoreAgree (((s.setPins p { s.pinsOf p with prstAsserted := true }).lapseHoldings p).detachSession p) :=
        agree_congr h rfl rfl rfl rfl
      exact resetLink_agree lapsed p
  · exact h

theorem completeCommand_coreLinks {s : State} (h : LinkCoreAgree s) {e : Executing} (core : s.core = some e) :
    CoreLinks (s.completeCommand e) := by
  have only (f : Executing) (q : Port) (x : s.core = some f ∧ f.port = q) : e.port = q := by
    rw [core, Option.some.injEq] at x
    rw [x.1, x.2]
  have operating : s.phase = .operating := by
    by_contra away
    exact absurd (core.symm.trans (h.quiet_outside away).1) (by simp)
  have key : ∀ l : Link, l.isExecuting = false → l.discardMark = false → CoreLinks ((s.setLink e.port l).setCore none) := by
    intro l executing mark
    have link (q : Port) : ((s.setLink e.port l).setCore none).link q = if e.port = q then l else s.link q :=
      State.setLink_link s e.port q l
    refine ⟨fun q x => ?_, fun q x => ?_, nofun, fun away => absurd operating away⟩
    · rw [link] at x
      split at x
      · simp [executing] at x
      next ne =>
        obtain ⟨f, hf⟩ := h.executing_core q x
        exact absurd (only f q hf) ne
    · rw [link] at x
      split at x
      · simp [mark] at x
      next ne =>
        obtain ⟨f, hf⟩ := h.discard_core q x
        exact absurd (only f q hf) ne
  have agree := h.core_link e core
  unfold State.completeCommand
  split
  next mark => exact key _ (Bool.eq_false_iff.mpr fun x => by simp [agree.mp x] at mark) rfl
  next unmarked => exact key _ rfl (Bool.eq_false_iff.mpr unmarked)

/-- With the links at their power-on values and the core free, outside operation. -/
theorem agree_powerOn {s : State} (link : ∀ p, s.link p = .powerOn) (core : s.core = none) (away : s.phase ≠ .operating) :
    LinkCoreAgree s := by
  refine ⟨fun p x => ?_, fun p x => ?_, fun e x => ?_, fun available => ?_, fun _ => ⟨core, fun p => ?_⟩⟩
  · rw [link] at x
    exact absurd x (by simp [Link.powerOn, Link.isExecuting])
  · rw [link] at x
    exact absurd x (by simp [Link.powerOn])
  · exact absurd (core.symm.trans x) (by simp)
  · exact absurd (operating_of_available available) away
  · rw [link]
    rfl

/-- In the reset no request is held and the core is free. -/
theorem enterReset_agree (s : State) : LinkCoreAgree s.enterReset :=
  agree_powerOn (fun p => get_replicate _ p) rfl (by simp [State.enterReset])

/-- Every command and event keeps the agreement. -/
theorem exec_agree {c : Instr} {s t : State} (h : LinkCoreAgree s) (e : exec c s = .next t) : LinkCoreAgree t := by
  have ite {b : Prop} [Decidable b] {w : State} (done : b → LinkCoreAgree w) : LinkCoreAgree (if b then w else s) := by
    split
    next hb => exact done hb
    next => exact h
  have links := coreLinks_of_agree h
  cases row : rowRequest c with
  | some x =>
    rw [exec_of_rowRequest (p := x.1) (r := x.2) row, Host.Outcome.next.injEq] at e
    exact e ▸ presentRequest_agree h x.1 x.2
  | none =>
    cases c <;> simp only [rowRequest, reduceCtorEq] at row <;> obtain rfl := Host.Outcome.next.inj e
    case csFall p => exact chipSelectFall_agree h p
    case csRise p received lastBits => exact chipSelectRise_agree h p received
    case portReset p => exact assertPrst_agree h p
    case resetAssert => exact ite fun _ => enterReset_agree s
    case resetRelease =>
      refine ite fun released => ?_
      simp only [Bool.and_eq_true, decide_eq_true_eq] at released
      have away : s.phase ≠ .operating := by simp [released.2]
      exact ⟨h.executing_core, h.discard_core, h.core_link, nofun, fun _ => h.quiet_outside away⟩
    case initPassEnd =>
      exact ite fun _ => arbitrate_agree ⟨links.executing_core, links.discard_core, links.core_link,
        fun away => absurd rfl away⟩
    case tick => exact ite fun _ => agree_congr h rfl rfl rfl rfl
    case leaseExpiry p => exact ite fun _ => agree_congr h rfl rfl rfl rfl
    case flushExpiry p =>
      refine ite fun _ => ?_
      have out := flushPort_outside s p
      simp only [State.outside, Prod.mk.injEq] at out
      obtain ⟨same, -, core, -, -, -, phase, refclk, -⟩ := out
      exact agree_congr h same core phase refclk
    case commandCompletion =>
      refine ite fun _ => ?_
      unfold State.complete
      split
      next core => exact arbitrate_agree (completeCommand_coreLinks h core)
      next => exact h
    case portResetRelease p => exact ite fun _ => setPins_agree h p _
    case stampCounterRise => exact ite fun _ => agree_congr h rfl rfl rfl rfl
    case refclkStop =>
      refine agree_of_coreLinks (coreLinks_congr links rfl rfl rfl) fun available => ?_
      simp [State.coreAvailable] at available
    case refclkReturn => exact arbitrate_agree (coreLinks_congr links rfl rfl rfl)

/-- Settles O59: the queue of commands is not read, and every command and event keeps the agreement. -/
theorem stepKeepsLinkCore : Obligations.StepKeepsLinkCore := by
  unfold Obligations.StepKeepsLinkCore
  intro s t h e
  unfold step at e
  split at e
  next => exact Host.Outcome.next.inj e ▸ h
  next c rest _ =>
    have before : LinkCoreAgree { s with pending := rest } := agree_congr h rfl rfl rfl rfl
    exact exec_agree before e

end Sys2Proof.Proofs.LinkInvariant
end

section
/-! SUPPORT. The session gate in every session state (R128, R129), the argument checks of every command (R165), and the session
commands ATTACH, DETACH and PORT_INFO (R135 to R141, R146). -/

namespace Sys2Proof.Proofs.Sessions

open Sys2Proof.Machine Sys2Proof.Safety Sys2Proof.Laws Sys2Proof.Proofs.Streams Sys2Proof.Proofs.Steps
  Sys2Proof.Proofs.Teardown Sys2Proof.Proofs.TableWrites

/-! ### The state in which a request acts -/

@[simp] theorem gated_pool (s : State) (p : Port) (r : Request) : (gated s p r).pool = s.pool := by
  unfold gated
  split <;> rfl

@[simp] theorem gated_streams (s : State) (p : Port) (r : Request) : (gated s p r).streams = s.streams := by
  unfold gated
  split <;> rfl

@[simp] theorem gated_subs (s : State) (p : Port) (r : Request) : (gated s p r).subs = s.subs := by
  unfold gated
  split <;> rfl

@[simp] theorem gated_queues (s : State) (p : Port) (r : Request) : (gated s p r).queues = s.queues := by
  unfold gated
  split <;> rfl

@[simp] theorem gated_draws (s : State) (p : Port) (r : Request) : (gated s p r).draws = s.draws := by
  unfold gated
  split <;> rfl

@[simp] theorem gated_stream (s : State) (p : Port) (r : Request) (i : StreamId) : (gated s p r).stream i = s.stream i := by
  rw [State.stream, gated_streams]
  rfl

@[simp] theorem gated_sub (s : State) (p q : Port) (r : Request) (i : StreamId) : (gated s p r).sub i q = s.sub i q := by
  rw [State.sub, gated_subs]
  rfl

@[simp] theorem gated_queue (s : State) (p q : Port) (r : Request) : (gated s p r).queue q = s.queue q := by
  rw [State.queue, gated_queues]
  rfl

theorem gated_session_ne (s : State) {p q : Port} (r : Request) (ne : q ≠ p) : (gated s p r).session q = s.session q := by
  unfold gated
  split
  · exact taken_session_ne s p q r ne
  · rfl

/-- A request renews at most the lease timer of its port. -/
theorem gated_session (s : State) (p : Port) (r : Request) :
    ∃ timer, (gated s p r).session p = { s.session p with leaseTimer := timer } := by
  unfold gated
  split
  · exact ⟨_, taken_session_self s p r⟩
  · exact ⟨(s.session p).leaseTimer, rfl⟩

theorem gated_outside (s : State) (p : Port) (r : Request) : (gated s p r).outside = (taken s p r).outside := by
  unfold gated
  split <;> rfl

theorem claimsOfPort_congr {s t : State} (h : t.streams = s.streams) (p : Port) : t.claimsOfPort p = s.claimsOfPort p := by
  simp only [State.claimsOfPort, State.stream, h]

theorem subsOfPort_congr {s t : State} (h : t.subs = s.subs) (p : Port) : t.subsOfPort p = s.subsOfPort p := by
  simp only [State.subsOfPort, State.sub, h]

/-! ### The gate in every session state (R128, R129) -/

/-- A command that the gate passes runs on the gated state. -/
theorem takeCommand_passes {s : State} {p : Port} {c : Command} (r : Request) (passes : PassesGate s p c) :
    takeCommand c p r (granted s p r) = runCommand c p r (gated s p r) := by
  have any : (s.session p).state ≠ .attached → c.passesAnyGate = true := fun away => by
    obtain attached | rfl | rfl := passes
    · exact absurd attached away
    · rfl
    · rfl
  cases e : (s.session p).state with
  | attached => simp [takeCommand, gated, e, restartLease_eq_renewed, taken]
  | detached => simp [takeCommand, gated, e, any (by simp [e])]
  | lapsed => simp [takeCommand, gated, e, any (by simp [e])]

/-- R128: a code that names no command answers BAD_COMMAND in every session state. -/
theorem takeRequest_bad {s : State} {p : Port} {r : Request} (bad : r.command = none) :
    takeRequest p r (granted s p r) = (gated s p r, refusal .badCommand) := by
  cases e : (s.session p).state <;>
    simp [takeRequest, takeBadCommand, bad, gated, e, restartLease_eq_renewed, taken, replyStatus, refusal]

/-- What the row of a command that passes the gate answers, taken at once. -/
theorem exec_gated {s : State} {p : Port} {c : Command} {id : Byte} {params payload : List Byte} (h : TakesAtOnce s p)
    (fits : (requestOf c id params payload).params.length ≤ 16 ∧ payload.length ≤ 256) (passes : PassesGate s p c) :
    exec (rowOf c p id params payload) s =
      .next (answered (runCommand c p (requestOf c id params payload) (gated s p (requestOf c id params payload))).1 p
        (runCommand c p (requestOf c id params payload) (gated s p (requestOf c id params payload))).2) :=
  exec_atOnce_of_take h fits (takeCommand_passes _ passes)

/-- ATTACH RESUME, whose row gives the mode byte 01, taken at once. -/
theorem exec_attachResume {s : State} {p : Port} {id : Byte} {params payload : List Byte} (h : TakesAtOnce s p)
    (fits : params.length ≤ 15 ∧ payload.length ≤ 256) :
    let r : Request := { id := id, code := some 0x01, params := 0x01 :: params, payload := payload }
    exec (.attachResume p id params payload) s =
      .next (answered (runCommand .attach p r (gated s p r)).1 p (runCommand .attach p r (gated s p r)).2) := by
  intro r
  have room : r.params.length ≤ 16 ∧ r.payload.length ≤ 256 := ⟨Nat.succ_le_succ fits.1, fits.2⟩
  have named : r.command = some .attach := rfl
  have row : exec (.attachResume p id params payload) s = .next (s.presentRequest p r) := rfl
  rw [row, presentRequest_atOnce h r room, takeRequest, named]
  dsimp only
  rw [takeCommand_passes r (.inr (.inl rfl))]

/-- Settles O4, by the gate's outcomes on the state of the grant. -/
theorem sessionGate : Obligations.SessionGate := by
  unfold Obligations.SessionGate
  intro s p id params payload h payloadFits
  refine ⟨?_, ?_, fun paramsFit => exec_attachResume h ⟨paramsFit, payloadFits⟩⟩
  · intro code names paramsFit r
    have row : exec (.badCommand p id code params payload) s = .next (s.presentRequest p r) := rfl
    rw [row, presentRequest_atOnce h r ⟨paramsFit, payloadFits⟩, takeRequest_bad (command_none code id params payload names)]
  · intro c r paramsFit
    have stopped (attach : c ≠ .attach) (info : c ≠ .portInfo) : c.passesAnyGate = false := by
      simp [Command.passesAnyGate, attach, info]
    refine ⟨fun detached attach info => ?_, fun lapsed attach info => ?_, exec_gated h ⟨paramsFit, payloadFits⟩⟩
    · exact exec_atOnce_of_take h ⟨paramsFit, payloadFits⟩ (takeCommand_detached r detached (stopped attach info))
    · exact exec_atOnce_of_take h ⟨paramsFit, payloadFits⟩ (takeCommand_lapsed r lapsed (stopped attach info))

/-! ### The argument checks (R165) -/

/-- What a command answers to a bad argument. -/
def badArgumentReply (c : Command) : Reply :=
  { status := .badArgument, result := if c = .scrub then [0, 0, 0] else [], payload := [] }

/-- A command with a bad argument changes nothing. -/
theorem runCommand_bad {c : Command} {r : Request} (p : Port) (s : State) (bad : BadArguments c r.params r.payload) :
    runCommand c p r s = (s, badArgumentReply c) := by
  cases c
  case attach => simp only [runCommand, runAttach, (attachArgs_none r).mpr bad]; rfl
  case detach => simp only [runCommand, runDetach, (noOperands_none r).mpr bad]; rfl
  case ping => simp only [runCommand, runPing, (noOperands_none r).mpr bad]; rfl
  case portInfo => simp only [runCommand, runPortInfo, (noOperands_none r).mpr bad]; rfl
  case define => simp only [runCommand, runDefine, (defineArgs_none r).mpr bad]; rfl
  case dissolve => simp only [runCommand, runDissolve, (streamArg_none r .dissolve (by simp)).mpr bad]; rfl
  case streamInfo => simp only [runCommand, runStreamInfo, (streamArg_none r .streamInfo (by simp)).mpr bad]; rfl
  case claim => simp only [runCommand, runClaim, (streamFlagArgs_none r .claim (by simp)).mpr bad]; rfl
  case unclaim => simp only [runCommand, runUnclaim, (streamArg_none r .unclaim (by simp)).mpr bad]; rfl
  case openMessage => simp only [runCommand, runOpen, (openArgs_none r).mpr bad]; rfl
  case append => simp only [runCommand, runAppend, (appendArg_none r).mpr bad]; rfl
  case commit => simp only [runCommand, runCommit, (streamArg_none r .commit (by simp)).mpr bad]; rfl
  case abort => simp only [runCommand, runAbort, (streamArg_none r .abort (by simp)).mpr bad]; rfl
  case join => simp only [runCommand, runJoin, (joinArgs_none r).mpr bad]; rfl
  case leave => simp only [runCommand, runLeave, (streamArg_none r .leave (by simp)).mpr bad]; rfl
  case evict => simp only [runCommand, runEvict, (evictArgs_none r).mpr bad]; rfl
  case read => simp only [runCommand, runRead, (readArgs_none r).mpr bad]; rfl
  case release => simp only [runCommand, runRelease, (releaseArgs_none r).mpr bad]; rfl
  case subInfo => simp only [runCommand, runSubInfo, (streamFlagArgs_none r .subInfo (by simp)).mpr bad]; rfl
  case takeNotices => simp only [runCommand, runTakeNotices, (takeArg_none r).mpr bad]; rfl
  case poolInfo => simp only [runCommand, runPoolInfo, (noOperands_none r).mpr bad]; rfl
  case scrub => simp only [runCommand, runScrub, (scrubArg_none r).mpr bad]; rfl

/-- R67: a refusal of the room decision is one of its three. -/
theorem roomRefusal_ne (s : State) (i : StreamId) (n e : Nat) : s.roomRefusal i n e ≠ .badArgument := by
  unfold State.roomRefusal
  split
  · simp
  · split <;> simp

/-- R47: a refusal of the writing commands is NO_STREAM or NOT_WRITER. -/
theorem writerRefusal_ne {s : State} {i : StreamId} {q : Port} {x : Status} (h : s.writerRefusal i q = some x) :
    x ≠ .badArgument := by
  unfold State.writerRefusal at h
  split at h
  · rw [← Option.some.inj h]
    simp
  · split at h
    · rw [← Option.some.inj h]
      simp
    · exact absurd h (by simp)

theorem readSub_status (s : State) (i : StreamId) (p : Port) (u : Subscription) (most : Nat) :
    (s.readSub i p u most).2.status ≠ .badArgument := by
  unfold State.readSub State.readPiece State.readNothing State.damagedStop
  dsimp only
  repeat' split
  all_goals simp [replyFields]

/-- A command without a bad argument answers another status. -/
theorem runCommand_status {c : Command} {r : Request} (p : Port) (s : State) (good : ¬BadArguments c r.params r.payload) :
    (runCommand c p r s).2.status ≠ .badArgument := by
  cases c
  case attach =>
    obtain ⟨a, e⟩ := Option.ne_none_iff_exists'.mp ((attachArgs_none r).not.mpr good)
    simp only [runCommand, runAttach, e]
    split <;> simp [runAttachResume, runAttachFresh, replyFields]
  case detach =>
    obtain ⟨a, e⟩ := Option.ne_none_iff_exists'.mp ((noOperands_none r).not.mpr good)
    simp [runCommand, runDetach, e, replyFields]
  case ping =>
    obtain ⟨a, e⟩ := Option.ne_none_iff_exists'.mp ((noOperands_none r).not.mpr good)
    simp [runCommand, runPing, e, replyFields]
  case portInfo =>
    obtain ⟨a, e⟩ := Option.ne_none_iff_exists'.mp ((noOperands_none r).not.mpr good)
    simp [runCommand, runPortInfo, e, replyFields]
  case define =>
    obtain ⟨a, e⟩ := Option.ne_none_iff_exists'.mp ((defineArgs_none r).not.mpr good)
    simp only [runCommand, runDefine, e]
    split <;> simp [replyStatus]
  case dissolve =>
    obtain ⟨a, e⟩ := Option.ne_none_iff_exists'.mp ((streamArg_none r .dissolve (by simp)).not.mpr good)
    simp only [runCommand, runDissolve, e]
    split
    · simp [replyStatus]
    · split <;> simp [replyStatus]
  case streamInfo =>
    obtain ⟨a, e⟩ := Option.ne_none_iff_exists'.mp ((streamArg_none r .streamInfo (by simp)).not.mpr good)
    simp only [runCommand, runStreamInfo, e]
    split <;> simp [replyStatus, replyFields]
  case claim =>
    obtain ⟨a, e⟩ := Option.ne_none_iff_exists'.mp ((streamFlagArgs_none r .claim (by simp)).not.mpr good)
    simp only [runCommand, runClaim, e]
    split
    · simp [replyStatus]
    · split
      · simp [replyStatus]
      · split <;> simp [replyStatus]
      · split <;> simp [replyStatus]
  case unclaim =>
    obtain ⟨a, e⟩ := Option.ne_none_iff_exists'.mp ((streamArg_none r .unclaim (by simp)).not.mpr good)
    simp only [runCommand, runUnclaim, e]
    split
    · simp [replyStatus]
    · split <;> simp [replyStatus]
  case openMessage =>
    obtain ⟨a, e⟩ := Option.ne_none_iff_exists'.mp ((openArgs_none r).not.mpr good)
    simp only [runCommand, runOpen, e, State.decideRoom]
    repeat' split
    all_goals simp [replyStatus, replyFields, roomRefusal_ne]
  case append =>
    obtain ⟨a, e⟩ := Option.ne_none_iff_exists'.mp ((appendArg_none r).not.mpr good)
    simp only [runCommand, runAppend, e]
    split
    next x refuses => exact writerRefusal_ne refuses
    · split
      · simp [replyStatus]
      · split <;> simp [replyStatus, replyFields]
  case commit =>
    obtain ⟨a, e⟩ := Option.ne_none_iff_exists'.mp ((streamArg_none r .commit (by simp)).not.mpr good)
    simp only [runCommand, runCommit, e]
    split
    next x refuses => exact writerRefusal_ne refuses
    · split
      · simp [replyStatus]
      · split <;> simp [replyStatus, replyFields]
  case abort =>
    obtain ⟨a, e⟩ := Option.ne_none_iff_exists'.mp ((streamArg_none r .abort (by simp)).not.mpr good)
    simp only [runCommand, runAbort, e]
    split
    next x refuses => exact writerRefusal_ne refuses
    · split <;> simp [replyStatus]
  case join =>
    obtain ⟨a, e⟩ := Option.ne_none_iff_exists'.mp ((joinArgs_none r).not.mpr good)
    simp only [runCommand, runJoin, e]
    split
    · simp [replyStatus]
    · split <;> simp [replyStatus, State.joinStream, replyFields]
  case leave =>
    obtain ⟨a, e⟩ := Option.ne_none_iff_exists'.mp ((streamArg_none r .leave (by simp)).not.mpr good)
    simp only [runCommand, runLeave, e]
    split
    · simp [replyStatus]
    · split <;> simp [replyStatus, replyFields]
  case evict =>
    obtain ⟨a, e⟩ := Option.ne_none_iff_exists'.mp ((evictArgs_none r).not.mpr good)
    simp only [runCommand, runEvict, e]
    split
    · simp [replyStatus]
    · split
      · simp [replyStatus]
      · split <;> simp [replyStatus, replyFields]
  case read =>
    obtain ⟨a, e⟩ := Option.ne_none_iff_exists'.mp ((readArgs_none r).not.mpr good)
    simp only [runCommand, runRead, e]
    split
    · simp [replyStatus]
    · split
      · simp [replyStatus]
      · exact readSub_status s _ p _ _
  case release =>
    obtain ⟨a, e⟩ := Option.ne_none_iff_exists'.mp ((releaseArgs_none r).not.mpr good)
    simp only [runCommand, runRelease, e]
    repeat' split
    all_goals simp [replyStatus, replyFields]
  case subInfo =>
    obtain ⟨a, e⟩ := Option.ne_none_iff_exists'.mp ((streamFlagArgs_none r .subInfo (by simp)).not.mpr good)
    simp only [runCommand, runSubInfo, e]
    split
    · simp [replyStatus]
    · split <;> simp [replyStatus, replyFields]
  case takeNotices =>
    obtain ⟨a, e⟩ := Option.ne_none_iff_exists'.mp ((takeArg_none r).not.mpr good)
    simp [runCommand, runTakeNotices, e]
  case poolInfo =>
    obtain ⟨a, e⟩ := Option.ne_none_iff_exists'.mp ((noOperands_none r).not.mpr good)
    simp [runCommand, runPoolInfo, e, replyFields]
  case scrub =>
    obtain ⟨a, e⟩ := Option.ne_none_iff_exists'.mp ((scrubArg_none r).not.mpr good)
    simp only [runCommand, runScrub, e]
    split <;> simp [State.scrubBatch, replyFields]

/-- Settles O5: the row of a command that passes the gate answers what the command answers, which is BAD_ARGUMENT exactly for
bad arguments. -/
theorem argumentChecks : Obligations.ArgumentChecks := by
  unfold Obligations.ArgumentChecks
  intro s p id params payload h payloadFits
  constructor
  · intro c r paramsFit passes
    have row := exec_gated (c := c) (id := id) h ⟨paramsFit, payloadFits⟩ passes
    refine ⟨fun bad => ?_, fun good => ⟨_, _, row, rfl, runCommand_status (r := r) p _ good⟩⟩
    rw [row, runCommand_bad (r := r) p _ bad, badArgumentReply]
  · intro paramsFit r
    have row := exec_attachResume (id := id) h ⟨paramsFit, payloadFits⟩
    refine ⟨fun bad => ?_, fun good => ⟨_, _, row, rfl, runCommand_status (r := r) p _ good⟩⟩
    rw [row, runCommand_bad (r := r) p _ bad]
    rfl

/-! ### ATTACH FRESH and DETACH (R138, R139, R141) -/

theorem claimsOfPort_eq_zero {s : State} {p : Port} (h : ∀ i, (s.stream i).claim.belongsTo p = false) :
    s.claimsOfPort p = 0 := by
  rw [State.claimsOfPort, List.countP_eq_zero]
  exact fun i _ => by simp [h i]

theorem subsOfPort_eq_zero {s : State} {p : Port} (h : ∀ i, s.sub i p = none) : s.subsOfPort p = 0 := by
  rw [State.subsOfPort, List.countP_eq_zero]
  exact fun i _ => by simp [h i]

/-- R138, R139: ATTACH FRESH, field by field: after the teardown the port holds nothing. -/
theorem runAttachFresh_eq (p : Port) (a : AttachArgs) (s : State) :
    runAttachFresh p a s =
      ((s.teardown p).setSession p
          { state := .attached, leasePeriod := a.leasePeriod, leaseTimer := loadLease a.leasePeriod,
            flushPeriod := a.flushPeriod, flushTimer := .idle, mask := a.mask, claimsLost := 0, evicted := 0 },
        { status := .ok, result := byte1 (s.session p).state.code ++ [0, 0, 0, 0, 0, 0], payload := [] }) := by
  have session : (s.teardown p).session p = { s.session p with claimsLost := 0, evicted := 0 } := by
    rw [teardown_session, if_pos rfl]
  have claims : ((s.teardown p).writeSettings p a).claimsOfPort p = 0 := claimsOfPort_eq_zero fun i => by
    rw [State.writeSettings, State.setSession_stream, teardown_claim]
  have subs : ((s.teardown p).writeSettings p a).subsOfPort p = 0 := subsOfPort_eq_zero fun i => by
    rw [State.writeSettings, State.setSession_sub, (teardown_holdsNothing s p i).2]
  have queue : ((s.teardown p).writeSettings p a).queue p = .empty := by
    rw [State.writeSettings, State.setSession_queue, teardown_queue]
  simp only [runAttachFresh, attachResult, claims, subs, queue, replyFields]
  simp only [State.writeSettings, session]
  rfl

/-- R141: DETACH: the counts of its result are those before the teardown. -/
theorem runDetach_passes {r : Request} (p : Port) (s : State) (params : r.params = []) (payload : r.payload = []) :
    runDetach p r s =
      ((s.teardown p).setSession p
          { state := .detached, leasePeriod := 0, leaseTimer := .idle, flushPeriod := 0, flushTimer := .idle,
            mask := { response := true, notice := false }, claimsLost := 0, evicted := 0 },
        { status := .ok, result := byte1 (s.claimsOfPort p) ++ byte1 (s.subsOfPort p), payload := [] }) := by
  have session : (s.teardown p).session p = { s.session p with claimsLost := 0, evicted := 0 } := by
    rw [teardown_session, if_pos rfl]
  simp only [runDetach, noOperands, params, payload, and_self, if_true, State.detachSession, session, replyFields]
  rfl

/-- Settles O6: both commands by their equations, on the states in which the requests act. -/
theorem freshAndDetach : Obligations.FreshAndDetach := by
  unfold Obligations.FreshAndDetach
  constructor
  · intro s p id lease flush mask h small r
    have arg : r.attachArgs = some { resume := false, leasePeriod := lease.toNat, flushPeriod := flush.toNat,
                                     mask := { response := mask.getLsbD 0, notice := mask.getLsbD 1 } } :=
      attachArgs_good 0x00 lease flush mask id _ (by decide) small
    obtain ⟨timer, session⟩ := gated_session s p r
    have run : runCommand .attach p r (gated s p r) = runAttachFresh p
        { resume := false, leasePeriod := lease.toNat, flushPeriod := flush.toNat,
          mask := { response := mask.getLsbD 0, notice := mask.getLsbD 1 } } (gated s p r) := by
      simp only [runCommand, runAttach, arg]
      rfl
    have row := exec_gated (c := .attach) (id := id) (params := [lease, flush, mask]) (payload := []) h
      (by simp [requestOf]) (.inr (.inl rfl))
    refine row.trans ?_
    show Host.Outcome.next (answered (runCommand .attach p r (gated s p r)).1 p
      (runCommand .attach p r (gated s p r)).2) = _
    rw [run, runAttachFresh_eq, session]
    rfl
  · intro s p id h r
    have run := runDetach_passes (r := r) p (taken s p r) rfl rfl
    rw [claimsOfPort_congr (taken_streams s p r), subsOfPort_congr (taken_subs s p r)] at run
    exact exec_attached_of_run (c := .detach) h (by simp [requestOf]) run

/-! ### ATTACH RESUME (R136, R137, R139) -/

/-- R115: a port has a pending subscription. -/
theorem anyPending_iff (s : State) (p : Port) :
    s.anyPending p = true ↔ ∃ (i : StreamId) (u : Subscription), s.sub i p = some u ∧ u.state = .active ∧
      0 < u.unannounced ∧ u.arrivalQueued = false := by
  have one (i : StreamId) : s.subPending p i = true ↔ ∃ u, s.sub i p = some u ∧ u.state = .active ∧
      0 < u.unannounced ∧ u.arrivalQueued = false := by
    unfold State.subPending
    cases s.sub i p <;> simp [Subscription.isPending, and_assoc]
  simp [State.anyPending, one, mem_allStreams]

/-- A session written with its own record stays. -/
theorem setSession_same (s : State) (p : Port) : s.setSession p (s.session p) = s := by
  have same : s.sessions.set p.val (s.sessions.get p) p.isLt = s.sessions := Vector.set_getElem_self p.isLt
  rw [State.setSession, State.session, same]

/-- R116: the flush start where the timer is IDLE: it runs when the period is not 0 and a subscription is pending. -/
theorem startFlushIfPending_idle {s : State} {p : Port} (idle : (s.session p).flushTimer = .idle) :
    s.startFlushIfPending p = s.setSession p { s.session p with
      flushTimer := if (s.session p).flushPeriod ≠ 0 ∧ s.anyPending p = true then .running (s.session p).flushPeriod
        else .idle } := by
  have same : s.setSession p { s.session p with flushTimer := .idle } = s := by
    rw [← idle]
    exact setSession_same s p
  unfold State.startFlushIfPending State.startFlush
  by_cases pending : s.anyPending p = true
  · rw [if_pos pending]
    by_cases period : (s.session p).flushPeriod ≠ 0
    · rw [if_pos ⟨idle, period⟩, if_pos ⟨period, pending⟩]
    · rw [if_neg (fun c => period c.2), if_neg (fun c => period c.1), same]
  · rw [if_neg pending, if_neg (fun c => pending c.2), same]

/-- The holdings as an ATTACH RESUME leaves them: from a session that is not ATTACHED they come back. -/
def resumed (s : State) (p : Port) : State := if (s.session p).state = .attached then s else s.restoreHoldings p

/-- R136, R137: the state after an ATTACH RESUME: the holdings, and the session field by field. -/
theorem runAttachResume_state (p : Port) (a : AttachArgs) (s : State) :
    (runAttachResume p a s).1 = (resumed s p).setSession p
      { state := .attached, leasePeriod := a.leasePeriod, leaseTimer := loadLease a.leasePeriod, flushPeriod := a.flushPeriod,
        flushTimer := if a.flushPeriod ≠ 0 ∧ (resumed s p).anyPending p = true then .running a.flushPeriod else .idle,
        mask := a.mask, claimsLost := 0, evicted := 0 } := by
  have written : (if (s.session p).state = .attached then s.clearCounts p else (s.clearCounts p).restoreHoldings p).writeSettings
      p a = (resumed s p).setSession p
      { state := .attached, leasePeriod := a.leasePeriod, leaseTimer := loadLease a.leasePeriod, flushPeriod := a.flushPeriod,
        flushTimer := .idle, mask := a.mask, claimsLost := 0, evicted := 0 } := by
    have cleared : (s.clearCounts p).session p = { s.session p with claimsLost := 0, evicted := 0 } :=
      State.setSession_session_self s p _
    unfold resumed
    split
    · rw [State.writeSettings, cleared, State.clearCounts, setSession_setSession]
    · have commute : (s.clearCounts p).restoreHoldings p = (s.restoreHoldings p).clearCounts p := rfl
      have session : ((s.clearCounts p).restoreHoldings p).session p = (s.clearCounts p).session p := rfl
      rw [State.writeSettings, session, cleared, commute, State.clearCounts, setSession_setSession]
  simp only [runAttachResume, written]
  rw [startFlushIfPending_idle (by rw [State.setSession_session_self]), State.setSession_session_self, setSession_setSession]
  rfl

/-- R139: the result of an ATTACH RESUME. -/
theorem runAttachResume_reply (p : Port) (a : AttachArgs) (s : State) :
    (runAttachResume p a s).2 =
      { status := .ok
        result := attachResult (runAttachResume p a s).1 p (s.session p).state (s.session p).claimsLost (s.session p).evicted
        payload := [] } := rfl

/-- Settles O7: the state and the result of the command on the gated state, where the claims and the subscriptions of the port
come back exactly when its session is not ATTACHED. -/
theorem attachResumeRestoresHoldings : Obligations.AttachResumeRestoresHoldings := by
  unfold Obligations.AttachResumeRestoresHoldings
  intro s p id lease flush mask h small r away
  have arg : r.attachArgs = some { resume := true, leasePeriod := lease.toNat, flushPeriod := flush.toNat,
                                   mask := { response := mask.getLsbD 0, notice := mask.getLsbD 1 } } :=
    attachArgs_good 0x01 lease flush mask id _ (by decide) small
  generalize ha : (⟨true, lease.toNat, flush.toNat, ⟨mask.getLsbD 0, mask.getLsbD 1⟩⟩ : AttachArgs) = a at arg
  have run : runCommand .attach p r (gated s p r) = runAttachResume p a (gated s p r) := by
    simp only [runCommand, runAttach, arg, ← ha, if_true]
  obtain ⟨timer, session⟩ := gated_session s p r
  have state : ((gated s p r).session p).state = (s.session p).state := by rw [session]
  have row : exec (.attachResume p id [lease, flush, mask] []) s =
      .next (answered (runCommand .attach p r (gated s p r)).1 p (runCommand .attach p r (gated s p r)).2) :=
    exec_attachResume h (by simp)
  rw [run] at row
  have after := runAttachResume_state p a (gated s p r)
  have stream (i : StreamId) : ((runAttachResume p a (gated s p r)).1).stream i = (resumed (gated s p r) p).stream i := by
    rw [after, State.setSession_stream]
  have sub (i : StreamId) (q : Port) : ((runAttachResume p a (gated s p r)).1).sub i q = (resumed (gated s p r) p).sub i q := by
    rw [after, State.setSession_sub]
  have attached_same (there : ¬away) : resumed (gated s p r) p = gated s p r := by
    rw [resumed, if_pos (by rw [state]; exact not_not.mp there)]
  have away_restored (gone : away) : resumed (gated s p r) p = (gated s p r).restoreHoldings p := by
    rw [resumed, if_neg (by rw [state]; exact gone)]
  have kept : (resumed (gated s p r) p).pool = s.pool ∧ (resumed (gated s p r) p).queues = s.queues ∧
      (resumed (gated s p r) p).draws = s.draws := by
    by_cases there : away
    · rw [away_restored there]
      exact ⟨gated_pool s p r, gated_queues s p r, gated_draws s p r⟩
    · rw [attached_same there]
      exact ⟨gated_pool s p r, gated_queues s p r, gated_draws s p r⟩
  refine ⟨_, _, row, takenAtOnce_of_run s p r _ ((runAttachResume_outside p a _).trans (gated_outside s p r)), ?_, ?_, ?_,
    fun i => ⟨fun gone stale => ?_, fun other => ?_⟩, fun i q => ⟨fun gone same => ?_, fun other => ?_⟩, fun q ne => ?_, ?_, ?_⟩
  all_goals simp only [answered, State.setCore_pool, State.setCore_queues, State.setCore_draws, State.setCore_stream,
    State.setCore_sub, State.setCore_session]
  · rw [after]
    exact kept.1
  · rw [after]
    exact kept.2.1
  · rw [after]
    exact kept.2.2
  · rw [stream, away_restored gone, restoreHoldings_stream, gated_stream, stale, Claim.toHeld, if_pos rfl]
  · rw [stream]
    by_cases gone : away
    · rw [away_restored gone, restoreHoldings_stream, gated_stream, Claim.toHeld, if_neg (other.resolve_left (not_not.mpr gone))]
    · rw [attached_same gone, gated_stream]
  · rw [sub, away_restored gone, restoreHoldings_sub, if_pos same.symm, gated_sub, same]
    rfl
  · rw [sub]
    by_cases gone : away
    · rw [away_restored gone, restoreHoldings_sub, if_neg (Ne.symm (other.resolve_left (not_not.mpr gone))), gated_sub]
    · rw [attached_same gone, gated_sub]
  · rw [after, State.setSession_session, if_neg (Ne.symm ne)]
    by_cases gone : away
    · rw [away_restored gone]
      exact gated_session_ne s r ne
    · rw [attached_same gone]
      exact gated_session_ne s r ne
  · refine ⟨_, by rw [after, State.setSession_session_self, ← ha]; rfl, ?_⟩
    have pending : (resumed (gated s p r) p).anyPending p = true ↔ ∃ (i : StreamId) (u : Subscription),
        (runAttachResume p a (gated s p r)).1.sub i p = some u ∧ u.state = .active ∧ 0 < u.unannounced ∧
          u.arrivalQueued = false := by
      simp only [anyPending_iff, sub]
    rw [← pending]
    exact ⟨fun c => if_pos c, fun c => if_neg c⟩
  · have queue : (runAttachResume p a (gated s p r)).1.queue p = s.queue p := by
      rw [after, State.setSession_queue, State.queue, kept.2.1]
      rfl
    rw [runAttachResume_reply, attachResult, queue, session, claimsOfPort_congr (State.setCore_streams _ _),
      subsOfPort_congr (State.setCore_subs _ _)]

/-! ### PORT_INFO (R146) -/

/-- Two flags as a byte. -/
theorem flagsByte_two (a b : Bool) :
    flagsByte [a, b] = BitVec.ofNat 8 ((if a then 1 else 0) + (if b then 2 else 0)) := by
  revert a b
  decide

/-- The count remaining of a timer. -/
theorem timer_remaining (x : Timer) : x.remaining = (match x with | .running n => n | _ => 0) := by
  cases x <;> rfl

/-- Settles O10: the result names the session, the claims and subscriptions and the queue of the gated state. -/
theorem portInfoReportsSession : Obligations.PortInfoReportsSession := by
  unfold Obligations.PortInfoReportsSession
  intro s p id h r x
  have row := exec_gated (c := .portInfo) (id := id) (params := []) (payload := []) h (by simp [requestOf]) (.inr (.inr rfl))
  refine row.trans ?_
  show Host.Outcome.next (answered (gated s p r) p (replyFields .ok (portInfoResult (gated s p r) p))) = _
  rw [portInfoResult, claimsOfPort_congr (gated_streams s p r), subsOfPort_congr (gated_subs s p r), gated_queue,
    AttentionMask.byte, flagsByte_two, timer_remaining, timer_remaining]
  rfl

end Sys2Proof.Proofs.Sessions
end

section
/-! SUPPORT. DEFINE and STREAM_INFO (R21, R22, R36), and the commands of a stream's writer without the room decision: CLAIM
(R39), UNCLAIM (R42, R43), the refusals of OPEN, APPEND, COMMIT and ABORT (R47), and ABORT (R59). -/

namespace Sys2Proof.Proofs.Writers

open Sys2Proof.Machine Sys2Proof.Safety Sys2Proof.Laws Sys2Proof.Proofs.Streams Sys2Proof.Proofs.Sessions

/-! ### DEFINE (R21, R22) -/

/-- R21: DEFINE of a DEFINED stream is refused. -/
theorem runDefine_defined {r : Request} {a : DefineArgs} (p : Port) (s : State) (arg : r.defineArgs = some a)
    (d : (s.stream a.stream).settings ≠ none) : runDefine p r s = (s, refusal .alreadyDefined) := by
  simp [runDefine, arg, defined_of_ne d, replyStatus, refusal]

/-- R22: DEFINE of an UNDEFINED stream writes its record. -/
theorem runDefine_passes {r : Request} {a : DefineArgs} (p : Port) (s : State) (arg : r.defineArgs = some a)
    (d : (s.stream a.stream).settings = none) :
    runDefine p r s = (s.setStream a.stream (.fresh a.settings), refusal .ok) := by
  simp [runDefine, arg, not_defined d, replyStatus, refusal]

/-- Settles O11, by the two outcomes of DEFINE on the state in which it acts. -/
theorem defineMakesStream : Obligations.DefineMakesStream := by
  unfold Obligations.DefineMakesStream
  intro s p id i policy l1 l0 m1 m0 depth h params limit longest r hpolicy lmin lmax mmin mmax hdepth room
  have limit_eq : limit = (word16 l1 l0).toNat := paramWord_eq params 2
  have longest_eq : longest = (word16 m1 m0).toNat := paramWord_eq params 4
  have fits : r.params.length ≤ 16 ∧ r.payload.length ≤ 256 := by simp [r, params]
  have arg : r.defineArgs = some { stream := i, settings :=
      { policy := if policy.toNat = 0 then .hold else .shed, blockLimit := limit, maxLength := longest,
        retainDepth := depth.toNat } } := by
    rw [limit_eq] at lmin lmax room
    rw [longest_eq] at mmin mmax room
    rw [limit_eq, longest_eq]
    exact defineArgs_good i policy l1 l0 m1 m0 depth id _ hpolicy lmin lmax mmin mmax hdepth room
  exact ⟨fun d => exec_attached_of_run (c := .define) h fits (runDefine_defined p (taken s p r) arg d),
    fun d => exec_attached_of_run (c := .define) h fits (runDefine_passes p (taken s p r) arg d)⟩

/-! ### STREAM_INFO (R36) -/

/-- Table 9.5b: the state code of a slot. -/
theorem subStateCode_eq (x : Option Subscription) :
    subStateCode x = (match x with | none => 0 | some u => if u.state = .active then 1 else 2) := by
  cases x with
  | none => rfl
  | some u => exact Subscriptions.subStateCode_present u

theorem policy_code (x : Policy) : x.code = if x = .hold then 0 else 1 := by cases x <;> rfl

theorem claim_code (x : Claim) :
    x.code = (match x with | .none => 0 | .held q => 4 + q.val | .stale q => 8 + q.val) := by
  cases x <;> rfl

/-- R36: STREAM_INFO of an UNDEFINED stream is refused. -/
theorem runStreamInfo_undefined {r : Request} {i : StreamId} (p : Port) (s : State) (arg : r.streamArg = some i)
    (d : (s.stream i).settings = none) : runStreamInfo p r s = (s, refusal .noStream) := by
  simp [runStreamInfo, arg, d, replyStatus, refusal]

/-- R36: STREAM_INFO of a DEFINED stream reports its record. -/
theorem runStreamInfo_passes {r : Request} {i : StreamId} (p : Port) (s : State) (arg : r.streamArg = some i) {y : Settings}
    (d : (s.stream i).settings = some y) : runStreamInfo p r s = (s, replyFields .ok (streamInfoResult s i y)) := by
  simp [runStreamInfo, arg, d]

theorem streamInfoResult_congr {s t : State} {i : StreamId} (stream : t.stream i = s.stream i)
    (sub : ∀ q, t.sub i q = s.sub i q) (y : Settings) : streamInfoResult t i y = streamInfoResult s i y := by
  simp only [streamInfoResult, State.subStates, stream, sub]

/-- Settles O13: the result on the state in which the request acts is that of the state before. -/
theorem streamInfoReportsStream : Obligations.StreamInfoReportsStream := by
  unfold Obligations.StreamInfoReportsStream
  intro s p id i h r x claimCode subCode
  have fits : r.params.length ≤ 16 ∧ r.payload.length ≤ 256 := by simp [r]
  have arg : r.streamArg = some i := streamArg_good i id _
  refine ⟨fun d => ?_, fun y d => ?_⟩
  · exact exec_attached_of_run (c := .streamInfo) h fits (runStreamInfo_undefined p (taken s p r) arg d)
  · have run := runStreamInfo_passes p (taken s p r) arg d
    have assembly : (if (s.stream i).assembly.isSome then 1 else 0) =
        if (s.stream i).assembly = none then 0 else 1 := by
      cases (s.stream i).assembly <;> rfl
    rw [streamInfoResult_congr (s := s) (t := taken s p r) (i := i) rfl (fun _ => rfl), streamInfoResult, State.subStates, assembly, policy_code,
      claim_code, subStateCode_eq, subStateCode_eq, subStateCode_eq, subStateCode_eq] at run
    exact exec_attached_of_run (c := .streamInfo) h fits run

/-! ### CLAIM (R39, Table 3.2) -/

section Claim

variable {r : Request} {a : StreamFlagArgs} (p : Port) (s : State) (arg : r.streamFlagArgs = some a)
include arg

theorem runClaim_undefined (d : (s.stream a.stream).settings = none) : runClaim p r s = (s, refusal .noStream) := by
  simp [runClaim, arg, not_defined d, replyStatus, refusal]

/-- The claim of a stream that has none. -/
theorem runClaim_none (d : (s.stream a.stream).settings ≠ none) (c : (s.stream a.stream).claim = .none) :
    runClaim p r s = (s.setStream a.stream { s.stream a.stream with claim := .held p }, refusal .ok) := by
  simp [runClaim, arg, defined_of_ne d, c, replyStatus, refusal]

/-- The claim that the port holds already. -/
theorem runClaim_own (d : (s.stream a.stream).settings ≠ none) (c : (s.stream a.stream).claim = .held p) :
    runClaim p r s = (s, refusal .ok) := by
  simp [runClaim, arg, defined_of_ne d, c, replyStatus, refusal]

theorem runClaim_heldByOther {q : Port} (ne : q ≠ p) (d : (s.stream a.stream).settings ≠ none)
    (c : (s.stream a.stream).claim = .held q) : runClaim p r s = (s, refusal .heldByOther) := by
  simp [runClaim, arg, defined_of_ne d, c, ne, replyStatus, refusal]

theorem runClaim_staleByOther {q : Port} (flag : a.flag = false) (d : (s.stream a.stream).settings ≠ none)
    (c : (s.stream a.stream).claim = .stale q) : runClaim p r s = (s, refusal .staleByOther) := by
  simp [runClaim, arg, defined_of_ne d, c, flag, replyStatus, refusal]

end Claim

/-- Settles O14, by the rows of Table 3.2. -/
theorem claimTable : Obligations.ClaimTable := by
  unfold Obligations.ClaimTable
  intro s p id i flag h hflag r
  have fits : r.params.length ≤ 16 ∧ r.payload.length ≤ 256 := by simp [r]
  have arg : r.streamFlagArgs = some { stream := i, flag := decide (flag.toNat = 1) } :=
    streamFlagArgs_good i flag id _ hflag
  refine ⟨fun d => ?_, fun d => ⟨fun c => ?_, fun c => ?_, fun q ne c => ?_, fun q _ c zero => ?_⟩⟩
  · exact exec_attached_of_run (c := .claim) h fits (runClaim_undefined p (taken s p r) arg d)
  · exact exec_attached_of_run (c := .claim) h fits (runClaim_none p (taken s p r) arg d c)
  · exact exec_attached_of_run (c := .claim) h fits (runClaim_own p (taken s p r) arg d c)
  · exact exec_attached_of_run (c := .claim) h fits (runClaim_heldByOther p (taken s p r) arg ne d c)
  · exact exec_attached_of_run (c := .claim) h fits (runClaim_staleByOther p (taken s p r) arg (by simp [zero]) d c)

/-! ### UNCLAIM (R42, R43) -/

section Unclaim

variable {r : Request} {i : StreamId} (p : Port) (s : State) (arg : r.streamArg = some i)
include arg

theorem runUnclaim_undefined (d : (s.stream i).settings = none) : runUnclaim p r s = (s, refusal .noStream) := by
  simp [runUnclaim, arg, not_defined d, replyStatus, refusal]

theorem runUnclaim_notWriter (d : (s.stream i).settings ≠ none) (c : (s.stream i).claim ≠ .held p) :
    runUnclaim p r s = (s, refusal .notWriter) := by
  simp [runUnclaim, arg, defined_of_ne d, c, replyStatus, refusal]

/-- R43: the release of the port's claim. -/
theorem runUnclaim_passes (d : (s.stream i).settings ≠ none) (c : (s.stream i).claim = .held p) :
    runUnclaim p r s = (State.reevaluateAfter s.pool (s.releaseClaim i), refusal .ok) := by
  simp [runUnclaim, arg, defined_of_ne d, c, replyStatus, refusal]

end Unclaim

/-- Settles O16, by the outcomes of UNCLAIM. -/
theorem unclaimReleasesClaim : Obligations.UnclaimReleasesClaim := by
  unfold Obligations.UnclaimReleasesClaim
  intro s p id i h r aborted
  have fits : r.params.length ≤ 16 ∧ r.payload.length ≤ 256 := by simp [r]
  have arg : r.streamArg = some i := streamArg_good i id _
  refine ⟨fun d => ?_, fun d c => ?_, fun d c => ?_⟩
  · exact exec_attached_of_run (c := .unclaim) h fits (runUnclaim_undefined p (taken s p r) arg d)
  · exact exec_attached_of_run (c := .unclaim) h fits (runUnclaim_notWriter p (taken s p r) arg d c)
  · exact exec_attached_of_run (c := .unclaim) h fits (runUnclaim_passes p (taken s p r) arg d c)

/-! ### The checks of the writing commands (R47) -/

theorem writerRefusal_undefined {s : State} {i : StreamId} (p : Port) (d : (s.stream i).settings = none) :
    s.writerRefusal i p = some .noStream := by
  simp [State.writerRefusal, not_defined d]

theorem writerRefusal_notWriter {s : State} {i : StreamId} {p : Port} (d : (s.stream i).settings ≠ none)
    (c : (s.stream i).claim ≠ .held p) : s.writerRefusal i p = some .notWriter := by
  simp [State.writerRefusal, defined_of_ne d, c]

theorem writerRefusal_none {s : State} {i : StreamId} {p : Port} (d : (s.stream i).settings ≠ none)
    (c : (s.stream i).claim = .held p) : s.writerRefusal i p = none := by
  simp [State.writerRefusal, defined_of_ne d, c]

theorem assemblyOf_none {s : State} {i : StreamId} (a : (s.stream i).assembly = none) : s.assemblyOf i = none := by
  simp [State.assemblyOf, a]

theorem assemblyOf_staged {s : State} {i : StreamId} {d : DescId} {m : StagedMessage} (a : (s.stream i).assembly = some d)
    (e : s.pool.desc d = .staged m) : s.assemblyOf i = some (d, m) := by
  simp [State.assemblyOf, a, e]

/-- A stream parameter byte gives the stream it was made of. -/
theorem streamByte_of_arg {i j : StreamId} {x : Byte} (e : streamField x = some j) (h : x = streamByte i) : j = i := by
  rw [h, streamField_streamByte, Option.some.injEq] at e
  exact e.symm

/-- The stream of a good request of a writing command is that of its first parameter byte. -/
theorem openArgs_stream {r : Request} {i : StreamId} {rest : List Byte} (params : r.params = streamByte i :: rest)
    {a : OpenArgs} (e : r.openArgs = some a) : a.stream = i := by
  unfold Request.openArgs at e
  split at e
  next b l1 l0 t1 t0 u shape =>
    simp only [Option.bind_eq_bind, Option.bind_eq_some_iff, Option.pure_def, Option.some.injEq] at e
    obtain ⟨-, -, j, field, -, -, -, -, rfl⟩ := e
    exact streamByte_of_arg field (List.cons.inj (shape.symm.trans params)).1
  next => exact absurd e (by simp)

theorem streamArg_stream {r : Request} {i j : StreamId} {rest : List Byte} (params : r.params = streamByte i :: rest)
    (e : r.streamArg = some j) : j = i := by
  unfold Request.streamArg at e
  split at e
  next b shape =>
    simp only [Option.bind_eq_bind, Option.bind_eq_some_iff] at e
    obtain ⟨-, -, field⟩ := e
    exact streamByte_of_arg field (List.cons.inj (shape.symm.trans params)).1
  next => exact absurd e (by simp)

theorem appendArg_stream {r : Request} {i j : StreamId} {rest : List Byte} (params : r.params = streamByte i :: rest)
    (e : r.appendArg = some j) : j = i := by
  unfold Request.appendArg at e
  split at e
  next b shape =>
    split at e
    · exact absurd e (by simp)
    · exact streamByte_of_arg e (List.cons.inj (shape.symm.trans params)).1
  next => exact absurd e (by simp)

/-- R47: the four writing commands check the stream and its claim first. -/
theorem runCommand_writerRefusal {c : Command} (writing : c = .openMessage ∨ c = .append ∨ c = .commit ∨ c = .abort)
    {r : Request} {i : StreamId} {rest : List Byte} (params : r.params = streamByte i :: rest)
    (good : ¬BadArguments c r.params r.payload) {p : Port} {s : State} {x : Status} (refuses : s.writerRefusal i p = some x) :
    runCommand c p r s = (s, refusal x) := by
  obtain rfl | rfl | rfl | rfl := writing
  · obtain ⟨a, e⟩ := Option.ne_none_iff_exists'.mp ((openArgs_none r).not.mpr good)
    obtain rfl := openArgs_stream params e
    unfold State.writerRefusal StreamRecord.defined at refuses
    cases d : (s.stream a.stream).settings with
    | none =>
      obtain rfl : Status.noStream = x := by simpa [d] using refuses
      simp [runCommand, runOpen, e, d, replyStatus, refusal]
    | some y =>
      by_cases c : (s.stream a.stream).claim = .held p
      · simp [d, c] at refuses
      · obtain rfl : Status.notWriter = x := by simpa [d, c] using refuses
        simp [runCommand, runOpen, e, d, c, replyStatus, refusal]
  · obtain ⟨j, e⟩ := Option.ne_none_iff_exists'.mp ((appendArg_none r).not.mpr good)
    obtain rfl := appendArg_stream params e
    simp only [runCommand, runAppend, e, refuses]
    rfl
  · obtain ⟨j, e⟩ := Option.ne_none_iff_exists'.mp ((streamArg_none r .commit (by simp)).not.mpr good)
    obtain rfl := streamArg_stream params e
    simp only [runCommand, runCommit, e, refuses]
    rfl
  · obtain ⟨j, e⟩ := Option.ne_none_iff_exists'.mp ((streamArg_none r .abort (by simp)).not.mpr good)
    obtain rfl := streamArg_stream params e
    simp only [runCommand, runAbort, e, refuses]
    rfl

section Writer

variable {r : Request} {i : StreamId} {p : Port} {s : State} (passes : s.writerRefusal i p = none)
include passes

theorem runCommit_noAssembly (arg : r.streamArg = some i) (a : (s.stream i).assembly = none) :
    runCommit p r s = (s, refusal .noAssembly) := by
  simp only [runCommit, arg, passes, assemblyOf_none a]
  rfl

theorem runCommit_empty (arg : r.streamArg = some i) {d : DescId} {m : StagedMessage} (a : (s.stream i).assembly = some d)
    (e : s.pool.desc d = .staged m) (empty : m.fill = 0) : runCommit p r s = (s, refusal .emptyAssembly) := by
  simp only [runCommit, arg, passes, assemblyOf_staged a e, empty, if_true]
  rfl

theorem runCommit_passes (arg : r.streamArg = some i) {d : DescId} {m : StagedMessage} (a : (s.stream i).assembly = some d)
    (e : s.pool.desc d = .staged m) (filled : m.fill ≠ 0) :
    runCommit p r s = (s.commitStream i d m,
      { status := .ok, result := bytes16 (s.stream i).nextSeq ++ byte2 m.fill ++ bytes24 s.stamp, payload := [] }) := by
  simp only [runCommit, arg, passes, assemblyOf_staged a e, if_neg filled, replyFields]

theorem runAbort_noAssembly (arg : r.streamArg = some i) (a : (s.stream i).assembly = none) :
    runAbort p r s = (s, refusal .noAssembly) := by
  simp only [runAbort, arg, passes, a, Option.isNone_none, if_true]
  rfl

theorem runAbort_passes (arg : r.streamArg = some i) {d : DescId} (a : (s.stream i).assembly = some d) :
    runAbort p r s = (State.reevaluateAfter s.pool (s.abortAssembly i), refusal .ok) := by
  simp only [runAbort, arg, passes, a, Option.isNone_some, Bool.false_eq_true, if_false]
  rfl

theorem runAppend_noAssembly (arg : r.appendArg = some i) (a : (s.stream i).assembly = none) :
    runAppend p r s = (s, refusal .noAssembly) := by
  simp only [runAppend, arg, passes, assemblyOf_none a]
  rfl

theorem runAppend_overlength (arg : r.appendArg = some i) {d : DescId} {m : StagedMessage}
    (a : (s.stream i).assembly = some d) (e : s.pool.desc d = .staged m) (tooMany : m.declaredLength < m.fill + r.payload.length) :
    runAppend p r s = (s, refusal .overlength) := by
  simp only [runAppend, arg, passes, assemblyOf_staged a e, if_pos tooMany]
  rfl

theorem runAppend_passes (arg : r.appendArg = some i) {d : DescId} {m : StagedMessage}
    (a : (s.stream i).assembly = some d) (e : s.pool.desc d = .staged m) (room : m.fill + r.payload.length ≤ m.declaredLength) :
    runAppend p r s = (s.setPool (s.pool.storePayload d m r.payload),
      { status := .ok, result := byte2 (m.fill + r.payload.length), payload := [] }) := by
  simp only [runAppend, arg, passes, assemblyOf_staged a e, if_neg (Nat.not_lt.mpr room), replyFields]

end Writer

section Open

variable {r : Request} {a : OpenArgs} {p : Port} {s : State} {x : Settings} (arg : r.openArgs = some a)
  (d : (s.stream a.stream).settings = some x) (c : (s.stream a.stream).claim = .held p)
include arg d c

theorem runOpen_assemblyOpen (o : (s.stream a.stream).assembly ≠ none) : runOpen p r s = (s, refusal .assemblyOpen) := by
  simp [runOpen, arg, d, c, Option.isSome_iff_ne_none.mpr o, replyStatus, refusal]

theorem runOpen_tooLong (o : (s.stream a.stream).assembly = none) (long : x.maxLength < a.length) :
    runOpen p r s = (s, refusal .tooLong) := by
  simp [runOpen, arg, d, c, o, long, replyStatus, refusal]

/-- R49: an OPEN that has passed its checks goes to the room decision. -/
theorem runOpen_passes (o : (s.stream a.stream).assembly = none) (fits : a.length ≤ x.maxLength) :
    runOpen p r s = s.decideRoom p a x := by
  simp [runOpen, arg, d, c, o, Nat.not_lt.mpr fits]

end Open

/-- Settles O17: the common checks, then each command's own. -/
theorem writerRefusals : Obligations.WriterRefusals := by
  unfold Obligations.WriterRefusals
  refine ⟨?_, ?_, ?_⟩
  · intro s p id c i more payload h writing moreFits payloadFits good r
    have params : r.params = streamByte i :: more := by obtain rfl | rfl | rfl | rfl := writing <;> rfl
    have fits : r.params.length ≤ 16 ∧ payload.length ≤ 256 := by
      rw [params]
      exact ⟨Nat.succ_le_succ moreFits, payloadFits⟩
    rw [← params] at good
    refine ⟨fun d => ?_, fun d claim => ?_⟩
    · exact exec_attached_of_run h fits
        (runCommand_writerRefusal writing params good (writerRefusal_undefined (s := taken s p r) p d))
    · exact exec_attached_of_run h fits
        (runCommand_writerRefusal writing params good (writerRefusal_notWriter (s := taken s p r) d claim))
  · intro s p id i h d c commitRequest abortRequest
    have arg (code : Option Byte) := streamArg_good i id code
    have passes (r : Request) : (taken s p r).writerRefusal i p = none := writerRefusal_none (s := taken s p r) d c
    refine ⟨fun o => ⟨?_, ?_, ?_⟩, fun e m o staged empty => ?_⟩
    · exact exec_attached_of_run (c := .commit) h (by simp [requestOf])
        (runCommit_noAssembly (passes commitRequest) (arg _) o)
    · exact exec_attached_of_run (c := .abort) h (by simp [requestOf])
        (runAbort_noAssembly (passes abortRequest) (arg _) o)
    · intro data some_data dataFits r
      exact exec_attached_of_run (c := .append) h ⟨by simp [requestOf], dataFits⟩
        (runAppend_noAssembly (passes r) (appendArg_good i id _ data some_data) o)
    · exact exec_attached_of_run (c := .commit) h (by simp [requestOf])
        (runCommit_empty (passes commitRequest) (arg _) o staged empty)
  · intro s p id i l1 l0 t1 t0 urgent x h params r min max hurgent d c
    have length : paramWord params 1 = (word16 l1 l0).toNat := paramWord_eq params 1
    rw [length] at min max ⊢
    have arg : r.openArgs = some _ := openArgs_good i l1 l0 t1 t0 urgent id _ min max hurgent
    have fits : r.params.length ≤ 16 ∧ r.payload.length ≤ 256 := by simp [r, params]
    exact ⟨fun o => exec_attached_of_run (c := .openMessage) h fits (runOpen_assemblyOpen (s := taken s p r) arg d c o),
      fun o long => exec_attached_of_run (c := .openMessage) h fits (runOpen_tooLong (s := taken s p r) arg d c o long)⟩

/-! ### ABORT (R59) -/

/-- Abort of an assembly returns its descriptor, so that the re-evaluation runs. -/
theorem abort_returns {s : State} {i : StreamId} {d : DescId} {m : StagedMessage} (a : (s.stream i).assembly = some d)
    (e : s.pool.desc d = .staged m) : Pool.returnedStorage s.pool (s.abortAssembly i).pool = true := by
  rw [abortAssembly_eq a e, State.setStream_pool, State.setPool_pool]
  simp only [Pool.returnedStorage, Pool.releaseMessage, e, returnDescriptor_freeDescriptors,
    (Pool.returnBlocks_kept _ _).2.2, List.length_append, List.length_singleton, Bool.or_eq_true, decide_eq_true_eq]
  omega

/-- Settles O24: the abort by its equation, and the re-evaluation runs. -/
theorem abortDiscardsAssembly : Obligations.AbortDiscardsAssembly := by
  unfold Obligations.AbortDiscardsAssembly
  intro s p id i d m h defined c a e r
  have passes : (taken s p r).writerRefusal i p = none := writerRefusal_none (s := taken s p r) defined c
  have arg : r.streamArg = some i := streamArg_good i id _
  have run := runAbort_passes passes arg a
  rw [State.reevaluateAfter, if_pos (abort_returns (s := taken s p r) a e), abortAssembly_eq (s := taken s p r) a e] at run
  exact exec_attached_of_run (c := .abort) h (by simp [requestOf]) run

end Sys2Proof.Proofs.Writers
end

section
/-! SUPPORT. OPEN: the allocation of an assembly (R8, R49), the room decision (R63 to R68), and one removal that it makes
(R69, R70). -/

namespace Sys2Proof.Proofs.Room

open Sys2Proof.Machine Sys2Proof.Safety Sys2Proof.Laws Sys2Proof.Proofs.Streams Sys2Proof.Proofs.Sessions
  Sys2Proof.Proofs.Writers

/-! ### The allocation (R8) -/

/-- R8: an allocation that finds its blocks and its descriptor. -/
theorem allocate_eq {q : Pool} {d : DescId} {rest : List DescId} {length : Nat} (i : StreamId) (tag : BitVec 16) (urgent : Bool)
    (positive : 1 ≤ length) (blocks : blocksFor length ≤ q.freeBlocks.length) (descriptors : q.freeDescriptors = d :: rest) :
    ∃ first : BlockId, (q.freeBlocks.take (blocksFor length)).head? = some first ∧
      q.allocate i length tag urgent = some (d, (Pool.stageChain d (q.freeBlocks.take (blocksFor length))
        { q with freeBlocks := q.freeBlocks.drop (blocksFor length), freeDescriptors := rest }).setDesc d
          (.staged { stream := i, declaredLength := length, fill := 0, firstBlock := first,
                     blockCount := blocksFor length, tag := tag, urgent := urgent, damaged := false })) := by
  have some_block : 1 ≤ blocksFor length := by
    unfold blocksFor
    omega
  cases reserved : q.freeBlocks.take (blocksFor length) with
  | nil =>
    have := congrArg List.length reserved
    rw [List.length_take, List.length_nil] at this
    omega
  | cons first more =>
    refine ⟨first, rfl, ?_⟩
    simp only [Pool.allocate, if_neg (Nat.not_lt.mpr blocks), descriptors, reserved]

/-- R8, R49: the assembly that an allocation makes, field by field. -/
theorem openAssembly_eq (s : State) (a : OpenArgs) (d : DescId) (rest : List DescId) (positive : 1 ≤ a.length)
    (blocks : blocksFor a.length ≤ s.pool.freeBlocks.length) (once : s.pool.freeBlocks.Nodup)
    (descriptors : s.pool.freeDescriptors = d :: rest) :
    let reserved := s.pool.freeBlocks.take (blocksFor a.length)
    ∃ (first : BlockId) (q : Pool),
      reserved.head? = some first ∧ q.freeBlocks = s.pool.freeBlocks.drop (blocksFor a.length) ∧ q.freeDescriptors = rest ∧
      q.quarantine = s.pool.quarantine ∧ q.bytes = s.pool.bytes ∧
      q.desc d = .staged { stream := a.stream, declaredLength := a.length, fill := 0, firstBlock := first,
                           blockCount := blocksFor a.length, tag := a.tag, urgent := a.urgent, damaged := false } ∧
      (∀ e : DescId, e ≠ d → q.desc e = s.pool.desc e) ∧
      (∀ (k : Nat) (b : BlockId), reserved[k]? = some b → q.block b = (s.pool.block b).stagedFor d reserved[k + 1]?) ∧
      (∀ b : BlockId, b ∉ reserved → q.block b = s.pool.block b) ∧
      s.openAssembly a = (s.setPool q).setStream a.stream
        { s.stream a.stream with
          assembly := some d, heldBlocks := (s.stream a.stream).heldBlocks + blocksFor a.length, starvedNeed := none } := by
  obtain ⟨first, head, allocated⟩ := allocate_eq a.stream a.tag a.urgent positive blocks descriptors
  have nodup := once.sublist (List.take_sublist (blocksFor a.length) s.pool.freeBlocks)
  generalize hq : ({ s.pool with freeBlocks := s.pool.freeBlocks.drop (blocksFor a.length), freeDescriptors := rest } : Pool) =
    q at allocated
  generalize hl : s.pool.freeBlocks.take (blocksFor a.length) = reserved at *
  obtain ⟨staged, others⟩ := Pool.stageChain_block d reserved q nodup
  have kept := Pool.stageChain_kept d reserved q
  refine ⟨first, _, head, ?_, ?_, ?_, ?_, Pool.setDesc_desc_self _ _ _, fun e ne => ?_, fun k b hb => ?_, fun b out => ?_,
    by rw [State.openAssembly, allocated]⟩
  · rw [Pool.setDesc_freeBlocks, kept, ← hq]
  · rw [Pool.setDesc_freeDescriptors, kept, ← hq]
  · rw [Pool.setDesc_quarantine, kept, ← hq]
  · rw [Pool.setDesc_bytes, kept, ← hq]
  · rw [Pool.setDesc_desc, if_neg (Ne.symm ne), kept, ← hq]
    rfl
  · rw [Pool.setDesc_block, staged k b hb, ← hq]
    rfl
  · rw [Pool.setDesc_block, others b out, ← hq]
    rfl

/-! ### The decision (R63 to R67) -/

/-- R65: the headroom that removals leave. -/
theorem headroomAfter_eq {s : State} {i : StreamId} {x : Settings} (d : (s.stream i).settings = some x) (k : Nat) :
    s.headroomAfter i k = (x.blockLimit - (s.stream i).heldBlocks) + blocksOfOldest s i k := by
  simp only [State.headroomAfter, StreamRecord.headroom, d]
  rfl

/-- R65: the free blocks that removals leave. -/
theorem freeBlocksAfter_eq (s : State) (i : StreamId) (k : Nat) :
    s.freeBlocksAfter i k = s.pool.freeBlocks.length + unfailedOfOldest s i k := rfl

theorem needCovered_iff {s : State} {i : StreamId} {x : Settings} (d : (s.stream i).settings = some x) (n k : Nat) :
    s.needCovered i n k = true ↔ Covers s i x n k := by
  unfold State.needCovered Covers
  rw [headroomAfter_eq d, freeBlocksAfter_eq, Bool.and_eq_true, Bool.and_eq_true, decide_eq_true_eq, decide_eq_true_eq,
    decide_eq_true_eq, and_assoc]

/-- R66: the smallest number of removals that covers the need. -/
theorem removalsNeeded_eq_some {s : State} {i : StreamId} {x : Settings} (d : (s.stream i).settings = some x) {n e k : Nat}
    (le : k ≤ e) (covers : Covers s i x n k) (least : ∀ j < k, ¬Covers s i x n j) : s.removalsNeeded i n e = some k := by
  rw [State.removalsNeeded, List.find?_range_eq_some]
  refine ⟨(needCovered_iff d n k).mpr covers, List.mem_range.mpr (by omega), fun j lt => ?_⟩
  rw [Bool.not_eq_true', ← Bool.not_eq_true, needCovered_iff d]
  exact least j lt

/-- R67: no number of removals covers the need. -/
theorem removalsNeeded_eq_none {s : State} {i : StreamId} {x : Settings} (d : (s.stream i).settings = some x) {n e : Nat}
    (no : ∀ k ≤ e, ¬Covers s i x n k) : s.removalsNeeded i n e = none := by
  rw [State.removalsNeeded, List.find?_range_eq_none]
  intro j lt
  rw [Bool.not_eq_true', ← Bool.not_eq_true, needCovered_iff d]
  exact no j (by omega)

/-- R64: under HOLD the bound is lowered by the ACTIVE cursors of the listed ports, and by nothing else. -/
theorem activeBounds_spec (s : State) (i : StreamId) (ps : List Port) (c : Nat) :
    let e := ps.foldl (s.activeBound i) c
    e ≤ c ∧ (∀ q ∈ ps, ∀ u, s.sub i q = some u → u.state = .active → e ≤ (u.cursor - (s.stream i).oldestSeq).toNat) ∧
      (e = c ∨ ∃ (q : Port) (u : Subscription), s.sub i q = some u ∧ u.state = .active ∧
        e = (u.cursor - (s.stream i).oldestSeq).toNat) := by
  induction ps generalizing c with
  | nil => simp
  | cons p rest ih =>
    obtain ⟨below, bounds, source⟩ := ih (s.activeBound i c p)
    have step : s.activeBound i c p = c ∨ ∃ u, s.sub i p = some u ∧ u.state = .active ∧
        s.activeBound i c p = (u.cursor - (s.stream i).oldestSeq).toNat := by
      unfold State.activeBound
      cases e : s.sub i p with
      | none => exact .inl rfl
      | some u =>
        by_cases active : u.state = .active
        · rcases Nat.le_total c (u.cursor - (s.stream i).oldestSeq).toNat with le | le
          · exact .inl ((if_pos active).trans (Nat.min_eq_left le))
          · exact .inr ⟨u, rfl, active, (if_pos active).trans (Nat.min_eq_right le)⟩
        · exact .inl (by simp [active])
    have lowers : s.activeBound i c p ≤ c ∧
        ∀ u, s.sub i p = some u → u.state = .active → s.activeBound i c p ≤ (u.cursor - (s.stream i).oldestSeq).toNat := by
      unfold State.activeBound
      refine ⟨?_, fun u hu active => by simp [hu, active]⟩
      split
      · split
        · exact Nat.min_le_left _ _
        · exact Nat.le_refl c
      · exact Nat.le_refl c
    refine ⟨Nat.le_trans below lowers.1, fun q mem u hu active => ?_, ?_⟩
    · obtain rfl | mem := List.mem_cons.mp mem
      · exact Nat.le_trans below (lowers.2 u hu active)
      · exact bounds q mem u hu active
    · obtain same | found := source
      · obtain stays | ⟨u, hu, active, eq⟩ := step
        · exact .inl (same.trans stays)
        · exact .inr ⟨p, u, hu, active, same.trans eq⟩
      · exact .inr found

theorem eligibleCount_spec (s : State) (i : StreamId) (x : Settings) : IsEligibleCount s i x (s.eligibleCount i x.policy) := by
  unfold IsEligibleCount State.eligibleCount
  cases x.policy with
  | shed => rfl
  | hold =>
    obtain ⟨below, bounds, source⟩ := activeBounds_spec s i allPorts (s.stream i).committedCount
    exact ⟨below, fun q => bounds q (List.mem_finRange q), source⟩

/-- R64: a stream has one eligible count. -/
theorem isEligibleCount_unique {s : State} {i : StreamId} {x : Settings} {e f : Nat} (he : IsEligibleCount s i x e)
    (hf : IsEligibleCount s i x f) : e = f := by
  have half {e f : Nat} (above : e ≤ (s.stream i).committedCount ∧
        (∀ (q : Port) (u : Subscription), s.sub i q = some u → u.state = .active →
          e ≤ (u.cursor - (s.stream i).oldestSeq).toNat))
      (source : f = (s.stream i).committedCount ∨ ∃ (q : Port) (u : Subscription), s.sub i q = some u ∧ u.state = .active ∧
        f = (u.cursor - (s.stream i).oldestSeq).toNat) : e ≤ f := by
    obtain rfl | ⟨q, u, hu, active, rfl⟩ := source
    · exact above.1
    · exact above.2 q u hu active
  unfold IsEligibleCount at he hf
  cases policy : x.policy with
  | shed =>
    rw [policy] at he hf
    exact he.trans hf.symm
  | hold =>
    rw [policy] at he hf
    obtain ⟨he1, he2, he3⟩ := he
    obtain ⟨hf1, hf2, hf3⟩ := hf
    exact Nat.le_antisymm (half ⟨he1, he2⟩ hf3) (half ⟨hf1, hf2⟩ he3)

theorem eligibleCount_eq {s : State} {i : StreamId} {x : Settings} {e : Nat} (h : IsEligibleCount s i x e) :
    s.eligibleCount i x.policy = e :=
  isEligibleCount_unique (eligibleCount_spec s i x) h

/-! ### The removals (R68) -/

theorem shedMany_eq_iterate (i : StreamId) (k : Nat) (s : State) :
    State.shedMany i k s = Nat.iterate (fun w : State => w.shedOldest i) k s := by
  induction k generalizing s with
  | zero => rfl
  | succ k ih => exact ih (s.shedOldest i)

theorem allPorts_foldl {σ : Type} (f : σ → Port → σ) (s : σ) : allPorts.foldl f s = f (f (f (f s 0) 1) 2) 3 := rfl

/-- R66, R67: the room decision when `k` removals are the fewest that cover the need. -/
theorem decideRoom_some {s : State} {a : OpenArgs} {x : Settings} (p : Port) (d : (s.stream a.stream).settings = some x)
    {e k : Nat} (eligible : IsEligibleCount s a.stream x e) (le : k ≤ e)
    (covers : Covers s a.stream x (blocksFor a.length) k) (least : ∀ j < k, ¬Covers s a.stream x (blocksFor a.length) j) :
    s.decideRoom p a x =
      (s.grantOpen p a k, { status := .ok, result := byte1 (blocksFor a.length) ++ byte2 k, payload := [] }) := by
  simp only [State.decideRoom, eligibleCount_eq eligible, removalsNeeded_eq_some d le covers least, replyFields]

theorem decideRoom_none {s : State} {a : OpenArgs} {x : Settings} (p : Port) (d : (s.stream a.stream).settings = some x)
    {e : Nat} (eligible : IsEligibleCount s a.stream x e) (no : ∀ k ≤ e, ¬Covers s a.stream x (blocksFor a.length) k) :
    s.decideRoom p a x =
      (s.recordNeed a.stream (blocksFor a.length), refusal (s.roomRefusal a.stream (blocksFor a.length) e)) := by
  simp only [State.decideRoom, eligibleCount_eq eligible, removalsNeeded_eq_none d no]
  rfl

/-- R49: an OPEN that its checks pass, as the row runs it. -/
theorem exec_open {s : State} {p : Port} {id l1 l0 t1 t0 urgent : Byte} {i : StreamId} {x : Settings} {t : State}
    {reply : Reply} :
    let params := [streamByte i, l1, l0, t1, t0, urgent]
    Attached s p → 1 ≤ paramWord params 1 → paramWord params 1 ≤ x.maxLength → x.maxLength ≤ 4096 → urgent.toNat ≤ 1 →
    (s.stream i).settings = some x → (s.stream i).claim = .held p → (s.stream i).assembly = none →
    (taken s p (requestOf .openMessage id params [])).decideRoom p
      { stream := i, length := paramWord params 1, tag := t1 ++ t0, urgent := urgent.toNat = 1 } x = (t, reply) →
    exec (.openMessage p id params []) s = .next (answered t p reply) := by
  intro params h min fits max flag d c o decided
  have length : paramWord params 1 = (word16 l1 l0).toNat := paramWord_eq params 1
  have arg : (requestOf .openMessage id params []).openArgs =
      some { stream := i, length := paramWord params 1, tag := t1 ++ t0, urgent := urgent.toNat = 1 } := by
    rw [length] at min fits ⊢
    exact openArgs_good i l1 l0 t1 t0 urgent id _ min (by omega) flag
  exact exec_attached_of_run (c := .openMessage) h (by simp [requestOf, params])
    ((runOpen_passes (s := taken s p _) arg d c o fits).trans decided)

/-- Settles O18: the decision finds that no removal is needed, and the allocation is made. -/
theorem openReservesAssembly : Obligations.OpenReservesAssembly := by
  unfold Obligations.OpenReservesAssembly
  intro s p id i l1 l0 t1 t0 urgent x h params r n reserved min fits max flag d c o covers once
  let a : OpenArgs := { stream := i, length := paramWord params 1, tag := t1 ++ t0, urgent := urgent.toNat = 1 }
  have ⟨_, blocks, one⟩ := covers
  obtain ⟨e, rest, descriptors⟩ := List.exists_cons_of_length_pos one
  obtain ⟨first, q, head, f1, f2, f3, f4, f5, f6, f7, f8, opened⟩ :=
    openAssembly_eq (taken s p r) a e rest min blocks once descriptors
  have decided := decideRoom_some (s := taken s p r) (a := a) p d (eligibleCount_spec _ _ _) (Nat.zero_le _) covers (by simp)
  rw [State.grantOpen, if_pos rfl, opened] at decided
  refine ⟨e, rest, first, q, descriptors, head, f1, f2, f3, f4, f5, f6, f7, f8, exec_open h min fits max flag d c o decided⟩

/-- Settles O19: the three parts are the grant with removals, the allocation and the refusal. -/
theorem roomDecision : Obligations.RoomDecision := by
  unfold Obligations.RoomDecision
  refine ⟨?_, ?_, ?_⟩
  · intro s p id i l1 l0 t1 t0 urgent x e k h params r n min fits max flag d c o eligible pos le covers least base removed noticed
    let a : OpenArgs := { stream := i, length := paramWord params 1, tag := t1 ++ t0, urgent := urgent.toNat = 1 }
    have decided := decideRoom_some (s := taken s p r) (a := a) p d eligible le covers least
    rw [State.grantOpen, if_neg (by omega), State.makeRoom, allPorts_foldl, shedMany_eq_iterate] at decided
    exact exec_open h min fits max flag d c o decided
  · intro s a d rest n reserved min blocks once descriptors
    exact openAssembly_eq s a d rest min blocks once descriptors
  · intro s p id i l1 l0 t1 t0 urgent x e h params r n headroom free min fits max flag d c o eligible no
    let a : OpenArgs := { stream := i, length := paramWord params 1, tag := t1 ++ t0, urgent := urgent.toNat = 1 }
    have after : (taken s p r).headroomAfter i e = headroom := headroomAfter_eq (s := taken s p r) d e
    have left : (taken s p r).freeBlocksAfter i e = free := freeBlocksAfter_eq _ _ _
    refine ⟨(taken s p r).roomRefusal i n e, ?_, ?_, ?_, ?_⟩
    · intro full
      rw [State.roomRefusal, after, if_pos full]
    · intro room empty
      rw [State.roomRefusal, after, if_neg (Nat.not_lt.mpr room), left, if_pos empty]
    · intro room blocks
      rw [State.roomRefusal, after, if_neg (Nat.not_lt.mpr room), left, if_neg (Nat.not_lt.mpr blocks)]
    · exact exec_open h min fits max flag d c o (decideRoom_none (s := taken s p r) (a := a) p d eligible no)

end Sys2Proof.Proofs.Room
end

section
/-! SUPPORT. One removal that the room decision makes, with its forced advances (R69, R70). -/

namespace Sys2Proof.Proofs.Removal

open Sys2Proof.Machine Sys2Proof.Safety Sys2Proof.Laws Sys2Proof.Proofs.Streams Sys2Proof.Proofs.Subscriptions
  Sys2Proof.Proofs.Teardown

/-! ### A forced advance -/

/-- R70: a slot once the reader at sequence `x` is forced past it. -/
def forcedSlot (x next : Seq) (slot : Option Subscription) : Option Subscription :=
  slot.map (fun u => if u.cursor = x then u.forceAdvance next else u)

theorem forcePort_sub (i j : StreamId) (d : DescId) (x : Seq) (s : State) (p q : Port) :
    (State.forcePort i d x s p).sub j q =
      if i = j ∧ p = q then forcedSlot x (s.stream i).nextSeq (s.sub i p) else s.sub j q := by
  unfold State.forcePort forcedSlot
  cases e : s.sub i p with
  | none =>
    dsimp only [Option.map_none]
    split
    · next same =>
      obtain ⟨rfl, rfl⟩ := same
      exact e
    · rfl
  | some u =>
    by_cases c : u.cursor = x
    · simp [c, State.setSub_sub]
    · simp only [c, if_false, Option.map_some]
      split
      · next same =>
        obtain ⟨rfl, rfl⟩ := same
        exact e
      · rfl

/-- R69: forcing a port lowers the readers of the message at most. -/
theorem forcePort_pool (i : StreamId) (d : DescId) (x : Seq) (s : State) (p : Port) :
    (State.forcePort i d x s p).pool = s.pool ∨ (State.forcePort i d x s p).pool = s.pool.lowerReaders [d] := by
  unfold State.forcePort
  split
  · split
    · exact .inr rfl
    · exact .inl rfl
  · exact .inl rfl

theorem forcePort_streams (i : StreamId) (d : DescId) (x : Seq) (s : State) (p : Port) :
    (State.forcePort i d x s p).streams = s.streams := by rw [forcePort_kept]

theorem forcePort_queues (i : StreamId) (d : DescId) (x : Seq) (s : State) (p : Port) :
    (State.forcePort i d x s p).queues = s.queues := by rw [forcePort_kept]

theorem forcePort_sessions (i : StreamId) (d : DescId) (x : Seq) (s : State) (p : Port) :
    (State.forcePort i d x s p).sessions = s.sessions := by rw [forcePort_kept]

theorem forcePort_bytes (i : StreamId) (d : DescId) (x : Seq) (s : State) (p : Port) :
    (State.forcePort i d x s p).pool.bytes = s.pool.bytes := by
  obtain e | e := forcePort_pool i d x s p
  · rw [e]
  · rw [e, Pool.lowerReaders_kept]

theorem forcePort_freeDescriptors (i : StreamId) (d : DescId) (x : Seq) (s : State) (p : Port) :
    (State.forcePort i d x s p).pool.freeDescriptors = s.pool.freeDescriptors := by
  obtain e | e := forcePort_pool i d x s p
  · rw [e]
  · rw [e, Pool.lowerReaders_kept]

/-- The slot of one port after every port is forced. -/
theorem forcePorts_sub (i : StreamId) (d : DescId) (x : Seq) (s : State) (q : Port) :
    (allPorts.foldl (State.forcePort i d x) s).sub i q = forcedSlot x (s.stream i).nextSeq (s.sub i q) := by
  obtain ⟨w, same, eq⟩ := foldl_view (fun w : State => (w.streams, w.sub i q)) (State.forcePort i d x) q
    (fun w j ne => by rw [forcePort_streams, forcePort_sub, if_neg (fun h => ne h.2)])
    (List.nodup_finRange 4) (List.mem_finRange q) s
  obtain ⟨streams, slot⟩ := Prod.mk.inj same
  obtain ⟨-, sub⟩ := Prod.mk.inj eq
  rw [forcePort_sub, if_pos ⟨rfl, rfl⟩, slot, State.stream, streams] at sub
  exact sub

/-- The removed message is still the same committed message, but for its readers, when every port is forced. -/
theorem forcePorts_desc (i : StreamId) (d : DescId) (x : Seq) {s : State} {m : CommittedMessage} (e : s.pool.desc d = .committed m) :
    ∃ readers, (allPorts.foldl (State.forcePort i d x) s).pool.desc d = .committed { m with readers := readers } := by
  have kept := foldl_keeps (fun w : State => withoutReaders (w.pool.desc d)) (State.forcePort i d x)
    (fun w p => forcePort_withoutReaders i d x w p d) allPorts s
  rw [e] at kept
  cases f : (allPorts.foldl (State.forcePort i d x) s).pool.desc d with
  | free => simp [f, withoutReaders] at kept
  | staged o => simp [f, withoutReaders] at kept
  | committed o =>
    simp only [f, withoutReaders, Descriptor.committed.injEq] at kept
    refine ⟨o.readers, ?_⟩
    cases o
    cases m
    simp_all

/-! ### The removal -/

/-- R69: the shed total and the readers, then the removal of the oldest message. -/
theorem shedOldest_eq {s : State} {i : StreamId} {d : DescId} {m : CommittedMessage} (o : (s.stream i).oldest = some d)
    (e : s.pool.desc d = .committed m) :
    s.shedOldest i = (allPorts.foldl (State.forcePort i d m.sequence) (s.countShed i m)).removeOldest i := by
  simp only [State.shedOldest, o, e]

theorem countShed_stream (s : State) (i : StreamId) (m : CommittedMessage) :
    (s.countShed i m).stream i = { s.stream i with
      shedTotal := if 0 < m.readers then (s.stream i).shedTotal + 1 else (s.stream i).shedTotal } := by
  unfold State.countShed
  split
  · simp
  · rfl

/-- The state but for the record of stream `i` is not touched by the count of a shed message. -/
theorem countShed_kept (s : State) (i : StreamId) (m : CommittedMessage) :
    s.countShed i m = { s with streams := (s.countShed i m).streams } := by
  unfold State.countShed
  split <;> rfl

theorem countShed_stream_ne (s : State) {i j : StreamId} (m : CommittedMessage) (ne : j ≠ i) :
    (s.countShed i m).stream j = s.stream j := by
  unfold State.countShed
  split
  · rw [State.setStream_stream, if_neg (Ne.symm ne)]
  · rfl

theorem forceAdvance_eq (u : Subscription) (next : Seq) :
    let left := (next - (u.cursor + 1)).toNat
    u.forceAdvance next = { u with
      lossTotal := min 65535 (u.lossTotal + 1)
      lostSinceRead := true
      cursor := u.cursor + 1
      readOffset := 0
      damagedStop := false
      unannounced := min u.unannounced left
      lagArmed := u.lagArmed || (u.lagMark ≠ 0 && left ≤ u.lagMark / 2) } :=
  rearmLag_eq _ _

/-- Settles O20: the removal acts on the state after the count and the forced advances, whose parts are known. -/
theorem roomRemovalForcesReaders : Obligations.RoomRemovalForcesReaders := by
  unfold Obligations.RoomRemovalForcesReaders
  intro s i d m o e t
  generalize hc : s.countShed i m = c
  have counted := hc ▸ countShed_stream s i m
  have rest : c = { s with streams := c.streams } := hc ▸ countShed_kept s i m
  have cd : c.pool.desc d = .committed m := by rw [rest]; exact e
  generalize hw : allPorts.foldl (State.forcePort i d m.sequence) c = w
  have streams : w.streams = c.streams := hw ▸ foldl_keeps State.streams _ (forcePort_streams i d m.sequence) allPorts c
  have stream (j : StreamId) : w.stream j = c.stream j := by rw [State.stream, streams]; rfl
  have slots (q : Port) : w.sub i q = forcedSlot m.sequence (s.stream i).nextSeq (s.sub i q) := by
    rw [← hw, forcePorts_sub, counted, rest]
    rfl
  obtain ⟨readers, wd⟩ := forcePorts_desc i d m.sequence cd
  rw [hw] at wd
  have removed : t = (w.setPool (w.pool.releaseMessage d)).setStream i _ :=
    (shedOldest_eq o e).trans (by rw [hc, hw, removeOldest_eq (by rw [stream, counted]; exact o) wd])
  have sub (j : StreamId) (q : Port) : t.sub j q = w.sub j q := by rw [removed]; rfl
  refine ⟨?_, fun j ne => ⟨?_, fun q => ?_⟩, fun q none => ?_, fun q u hu ne => ?_, fun q u hu at_message => ?_, ?_, ?_, ?_, ?_, ?_⟩
  · rw [removed, State.setStream_stream_self, stream, counted]
    simp only [Option.isNone_iff_eq_none]
  · rw [removed, State.setStream_stream, if_neg (Ne.symm ne), State.setPool_stream, stream, ← hc, countShed_stream_ne s m ne]
  · rw [sub, ← hw, foldl_keeps (fun v : State => v.sub j q) _
      (fun v p => by rw [forcePort_sub, if_neg (fun h => ne h.1.symm)]) allPorts c, rest]
    rfl
  · rw [sub, slots, none]
    rfl
  · rw [sub, slots, hu]
    exact congrArg some (if_neg ne)
  · rw [sub, slots, hu, ← at_message]
    exact congrArg some ((if_pos rfl).trans (forceAdvance_eq u (s.stream i).nextSeq))
  · rw [removed, State.setStream_queues, State.setPool_queues, ← hw,
      foldl_keeps State.queues _ (forcePort_queues i d m.sequence) allPorts c, rest]
  · rw [removed, State.setStream_sessions, State.setPool_sessions, ← hw,
      foldl_keeps State.sessions _ (forcePort_sessions i d m.sequence) allPorts c, rest]
  · rw [removed, State.setStream_pool, State.setPool_pool, releaseMessage_desc, if_pos rfl]
  · rw [removed, State.setStream_pool, State.setPool_pool,
      releaseMessage_freeDescriptors (.inr ⟨_, wd, rfl, rfl, rfl⟩), ← hw,
      foldl_keeps (fun v : State => v.pool.freeDescriptors) _ (forcePort_freeDescriptors i d m.sequence) allPorts c, rest]
  · intro a
    rw [removed, State.setStream_pool, State.setPool_pool, releaseMessage_bytes, ← hw,
      foldl_keeps (fun v : State => v.pool.bytes) _ (forcePort_bytes i d m.sequence) allPorts c, rest]

end Sys2Proof.Proofs.Removal
end

section
/-! SUPPORT. APPEND and COMMIT: the stored bytes with their fills and checks (R9, R12, R51, R52), the committed message (R10, R23,
R54), and the evaluation of each port at a commit (R114, R116, R119). -/

namespace Sys2Proof.Proofs.Commits

open Sys2Proof.Machine Sys2Proof.Safety Sys2Proof.Laws Sys2Proof.Proofs.Streams Sys2Proof.Proofs.Writers
  Sys2Proof.Proofs.Room

/-! ### The bytes of an APPEND (R9, R12) -/

/-- How many of the message offsets `pos` to `pos + n - 1` lie in block `k` of the chain. -/
theorem countP_offsets_in_block (pos k n : Nat) :
    (List.range n).countP (fun j => (pos + j) / 64 = k) = min (pos + n) (64 * k + 64) - max pos (64 * k) := by
  induction n with
  | zero =>
    simp only [List.range_zero, List.countP_nil]
    omega
  | succ n ih =>
    rw [List.range_succ, List.countP_append, ih, List.countP_singleton]
    split
    · next inside =>
      have := of_decide_eq_true inside
      omega
    · next outside =>
      have : (pos + n) / 64 ≠ k := fun e => outside (decide_eq_true e)
      omega

theorem getElem?_of_once {l : List BlockId} (once : l.Nodup) {k : Nat} {b : BlockId} (found : l[k]? = some b) (x : Nat) :
    l[x]? = some b ↔ x = k := by
  refine ⟨fun e => ?_, fun e => e ▸ found⟩
  obtain ⟨lt, -⟩ := List.getElem?_eq_some_iff.mp e
  exact (List.getElem?_inj lt once).mp (e.trans found.symm)

/-- The blocks that an APPEND of at least one byte reaches. -/
theorem mem_coveredBlocks_iff {chain : List BlockId} (once : chain.Nodup) {k : Nat} {b : BlockId} (found : chain[k]? = some b)
    (pos n : Nat) (some_byte : 1 ≤ n) :
    b ∈ coveredBlocks chain pos n ↔ max pos (64 * k) < min (pos + n) (64 * k + 64) := by
  rw [List.mem_iff_getElem?]
  constructor
  · rintro ⟨j, hj⟩
    rw [coveredBlocks_get] at hj
    split at hj
    · next within =>
      have := (getElem?_of_once once found _).mp hj
      omega
    · exact absurd hj (by simp)
  · intro reached
    refine ⟨k - pos / 64, ?_⟩
    rw [coveredBlocks_get, if_pos (by omega), show pos / 64 + (k - pos / 64) = k by omega, found]

theorem mem_chain_of_covered {chain : List BlockId} {pos n : Nat} {b : BlockId} (h : b ∈ coveredBlocks chain pos n) : b ∈ chain :=
  List.mem_of_mem_drop (List.mem_of_mem_take h)

theorem storePayload_bytes (q : Pool) (d : DescId) (m : StagedMessage) (data : List Byte) :
    (q.storePayload d m data).bytes =
      (Pool.storeBytes (q.chain m.firstBlock m.blockCount) m.fill data q).bytes := by
  unfold Pool.storePayload
  dsimp only
  rw [Pool.setDesc_bytes, (Pool.rechecks_block _ _).1]

/-- R9, R12: the record of a block after an APPEND. -/
theorem storePayload_block (q : Pool) (d : DescId) (m : StagedMessage) (data : List Byte) (b : BlockId) :
    let chain := q.chain m.firstBlock m.blockCount
    let stored : BlockRecord := { q.block b with
      fill := (q.block b).fill + (List.range data.length).countP (fun j => chain[(m.fill + j) / 64]? = some b) }
    (q.storePayload d m data).block b =
      if b ∈ coveredBlocks chain m.fill data.length then
        { stored with check := Config.storedCheck ((q.storePayload d m data).blockBytes b) }
      else stored := by
  intro chain stored
  have bytes : (q.storePayload d m data).blockBytes b = (Pool.storeBytes chain m.fill data q).blockBytes b := by
    unfold Pool.blockBytes
    rw [storePayload_bytes]
  rw [bytes]
  change (((coveredBlocks chain m.fill data.length).foldl Pool.recheck (Pool.storeBytes chain m.fill data q)).setDesc d _).block b = _
  rw [Pool.setDesc_block, (Pool.rechecks_block _ _).2, Pool.storeBytes_block]

/-- A block outside the chain is not touched. -/
theorem storePayload_block_outside {q : Pool} (d : DescId) {m : StagedMessage} (data : List Byte) {b : BlockId}
    (out : b ∉ q.chain m.firstBlock m.blockCount) : (q.storePayload d m data).block b = q.block b := by
  have none_here : (List.range data.length).countP
      (fun j => (q.chain m.firstBlock m.blockCount)[(m.fill + j) / 64]? = some b) = 0 :=
    List.countP_eq_zero.mpr (fun j _ h => out (List.mem_of_getElem? (of_decide_eq_true h)))
  rw [storePayload_block, if_neg (fun h => out (mem_chain_of_covered h)), none_here]
  rfl

/-- R9, R12: block `k` of a sound chain after an APPEND. -/
theorem storePayload_block_of_chain {q : Pool} (d : DescId) {m : StagedMessage} {data : List Byte} (some_byte : 1 ≤ data.length)
    (once : (q.chain m.firstBlock m.blockCount).Nodup) {k : Nat} {b : BlockId}
    (found : (q.chain m.firstBlock m.blockCount)[k]? = some b) :
    let t := q.storePayload d m data
    let low := max m.fill (64 * k)
    let high := min (m.fill + data.length) (64 * k + 64)
    (t.block b).fill = (q.block b).fill + (high - low) ∧
      (low < high → (t.block b).check = Config.storedCheck (t.blockBytes b)) ∧
      (high ≤ low → t.block b = q.block b) := by
  intro t low high
  have count : (List.range data.length).countP
      (fun j => (q.chain m.firstBlock m.blockCount)[(m.fill + j) / 64]? = some b) = high - low := by
    rw [← countP_offsets_in_block]
    simp only [getElem?_of_once once found]
  have covered := mem_coveredBlocks_iff once found m.fill data.length some_byte
  have block : t.block b = _ := storePayload_block q d m data b
  rw [count] at block
  refine ⟨?_, fun reached => ?_, fun missed => ?_⟩
  · rw [block]
    split <;> rfl
  · rw [block, if_pos (covered.mpr reached)]
  · rw [block, if_neg (fun h => Nat.not_lt.mpr missed (covered.mp h)), Nat.sub_eq_zero_of_le missed]
    rfl

/-- Settles O21, by the views of the stored payload. -/
theorem appendStoresPayload : Obligations.AppendStoresPayload := by
  unfold Obligations.AppendStoresPayload
  intro s p id i data d m h some_byte data_fits defined c a e r chain place
  have passes : (taken s p r).writerRefusal i p = none := writerRefusal_none (s := taken s p r) defined c
  have arg : r.appendArg = some i := appendArg_good i id _ data some_byte
  have fits : r.params.length ≤ 16 ∧ data.length ≤ 256 := ⟨by simp [r], data_fits⟩
  refine ⟨fun tooMany => ?_, fun room => ⟨s.pool.storePayload d m data, ?_, ?_⟩⟩
  · exact exec_attached_of_run (c := .append) h fits (runAppend_overlength passes arg a e tooMany)
  · exact exec_attached_of_run (c := .append) h fits (runAppend_passes passes arg a e room)
  · obtain ⟨records, freeBlocks, quarantine, freeDescriptors, desc⟩ := storePayload_views s.pool d m data
    refine ⟨?_, fun f ne => ?_, freeBlocks, quarantine, freeDescriptors, fun b => storePayload_block_outside d data,
      fun b => ?_, fun k out => ?_, fun wf once j k v hv hk => ?_, fun sound _ k b => ?_⟩
    · rw [desc, if_pos rfl]
    · rw [desc, if_neg (Ne.symm ne)]
    · obtain ⟨fill, check, eq⟩ := records b
      rw [eq]
    · rw [storePayload_bytes]
      exact Pool.storeBytes_read_ne _ _ _ _ _ out
    · rw [storePayload_bytes]
      exact Pool.storeBytes_read _ _ _ _ wf once j k v hv hk
    · exact storePayload_block_of_chain d some_byte sound.blocks_once

/-! ### COMMIT (R53 to R56) -/

/-- Settles O22: the run of COMMIT, its evaluation port by port. -/
theorem commitCompletes : Obligations.CommitCompletes := by
  unfold Obligations.CommitCompletes
  intro s p id i d m h defined c a e filled r seq committed evaluated
  have passes : (taken s p r).writerRefusal i p = none := writerRefusal_none (s := taken s p r) defined c
  have arg : r.streamArg = some i := streamArg_good i id _
  have run := runCommit_passes passes arg a e filled
  rw [State.commitStream, allPorts_foldl] at run
  exact exec_attached_of_run (c := .commit) h (by simp [requestOf]) run

/-- R23: linking writes the `next` of the former newest message. -/
theorem linkNewest_desc (q : Pool) (newest : Option DescId) (d e : DescId) :
    (q.linkNewest newest d).desc e =
      if newest = some e then (match q.desc e with | .committed m => .committed { m with next := some d } | x => x)
      else q.desc e := by
  cases newest with
  | none => rfl
  | some n =>
    rw [Pool.linkNewest, Pool.updateCommitted_desc]
    by_cases same : n = e
    · subst same
      exact (if_pos rfl).trans (if_pos rfl).symm
    · simp only [same, Option.some.injEq, if_false]

theorem linkNewest_kept (q : Pool) (newest : Option DescId) (d : DescId) :
    q.linkNewest newest d = { q with descriptors := (q.linkNewest newest d).descriptors } := by
  cases newest with
  | none => rfl
  | some n => exact Pool.updateCommitted_kept _ _ _

/-- The last of the first `k` elements is not among the `k - 1` before it. -/
theorem ne_last_of_mem_front {l : List BlockId} (once : l.Nodup) {k : Nat} (le : k ≤ l.length) {b : BlockId}
    (front : b ∈ l.take (k - 1)) : some b ≠ (l.take k).getLast? := by
  obtain ⟨j, hj⟩ := List.mem_iff_getElem?.mp front
  rw [List.getElem?_take] at hj
  split at hj
  · next lt =>
    rw [List.getLast?_eq_getElem?, List.length_take, Nat.min_eq_left le, List.getElem?_take, if_pos (by omega)]
    intro last
    have := (getElem?_of_once once hj _).mp last.symm
    omega
  · exact absurd hj (by simp)

theorem returned_of_unfailed {r : BlockRecord} (h : r.failed = false) :
    r.returned = { r with state := .free, next := none, fill := 0, owner := none } := by
  simp [BlockRecord.returned, h]

/-- Settles O23: the commit of the storage, then the link from the former newest message. -/
theorem commitMakesMessage : Obligations.CommitMakesMessage := by
  unfold Obligations.CommitMakesMessage
  intro s i d m e fresh sound some_byte fits healthy k chain t
  obtain ⟨block, freeBlocks, quarantine, freeDescriptors, bytes, desc⟩ :=
    commitMessage_views d m (s.stream i).nextSeq s.stamp (s.presentCount i) sound
  generalize hq : s.pool.commitMessage d m (s.stream i).nextSeq s.stamp (s.presentCount i) = q at *
  have pool : t.pool = q.linkNewest (s.stream i).newest d := by rw [← hq]; rfl
  have kept : t.pool = { q with descriptors := t.pool.descriptors } := by
    rw [pool]
    exact linkNewest_kept _ _ _
  have blocks (b : BlockId) : t.pool.block b = q.block b := by rw [kept]; rfl
  have record (b : BlockId) : q.block b =
      if b ∈ chain.drop k then (s.pool.block b).returned
      else if b ∈ chain.take k then
        { s.pool.block b with state := .committed
                              next := if some b = (chain.take k).getLast? then none else (s.pool.block b).next }
      else s.pool.block b := block b
  have full : k ≤ chain.length := by
    have length : chain.length = m.blockCount := sound.full_length
    omega
  have apart : ∀ b ∈ chain.take k, b ∉ chain.drop k := by
    have once : chain.Nodup := sound.blocks_once
    rw [← List.take_append_drop k chain, List.nodup_append] at once
    exact fun b hb hd => once.2.2 b hb b hd rfl
  have unfailed : ∀ b ∈ chain.drop k, (s.pool.block b).failed = false := fun b hb => healthy b (List.mem_of_mem_drop hb)
  refine ⟨?_, fun j ne => ?_, rfl, rfl, rfl, ?_, ?_, fun f o newest committed => ?_, fun f ne other => ?_, fun b hb => ?_,
    fun b hb => ?_, fun b out => ?_, fun b hb => ?_, ?_, ?_, ?_⟩
  · exact (State.setStream_stream_self _ _ _).trans (by simp only [Option.isNone_iff_eq_none]; rfl)
  · exact (State.setStream_stream _ _ _ _).trans (if_neg (Ne.symm ne))
  · rw [kept]
    exact bytes
  · rw [pool, linkNewest_desc, if_neg fresh, desc, if_pos rfl]
    rfl
  · have ne : d ≠ f := by
      rintro rfl
      exact fresh newest
    rw [pool, linkNewest_desc, if_pos newest, desc, if_neg ne, committed]
  · rw [pool, linkNewest_desc, desc, if_neg (Ne.symm ne)]
    split
    · next newest =>
      cases o : s.pool.desc f with
      | committed c => exact absurd o (other.resolve_left (fun h => h newest) c)
      | free => rfl
      | staged c => rfl
    · rfl
  · have mem : b ∈ chain.take k := (List.take_sublist_take_left (Nat.sub_le k 1)).subset hb
    rw [blocks, record, if_neg (apart b mem), if_pos mem, if_neg (ne_last_of_mem_front sound.blocks_once full hb)]
  · have mem : b ∈ chain.take k := List.mem_of_getLast? hb
    rw [blocks, record, if_neg (apart b mem), if_pos mem, if_pos (Option.mem_def.mp hb).symm]
  · rw [blocks, record, if_neg (fun h => out (List.mem_of_mem_drop h)), if_neg (fun h => out (List.mem_of_mem_take h))]
  · rw [blocks, record, if_pos hb, returned_of_unfailed (unfailed b hb)]
  · rw [kept]
    exact freeBlocks.trans (congrArg _ (List.filter_eq_self.mpr (fun b hb => by simp [unfailed b hb])))
  · rw [kept]
    refine quarantine.trans ?_
    rw [List.filter_eq_nil_iff.mpr (fun b hb => by simp [unfailed b hb]), List.append_nil]
  · rw [kept]
    exact freeDescriptors

/-! ### The evaluation of a port (R114, R116, R119) -/

/-- R114: the ARRIVAL that the evaluation posts, when one is due. -/
theorem arrivalEvaluation_eq {s : State} {i : StreamId} {p : Port} {u : Subscription} (x : Seq) (urgent : Bool)
    (hu : s.sub i p = some u) :
    let raised := min 512 (u.unannounced + 1)
    let arrival := u.arrivalQueued = false ∧ (u.arrivalBatch ≤ raised ∨ urgent = true)
    let appended := arrival ∧ (s.queue p).records.length < 32
    s.arrivalEvaluation i x urgent p =
      (if arrival then s.post p { kind := .arrival, stream := i, sequence := x, count := BitVec.ofNat 16 raised,
                                  aux := if urgent then 1 else 0 } else s).setSub i p
        (some { u with unannounced := if appended then 0 else raised
                       arrivalQueued := if appended then true else u.arrivalQueued }) := by
  intro raised arrival appended
  unfold State.arrivalEvaluation
  simp only [hu]
  by_cases due : arrival
  · rw [if_pos due, if_pos due]
    unfold State.postArrival
    dsimp only
    rw [post_setSub, setSub_setSub]
    by_cases room : (s.queue p).records.length < 32
    · have fits : (s.setSub i p (some { u with unannounced := raised })).hasRoomForNotice p = true := decide_eq_true room
      rw [if_pos fits, if_pos (show appended from ⟨due, room⟩), if_pos (show appended from ⟨due, room⟩)]
    · have full : (s.setSub i p (some { u with unannounced := raised })).hasRoomForNotice p ≠ true :=
        fun h => room (of_decide_eq_true h)
      have stays : ¬appended := fun h => room h.2
      rw [if_neg full, if_neg stays, if_neg stays]
  · have stays : ¬appended := fun h => due h.1
    rw [if_neg due, if_neg due, if_neg stays, if_neg stays]

theorem lagEvaluation_of_present {s : State} {i : StreamId} {p : Port} {u : Subscription} (x : Seq) (hu : s.sub i p = some u) :
    s.lagEvaluation i x p =
      if u.lagMark ≠ 0 ∧ u.lagArmed = true ∧ u.lagMark ≤ unread (s.stream i) u then
        (s.post p { kind := .lag, stream := i, sequence := x, count := BitVec.ofNat 16 (unread (s.stream i) u),
                    aux := BitVec.ofNat 16 u.lagMark }).setSub i p (some { u with lagArmed := false })
      else s := by
  simp only [State.lagEvaluation, hu]

/-- R119: the lag evaluation of a subscription as it stands. -/
theorem lagEvaluation_setSub (s : State) (i : StreamId) (x : Seq) (p : Port) (u : Subscription) :
    let unreadCount := ((s.stream i).nextSeq - u.cursor).toNat
    let lag := u.lagMark ≠ 0 ∧ u.lagArmed = true ∧ u.lagMark ≤ unreadCount
    (s.setSub i p (some u)).lagEvaluation i x p =
      (if lag then s.post p { kind := .lag, stream := i, sequence := x, count := BitVec.ofNat 16 unreadCount,
                              aux := BitVec.ofNat 16 u.lagMark } else s).setSub i p
        (some { u with lagArmed := if lag then false else u.lagArmed }) := by
  intro unreadCount lag
  rw [lagEvaluation_of_present x (State.setSub_sub_self s i p (some u))]
  by_cases due : lag
  · rw [if_pos due, if_pos due]
    refine (if_pos due).trans ?_
    rw [post_setSub, setSub_setSub]
    rfl
  · rw [if_neg due, if_neg due]
    exact if_neg due

/-- R116: the flush timer starts for a pending subscription. -/
theorem startFlush_of_pending (s : State) (i : StreamId) (p : Port) (v : Subscription) :
    let w := s.setSub i p (some v)
    let starts := v.state = .active ∧ 0 < v.unannounced ∧ v.arrivalQueued = false ∧
      (s.session p).flushTimer = .idle ∧ (s.session p).flushPeriod ≠ 0
    (if w.subPending p i then w.startFlush p else w) =
      if starts then w.setSession p { s.session p with flushTimer := .running (s.session p).flushPeriod } else w := by
  intro w starts
  have pending : w.subPending p i = v.isPending := by simp [w, State.subPending]
  rw [pending, State.startFlush]
  by_cases hv : v.isPending = true
  · have ⟨⟨active, some_new⟩, unqueued⟩ : (v.state = .active ∧ 0 < v.unannounced) ∧ v.arrivalQueued = false := by
      simpa [Subscription.isPending] using hv
    rw [if_pos hv]
    by_cases timer : (s.session p).flushTimer = .idle ∧ (s.session p).flushPeriod ≠ 0
    · rw [if_pos (show starts from ⟨active, some_new, unqueued, timer⟩)]
      exact if_pos timer
    · rw [if_neg (show ¬starts from fun ⟨_, _, _, h⟩ => timer h)]
      exact if_neg timer
  · have idle : ¬starts := fun ⟨active, some_new, unqueued, _⟩ =>
      hv (by simp [Subscription.isPending, active, some_new, unqueued])
    rw [if_neg hv, if_neg idle]

theorem ite_post_stream (s : State) (c : Prop) [Decidable c] (p : Port) (n : Notice) (i : StreamId) :
    (if c then s.post p n else s).stream i = s.stream i := by
  split
  · exact post_stream s p n i
  · rfl

theorem ite_post_session (s : State) (c : Prop) [Decidable c] (p q : Port) (n : Notice) :
    (if c then s.post p n else s).session q = s.session q := by
  split
  · exact post_session s p q n
  · rfl

/-- Settles O30: the arrival part, the lag part and the flush start, in that order. -/
theorem arrivalEvaluation : Obligations.ArrivalEvaluation := by
  unfold Obligations.ArrivalEvaluation
  intro s i x urgent p t
  refine ⟨fun none => ?_, ?_⟩
  · simp [t, State.evaluatePort, State.arrivalEvaluation, State.lagEvaluation, State.subPending, none]
  · intro u hu raised unreadCount arrival lag arrivalNotice lagNotice afterArrival afterLag appended v starts
    have evaluated : (s.arrivalEvaluation i x urgent p).lagEvaluation i x p = afterLag.setSub i p (some v) := by
      rw [arrivalEvaluation_eq x urgent hu, lagEvaluation_setSub, ite_post_stream]
    have session : afterLag.session p = s.session p := (ite_post_session _ _ _ _ _).trans (ite_post_session _ _ _ _ _)
    have eq : t = if starts then (afterLag.setSub i p (some v)).setSession p
        { s.session p with flushTimer := .running (s.session p).flushPeriod } else afterLag.setSub i p (some v) := by
      have started := startFlush_of_pending afterLag i p v
      dsimp only at started
      rw [session] at started
      refine Eq.trans ?_ started
      rw [← evaluated]
      rfl
    exact ⟨fun h => eq.trans (if_pos h), fun h => eq.trans (if_neg h)⟩

end Sys2Proof.Proofs.Commits
end

section
/-! SUPPORT. The operations that commands and events share: the retirement check (R30), the ROOM re-evaluation (R76, R77), the
removal of a subscription (R84, R90), and the posting of notices (R73, R111). -/

namespace Sys2Proof.Proofs.SharedOperations

open Sys2Proof.Machine Sys2Proof.Safety Sys2Proof.Laws Sys2Proof.Proofs.Streams

/-! ### The retirement check (R30) -/

theorem mayRetire_iff (w : State) (i : StreamId) :
    w.mayRetire i = true ↔ ∃ x d m, (w.stream i).settings = some x ∧ (w.stream i).oldest = some d ∧
      w.pool.desc d = .committed m ∧ m.readers = 0 ∧ x.retainDepth < (w.stream i).committedCount := by
  unfold State.mayRetire
  split
  · next x d settings oldest =>
    split
    · next m committed => simp [settings, oldest, committed]
    · next other =>
      simp only [Bool.false_eq_true, false_iff]
      rintro ⟨y, e, m, hy, he, hm, -⟩
      obtain rfl := Option.some.inj (oldest.symm.trans he)
      exact other m hm
  · next none =>
    simp only [Bool.false_eq_true, false_iff]
    rintro ⟨y, e, m, hy, he, -⟩
    exact none y e hy he

/-- A retirement takes one message off the count. -/
theorem removeOldest_count_of_mayRetire {w : State} {i : StreamId} (h : w.mayRetire i = true) :
    ((w.removeOldest i).stream i).committedCount + 1 = (w.stream i).committedCount := by
  obtain ⟨x, d, m, -, oldest, committed, -, more⟩ := (mayRetire_iff w i).mp h
  rw [removeOldest_eq oldest committed, State.setStream_stream_self]
  dsimp only
  omega

/-- R30: with as many turns as messages, the loop ends where the test fails. -/
theorem retireLoop_spec (i : StreamId) (n : Nat) (s : State) (enough : (s.stream i).committedCount ≤ n) :
    ¬(State.retireLoop i n s).mayRetire i = true ∧
      ∃ k : Nat, State.retireLoop i n s = State.removeMany i k s ∧ ∀ j < k, (State.removeMany i j s).mayRetire i = true := by
  induction n generalizing s with
  | zero =>
    refine ⟨fun h => ?_, 0, rfl, fun j lt => absurd lt (Nat.not_lt_zero j)⟩
    obtain ⟨_, _, _, _, _, _, _, more⟩ := (mayRetire_iff _ i).mp h
    have : (s.stream i).committedCount = 0 := Nat.le_zero.mp enough
    exact Nat.not_lt_zero _ (this ▸ more)
  | succ n ih =>
    by_cases may : s.mayRetire i = true
    · have := removeOldest_count_of_mayRetire may
      obtain ⟨stops, k, removed, tests⟩ := ih (s.removeOldest i) (by omega)
      rw [State.retireLoop, if_pos may]
      refine ⟨stops, k + 1, removed, fun j lt => ?_⟩
      cases j with
      | zero => exact may
      | succ j => exact tests j (by omega)
    · rw [State.retireLoop, if_neg may]
      exact ⟨may, 0, rfl, fun j lt => absurd lt (Nat.not_lt_zero j)⟩

/-- Settles O26: the check is a loop with as many turns as the stream has messages. -/
theorem retirementStopsRightly : Obligations.RetirementStopsRightly := by
  unfold Obligations.RetirementStopsRightly
  intro s i test
  obtain ⟨stops, k, removed, tests⟩ := retireLoop_spec i _ s (Nat.le_refl _)
  exact ⟨fun h => stops ((mayRetire_iff _ i).mpr h), k, removed, fun j lt => (mayRetire_iff _ i).mp (tests j lt)⟩

/-! ### Posting (R73, R111) -/

theorem post_room {s : State} {p : Port} (n : Notice) (room : (s.queue p).records.length < 32) :
    s.post p n = s.setQueue p { s.queue p with records := (s.queue p).records ++ [n] } :=
  if_pos (decide_eq_true room)

theorem post_full {s : State} {p : Port} (n : Notice) (full : 32 ≤ (s.queue p).records.length) :
    s.post p n = s.setQueue p { s.queue p with dropped := min 255 ((s.queue p).dropped + 1) } :=
  if_neg (fun h => Nat.not_lt.mpr full (of_decide_eq_true h))

/-- R73: a subscription that was not forced, or whose LOSS notice is queued, is passed by. -/
theorem postLoss_stays {s t : State} {i : StreamId} {q : Port} {old u : Subscription} (opener : Port)
    (before : s.sub i q = some old) (after : t.sub i q = some u) (h : ¬(u.cursor ≠ old.cursor ∧ u.lossQueued = false)) :
    State.postLoss s i opener t q = t := by
  simp only [State.postLoss, before, after]
  exact if_neg h

theorem postLoss_posts {s t : State} {i : StreamId} {q : Port} {old u : Subscription} (opener : Port)
    (before : s.sub i q = some old) (after : t.sub i q = some u) (h : u.cursor ≠ old.cursor ∧ u.lossQueued = false) :
    let posted := t.post q { kind := .loss, stream := i, sequence := old.cursor, count := u.cursor - old.cursor,
                             aux := BitVec.ofNat 16 opener.val }
    State.postLoss s i opener t q =
      if t.hasRoomForNotice q then posted.setSub i q (some { u with lossQueued := true }) else posted := by
  simp only [State.postLoss, before, after]
  exact if_pos h

/-- Settles O29, by whether the queue has room. -/
theorem postingRule : Obligations.PostingRule := by
  unfold Obligations.PostingRule
  refine ⟨fun s p n => ⟨post_room n, post_full n⟩, ?_⟩
  intro s t i opener q old u before after notice
  refine ⟨fun h => postLoss_stays opener before after (fun ⟨moved, unqueued⟩ => ?_), fun moved unqueued room => ?_,
    fun moved unqueued full => ?_⟩
  · obtain same | queued := h
    · exact moved same
    · exact absurd (queued.symm.trans unqueued) (by decide)
  · rw [postLoss_posts opener before after ⟨moved, unqueued⟩, if_pos (show t.hasRoomForNotice q = true from decide_eq_true room),
      post_room _ room]
  · rw [postLoss_posts opener before after ⟨moved, unqueued⟩,
      if_neg (show ¬t.hasRoomForNotice q = true from fun h => Nat.not_lt.mpr full (of_decide_eq_true h)), post_full _ full]

/-! ### Removal of a subscription (R84, R90) -/

/-- Changing the listed committed descriptors, one at a time: a committed one is changed once for each time it is listed. -/
theorem foldl_updateCommitted_desc (f : CommittedMessage → CommittedMessage) (ds : List DescId) (q : Pool) (d : DescId) :
    (∀ m, q.desc d = .committed m →
      (ds.foldl (fun q d => q.updateCommitted d f) q).desc d = .committed (f^[ds.count d] m)) ∧
    ((∀ m, q.desc d ≠ .committed m) → (ds.foldl (fun q d => q.updateCommitted d f) q).desc d = q.desc d) := by
  induction ds generalizing q with
  | nil => exact ⟨fun m e => e, fun _ => rfl⟩
  | cons c rest ih =>
    obtain ⟨listed, other⟩ := ih (q.updateCommitted c f)
    rw [List.foldl_cons]
    constructor
    · intro m e
      by_cases same : c = d
      · subst same
        rw [List.count_cons_self, Function.iterate_succ_apply]
        exact listed (f m) (by rw [Pool.updateCommitted_desc, if_pos rfl, e])
      · rw [List.count_cons_of_ne same]
        exact listed m (by rw [Pool.updateCommitted_desc, if_neg same, e])
    · intro h
      have stays : (q.updateCommitted c f).desc d = q.desc d := by
        rw [Pool.updateCommitted_desc]
        split
        · next same =>
          subst same
          cases e : q.desc c with
          | committed m => exact absurd e (h m)
          | free => rfl
          | staged m => rfl
        · rfl
      rw [other (stays ▸ h), stays]

theorem lowered_iterate (n : Nat) (m : CommittedMessage) :
    (fun m : CommittedMessage => { m with readers := m.readers - 1 })^[n] m = { m with readers := m.readers - n } := by
  induction n generalizing m with
  | zero => rfl
  | succ n ih =>
    rw [Function.iterate_succ_apply, ih]
    simp only [Nat.sub_sub, Nat.add_comm 1 n]

theorem raised_iterate (n : Nat) (m : CommittedMessage) :
    (fun m : CommittedMessage => { m with readers := m.readers + 1 })^[n] m = { m with readers := m.readers + n } := by
  induction n generalizing m with
  | zero => rfl
  | succ n ih =>
    rw [Function.iterate_succ_apply, ih]
    simp only [Nat.add_assoc, Nat.add_comm 1 n]

/-- Settles O28: the readers by the number of times a message is listed, the removal by its definition. -/
theorem subscriptionRemoval : Obligations.SubscriptionRemoval := by
  unfold Obligations.SubscriptionRemoval
  refine ⟨fun q ds => ⟨fun d m e => ⟨?_, ?_⟩, fun d h => ⟨?_, ?_⟩, Pool.lowerReaders_kept ds q, Pool.raiseReaders_kept ds q⟩, ?_⟩
  · rw [Pool.lowerReaders, (foldl_updateCommitted_desc _ ds q d).1 m e, lowered_iterate]
  · rw [Pool.raiseReaders, (foldl_updateCommitted_desc _ ds q d).1 m e, raised_iterate]
  · exact (foldl_updateCommitted_desc _ ds q d).2 h
  · exact (foldl_updateCommitted_desc _ ds q d).2 h
  · intro s i p u present
    simp only [State.dropSub, present]
    rfl

/-! ### The ROOM re-evaluation (R76, R77) -/

/-- R111: a notice at the end of a queue, or one more dropped notice. -/
def enqueue (q : NoticeQueue) (n : Notice) : NoticeQueue :=
  if q.records.length < 32 then { q with records := q.records ++ [n] } else { q with dropped := min 255 (q.dropped + 1) }

theorem post_queue_self (s : State) (p : Port) (n : Notice) : (s.post p n).queue p = enqueue (s.queue p) n := by
  unfold enqueue
  split
  · next room => rw [post_room n room, State.setQueue_queue, if_pos rfl]
  · next full => rw [post_full n (Nat.not_lt.mp full), State.setQueue_queue, if_pos rfl]

/-- A run of notices posted to one queue. -/
theorem enqueues_spec (ns : List Notice) (q : NoticeQueue) :
    let t := ns.foldl enqueue q
    let free := 32 - q.records.length
    t.records = q.records ++ ns.take free ∧ (ns.length ≤ free → t.dropped = q.dropped) ∧
      (free < ns.length → t.dropped = min 255 (q.dropped + (ns.length - free))) := by
  induction ns generalizing q with
  | nil => simp
  | cons n rest ih =>
    obtain ⟨records, fits, spills⟩ := ih (enqueue q n)
    dsimp only
    rw [List.foldl_cons, List.length_cons]
    by_cases room : q.records.length < 32
    · have one : enqueue q n = { q with records := q.records ++ [n] } := if_pos room
      simp only [one, List.length_append, List.length_singleton] at records fits spills ⊢
      refine ⟨?_, fun h => fits (by omega), fun h => (spills (by omega)).trans (by congr 2; omega)⟩
      rw [records, List.append_assoc, show 32 - q.records.length = 32 - (q.records.length + 1) + 1 by omega,
        List.take_succ_cons, List.singleton_append]
    · have one : enqueue q n = { q with dropped := min 255 (q.dropped + 1) } := if_neg room
      have none_free : 32 - q.records.length = 0 := by omega
      simp only [one, none_free, List.take_zero, List.append_nil] at records fits spills ⊢
      refine ⟨records, fun h => absurd h (by omega), fun _ => ?_⟩
      cases rest with
      | nil => exact (fits (Nat.le_refl 0)).trans (by simp)
      | cons m more =>
        rw [spills (by simp)]
        simp only [List.length_cons]
        omega

theorem holder_eq_some_iff (c : Claim) (p : Port) : c.holder = some p ↔ c = .held p ∨ c = .stale p := by
  cases c <;> simp [Claim.holder]

/-- The ROOM notice of a stream depends on its record and on the pool only. -/
theorem roomNoticeOf_congr {s t : State} {i : StreamId} (p : Port) (stream : t.stream i = s.stream i) (pool : t.pool = s.pool) :
    roomNoticeOf t p i = roomNoticeOf s p i := by
  unfold roomNoticeOf
  rw [stream, pool]

/-- R77: the re-evaluation of one stream posts its ROOM notice to the one holder of its claim, or does nothing. -/
theorem reevaluateStream_cases (s : State) (i : StreamId) :
    (∃ p n, roomNoticeOf s p i = some n ∧ (∀ q, q ≠ p → roomNoticeOf s q i = none) ∧
      s.reevaluateStream i = (s.post p n).setStream i { s.stream i with starvedNeed := none }) ∨
    ((∀ p, roomNoticeOf s p i = none) ∧ s.reevaluateStream i = s) := by
  unfold State.reevaluateStream roomNoticeOf
  cases settings : (s.stream i).settings with
  | none => exact .inr ⟨fun _ => rfl, rfl⟩
  | some x =>
    cases starved : (s.stream i).starvedNeed with
    | none => exact .inr ⟨fun _ => rfl, rfl⟩
    | some need =>
      have met : s.needMet i need = true ↔ need ≤ x.blockLimit - (s.stream i).heldBlocks ∧
          need ≤ s.pool.freeBlocks.length ∧ 1 ≤ s.pool.freeDescriptors.length := by
        simp [State.needMet, StreamRecord.headroom, settings, and_assoc]
      simp only [← holder_eq_some_iff, ← met]
      cases holder : (s.stream i).claim.holder with
      | none => exact .inr ⟨fun p => if_neg (fun h => absurd h.1 (by simp)), rfl⟩
      | some p =>
        by_cases c : s.needMet i need = true
        · refine .inl ⟨p, _, if_pos ⟨rfl, c⟩, fun q ne => if_neg (fun h => ne (Option.some.inj h.1).symm), if_pos c⟩
        · exact .inr ⟨fun q => if_neg (fun h => c h.2), if_neg c⟩

/-- What the re-evaluation of one stream leaves. -/
theorem reevaluateStream_views (s : State) (i : StreamId) :
    let t := s.reevaluateStream i
    t.pool = s.pool ∧ (∀ j, j ≠ i → t.stream j = s.stream j) ∧
      ((∃ p, roomNoticeOf s p i ≠ none) → t.stream i = { s.stream i with starvedNeed := none }) ∧
      ((∀ p, roomNoticeOf s p i = none) → t.stream i = s.stream i) ∧
      (∀ p, t.queue p = (roomNoticeOf s p i).toList.foldl enqueue (s.queue p)) := by
  obtain ⟨p, n, notice, others, eq⟩ | ⟨none, eq⟩ := reevaluateStream_cases s i
  · dsimp only
    rw [eq]
    refine ⟨post_pool s p n, fun j ne => ?_, fun _ => State.setStream_stream_self _ _ _, fun none => ?_, fun q => ?_⟩
    · rw [State.setStream_stream, if_neg (Ne.symm ne), post_stream]
    · exact absurd ((none p).symm.trans notice) (by simp)
    · rw [State.setStream_queue]
      by_cases e : q = p
      · rw [e, post_queue_self, notice]
        rfl
      · rw [post_queue_ne s p q n e, others q e]
        rfl
  · dsimp only
    rw [eq]
    refine ⟨rfl, fun _ _ => rfl, fun ⟨p, h⟩ => absurd (none p) h, fun _ => rfl, fun p => ?_⟩
    rw [none p]
    rfl

/-- What the re-evaluation of a list of streams leaves: each is decided on the state before. -/
theorem reevaluateStreams_views (l : List StreamId) (once : l.Nodup) (s : State) :
    let t := l.foldl State.reevaluateStream s
    (∀ i, i ∉ l → t.stream i = s.stream i) ∧
      (∀ i ∈ l, ((∃ p, roomNoticeOf s p i ≠ none) → t.stream i = { s.stream i with starvedNeed := none }) ∧
        ((∀ p, roomNoticeOf s p i = none) → t.stream i = s.stream i)) ∧
      (∀ p, t.queue p = (l.filterMap (roomNoticeOf s p)).foldl enqueue (s.queue p)) := by
  induction l generalizing s with
  | nil => simp
  | cons i rest ih =>
    obtain ⟨out, rest_once⟩ := List.nodup_cons.mp once
    obtain ⟨pool, others, loses, stays, queues⟩ := reevaluateStream_views s i
    obtain ⟨outside, inside, posts⟩ := ih rest_once (s.reevaluateStream i)
    have notice (p : Port) {j : StreamId} (mem : j ∈ rest) :
        roomNoticeOf (s.reevaluateStream i) p j = roomNoticeOf s p j :=
      roomNoticeOf_congr p (others j (fun e => out (e ▸ mem))) pool
    refine ⟨fun j h => ?_, fun j mem => ?_, fun p => ?_⟩
    · obtain ⟨ne, h⟩ := not_or.mp (fun x => h (List.mem_cons.mpr x))
      exact (outside j h).trans (others j ne)
    · obtain rfl | mem := List.mem_cons.mp mem
      · rw [List.foldl_cons, outside j out]
        exact ⟨loses, stays⟩
      · have decided := inside j mem
        simp only [notice _ mem, others j (fun e => out (e ▸ mem))] at decided
        exact decided
    · have same : rest.filterMap (roomNoticeOf (s.reevaluateStream i) p) = rest.filterMap (roomNoticeOf s p) :=
        List.filterMap_congr (fun j mem => notice p mem)
      rw [List.foldl_cons, posts, same, queues, ← List.foldl_append]
      congr 1
      cases e : roomNoticeOf s p i <;> simp [e]

/-- Settles O27: the streams one after the other, each decided on the state before, and the notices as one run of posts. -/
theorem roomReevaluation : Obligations.RoomReevaluation := by
  unfold Obligations.RoomReevaluation
  intro before s t returned
  have decided : Pool.returnedStorage before s.pool = true ↔ returned := by
    simp [Pool.returnedStorage, returned]
  refine ⟨fun none => if_neg (fun h => none (decided.mp h)), fun some => ?_⟩
  have eq : t = s.roomReevaluation := if_pos (decided.mpr some)
  obtain ⟨-, inside, posts⟩ := reevaluateStreams_views allStreams (List.nodup_finRange 64) s
  rw [eq]
  refine ⟨roomReevaluation_kept s, fun i => inside i (List.mem_finRange i), fun p => ?_⟩
  have queue : s.roomReevaluation.queue p = _ := posts p
  rw [queue]
  exact enqueues_spec _ _

end Sys2Proof.Proofs.SharedOperations
end

section
/-! SUPPORT. READ (R95 to R98, R13): the answers without a byte, the piece that is delivered and the damaged stop. -/

namespace Sys2Proof.Proofs.Reads

open Sys2Proof.Machine Sys2Proof.Safety Sys2Proof.Laws Sys2Proof.Proofs.Streams Sys2Proof.Proofs.Subscriptions

/-! ### The fields of an answer -/

theorem flagsByte_four (a b c d : Bool) :
    flagsByte [a, b, c, d] =
      BitVec.ofNat 8 ((if a then 1 else 0) + (if b then 2 else 0) + (if c then 4 else 0) + (if d then 8 else 0)) := by
  revert a b c d
  decide

/-- Table 9.6: the READ header with its flags written out. -/
theorem readHeader_eq (m : CommittedMessage) (damaged atEnd lost : Bool) (offset count : Nat) :
    readHeader m damaged atEnd lost offset count = readHeaderOf m damaged atEnd lost offset count := by
  rw [readHeader, readFlags, flagsByte_four]
  rfl

theorem messageBytes_eq (q : Pool) (chain : List BlockId) (o n : Nat) :
    q.messageBytes chain o n = messageBytesOf q chain o n := rfl

/-! ### The outcomes of READ -/

section Run

variable {r : Request} {a : ReadArgs} (p : Port) (s : State) (arg : r.readArgs = some a)
include arg

theorem runRead_undefined (d : (s.stream a.stream).settings = none) : runRead p r s = (s, refusal .noStream) := by
  simp [runRead, arg, not_defined d, replyStatus, refusal]

theorem runRead_absent (d : (s.stream a.stream).settings ≠ none) (h : s.sub a.stream p = none) :
    runRead p r s = (s, refusal .notSubscribed) := by
  simp [runRead, arg, defined_of_ne d, h, replyStatus, refusal]

theorem runRead_passes {u : Subscription} (d : (s.stream a.stream).settings ≠ none) (h : s.sub a.stream p = some u) :
    runRead p r s = s.readSub a.stream p u a.most := by
  simp [runRead, arg, defined_of_ne d, h]

end Run

/-- R95: a READ with nothing unread. -/
theorem readSub_nothing {s : State} {i : StreamId} {u : Subscription} (p : Port) (most : Nat)
    (caughtUp : (s.stream i).nextSeq = u.cursor) :
    s.readSub i p u most = (s.setSub i p (some { u with lostSinceRead := false }),
      { status := .nothing, result := [if u.lostSinceRead then 8 else 0], payload := [] }) := by
  have flags : readFlags false false false u.lostSinceRead = if u.lostSinceRead then 8 else 0 := by
    cases u.lostSinceRead <;> rfl
  rw [State.readSub, if_pos ((unread_eq_zero_iff _ _).mpr caughtUp), State.readNothing, flags]
  rfl

section AtCursor

variable {s : State} {i : StreamId} {u : Subscription} {d : DescId} {m : CommittedMessage} (p : Port) (most : Nat)
  (at_d : AtCursor s i u d m)
include at_d

/-- R96: a READ after a damaged stop. -/
theorem readSub_damaged (stopped : u.damagedStop = true) :
    s.readSub i p u most = (s.setSub i p (some { u with lostSinceRead := false }),
      { status := .damaged, result := readHeaderOf m true false u.lostSinceRead u.readOffset 0, payload := [] }) := by
  simp only [State.readSub, if_neg ((unread_eq_zero_iff _ _).not.mpr at_d.has_unread), messageAt_cursor at_d, at_d.committed,
    if_pos stopped, readHeader_eq, replyFields, Subscription.lostReported]

theorem readSub_piece (sound : u.damagedStop = false) : s.readSub i p u most = s.readPiece i p u d m most := by
  simp [State.readSub, if_neg ((unread_eq_zero_iff _ _).not.mpr at_d.has_unread), messageAt_cursor at_d, at_d.committed, sound]

end AtCursor

section Piece

variable {s : State} {i : StreamId} {u : Subscription} {d : DescId} {m : CommittedMessage} (p : Port) {most : Nat}

/-- R97: a READ at the end of the message. -/
theorem readPiece_atEnd (atEnd : u.readOffset = m.committedLength) :
    s.readPiece i p u d m most = (s.setSub i p (some { u with lostSinceRead := false }),
      { status := .ok, result := readHeaderOf m m.damaged true u.lostSinceRead m.committedLength 0, payload := [] }) := by
  rw [State.readPiece, if_pos (Nat.le_of_eq atEnd.symm), readHeader_eq, ← atEnd]
  rfl

/-- The tests write the model's draws only. -/
theorem testBlocks_draws (l : List BlockId) (s : State) :
    testBlocks l s = ({ s with draws := (testBlocks l s).1.draws }, (testBlocks l s).2) :=
  Prod.ext (testBlocks_kept l s) rfl

/-- R96, R97: every covered block passes its test. -/
theorem readPiece_delivers {x : Nat} (more : u.readOffset < m.committedLength) :
    let chain := s.pool.chain m.firstBlock m.blockCount
    let count := min most (m.committedLength - u.readOffset)
    testBlocks (coveredBlocks chain u.readOffset count) s = ({ s with draws := x }, none) →
    s.readPiece i p u d m most =
      (State.setSub { s with draws := x } i p (some { u with lostSinceRead := false, readOffset := u.readOffset + count }),
        { status := .ok
          result := readHeaderOf m m.damaged (u.readOffset + count = m.committedLength) u.lostSinceRead u.readOffset count
          payload := messageBytesOf s.pool chain u.readOffset count }) := by
  intro chain count tested
  unfold State.readPiece
  dsimp only
  rw [if_neg (Nat.not_le.mpr more), tested, readHeader_eq]
  rfl

/-- R98: a covered block fails its test. -/
theorem readPiece_stops {x k : Nat} {b : BlockId} (more : u.readOffset < m.committedLength) :
    let chain := s.pool.chain m.firstBlock m.blockCount
    testBlocks (coveredBlocks chain u.readOffset (min most (m.committedLength - u.readOffset))) s =
      ({ s with draws := x }, some (k, b)) →
    s.readPiece i p u d m most =
      State.damagedStop { s with draws := x } i p u d m chain (u.readOffset / 64 + k) b := by
  intro chain tested
  unfold State.readPiece
  dsimp only
  rw [if_neg (Nat.not_le.mpr more), tested]

end Piece

/-- R98, step 2: the failed block and the damaged message. -/
theorem markFailed_pool {s : State} {d : DescId} {m : CommittedMessage} (b : BlockId) (e : s.pool.desc d = .committed m) :
    (s.markFailed d b).pool =
      (s.pool.setBlock b { s.pool.block b with failed := true }).setDesc d (.committed { m with damaged := true }) := by
  have same : (s.pool.setBlock b { s.pool.block b with failed := true }).desc d = .committed m := e
  rw [State.markFailed, State.setPool_pool, Pool.updateCommitted, same]

/-- R98, step 1: the offset at which a damaged stop leaves the subscription. -/
theorem stop_offset (o k : Nat) : o + (64 * k - o) = max o (64 * k) := by omega

/-! ### READ on the port's row -/

/-- The arguments of a READ in range. -/
theorem readArgs_of_range {i : StreamId} {m1 m0 : Byte} (id : Byte) :
    let params := [streamByte i, m1, m0]
    1 ≤ paramWord params 1 → paramWord params 1 ≤ 256 →
    (requestOf .read id params []).readArgs = some { stream := i, most := paramWord params 1 } := by
  intro params min max
  have most : paramWord params 1 = (word16 m1 m0).toNat := paramWord_eq params 1
  rw [most] at min max ⊢
  exact readArgs_good i m1 m0 id _ min max

theorem atCursor_taken {s : State} {i : StreamId} {u : Subscription} {d : DescId} {m : CommittedMessage} (p : Port) (r : Request)
    (h : AtCursor s i u d m) : AtCursor (taken s p r) i u d m :=
  ⟨h.has_unread, h.position_held, h.found, h.committed⟩

/-- Settles O33, by the outcomes without a byte. -/
theorem readWithoutPiece : Obligations.ReadWithoutPiece := by
  unfold Obligations.ReadWithoutPiece
  intro s p id i m1 m0 h params r min max
  have fits : r.params.length ≤ 16 ∧ r.payload.length ≤ 256 := by simp [r, params]
  have arg : r.readArgs = some { stream := i, most := paramWord params 1 } := readArgs_of_range id min max
  refine ⟨fun d => ?_, fun d absent => ?_, fun u d present => ?_⟩
  · exact exec_attached_of_run (c := .read) h fits (runRead_undefined p (taken s p r) arg d)
  · exact exec_attached_of_run (c := .read) h fits (runRead_absent p (taken s p r) arg d absent)
  · intro reported
    have passes := runRead_passes p (taken s p r) arg d present
    refine ⟨fun caughtUp => ?_, fun e m at_e => ⟨fun stopped => ?_, fun sound atEnd => ?_⟩⟩
    · exact exec_attached_of_run (c := .read) h fits (passes.trans (readSub_nothing (s := taken s p r) p _ caughtUp))
    · exact exec_attached_of_run (c := .read) h fits (passes.trans (readSub_damaged p _ (atCursor_taken p r at_e) stopped))
    · exact exec_attached_of_run (c := .read) h fits
        (passes.trans ((readSub_piece p _ (atCursor_taken p r at_e) sound).trans (readPiece_atEnd p atEnd)))

/-- Settles O34, by the result of the tests of the covered blocks. -/
theorem readDeliversPiece : Obligations.ReadDeliversPiece := by
  unfold Obligations.ReadDeliversPiece
  intro s p id i m1 m0 u d m h params r o count chain covered sound min max defined present at_d running more
  have fits : r.params.length ≤ 16 ∧ r.payload.length ≤ 256 := by simp [r, params]
  have arg : r.readArgs = some { stream := i, most := paramWord params 1 } := readArgs_of_range id min max
  have passes : runCommand .read p r (taken s p r) = (taken s p r).readPiece i p u d m (paramWord params 1) :=
    (runRead_passes p (taken s p r) arg defined present).trans (readSub_piece p _ (atCursor_taken p r at_d) running)
  have listed {k : Nat} {b : BlockId} (h : covered k b) : (coveredBlocks chain o count)[k - o / 64]? = some b := by
    obtain ⟨found, low, high⟩ := h
    rw [coveredBlocks_get, if_pos (by omega), show o / 64 + (k - o / 64) = k by omega, found]
  have kept := testBlocks_draws (coveredBlocks chain o count) (taken s p r)
  have others (t : State) (v : Option Subscription) (subs : t.subs = s.subs) (j : StreamId) (q : Port) (ne : j ≠ i ∨ q ≠ p) :
      (t.setSub i p v).sub j q = s.sub j q := by
    rw [State.setSub_sub, if_neg (fun ⟨a, b⟩ => ne.elim (fun n => n a.symm) (fun n => n b.symm)), State.sub, subs]
    rfl
  have atOnce : TakenAtOnce s (answered (runCommand .read p r (taken s p r)).1 p (runCommand .read p r (taken s p r)).2) p r
      (runCommand .read p r (taken s p r)).2 := takenAtOnce_of_run s p r _ (runCommand_outside _ _ _ _)
  refine ⟨_, _, exec_attached h .read id params [] fits, atOnce, ?_⟩
  cases tested : (testBlocks (coveredBlocks chain o count) (taken s p r)).2 with
  | none =>
    rw [tested] at kept
    have run := passes.trans (readPiece_delivers (s := taken s p r) p more kept)
    have all := testBlocks_none _ _ tested
    change runCommand .read p (requestOf .read id params []) (taken s p (requestOf .read id params [])) = _ at run
    rw [run]
    refine ⟨rfl, rfl, rfl, others _ _ rfl, .inl ⟨fun k b hb => all b (List.mem_of_getElem? (listed hb)), rfl, ?_,
      congrArg Prod.snd run⟩⟩
    exact State.setSub_sub_self _ _ _ _
  | some found =>
    obtain ⟨k, b⟩ := found
    obtain ⟨at_k, before⟩ := testBlocks_some _ _ k b tested
    rw [tested] at kept
    have run := passes.trans (readPiece_stops (s := taken s p r) p more kept)
    rw [State.damagedStop, readHeader_eq, messageBytes_eq] at run
    change runCommand .read p (requestOf .read id params []) (taken s p (requestOf .read id params [])) = _ at run
    rw [coveredBlocks_get] at at_k
    split at at_k
    · next within =>
      rw [run]
      refine ⟨rfl, rfl, rfl, others _ _ rfl, .inr ⟨o / 64 + k, b, ⟨at_k, by omega, by omega⟩, fun j c hc lt => ?_, ?_, ?_,
        congrArg Prod.snd run⟩⟩
      · have ⟨_, low, _⟩ := hc
        exact before (j - o / 64) c (by omega) (listed hc)
      · exact markFailed_pool (s := taken s p r) b at_d.committed
      · refine (State.setSub_sub_self _ _ _ _).trans ?_
        rw [stop_offset]
        rfl
    · exact absurd at_k (by simp)

end Sys2Proof.Proofs.Reads
end

section
/-! SUPPORT. TAKE_NOTICES (R122, R123) and POOL_INFO (R17). -/

namespace Sys2Proof.Proofs.NoticeCommands

open Sys2Proof.Machine Sys2Proof.Safety Sys2Proof.Laws Sys2Proof.Proofs.Streams Sys2Proof.Proofs.SharedOperations

/-! ### One taken record (R123) -/

theorem processNotice_absent {s : State} {p : Port} {n : Notice} (absent : s.sub n.stream p = none) :
    State.processNotice p s n = s := by
  simp only [State.processNotice, absent]

/-- R123: records of the other kinds do nothing. -/
theorem processNotice_other (p : Port) (s : State) {n : Notice} (arrival : n.kind ≠ .arrival) (loss : n.kind ≠ .loss) :
    State.processNotice p s n = s := by
  unfold State.processNotice
  split
  · rfl
  · split
    · next k => exact absurd k arrival
    · next k => exact absurd k loss
    all_goals rfl

section Present

variable {s : State} {p : Port} {n : Notice} {u : Subscription} (present : s.sub n.stream p = some u)
include present

theorem processNotice_loss (kind : n.kind = .loss) :
    State.processNotice p s n = s.setSub n.stream p (some { u with lossQueued := false }) := by
  simp only [State.processNotice, present, kind]

theorem processNotice_arrival (kind : n.kind = .arrival) (few : u.unannounced < u.arrivalBatch) :
    State.processNotice p s n = s.setSub n.stream p (some { u with arrivalQueued := false }) := by
  simp only [State.processNotice, present, kind, if_neg (Nat.not_le.mpr few)]

/-- R123: a subscription with a batch unannounced is announced again. -/
theorem processNotice_arrivalAgain (kind : n.kind = .arrival) (batch : u.arrivalBatch ≤ u.unannounced)
    (room : (s.queue p).records.length < 32) :
    State.processNotice p s n = (s.setQueue p { s.queue p with
        records := (s.queue p).records ++
          [{ kind := .arrival, stream := n.stream, sequence := (s.stream n.stream).nextSeq - 1,
             count := BitVec.ofNat 16 u.unannounced, aux := 3 }] }).setSub n.stream p
        (some { u with unannounced := 0, arrivalQueued := true }) := by
  simp only [State.processNotice, present, kind, if_pos batch, State.postArrival]
  rw [if_pos (show (s.setSub n.stream p _).hasRoomForNotice p = true from decide_eq_true room), post_setSub, setSub_setSub,
    post_room _ room]

end Present

theorem processNotice_sessions (p : Port) (s : State) (n : Notice) : (State.processNotice p s n).sessions = s.sessions := by
  unfold State.processNotice
  split
  · rfl
  · split
    · dsimp only
      split
      · rw [postArrival_kept]
        rfl
      · rfl
    all_goals rfl

/-! ### The flush start (R116) -/

theorem subPending_iff (s : State) (p : Port) (i : StreamId) :
    s.subPending p i = true ↔
      ∃ u, s.sub i p = some u ∧ u.state = .active ∧ 0 < u.unannounced ∧ u.arrivalQueued = false := by
  unfold State.subPending
  cases s.sub i p with
  | none => simp
  | some u => simp [Subscription.isPending, and_assoc]

/-- Table 9.7: the eight bytes of a record. -/
theorem noticeBytes_eq (n : Notice) :
    n.bytes = byte1 (match n.kind with
        | .arrival => 1
        | .lag => 2
        | .loss => 3
        | .room => 4
        | .claimLost => 5
        | .evicted => 6) ++ [streamByte n.stream] ++ bytes16 n.sequence ++ bytes16 n.count ++ bytes16 n.aux := by
  unfold Notice.bytes NoticeKind.code
  cases n.kind <;> rfl

theorem flushAfterTake_queue (s : State) (p q : Port) (l : List Notice) : (s.flushAfterTake p l).queue q = s.queue q := by
  unfold State.flushAfterTake
  split
  · rw [startFlush_kept]
    rfl
  · rfl

/-- R116, R122, step 4: the flush start of a take. -/
theorem flushAfterTake_eq (s : State) (p : Port) (l : List Notice) :
    s.flushAfterTake p l =
      if (∃ n ∈ l, n.kind = .arrival ∧ s.subPending p n.stream = true) ∧
          (s.session p).flushTimer = .idle ∧ (s.session p).flushPeriod ≠ 0 then
        s.setSession p { s.session p with flushTimer := .running (s.session p).flushPeriod }
      else s := by
  have asks : l.any (fun n => n.kind = .arrival && s.subPending p n.stream) = true ↔
      ∃ n ∈ l, n.kind = .arrival ∧ s.subPending p n.stream = true := by
    simp only [List.any_eq_true, Bool.and_eq_true, decide_eq_true_eq]
  unfold State.flushAfterTake State.startFlush
  by_cases left : ∃ n ∈ l, n.kind = .arrival ∧ s.subPending p n.stream = true
  · rw [if_pos (asks.mpr left)]
    by_cases timer : (s.session p).flushTimer = .idle ∧ (s.session p).flushPeriod ≠ 0
    · rw [if_pos timer, if_pos ⟨left, timer⟩]
    · rw [if_neg timer, if_neg (fun h => timer h.2)]
  · rw [if_neg (fun h => left (asks.mp h)), if_neg (fun h => left h.1)]

/-! ### The commands -/

theorem runTakeNotices_passes {r : Request} {k : Nat} (p : Port) (s : State) (arg : r.takeArg = some k) :
    runTakeNotices p r s = (s.takeNotices p k,
      { status := .ok
        result := byte1 ((s.queue p).records.take k).length ++ byte1 (s.queue p).dropped ++
          byte1 ((s.takeNotices p k).queue p).records.length
        payload := ((s.queue p).records.take k).flatMap Notice.bytes }) := by
  simp only [runTakeNotices, arg]

/-- Settles O37: the run of TAKE_NOTICES, whose flush start reads the session as the grant left it. -/
theorem takeNoticesEmptiesQueue : Obligations.TakeNoticesEmptiesQueue := by
  unfold Obligations.TakeNoticesEmptiesQueue
  refine ⟨?_, ?_⟩
  · intro s p id k h min max r oldest removed processed leftPending starts recordBytes
    have arg : r.takeArg = some k.toNat := takeArg_good k id _ min max
    have run := runTakeNotices_passes p (taken s p r) arg
    have after : (taken s p r).takeNotices p k.toNat = processed.flushAfterTake p oldest := rfl
    have bytes : Notice.bytes = recordBytes := funext noticeBytes_eq
    rw [after, flushAfterTake_queue, bytes] at run
    refine ⟨processed.flushAfterTake p oldest, exec_attached_of_run (c := .takeNotices) h (by simp [requestOf]) run, ?_⟩
    have sessions : processed.sessions = (taken s p r).sessions :=
      foldl_keeps State.sessions _ (processNotice_sessions p) oldest removed
    have session : processed.session p = (taken s p r).session p := by
      rw [State.session, sessions]
      rfl
    have asks : ((∃ n ∈ oldest, n.kind = .arrival ∧ processed.subPending p n.stream = true) ∧
        ((taken s p r).session p).flushTimer = .idle ∧ ((taken s p r).session p).flushPeriod ≠ 0) ↔ starts := by
      simp only [subPending_iff, taken_session_self]
      rfl
    rw [flushAfterTake_eq, session]
    refine ⟨fun started => ?_, fun stays => if_neg (fun h => stays (asks.mp h))⟩
    rw [if_pos (asks.mpr started), taken_session_self]
  · intro s p n t
    refine ⟨fun nothing => ?_, fun u present => ⟨processNotice_loss present, processNotice_arrival present,
      processNotice_arrivalAgain present⟩⟩
    obtain absent | kind := nothing
    · exact processNotice_absent absent
    · refine processNotice_other p s (fun e => ?_) (fun e => ?_) <;> simp [e] at kind

/-- Settles O38: the counts are those of the state before. -/
theorem poolInfoCounts : Obligations.PoolInfoCounts := by
  unfold Obligations.PoolInfoCounts
  intro s p id h r blocks
  have run : runPoolInfo p r (taken s p r) = (taken s p r, replyFields .ok (poolInfoResult s.pool)) := rfl
  have staged : Descriptor.isStaged = fun d => match d with | .staged _ => true | _ => false := by
    funext d
    cases d <;> rfl
  have committed : Descriptor.isCommitted = fun d => match d with | .committed _ => true | _ => false := by
    funext d
    cases d <;> rfl
  rw [poolInfoResult, staged, committed] at run
  exact exec_attached_of_run (c := .poolInfo) h (by simp [requestOf]) run

end Sys2Proof.Proofs.NoticeCommands
end

section
/-! SUPPORT. SCRUB (R14 to R16): the tests of a batch, one block at a time. -/

namespace Sys2Proof.Proofs.Scrub

open Sys2Proof.Machine Sys2Proof.Safety Sys2Proof.Laws Sys2Proof.Proofs.Streams

/-! ### The bytes of a tested block -/

/-- A written block reads back, byte by byte. -/
theorem read_writeBlock (b : BlockId) (f : Nat → Byte) (n : Nat) {m : Memory} (h : Memory.wf m) (fits : n ≤ 64) {o : Nat}
    (lt : o < n) : (Memory.writeBlock b f n m).read (64 * b.val + o) = f o := by
  induction n with
  | zero => omega
  | succ n ih =>
    rw [Memory.writeBlock]
    by_cases e : o = n
    · subst e
      obtain ⟨sorted, -⟩ := Memory.writeBlock_wf b f o m h (by omega)
      exact Memory.read_write_self _ sorted _ _
    · rw [Memory.read_write_ne _ _ _ _ (by rw [blockAddress]; omega)]
      exact ih (by omega) (by omega)

/-- Two memories that agree on a block give its bytes alike. -/
theorem blockBytes_congr {q t : Pool} {b : BlockId} (h : ∀ o < 64, t.bytes.read (64 * b.val + o) = q.bytes.read (64 * b.val + o)) :
    t.blockBytes b = q.blockBytes b :=
  List.map_congr_left (fun o mem => h o (List.mem_range.mp mem))

theorem block_apart {b c : BlockId} (ne : b ≠ c) {o k : Nat} (ho : o < 64) (hk : k < 64) : 64 * b.val + o ≠ 64 * c.val + k := by
  have := Fin.val_ne_of_ne ne
  omega

/-! ### A tested batch -/

/-- R15: a block that fails for the fourth time is RETIRED. -/
def retires (q : Pool) (passes : BlockId → Bool) (b : BlockId) : Bool := !passes b && (q.block b).scrubFailures == 3

/-- R15: any other block that fails stays QUARANTINED. -/
def stays (q : Pool) (passes : BlockId → Bool) (b : BlockId) : Bool := !passes b && !((q.block b).scrubFailures == 3)

/-- R15: the pool `t` that the tests of the batch `l`, with these outcomes, make of pool `q`. -/
structure Scrubbed (q : Pool) (l : List BlockId) (passes : BlockId → Bool) (t : Pool) : Prop where
  freeBlocks : t.freeBlocks = q.freeBlocks ++ l.filter passes
  quarantine : ∀ tail, q.quarantine = l ++ tail → t.quarantine = tail ++ l.filter (stays q passes)
  descriptors : t.descriptors = q.descriptors
  freeDescriptors : t.freeDescriptors = q.freeDescriptors
  others : ∀ b, b ∉ l → t.block b = q.block b
  passed : ∀ b ∈ l, passes b = true → t.block b =
    { state := .free, next := none, fill := 0, failed := false, scrubFailures := 0, owner := none,
      check := Config.storedCheck (t.blockBytes b) }
  retired : ∀ b ∈ l, retires q passes b = true → t.block b = { q.block b with state := .retired, scrubFailures := 4 }
  stayed : ∀ b ∈ l, stays q passes b = true →
    t.block b = { q.block b with scrubFailures := (q.block b).scrubFailures + 1 }
  zeroed : Memory.wf q.bytes → ∀ b ∈ l, passes b = true → ∀ o < 64, t.bytes.read (64 * b.val + o) = 0
  bytes_kept : ∀ a : Nat, (∀ b ∈ l, ∀ o < 64, a ≠ 64 * b.val + o) → t.bytes.read a = q.bytes.read a
  canonical : Memory.wf q.bytes → Memory.wf t.bytes

theorem scrubbed_nil (q : Pool) (passes : BlockId → Bool) : Scrubbed q [] passes q where
  freeBlocks := by simp
  quarantine tail e := by simpa using e
  descriptors := rfl
  freeDescriptors := rfl
  others _ _ := rfl
  passed _ mem := absurd mem List.not_mem_nil
  retired _ mem := absurd mem List.not_mem_nil
  stayed _ mem := absurd mem List.not_mem_nil
  zeroed _ _ mem := absurd mem List.not_mem_nil
  bytes_kept _ _ := rfl
  canonical h := h

/-- A block that passes. -/
theorem scrubPass_scrubbed (q : Pool) {b : BlockId} {passes : BlockId → Bool} (ok : passes b = true) :
    Scrubbed q [b] passes (q.scrubPass b) := by
  have zero := fun (h : Memory.wf q.bytes) (o : Nat) (lt : o < 64) => read_writeBlock b (fun _ => 0) 64 h (Nat.le_refl 64) lt
  have outside := Memory.read_writeBlock_ne b (fun _ => 0) 64 q.bytes
  have wf := Memory.writeBlock_wf b (fun _ => 0) 64 q.bytes
  unfold Pool.scrubPass
  generalize Memory.writeBlock b (fun _ => 0) 64 q.bytes = bytes at *
  have here : (∀ c ∈ [b], c = b) := fun c mem => List.mem_singleton.mp mem
  exact
    { freeBlocks := by simp [ok]
      quarantine := fun tail e => by simp [e, stays, ok]
      descriptors := rfl
      freeDescriptors := rfl
      others := fun c out => (Pool.setBlock_block _ _ _ _).trans (if_neg (fun e => out (List.mem_singleton.mpr e.symm)))
      passed := fun c mem _ => by
        obtain rfl := here c mem
        exact Pool.setBlock_block_self _ _ _
      retired := fun c mem fails => by
        obtain rfl := here c mem
        simp [retires, ok] at fails
      stayed := fun c mem fails => by
        obtain rfl := here c mem
        simp [stays, ok] at fails
      zeroed := fun h c mem _ o lt => by
        obtain rfl := here c mem
        exact zero h o lt
      bytes_kept := fun a out => outside a (out b (List.mem_singleton_self b))
      canonical := fun h => wf h (Nat.le_refl 64) }

/-- A block that fails. -/
theorem scrubFail_scrubbed (q : Pool) {b : BlockId} {passes : BlockId → Bool} (fails : passes b = false) (draw : Nat) :
    Scrubbed q [b] passes (q.scrubFail b draw) := by
  have outside := Memory.read_writeBlock_ne b (Config.scrubResidue draw) 64 q.bytes
  have wf := Memory.writeBlock_wf b (Config.scrubResidue draw) 64 q.bytes
  unfold Pool.scrubFail
  generalize Memory.writeBlock b (Config.scrubResidue draw) 64 q.bytes = bytes at *
  have here : (∀ c ∈ [b], c = b) := fun c mem => List.mem_singleton.mp mem
  have failing : ∀ c ∈ [b], passes c ≠ true := fun c mem => by simp [here c mem, fails]
  by_cases fourth : (q.block b).scrubFailures = 3
  · have four : (q.block b).scrubFailures + 1 = 4 := by omega
    rw [if_pos four]
    exact
      { freeBlocks := by simp [fails]
        quarantine := fun tail e => by simp [e, stays, fails, fourth]
        descriptors := rfl
        freeDescriptors := rfl
        others := fun c out => (Pool.setBlock_block _ _ _ _).trans (if_neg (fun e => out (List.mem_singleton.mpr e.symm)))
        passed := fun c mem ok => absurd ok (failing c mem)
        retired := fun c mem _ => by
          obtain rfl := here c mem
          exact (Pool.setBlock_block_self _ _ _).trans (by rw [four])
        stayed := fun c mem h => by
          obtain rfl := here c mem
          simp [stays, fourth] at h
        zeroed := fun _ c mem ok => absurd ok (failing c mem)
        bytes_kept := fun a out => outside a (out b (List.mem_singleton_self b))
        canonical := fun h => wf h (Nat.le_refl 64) }
  · rw [if_neg (by omega)]
    exact
      { freeBlocks := by simp [fails]
        quarantine := fun tail e => by simp [e, stays, fails, fourth]
        descriptors := rfl
        freeDescriptors := rfl
        others := fun c out => (Pool.setBlock_block _ _ _ _).trans (if_neg (fun e => out (List.mem_singleton.mpr e.symm)))
        passed := fun c mem ok => absurd ok (failing c mem)
        retired := fun c mem h => by
          obtain rfl := here c mem
          simp [retires, fourth] at h
        stayed := fun c mem _ => by
          obtain rfl := here c mem
          exact Pool.setBlock_block_self _ _ _
        zeroed := fun _ c mem ok => absurd ok (failing c mem)
        bytes_kept := fun a out => outside a (out b (List.mem_singleton_self b))
        canonical := fun h => wf h (Nat.le_refl 64) }

/-- The test of one block, then the tests of the rest of the batch. -/
theorem scrubbed_cons {q w t : Pool} {b : BlockId} {rest : List BlockId} {passes : BlockId → Bool} (out : b ∉ rest)
    (first : Scrubbed q [b] passes w) (more : Scrubbed w rest passes t) : Scrubbed q (b :: rest) passes t := by
  have same : ∀ c ∈ rest, w.block c = q.block c := fun c mem =>
    first.others c (fun e => out (List.mem_singleton.mp e ▸ mem))
  have stays_same : ∀ c ∈ rest, stays w passes c = stays q passes c := fun c mem => by rw [stays, same c mem, stays]
  have retires_same : ∀ c ∈ rest, retires w passes c = retires q passes c := fun c mem => by rw [retires, same c mem, retires]
  have block_first : t.block b = w.block b := more.others b out
  have bytes_first : ∀ o < 64, t.bytes.read (64 * b.val + o) = w.bytes.read (64 * b.val + o) := fun o lt =>
    more.bytes_kept _ (fun c mem k hk => block_apart (fun e : b = c => out (e ▸ mem)) lt hk)
  have here := List.mem_singleton_self b
  constructor
  case freeBlocks => rw [more.freeBlocks, first.freeBlocks, List.append_assoc, ← List.filter_append]; rfl
  case quarantine =>
    intro tail e
    have one := first.quarantine (rest ++ tail) e
    rw [more.quarantine (tail ++ [b].filter (stays q passes)) (by rw [one, List.append_assoc]),
      List.filter_congr stays_same, List.append_assoc, ← List.filter_append]
    rfl
  case descriptors => rw [more.descriptors, first.descriptors]
  case freeDescriptors => rw [more.freeDescriptors, first.freeDescriptors]
  case others =>
    intro c h
    obtain ⟨ne, h⟩ := not_or.mp (fun x => h (List.mem_cons.mpr x))
    rw [more.others c h, first.others c (fun e => ne (List.mem_singleton.mp e))]
  case passed =>
    intro c mem ok
    obtain rfl | mem := List.mem_cons.mp mem
    · rw [block_first, first.passed c here ok, blockBytes_congr bytes_first]
    · exact more.passed c mem ok
  case retired =>
    intro c mem fails
    obtain rfl | mem := List.mem_cons.mp mem
    · rw [block_first, first.retired c here fails]
    · rw [more.retired c mem ((retires_same c mem).trans fails), same c mem]
  case stayed =>
    intro c mem fails
    obtain rfl | mem := List.mem_cons.mp mem
    · rw [block_first, first.stayed c here fails]
    · rw [more.stayed c mem ((stays_same c mem).trans fails), same c mem]
  case zeroed =>
    intro h c mem ok o lt
    obtain rfl | mem := List.mem_cons.mp mem
    · rw [bytes_first o lt, first.zeroed h c here ok o lt]
    · exact more.zeroed (first.canonical h) c mem ok o lt
  case bytes_kept =>
    intro a h
    rw [more.bytes_kept a (fun c mem => h c (List.mem_cons_of_mem b mem)),
      first.bytes_kept a (fun c mem => h c (List.mem_singleton.mp mem ▸ List.mem_cons_self))]
  case canonical => exact fun h => more.canonical (first.canonical h)

/-- The outcomes matter on the batch only. -/
theorem scrubbed_congr {q t : Pool} {l : List BlockId} {passes other : BlockId → Bool} (same : ∀ b ∈ l, other b = passes b)
    (h : Scrubbed q l passes t) : Scrubbed q l other t := by
  have stays_same : ∀ c ∈ l, stays q other c = stays q passes c := fun c mem => by rw [stays, same c mem, stays]
  have retires_same : ∀ c ∈ l, retires q other c = retires q passes c := fun c mem => by rw [retires, same c mem, retires]
  exact
    { freeBlocks := by rw [h.freeBlocks, List.filter_congr same]
      quarantine := fun tail e => by rw [h.quarantine tail e, List.filter_congr stays_same]
      descriptors := h.descriptors
      freeDescriptors := h.freeDescriptors
      others := h.others
      passed := fun b mem ok => h.passed b mem ((same b mem).symm.trans ok)
      retired := fun b mem fails => h.retired b mem ((retires_same b mem).symm.trans fails)
      stayed := fun b mem fails => h.stayed b mem ((stays_same b mem).symm.trans fails)
      zeroed := fun wf b mem ok => h.zeroed wf b mem ((same b mem).symm.trans ok)
      bytes_kept := h.bytes_kept
      canonical := h.canonical }

/-! ### The tests of SCRUB -/

/-- The outcome of the test of each block of a batch (R15): a free value drawn for it. -/
def outcomes : List BlockId → Nat → BlockId → Bool
  | [], _, _ => false
  | b :: rest, draws, c => if c = b then Config.scrubPasses draws else outcomes rest (draws + 1) c

/-- R15, R16: the tests of a batch: the pool they make, and the counts they add. -/
theorem scrubBlocks_spec (l : List BlockId) (once : l.Nodup) (s : State) (c : ScrubCounts) :
    let passes := outcomes l s.draws
    let t := scrubBlocks l s c
    Scrubbed s.pool l passes t.1.pool ∧ t.1 = { s with pool := t.1.pool, draws := t.1.draws } ∧
      t.2 = { passed := c.passed + l.countP passes, failed := c.failed + l.countP (stays s.pool passes)
              retired := c.retired + l.countP (retires s.pool passes) } := by
  induction l generalizing s c with
  | nil => exact ⟨scrubbed_nil s.pool _, rfl, rfl⟩
  | cons b rest ih =>
    obtain ⟨out, rest_once⟩ := List.nodup_cons.mp once
    intro passes
    have head : passes b = Config.scrubPasses s.draws := if_pos rfl
    have tail : ∀ x ∈ rest, passes x = outcomes rest (s.draws + 1) x := fun x mem =>
      if_neg (show ¬x = b from fun e => out (e ▸ mem))
    have step (w : Pool) (first : Scrubbed s.pool [b] passes w) (n : ScrubCounts) :
        let t := scrubBlocks rest (s.setPool w).drawn n
        Scrubbed s.pool (b :: rest) passes t.1.pool ∧ t.1 = { s with pool := t.1.pool, draws := t.1.draws } ∧
          t.2 = { passed := n.passed + rest.countP passes, failed := n.failed + rest.countP (stays s.pool passes)
                  retired := n.retired + rest.countP (retires s.pool passes) } := by
      obtain ⟨more, kept, counts⟩ := ih rest_once (s.setPool w).drawn n
      have same : ∀ x ∈ rest, w.block x = s.pool.block x := fun x mem =>
        first.others x (fun e => out (List.mem_singleton.mp e ▸ mem))
      have all := scrubbed_cons out first (scrubbed_congr tail more)
      have passed : rest.countP (outcomes rest (s.draws + 1)) = rest.countP passes :=
        List.countP_congr (fun x mem => by rw [tail x mem])
      have stayed : rest.countP (stays w (outcomes rest (s.draws + 1))) = rest.countP (stays s.pool passes) :=
        List.countP_congr (fun x mem => by rw [stays, stays, tail x mem, same x mem])
      have retired : rest.countP (retires w (outcomes rest (s.draws + 1))) = rest.countP (retires s.pool passes) :=
        List.countP_congr (fun x mem => by rw [retires, retires, tail x mem, same x mem])
      refine ⟨all, kept, counts.trans ?_⟩
      rw [← passed, ← stayed, ← retired]
      rfl
    unfold scrubBlocks
    simp only [List.countP_cons]
    by_cases ok : Config.scrubPasses s.draws = true
    · rw [if_pos ok]
      obtain ⟨all, kept, counts⟩ := step _ (scrubPass_scrubbed s.pool (head.trans ok)) { c with passed := c.passed + 1 }
      refine ⟨all, kept, counts.trans ?_⟩
      simp [stays, retires, head, ok]
      omega
    · have fails : passes b = false := by rw [head]; simpa using ok
      rw [if_neg ok]
      by_cases fourth : (s.pool.block b).scrubFailures + 1 = 4
      · rw [if_pos fourth]
        obtain ⟨all, kept, counts⟩ := step _ (scrubFail_scrubbed s.pool fails s.draws) { c with retired := c.retired + 1 }
        refine ⟨all, kept, counts.trans ?_⟩
        simp [stays, retires, fails, show (s.pool.block b).scrubFailures = 3 by omega]
        omega
      · rw [if_neg fourth]
        obtain ⟨all, kept, counts⟩ := step _ (scrubFail_scrubbed s.pool fails s.draws) { c with failed := c.failed + 1 }
        refine ⟨all, kept, counts.trans ?_⟩
        simp [stays, retires, fails, show (s.pool.block b).scrubFailures ≠ 3 by omega]
        omega

/-! ### The command -/

theorem post_draws (s : State) (p : Port) (x : Notice) (n : Nat) :
    State.post { s with draws := n } p x = { s.post p x with draws := n } := by
  have same : State.hasRoomForNotice { s with draws := n } p = s.hasRoomForNotice p := rfl
  unfold State.post
  rw [same]
  split <;> rfl

theorem reevaluateStream_draws (s : State) (i : StreamId) (n : Nat) :
    State.reevaluateStream { s with draws := n } i = { s.reevaluateStream i with draws := n } := by
  have stream : State.stream { s with draws := n } i = s.stream i := rfl
  have met (need : Nat) : State.needMet { s with draws := n } i need = s.needMet i need := rfl
  unfold State.reevaluateStream
  rw [stream]
  split
  · rw [met, post_draws]
    split <;> rfl
  · rfl

/-- The re-evaluation does not read the draws. -/
theorem reevaluateAfter_draws (before : Pool) (s : State) (n : Nat) :
    State.reevaluateAfter before { s with draws := n } = { State.reevaluateAfter before s with draws := n } := by
  have all (l : List StreamId) (w : State) :
      l.foldl State.reevaluateStream { w with draws := n } = { l.foldl State.reevaluateStream w with draws := n } := by
    induction l generalizing w with
    | nil => rfl
    | cons i rest ih => rw [List.foldl_cons, reevaluateStream_draws, ih, List.foldl_cons]
  unfold State.reevaluateAfter State.roomReevaluation
  split
  · exact all _ s
  · rfl

theorem runScrub_empty {r : Request} {n : Nat} (p : Port) (s : State) (arg : r.scrubArg = some n)
    (empty : s.pool.quarantine = []) :
    runScrub p r s = (s, { status := .quarantineEmpty, result := [0, 0, 0], payload := [] }) := by
  simp only [runScrub, arg, if_pos empty]
  rfl

theorem runScrub_passes {r : Request} {n : Nat} (p : Port) (s : State) (arg : r.scrubArg = some n)
    (some_block : s.pool.quarantine ≠ []) {w : State} {c : ScrubCounts}
    (tested : scrubBlocks (s.pool.quarantine.take n) s { passed := 0, failed := 0, retired := 0 } = (w, c)) :
    runScrub p r s = (State.reevaluateAfter s.pool w, { status := .ok, result := c.fields, payload := [] }) := by
  simp only [runScrub, arg, if_neg some_block, State.scrubBatch, tested]
  rfl

/-- Settles O39: the outcomes are those of the tests of the batch. -/
theorem scrubTestsBatch : Obligations.ScrubTestsBatch := by
  unfold Obligations.ScrubTestsBatch
  intro s p id n h min max r batch
  have arg : r.scrubArg = some n.toNat := scrubArg_good n id _ min max
  refine ⟨fun empty => ?_, fun some_block once => ?_⟩
  · exact exec_attached_of_run (c := .scrub) h (by simp [requestOf]) (runScrub_empty p (taken s p r) arg empty)
  · obtain ⟨scrubbed, kept, counts⟩ := scrubBlocks_spec batch (once.sublist (List.take_sublist _ _)) (taken s p r)
      { passed := 0, failed := 0, retired := 0 }
    generalize hw : (scrubBlocks batch (taken s p r) { passed := 0, failed := 0, retired := 0 }).1 = w at scrubbed kept
    have run := runScrub_passes p (taken s p r) arg some_block (Prod.ext hw counts)
    have after : State.reevaluateAfter s.pool w =
        { State.reevaluateAfter s.pool ((taken s p r).setPool w.pool) with draws := w.draws } := by
      rw [← reevaluateAfter_draws]
      exact congrArg _ kept
    have draws : (State.reevaluateAfter s.pool w).draws = w.draws := by rw [reevaluateAfter_kept]
    refine ⟨outcomes batch s.draws, State.reevaluateAfter s.pool w, w.pool, ?_⟩
    intro retiring staying
    simp only [Nat.zero_add, ScrubCounts.fields] at run
    refine ⟨exec_attached_of_run (c := .scrub) h (by simp [requestOf]) run, ?_, ?_, scrubbed.freeBlocks,
      scrubbed.quarantine _ (List.take_append_drop _ _).symm, scrubbed.descriptors, scrubbed.freeDescriptors, scrubbed.others,
      fun b mem => ⟨scrubbed.passed b mem, scrubbed.retired b mem, scrubbed.stayed b mem⟩, scrubbed.zeroed, scrubbed.bytes_kept⟩
    · rw [reevaluateAfter_kept]
    · rw [draws]
      exact after

end Sys2Proof.Proofs.Scrub
end

section
/-! SUPPORT. The edges of CSn: the transaction that a fall begins (R148, R149), the layouts of frames (R161, R164), and the
judgement that a rise makes (R148, R151). -/

namespace Sys2Proof.Proofs.Edges

open Sys2Proof.Machine Sys2Proof.Safety Sys2Proof.Laws Sys2Proof.Proofs.Streams

/-! ### The fall of CSn (R148, R149) -/

theorem linkAlive_iff (s : State) (p : Port) : s.linkAlive p = true ↔ LinkAlive s p := by
  simp [State.linkAlive, LinkAlive]

theorem linkStateCode_eq (x : LinkState) : x.code = linkStateCode x := by cases x <;> rfl

theorem responseSlot_eq (l : Link) : l.responseSlot = (match l.state with | .ready x => some x | _ => none) := by
  cases l with
  | mk state => cases state <;> rfl

/-- R163: the link byte, with the notice bit as the port's lines show it. -/
theorem linkByte_eq (s : State) (p : Port) (notice : Nat) (h : (if s.noticesWaiting p then 4 else 0) = notice) :
    s.linkByte p = BitVec.ofNat 8 (0xA0 + notice + linkStateCode (s.link p).state) := by
  rw [State.linkByte, h, linkStateCode_eq]

/-- R149: the fall that begins a transaction. -/
theorem chipSelectFall_begins {s : State} {p : Port} (high : (s.pinsOf p).csLow = false) (alive : LinkAlive s p) {notice : Nat}
    (h : (if s.noticesWaiting p then 4 else 0) = notice) :
    s.chipSelectFall p = (s.setPins p { s.pinsOf p with csLow := true }).setLink p
      { s.link p with
        transaction := some
          { linkByte := BitVec.ofNat 8 (0xA0 + notice + linkStateCode (s.link p).state)
            response := match (s.link p).state with
              | .ready x => some x
              | _ => none }
        receiveArea := [] } := by
  rw [State.chipSelectFall, if_neg (by simp [high]), State.beginTransaction, linkByte_eq s p notice h, responseSlot_eq]
  exact if_pos ((linkAlive_iff s p).mpr alive)

/-- Settles O40, by the level of CSn, the resets and the notice bit. -/
theorem fallDecidesTransaction : Obligations.FallDecidesTransaction := by
  unfold Obligations.FallDecidesTransaction
  intro s p
  refine ⟨fun low => ?_, fun high dead => ?_, fun high alive => ?_⟩
  · exact congrArg _ (if_pos low)
  · refine congrArg _ ((if_neg (by simp [high])).trans ?_)
    exact if_neg (fun h => dead ((linkAlive_iff s p).mp h))
  · intro begun
    refine ⟨fun shows => ?_, fun silent => ?_⟩
    · exact congrArg _ (chipSelectFall_begins high alive (if_pos ((noticesWaiting_iff s p).mpr shows)))
    · exact congrArg _ (chipSelectFall_begins high alive (if_neg (fun h => silent ((noticesWaiting_iff s p).mp h))))

/-! ### The layouts (R161, R164) -/

/-- R164: the bytes of a response frame. -/
theorem responseBytes_eq (x : Response) :
    x.bytes = responseBodyOf x.id x.flags x.reply ++ [x.crc.extractLsb' 8 8, x.crc.extractLsb' 0 8] := by
  rw [Response.bytes, responseBody_eq]
  rfl

theorem responseBytes_length (x : Response) :
    x.bytes.length = 8 + x.reply.result.length + x.reply.payload.length := by
  simp [Response.bytes, responseBody, byte1, byte2, bytes16]
  omega

/-- The bytes of a complemented word are the complements of its bytes. -/
theorem bytes16_not (w : BitVec 16) : bytes16 (~~~w) = (bytes16 w).map (fun b => ~~~b) := by
  have high : (~~~w).extractLsb' 8 8 = ~~~(w.extractLsb' 8 8) := by
    ext k hk
    simp
    omega
  have low : (~~~w).extractLsb' 0 8 = ~~~(w.extractLsb' 0 8) := by
    ext k hk
    simp
    omega
  simp [bytes16, high, low]

/-- The front of four known parts. -/
theorem requestFrame_fields (id code : Byte) (params payload : List Byte) :
    let frame := requestFrame id code params payload
    let pl := params.length
    let dl := payload.length
    let crc := crc16 ((frame.drop 1).take (11 + pl + dl))
    frame = ([0x5A, id, code, ~~~code] ++ byte2 pl ++ (byte2 pl).map (fun b => ~~~b)) ++
      (params ++ ((byte2 dl ++ (byte2 dl).map (fun b => ~~~b)) ++ (payload ++ (bytes16 crc ++ bytes16 (~~~crc))))) := by
  intro frame pl dl crc
  obtain ⟨c, parts, hc⟩ := requestFrame_parts id code params payload []
  have same : c = crc := by
    rw [hc, List.append_nil, List.drop_take, show 12 + params.length + payload.length - 1 = 11 + pl + dl by omega]
  rw [List.append_nil, List.append_nil, same, bytes16_not (BitVec.ofNat 16 params.length),
    bytes16_not (BitVec.ofNat 16 payload.length)] at parts
  exact parts

/-- Settles O41: the two layouts, cut at the lengths of their parts. -/
theorem frameLayouts : Obligations.FrameLayouts := by
  unfold Obligations.FrameLayouts
  refine ⟨fun tr => ⟨rfl, fun none => ⟨fun k => ?_, fun n => ?_⟩, fun x some => ?_⟩, ?_⟩
  · simp [Transaction.misoByte, none, fillerValue]
  · simp [Transaction.collected, none]
  · intro sent
    have bytes : x.bytes = sent := responseBytes_eq x
    have miso (k : Nat) : tr.misoByte (k + 1) = sent.getD k fillerValue := by
      simp only [Transaction.misoByte, some, bytes, List.getD_cons_succ]
    refine ⟨bytes ▸ responseBytes_length x, fun k b hb => ?_, fun k past => ?_, fun n => ?_⟩
    · rw [miso, List.getD_eq_getElem?_getD, hb]
      rfl
    · rw [miso, List.getD_eq_default _ _ past]
      rfl
    · simp only [Transaction.collected, some, bytes, decide_eq_true_eq]
  · intro id code params payload fits payload_fits frame pl dl crc
    have parts : frame = _ := requestFrame_fields id code params payload
    have head : ([0x5A, id, code, ~~~code] ++ byte2 pl ++ (byte2 pl).map (fun b => ~~~b)).length = 8 := rfl
    have middle : (byte2 dl ++ (byte2 dl).map (fun b => ~~~b)).length = 4 := rfl
    have after_head : frame.drop 8 = _ := (congrArg _ parts).trans (List.drop_left' head)
    have after_params : frame.drop (8 + pl) = _ :=
      List.drop_drop.symm.trans ((congrArg _ after_head).trans (List.drop_left' rfl))
    have after_middle : frame.drop (12 + pl) = _ :=
      (congrArg (frame.drop ·) (show 12 + pl = 8 + pl + 4 by omega)).trans
        (List.drop_drop.symm.trans ((congrArg _ after_params).trans (List.drop_left' middle)))
    refine ⟨requestFrame_length id code params payload, (congrArg _ parts).trans (List.take_left' head), ?_, ?_, ?_, ?_⟩
    · rw [after_head]
      exact List.take_left' rfl
    · rw [after_params]
      exact List.take_left' middle
    · rw [after_middle]
      exact List.take_left' rfl
    · rw [← List.drop_drop, after_middle]
      exact List.drop_left' rfl

/-! ### The rise of CSn (R148, R151) -/

/-- R151: collection is settled by the length of the response. -/
theorem settleCollection_eq (l : Link) (tr : Transaction) (n : Nat) :
    l.settleCollection tr n = { l with
      state := match l.state, tr.response with
        | .ready x, some r => if 9 + r.reply.result.length + r.reply.payload.length ≤ n then .idle else .ready x
        | x, _ => x } := by
  unfold Link.settleCollection
  cases e : l.state with
  | ready x =>
    cases f : tr.response with
    | none => simp [Transaction.collected, f, ← e]
    | some r =>
      have whole : tr.collected n = true ↔ 9 + r.reply.result.length + r.reply.payload.length ≤ n := by
        simp only [Transaction.collected, f, responseBytes_length, decide_eq_true_eq]
        omega
      by_cases c : tr.collected n = true
      · simp only [c, if_true, if_pos (whole.mp c)]
      · simp only [c, Bool.false_eq_true, if_false, if_neg (fun h => c (whole.mpr h)), ← e]
  | idle => simp only [← e]
  | waiting r => simp only [← e]
  | executing r => simp only [← e]

/-- R151: the link after the transaction, then the judgement of all the bytes received. -/
theorem endTransaction_eq (s : State) (p : Port) (tr : Transaction) (received : List Byte) :
    (s.setPins p { s.pinsOf p with csLow := false }).endTransaction p tr received =
      (transactionEnded s p tr received).judgeReceived p (judgeAll received) := by
  unfold State.endTransaction
  dsimp only
  rw [← judge_split, settleCollection_eq]
  rfl

theorem chipSelectRise_ends {s : State} {p : Port} {tr : Transaction} (received : List Byte)
    (low : (s.pinsOf p).csLow = true) (begun : (s.link p).transaction = some tr) :
    s.chipSelectRise p received = (transactionEnded s p tr received).judgeReceived p (judgeAll received) := by
  simp only [State.chipSelectRise, low, if_true, begun]
  exact endTransaction_eq s p tr received

/-- R151: the tests of the received bytes, with the fields at their offsets. -/
theorem judgeAll_eq (received : List Byte) :
    let n := received.length
    let paramLength := guardedLength received 4
    let payloadLength := guardedLength received (8 + paramLength)
    let declared := 16 + paramLength + payloadLength
    let crcField := byteOf received (declared - 4) ++ byteOf received (declared - 3)
    let crcComplement := byteOf received (declared - 2) ++ byteOf received (declared - 1)
    judgeAll received =
      if received = [] ∨ byteOf received 0 ≠ 0x5A then .noFrame
      else if n < 8 ∨ (paramLength ≤ 16 ∧ n < 12 + paramLength) then .truncated
      else if 16 < paramLength ∨ 256 < payloadLength then .badcheck
      else if n < declared then .truncated
      else if (∃ b ∈ received.drop declared, b ≠ 0xFF) ∨
          crcField ≠ crc16 ((received.take (declared - 4)).drop 1) ∨ crcComplement ≠ ~~~crcField then .badcheck
      else .good
        { id := byteOf received 1
          code := if byteOf received 3 = ~~~(byteOf received 2) then some (byteOf received 2) else none
          params := (received.drop 8).take paramLength
          payload := (received.drop (12 + paramLength)).take payloadLength } := by
  intro n pl dl declared crcField crcComplement
  have filler : (received.drop declared).any (fun b => b ≠ fillerValue) = true ↔ ∃ b ∈ received.drop declared, b ≠ 0xFF := by
    rw [List.any_eq_true]
    exact exists_congr (fun b => and_congr_right (fun _ => decide_eq_true_iff))
  have e4 : declared - 4 = 12 + pl + dl := by omega
  have e3 : declared - 3 = 13 + pl + dl := by omega
  have e2 : declared - 2 = 14 + pl + dl := by omega
  have e1 : declared - 1 = 15 + pl + dl := by omega
  simp only [crcField, crcComplement, e4, e3, e2, e1, ← filler]
  have split_or (c d : Prop) [Decidable c] [Decidable d] (x y : Judgement) :
      (if c then x else if d then x else y) = if c ∨ d then x else y := by
    by_cases hc : c <;> simp [hc]
  unfold judgeAll
  dsimp only
  rw [split_or (_ < 8), split_or (_ = true)]
  rfl

/-- Settles O42: the judgement, with its outcome acted on. -/
theorem riseJudgesFrame : Obligations.RiseJudgesFrame := by
  unfold Obligations.RiseJudgesFrame
  intro s p received lastBits
  refine ⟨fun high => ?_, fun low none => ?_, fun tr low begun => ?_⟩
  · exact congrArg _ (if_neg (by simp [high]))
  · refine congrArg Host.Outcome.next ?_
    simp only [State.chipSelectRise, low, if_true, none]
  · intro ended l n paramLength payloadLength declared crcField crcComplement
    have rise : exec (.csRise p received lastBits) s = .next (ended.judgeReceived p (judgeAll received)) :=
      congrArg _ (chipSelectRise_ends received low begun)
    rw [rise, judgeAll_eq, apply_ite (State.judgeReceived ended p), apply_ite (State.judgeReceived ended p),
      apply_ite (State.judgeReceived ended p), apply_ite (State.judgeReceived ended p),
      apply_ite (State.judgeReceived ended p), apply_ite Host.Outcome.next, apply_ite Host.Outcome.next,
      apply_ite Host.Outcome.next, apply_ite Host.Outcome.next, apply_ite Host.Outcome.next]
    rfl

/-! ### A frame that carries a command (R151, R152) -/

/-- A frame sent in a transaction of its own does what presenting its request does. -/
theorem chipSelectRise_requestFrame {s : State} {p : Port} {tr : Transaction} (id code : Byte) {params payload : List Byte}
    (fillers : Nat) (alive : LinkAlive s p) (low : (s.pinsOf p).csLow = true) (begun : (s.link p).transaction = some tr)
    (fits : params.length ≤ 16) (payload_fits : payload.length ≤ 256) :
    let received := requestFrame id code params payload ++ List.replicate fillers 0xFF
    s.chipSelectRise p received =
      (transactionEnded s p tr received).presentRequest p { id := id, code := some code, params := params, payload := payload } := by
  intro received
  obtain ⟨running, released⟩ := alive
  have judged : judgeAll received = .good { id := id, code := some code, params := params, payload := payload } :=
    judgeAll_requestFrame id code params payload fillers fits payload_fits
  have pins : (transactionEnded s p tr received).pinsOf p = { s.pinsOf p with csLow := false } := by
    simp [transactionEnded]
  have ready : ((transactionEnded s p tr received).linkAlive p && !((transactionEnded s p tr received).pinsOf p).csLow) = true := by
    have phase : (transactionEnded s p tr received).phase = s.phase := rfl
    simp [State.linkAlive, pins, phase, running, released]
  rw [chipSelectRise_ends received low begun, judged, State.presentRequest, if_pos ready,
    if_neg (by simp only [not_or]; omega)]
  rfl

/-- Settles O43, by what the frame's request does when it is presented. -/
theorem frameCarriesCommand : Obligations.FrameCarriesCommand := by
  unfold Obligations.FrameCarriesCommand
  intro s p tr id params payload fillers lastBits alive low begun payload_fits
  refine ⟨fun c => ?_, fun fits => ?_, fun code unnamed fits => ?_⟩
  · intro r received fits
    rw [exec_rowOf]
    exact congrArg _ (chipSelectRise_requestFrame id c.code fillers alive low begun fits payload_fits)
  · exact congrArg _ (chipSelectRise_requestFrame id 0x01 (params := 0x01 :: params) fillers alive low begun
      (Nat.succ_le_succ fits) payload_fits)
  · exact congrArg _ (chipSelectRise_requestFrame id code fillers alive low begun fits payload_fits)

end Sys2Proof.Proofs.Edges
end

section
/-! SUPPORT. A good frame by the link state it finds (R152, R155), the completion of a command with the grant that follows
(R153, R154, R156, R157), and ATTn (R126). -/

namespace Sys2Proof.Proofs.Arbitration

open Sys2Proof.Machine Sys2Proof.Safety Sys2Proof.Laws Sys2Proof.Proofs.Streams Sys2Proof.Proofs.Edges
  Sys2Proof.Proofs.LinkInvariant Sys2Proof.Proofs.NoticeCommands

/-! ### The presented request -/

/-- R148, R151: the frame of a request row, when its link takes transactions. -/
theorem presentRequest_alive {s : State} {p : Port} (r : Request) (alive : LinkAlive s p) (high : (s.pinsOf p).csLow = false) :
    s.presentRequest p r =
      if 16 < r.params.length ∨ 256 < r.payload.length then s.setLink p (s.link p).setBadcheck else s.goodFrame p r :=
  if_pos (by simp [(linkAlive_iff s p).mpr alive, high])

theorem presentRequest_dead {s : State} {p : Port} (r : Request) (h : ¬LinkAlive s p ∨ (s.pinsOf p).csLow = true) :
    s.presentRequest p r = s := by
  refine if_neg (fun ready => ?_)
  obtain ⟨alive, high⟩ := (Bool.and_eq_true _ _).mp ready
  obtain dead | low := h
  · exact dead ((linkAlive_iff s p).mp alive)
  · simp [low] at high

theorem presentRequest_good {s : State} {p : Port} {r : Request} (alive : LinkAlive s p) (high : (s.pinsOf p).csLow = false)
    (fits : r.params.length ≤ 16) (payload_fits : r.payload.length ≤ 256) : s.presentRequest p r = s.goodFrame p r :=
  (presentRequest_alive r alive high).trans (if_neg (by omega))

/-- R152: during operation the link receives the frame, then the arbiter may grant. -/
theorem goodFrame_operating {s : State} (p : Port) (r : Request) (operating : s.phase = .operating) :
    s.goodFrame p r = (s.setLink p ((s.link p).receiveGood r)).arbitrate := by
  simp only [State.goodFrame, operating]

/-- R156, R171: a busy core, or a clock that stands still, grants nothing. -/
theorem arbitrate_held {s : State} (h : s.core ≠ none ∨ s.refclk = false) : s.arbitrate = s := by
  refine if_neg (fun available => ?_)
  obtain busy | stopped := h
  · cases e : s.core with
    | none => exact busy e
    | some x => simp [State.coreAvailable, e] at available
  · simp [State.coreAvailable, stopped] at available

/-- Settles O44, by the link state and the state of the core. -/
theorem goodFrameByLinkState : Obligations.GoodFrameByLinkState := by
  unfold Obligations.GoodFrameByLinkState
  constructor
  · intro s c p r row operating alive high fits payload_fits
    have good {l : Link} : exec c (s.setLink p l) = .next ((s.setLink p (l.receiveGood r)).arbitrate) := by
      rw [exec_of_rowRequest row, presentRequest_good (s := s.setLink p l) alive high fits payload_fits,
        goodFrame_operating (s := s.setLink p l) p r operating, State.setLink_link_self, setLink_setLink]
    have here : exec c s = .next ((s.setLink p ((s.link p).receiveGood r)).arbitrate) := by
      rw [exec_of_rowRequest row, presentRequest_good alive high fits payload_fits, goodFrame_operating p r operating]
    refine ⟨fun x ready => ?_, fun idle held => ?_, fun x busy held => ?_⟩
    · rw [here, good]
      simp only [Link.receiveGood, ready, Link.supersede, Link.setSuperseded]
    · rw [here, arbitrate_held (s := s.setLink p _) held]
      simp only [Link.receiveGood, idle, Link.accept]
    · rw [here, arbitrate_held (s := s.setLink p _) held]
      obtain waiting | executing := busy
      · simp only [Link.receiveGood, waiting, Link.setCollided]
      · simp only [Link.receiveGood, executing, Link.setCollided]
  · intro s c p r row
    refine ⟨fun h => ?_, fun alive high tooLong => ?_⟩
    · rw [exec_of_rowRequest row, presentRequest_dead r h]
    · rw [exec_of_rowRequest row, presentRequest_alive r alive high, if_pos tooLong]
      rfl

/-! ### Responses (R153, R154, R155) -/

/-- R153, R154: a response placed in the slot. -/
theorem placeResponse_eq (s : State) (p : Port) (id : Byte) (reply : Reply) :
    s.placeResponse p id reply = s.setLink p (linkWithResponse (s.link p) id reply) := by
  rw [State.placeResponse, Response.make, responseBody_eq]
  rfl

/-- R155: the link's own answer during the initialisation pass. -/
theorem exec_initialising {s : State} {c : Instr} {p : Port} {r : Request} (row : rowRequest c = some (p, r))
    (initialising : s.phase = .initialising) (alive : LinkAlive s p) (high : (s.pinsOf p).csLow = false)
    (fits : r.params.length ≤ 16) (payload_fits : r.payload.length ≤ 256) :
    exec c s = .next (s.setLink p
      (linkWithResponse { (s.link p).supersede with lastId := r.id } r.id (refusal .notReady))) := by
  rw [exec_of_rowRequest row, presentRequest_good alive high fits payload_fits]
  simp only [State.goodFrame, initialising, State.answerNotReady]
  rw [placeResponse_eq, State.setLink_link_self, setLink_setLink]
  rfl

/-- Settles O45, by the two link states a good frame can find during the pass. -/
theorem notReadyDuringPass : Obligations.NotReadyDuringPass := by
  unfold Obligations.NotReadyDuringPass
  intro s c p r row initialising alive high fits payload_fits
  rw [exec_initialising row initialising alive high fits payload_fits]
  refine ⟨fun idle => ?_, fun x ready => ?_⟩
  · simp only [Link.supersede, idle]
  · simp only [Link.supersede, ready, Link.setSuperseded]
    rfl

/-! ### Completion and the grant (R153, R154, R156, R157, R160) -/

/-- R156: the link granted is the first that waits in the order from the pointer. -/
theorem nextGranted_eq_some {s : State} {k : Fin 4} (waits : (s.link (s.pointer + k)).isWaiting = true)
    (before : ∀ j < k, (s.link (s.pointer + j)).isWaiting = false) : s.nextGranted = some (s.pointer + k) := by
  have order : grantOrder s.pointer = (List.finRange 4).map (s.pointer + ·) := by
    simp [grantOrder, List.finRange]
  have found : (List.finRange 4).find? (fun j => (s.link (s.pointer + j)).isWaiting) = some k := by
    rw [List.find?_eq_some_iff_getElem]
    refine ⟨waits, k.val, by simp, by simp, fun j lt => ?_⟩
    simp only [List.getElem_finRange, Bool.not_eq_true']
    exact before _ lt
  rw [State.nextGranted, order, List.find?_map]
  exact congrArg (Option.map _) found

/-- R157, R160: what the completion leaves. -/
theorem completeCommand_eq (s : State) (e : Executing) :
    let l := s.link e.port
    s.completeCommand e = (s.setLink e.port
      (if l.discardMark then { l with discardMark := false } else linkWithResponse l l.lastId e.reply)).setCore none := by
  intro l
  rw [State.completeCommand, placeResponse_eq]
  split <;> rfl

/-- Settles O46: the completion, then the arbiter on a free core. -/
theorem completionPlacesAndGrants : Obligations.CompletionPlacesAndGrants := by
  unfold Obligations.CompletionPlacesAndGrants
  intro s
  refine ⟨fun nothing => ?_, fun e operating running core => ?_⟩
  · refine congrArg Host.Outcome.next ?_
    split
    · next runs =>
      simp only [Bool.and_eq_true, decide_eq_true_eq] at runs
      obtain away | stopped | free := nothing
      · exact absurd runs.2 away
      · exact absurd (runs.1.symm.trans stopped) (by simp)
      · simp only [State.complete, free]
    · rfl
  · intro l completed
    have done : exec .commandCompletion s = .next completed.arbitrate := by
      have runs : (s.refclk && s.phase = .operating) = true := by simp [running, operating]
      have completes : s.complete = (s.completeCommand e).arbitrate := by simp only [State.complete, core]
      rw [completeCommand_eq] at completes
      exact congrArg Host.Outcome.next ((if_pos runs).trans completes)
    have available : completed.coreAvailable = true := by
      have phase : completed.phase = s.phase := rfl
      have clock : completed.refclk = s.refclk := rfl
      have free : completed.core = none := rfl
      simp [State.coreAvailable, phase, clock, free, operating, running]
    refine ⟨fun quiet => ?_, fun k r waiting before => ?_⟩
    · rw [done, State.arbitrate, if_pos available, (nextGranted_eq_none completed).mpr quiet]
    · intro q grantedTo
      have first : completed.nextGranted = some q := nextGranted_eq_some ((isWaiting_iff _).mpr ⟨r, waiting⟩) before
      rw [done, State.arbitrate, if_pos available, first]
      simp only [q, waiting]
      rfl

/-! ### ATTn (R126) -/

theorem responseSlot_isSome (l : Link) : l.responseSlot.isSome = true ↔ ∃ x : Response, l.state = .ready x := by
  rw [responseSlot_eq]
  cases e : l.state <;> simp

theorem attnAsserted_iff (s : State) (p : Port) :
    s.attnAsserted p = true ↔
      s.phase ≠ .inReset ∧
        (((s.session p).mask.response = true ∧ ∃ x : Response, (s.link p).state = .ready x) ∨
          ((s.session p).mask.notice = true ∧ NoticeShows s p)) := by
  simp only [State.attnAsserted, Bool.and_eq_true, Bool.or_eq_true, bne_iff_ne, responseSlot_isSome, noticesWaiting_iff]

/-- R116: TAKE_NOTICES writes nothing of a session but its flush timer. -/
theorem takeNotices_mask (s : State) (p : Port) (k : Nat) : ((s.takeNotices p k).session p).mask = (s.session p).mask := by
  have processed (l : List Notice) (w : State) : (l.foldl (State.processNotice p) w).session p = w.session p := by
    rw [State.session, foldl_keeps State.sessions _ (processNotice_sessions p)]
    rfl
  rw [State.takeNotices, flushAfterTake_eq]
  split
  · rw [State.setSession_session, if_pos rfl, processed]
    rfl
  · rw [processed]
    rfl

/-- R122, R126: a TAKE_NOTICES that takes records shows a notice until its response is placed. -/
theorem noticeShows_of_taking {s t : State} {p : Port} {r : Request} {reply : Reply} (taking : TakenAtOnce s t p r reply)
    (code : r.code = some 0x40) (records : reply.payload ≠ []) : NoticeShows t p :=
  .inr ⟨r, _, by rw [taking.link_executing], code, taking.core_holds, rfl, records⟩

/-- R157: a command that was taken at once completes with its response placed, and no other link waits. -/
theorem commandCompletion_of_taken {s t : State} {p : Port} {r : Request} {reply : Reply} (h : TakesAtOnce s p)
    (taking : TakenAtOnce s t p r reply) (unmarked : (s.link p).discardMark = false) :
    exec .commandCompletion t = .next ((t.setLink p (linkWithResponse (t.link p) r.id reply)).setCore none) := by
  obtain ⟨phase, clock⟩ := taking.part_kept
  obtain ⟨-, completes⟩ := completionPlacesAndGrants t
  obtain ⟨quiet, -⟩ := completes _ (phase.trans h.operating) (clock.trans h.clock) taking.core_holds
  have mark : (t.link p).discardMark = false := by rw [taking.link_executing]; exact unmarked
  have last : (t.link p).lastId = r.id := by rw [taking.link_executing]
  simp only [mark, Bool.false_eq_true, if_false, last] at quiet
  refine quiet (fun q => ?_)
  rw [State.setCore_link, State.setLink_link]
  split
  · rfl
  · next ne => rw [taking.links_kept q (Ne.symm ne), h.none_waiting q]

/-- R122: a TAKE_NOTICES taken at once from a port with records. -/
theorem takeNotices_taken {s : State} {p : Port} {id k : Byte} (h : Attached s p) (min : 1 ≤ k.toNat) (max : k.toNat ≤ 8)
    (some_record : (s.queue p).records ≠ []) :
    ∃ t reply, exec (.takeNotices p id [k] []) s = .next t ∧
      TakenAtOnce s t p (requestOf .takeNotices id [k] []) reply ∧ reply.payload ≠ [] ∧
      (t.session p).mask = (s.session p).mask := by
  let r := requestOf .takeNotices id [k] []
  have arg : r.takeArg = some k.toNat := takeArg_good k id _ min max
  have run : runCommand .takeNotices p r (taken s p r) = _ := runTakeNotices_passes p (taken s p r) arg
  have row := exec_attached_of_run (c := .takeNotices) h (by simp [requestOf]) run
  have taking := takenAtOnce_of_run s p r _ (runCommand_outside .takeNotices p r (taken s p r))
  rw [run] at taking
  refine ⟨_, _, row, taking, ?_, ?_⟩
  · obtain ⟨n, rest, records⟩ := List.exists_cons_of_ne_nil some_record
    obtain ⟨j, count⟩ := Nat.exists_eq_add_of_le' min
    rw [taken_queue, records, count, List.take_succ_cons, List.flatMap_cons]
    simp [Notice.bytes, byte1]
  · exact (takeNotices_mask _ p _).trans (by rw [taken_session_self])

/-- Settles O47: the line by its definition, and the two states of a TAKE_NOTICES. -/
theorem attentionLine : Obligations.AttentionLine := by
  unfold Obligations.AttentionLine
  refine ⟨attnAsserted_iff, fun s p id k h min max unmarked masks some_record => ?_⟩
  obtain ⟨t, reply, row, taking, records, mask⟩ := takeNotices_taken (id := id) h min max some_record
  rw [masks] at mask
  obtain ⟨phase, -⟩ := taking.part_kept
  have running : t.phase ≠ .inReset := by simp [phase, h.atOnce.operating]
  have notices : t.attnAsserted p = true :=
    (attnAsserted_iff t p).mpr ⟨running, .inr ⟨by rw [mask], noticeShows_of_taking taking rfl records⟩⟩
  obtain ⟨x, placed⟩ :
      ∃ x, ((State.setCore (t.setLink p (linkWithResponse (t.link p) id reply)) none).link p).state = .ready x := by
    rw [State.setCore_link, State.setLink_link_self]
    exact ⟨_, rfl⟩
  refine ⟨t, _, x, row, notices, commandCompletion_of_taken h.atOnce taking unmarked, placed, ?_⟩
  exact (attnAsserted_iff _ p).mpr ⟨running, .inl ⟨congrArg AttentionMask.response mask, x, placed⟩⟩

end Sys2Proof.Proofs.Arbitration
end

section
/-! SUPPORT. The reset values (R18, R127, Table 8.1), the pins of the resets (R142, R148, R159, R171), the Time Base (R130, R131)
and the lapse of a session (R133). -/

namespace Sys2Proof.Proofs.PinsAndTime

open Sys2Proof.Machine Sys2Proof.Safety Sys2Proof.Laws Sys2Proof.Proofs.Streams Sys2Proof.Proofs.Steps
  Sys2Proof.Proofs.SessionInvariant Sys2Proof.Proofs.LinkInvariant Sys2Proof.Proofs.Arbitration

/-! ### The reset values -/

theorem reset_sub (i : StreamId) (p : Port) : State.reset.sub i p = none := by
  show ((Vector.replicate 64 (Vector.replicate 4 none)).get i).get p = none
  rw [get_replicate, get_replicate]

/-- R18: every pool quantity at its starting value. -/
theorem poolAtStart {q : Pool} (h : q = .powerOn) :
    q.freeBlocks = List.finRange 2048 ∧ q.quarantine = [] ∧ q.freeDescriptors = List.finRange 512 ∧
      (∀ b, q.block b = .powerOn) ∧ (∀ d, q.desc d = .free) ∧ ∀ a, q.bytes.read a = 0 := by
  subst h
  refine ⟨?_, ?_, ?_, fun b => get_replicate _ b, fun d => get_replicate _ d, fun a => ?_⟩
  all_goals simp only [Pool.powerOn, Memory.read]
  rfl

/-- R125, R126: at power-on no line asks for attention. -/
theorem reset_attnAsserted (p : Port) : State.reset.attnAsserted p = false := by
  have session : State.reset.session p = .powerOn := get_replicate _ p
  have link : State.reset.link p = .powerOn := get_replicate _ p
  rw [Bool.eq_false_iff, ne_eq, attnAsserted_iff, session, link]
  rintro ⟨-, ⟨-, x, ready⟩ | ⟨masked, -⟩⟩
  · simp [Link.powerOn] at ready
  · simp [Session.powerOn, AttentionMask.default] at masked

/-- Settles O3: every table is a replicate of its power-on record. -/
theorem resetValues : Obligations.ResetValues := by
  unfold Obligations.ResetValues
  intro s
  have stream (i : StreamId) : s.stream i = .undefined := get_replicate _ i
  have queue (p : Port) : s.queue p = .empty := get_replicate _ p
  have session (p : Port) : s.session p = .powerOn := get_replicate _ p
  have link (p : Port) : s.link p = .powerOn := get_replicate _ p
  have tables := sessions_powerOn session stream reset_sub
  obtain ⟨blocks, quarantine, descriptors, block, desc, bytes⟩ := poolAtStart (q := s.pool) (by simp only [s, State.reset])
  have laws := ((lawful_iff s).mp (lawful_powerOn (by simp only [s, State.reset]) stream reset_sub))
  refine ⟨⟨rfl, rfl, rfl, rfl, rfl, rfl, rfl⟩, 
      ⟨blocks, quarantine, descriptors, bytes, block, desc⟩,
    stream, reset_sub, fun p => ⟨queue p, session p, link p, get_replicate _ p, reset_attnAsserted p⟩, reset_wf, fun p => ?_,
    poolSound_powerOn.accounts, poolSound_powerOn.chains, ⟨laws.2, fun _ i => ?_⟩, tables.agree, tables.timers,
    agree_powerOn link rfl (by simp [s, State.reset])⟩
  · rw [queue]
    simp [NoticeQueue.empty]
  · rw [stream]
    rfl

/-! ### A lapse of holdings (R28, R105) -/

theorem lapseHoldings_lapsed (s : State) (p : Port) : HoldingsLapsed s (s.lapseHoldings p) p := by
  refine ⟨fun i => ⟨fun held => ?_, fun other => ?_⟩, fun i q => ⟨fun same => ?_, fun ne => ?_⟩⟩
  · rw [lapseHoldings_stream, held, Claim.toStale, if_pos rfl]
  · rw [lapseHoldings_stream, Claim.toStale, if_neg other]
  · subst same
    rw [lapseHoldings_sub, if_pos rfl]
    rfl
  · rw [lapseHoldings_sub, if_neg (Ne.symm ne)]

/-- The lapse of holdings is a matter of the two tables. -/
theorem holdingsLapsed_congr {s t w : State} {p : Port} (streams : w.streams = t.streams) (subs : w.subs = t.subs)
    (h : HoldingsLapsed s t p) : HoldingsLapsed s w p := by
  have stream (i : StreamId) : w.stream i = t.stream i := by rw [State.stream, streams]; rfl
  have sub (i : StreamId) (q : Port) : w.sub i q = t.sub i q := by rw [State.sub, subs]; rfl
  simpa only [HoldingsLapsed, stream, sub] using h

/-! ### PRSTn (R142, R148, R159) -/

/-- R142, R159: a taken assertion of PRSTn outside the reset. -/
theorem assertPrst_eq {s : State} {p : Port} (running : s.refclk = true) (released : (s.pinsOf p).prstAsserted = false)
    (away : s.phase ≠ .inReset) :
    s.assertPrst p = (s.setPins p { s.pinsOf p with prstAsserted := true }).resetPort p := by
  rw [State.assertPrst, if_pos (by simp [running, released])]
  exact if_neg away

/-- Settles O48, by the clock, the level and the phase. -/
theorem portResetDetaches : Obligations.PortResetDetaches := by
  unfold Obligations.PortResetDetaches
  intro s p
  refine ⟨fun nothing => congrArg _ (if_neg ?_), fun running released inReset => ?_, fun running released away => ?_⟩
  · obtain stopped | asserted := nothing
    · simp [stopped]
    · simp [asserted]
  · refine congrArg Host.Outcome.next ?_
    rw [State.assertPrst, if_pos (by simp [running, released])]
    exact if_pos inReset
  · refine ⟨_, congrArg Host.Outcome.next (assertPrst_eq running released away), rfl, ?_, ?_, ?_, ?_, fun q ne => ⟨?_, ?_, ?_⟩⟩
    · exact holdingsLapsed_congr rfl rfl (lapseHoldings_lapsed (s.setPins p { s.pinsOf p with prstAsserted := true }) p)
    · exact State.setSession_session_self _ p _
    · refine (State.setLink_link_self _ p _).trans ?_
      show (s.link p).portReset = _
      rw [Link.portReset, Link.isExecuting]
      rfl
    · exact State.setPins_pinsOf_self s p _
    · exact (State.setSession_session _ p q _).trans (if_neg (Ne.symm ne))
    · exact (State.setLink_link _ p q _).trans (if_neg (Ne.symm ne))
    · exact (State.setPins_pinsOf s p q _).trans (if_neg (Ne.symm ne))

/-! ### RESETn and the initialisation pass (R18, R171) -/

/-- R18: the end of the pass grants nothing when no request waits. -/
theorem arbitrate_quiet {s : State} (quiet : ∀ q : Port, (s.link q).isWaiting = false) : s.arbitrate = s := by
  unfold State.arbitrate
  rw [(nextGranted_eq_none s).mpr quiet]
  split <;> rfl

/-- Settles O49: the events by their definitions, the pool of the pass by its power-on value. -/
theorem resetAndPass : Obligations.ResetAndPass := by
  unfold Obligations.ResetAndPass
  refine ⟨fun s => ⟨fun p => rfl, fun stopped => ⟨?_, ?_⟩, fun running => ?_, fun running inReset => ?_, fun away => ?_⟩, ?_⟩
  · exact congrArg _ (if_neg (by simp [stopped]))
  · exact congrArg _ (if_neg (by simp [stopped]))
  · refine congrArg _ ((if_pos running).trans ?_)
    rw [State.enterReset, running]
    rfl
  · exact congrArg _ (if_pos (by simp [running, inReset]))
  · exact congrArg _ (if_neg (by simp [away]))
  · intro s running initialising quiet
    have ended : exec .initPassEnd s = .next s.endPass :=
      congrArg _ ((if_pos (by simp [running, initialising])).trans (arbitrate_quiet (s := s.endPass) quiet))
    exact ⟨s.endPass, ended, rfl, poolAtStart (by simp only [State.endPass])⟩

/-! ### The Time Base (R130, R131) -/

theorem not_clocked {s : State} (h : s.refclk = false ∨ s.phase = .inReset) : s.clocked = false := by
  obtain stopped | inReset := h
  · simp [State.clocked, stopped]
  · simp [State.clocked, inReset]

theorem clocked_of {s : State} (running : s.refclk = true) (away : s.phase ≠ .inReset) : s.clocked = true := by
  simp [State.clocked, running, away]

theorem tick_running {n : Nat} (h : 2 ≤ n) : (Timer.running n).tick = .running (n - 1) := if_neg (by omega)

/-- Settles O50: the tick of each session's two timers. -/
theorem tickLowersTimers : Obligations.TickLowersTimers := by
  unfold Obligations.TickLowersTimers
  intro s
  refine ⟨fun h => congrArg _ (if_neg (by simp [not_clocked h])), fun running away => ?_⟩
  have session (p : Port) : s.tickAll.session p = (s.session p).tick := get_map Session.tick s.sessions p
  refine ⟨s.tickAll, congrArg _ (if_pos (clocked_of running away)), rfl, fun p => ?_, fun p => ?_⟩
  · rw [session]
    rfl
  · rw [session]
    refine ⟨fun e => ?_, fun n two e => ?_, fun e => ?_, fun e => ?_, fun n two e => ?_, fun e => ?_⟩
    all_goals simp only [Session.tick, e]
    · rfl
    · exact tick_running two
    · rfl
    · rfl
    · exact tick_running two
    · rfl

/-- No change but those of the stamp's own events writes the stamp counter. -/
theorem change_stamp {c : Instr} {s t : State} (change : Change c s t) (rise : c ≠ .stampCounterRise) (reset : c ≠ .resetAssert)
    (release : c ≠ .resetRelease) : t.stamp = s.stamp := by
  cases change
  case request p r operating => exact (takeRequest_kept p r s).2.1
  case flush p event expired =>
    have outside := flushPort_outside s p
    simp only [State.outside, Prod.mk.injEq] at outside
    obtain ⟨-, -, -, -, stamp, -⟩ := outside
    exact stamp
  case enterReset event => exact absurd event reset
  case leaveReset event inReset => exact absurd event release
  case microsecond event => exact absurd event rise
  all_goals rfl

/-- Settles O51: the rise by its definition; and no other change writes the counter. -/
theorem stampRises : Obligations.StampRises := by
  unfold Obligations.StampRises
  refine ⟨fun s => ⟨fun h => congrArg _ (if_neg (by simp [not_clocked h])), fun running away => ?_, fun full => ?_⟩, ?_⟩
  · exact congrArg _ (if_pos (clocked_of running away))
  · rw [full]
    rfl
  · intro c s t e rise reset release
    exact exec_keeps (P := fun w => w.stamp = s.stamp)
      (fun _ _ change h => (change_stamp change rise reset release).trans h) rfl e

/-! ### The lapse of a session (R133) -/

theorem noticesWaiting_congr {s t : State} (queues : t.queues = s.queues) (links : t.links = s.links) (core : t.core = s.core)
    (p : Port) : t.noticesWaiting p = s.noticesWaiting p := by
  simp only [State.noticesWaiting, State.takingNotices, State.queue, State.link, queues, links, core]

/-- R126: ATTn follows the masks, the queues, the links and the core. -/
theorem attnAsserted_congr {s t : State} {p : Port} (mask : (t.session p).mask = (s.session p).mask) (queues : t.queues = s.queues)
    (links : t.links = s.links) (core : t.core = s.core) (phase : t.phase = s.phase) : t.attnAsserted p = s.attnAsserted p := by
  have link : t.link p = s.link p := by rw [State.link, links]; rfl
  simp only [State.attnAsserted, mask, noticesWaiting_congr queues links core, link, phase]

/-- Settles O52: the lapse by its definition. -/
theorem leaseExpiryLapses : Obligations.LeaseExpiryLapses := by
  unfold Obligations.LeaseExpiryLapses
  intro s p
  refine ⟨fun nothing => congrArg _ (if_neg (fun taken => ?_)), fun running away expired => ?_⟩
  · simp only [Bool.and_eq_true, decide_eq_true_eq] at taken
    obtain ⟨clocked, expired⟩ := taken
    obtain stopped | inReset | other := nothing
    · exact absurd (clocked.symm.trans (not_clocked (.inl stopped))) (by simp)
    · exact absurd (clocked.symm.trans (not_clocked (.inr inReset))) (by simp)
    · exact other expired
  · have taken : (s.clocked && (s.session p).leaseTimer = .expired) = true := by simp [clocked_of running away, expired]
    have session (q : Port) : (s.lapsePort p).session q =
        if p = q then { s.session p with state := .lapsed, leaseTimer := .idle, flushTimer := .idle } else s.session q :=
      State.setSession_session _ p q _
    refine ⟨s.lapsePort p, congrArg _ (if_pos taken), rfl, holdingsLapsed_congr rfl rfl (lapseHoldings_lapsed s p),
      (session p).trans (if_pos rfl), fun q ne => (session q).trans (if_neg (Ne.symm ne)), fun q => ?_⟩
    refine attnAsserted_congr ?_ rfl rfl rfl rfl
    rw [session]
    split
    · next same => rw [same]
    · rfl

/-! ### REFCLK (R171) -/

/-- Settles O54: the events that run on the clock by its level, the return by the arbiter. -/
theorem refclkStopsTime : Obligations.RefclkStopsTime := by
  unfold Obligations.RefclkStopsTime
  intro s
  refine ⟨rfl, fun stopped p => ?_, fun nothing => ?_, fun k r operating free waiting before => ?_⟩
  · have still : s.clocked = false := not_clocked (.inl stopped)
    refine ⟨?_, ?_, ?_, ?_, ?_, ?_, ?_, ?_, ?_, ?_⟩ <;> exact congrArg _ (if_neg (by simp [stopped, still]))
  · refine congrArg Host.Outcome.next ?_
    obtain quiet | away | busy := nothing
    · exact arbitrate_quiet (s := { s with refclk := true }) quiet
    · exact if_neg (by simp [State.coreAvailable, away])
    · exact arbitrate_held (s := { s with refclk := true }) (.inl busy)
  · intro q grantedTo
    refine congrArg Host.Outcome.next ?_
    have available : State.coreAvailable { s with refclk := true } = true := by
      simp [State.coreAvailable, operating, free]
    have first : State.nextGranted { s with refclk := true } = some q :=
      nextGranted_eq_some (s := { s with refclk := true }) ((isWaiting_iff _).mpr ⟨r, waiting⟩) before
    have state : (State.link { s with refclk := true } q).state = .waiting r := waiting
    rw [State.arbitrate, if_pos available, first]
    simp only [state]
    rfl

end Sys2Proof.Proofs.PinsAndTime
end

section
/-! SUPPORT. The payload bytes that requests and events leave (R2, R9, R15). -/

namespace Sys2Proof.Proofs.PayloadBytes

open Sys2Proof.Machine Sys2Proof.Safety Sys2Proof.Laws Sys2Proof.Proofs.Streams Sys2Proof.Proofs.Steps
  Sys2Proof.Proofs.StepInvariants Sys2Proof.Proofs.LinkInvariant Sys2Proof.Proofs.Edges Sys2Proof.Proofs.Arbitration
  Sys2Proof.Proofs.PinsAndTime

/-! ### Requests -/

/-- A request taken at once, or too long to be taken, that is neither APPEND nor SCRUB. -/
theorem presentRequest_bytes {s : State} {p : Port} {r : Request} (h : TakesAtOnce s p) (append : r.command ≠ some .append)
    (scrub : r.command ≠ some .scrub) : (s.presentRequest p r).pool.bytes = s.pool.bytes := by
  by_cases fits : r.params.length ≤ 16 ∧ r.payload.length ≤ 256
  · rw [presentRequest_atOnce h r fits]
    exact takeRequest_bytes p r _ append scrub
  · have alive : LinkAlive s p := ⟨by simp [h.operating], by simp [h.pins_high]⟩
    rw [presentRequest_alive r alive (by simp [h.pins_high]), if_pos (by omega)]
    rfl

/-! ### Events -/

/-- A rise of CSn takes a request or leaves the pool. -/
theorem goodFrame_pool {s : State} {p : Port} {r : Request} (core : (s.goodFrame p r).core = s.core) :
    (s.goodFrame p r).pool = s.pool := by
  cases phase : s.phase with
  | operating =>
    rw [goodFrame_operating p r phase] at core ⊢
    obtain same | ⟨q, x, available, -, granted⟩ := arbitrate_cases (s.setLink p ((s.link p).receiveGood r))
    · rw [same]
      rfl
    · have free : s.core = none := core_none_of_available (s := s.setLink p _) available
      rw [granted, free] at core
      exact absurd core (by simp [State.grant])
  | initialising =>
    simp only [State.goodFrame, phase]
    rfl
  | inReset => simp only [State.goodFrame, phase]

theorem chipSelectRise_pool {s : State} {p : Port} {received : List Byte} (core : (s.chipSelectRise p received).core = s.core) :
    (s.chipSelectRise p received).pool = s.pool := by
  cases low : (s.pinsOf p).csLow with
  | false => simp [State.chipSelectRise, low]
  | true =>
    cases begun : (s.link p).transaction with
    | none => simp [State.chipSelectRise, low, begun]
    | some tr =>
      rw [chipSelectRise_ends received low begun] at core ⊢
      unfold State.judgeReceived at core ⊢
      cases judged : judgeAll received with
      | good r =>
        rw [judged] at core
        exact goodFrame_pool (s := transactionEnded s p tr received) core
      | noFrame => rfl
      | truncated => rfl
      | badcheck => rfl

theorem chipSelectFall_pool (s : State) (p : Port) : (s.chipSelectFall p).pool = s.pool := by
  unfold State.chipSelectFall
  split
  · rfl
  · dsimp only
    split <;> rfl

theorem assertPrst_pool (s : State) (p : Port) : (s.assertPrst p).pool = s.pool := by
  unfold State.assertPrst
  split
  · dsimp only
    split <;> rfl
  · rfl

/-- R157: a completion with no request waiting. -/
theorem complete_pool {s : State} (quiet : ∀ q : Port, (s.link q).isWaiting = false) : s.complete.pool = s.pool := by
  unfold State.complete
  cases s.core with
  | none => rfl
  | some e =>
    dsimp only
    rw [completeCommand_eq, arbitrate_quiet]
    · rfl
    · intro q
      rw [State.setCore_link, State.setLink_link]
      split
      · next same =>
        subst same
        split
        · exact quiet e.port
        · rfl
      · exact quiet q

/-- An event taken under a condition, which leaves the bytes. -/
theorem ite_bytes {b : Bool} {w s : State} (h : w.pool.bytes = s.pool.bytes) :
    (if b then w else s).pool.bytes = s.pool.bytes := by
  split
  · exact h
  · rfl

/-- Settles O55, request by request and event by event. -/
theorem payloadBytesKept : Obligations.PayloadBytesKept := by
  unfold Obligations.PayloadBytesKept
  intro s t a
  have read {w : State} {o : Host.Outcome State Fault Refusal} (eq : o = .next w) (e : o = .next t)
      (bytes : w.pool.bytes = s.pool.bytes) : t.pool.bytes.read a = s.pool.bytes.read a := by
    obtain rfl := Host.Outcome.next.inj (eq.symm.trans e)
    rw [bytes]
  refine ⟨fun p c id params payload h append scrub e => ?_, fun p id code params payload h e => ?_,
    fun p received lastBits quiet e => ?_⟩
  · have named : (requestOf c id params payload).command = some c := command_of_code c _ _ _
    exact read (exec_rowOf c p id params payload s) e
      (presentRequest_bytes h (by simp [named, append]) (by simp [named, scrub]))
  · obtain e | ⟨unnamed, e⟩ := e
    · have named : Request.command { id := id, code := some Command.attach.code, params := 0x01#8 :: params, payload := payload } =
        some .attach := command_of_code .attach _ _ _
      exact read rfl e (presentRequest_bytes h (by simp [named]) (by simp [named]))
    · have named := command_none code id params payload unnamed
      exact read rfl e (presentRequest_bytes h (by simp [named]) (by simp [named]))
  · obtain e | ⟨e, core⟩ | e | e | e | e | e | e | e | e | e | e := e
    · exact read rfl e (congrArg _ (chipSelectFall_pool s p))
    · obtain rfl : s.chipSelectRise p received = t := Host.Outcome.next.inj e
      rw [chipSelectRise_pool core]
    · exact read rfl e (congrArg _ (assertPrst_pool s p))
    · exact read rfl e (ite_bytes rfl)
    · exact read rfl e (ite_bytes rfl)
    · exact read rfl e (ite_bytes rfl)
    · exact read rfl e (ite_bytes (flushPort_bytes s p))
    · exact read rfl e (ite_bytes (congrArg _ (complete_pool quiet)))
    · exact read rfl e (ite_bytes rfl)
    · exact read rfl e (ite_bytes rfl)
    · exact read rfl e rfl
    · exact read rfl e (by rw [arbitrate_quiet (s := { s with refclk := true }) quiet])

end Sys2Proof.Proofs.PayloadBytes
end

section
/-! SUPPORT. The expiry of a flush timer (R117): the pending subscriptions are announced as long as the queue has room. -/

namespace Sys2Proof.Proofs.Flush

open Sys2Proof.Machine Sys2Proof.Safety Sys2Proof.Laws Sys2Proof.Proofs.Streams Sys2Proof.Proofs.Steps
  Sys2Proof.Proofs.Sessions Sys2Proof.Proofs.SharedOperations Sys2Proof.Proofs.PinsAndTime Sys2Proof.Proofs.Teardown

/-! ### One stream -/

/-- R117: the ARRIVAL that a flush of port `p` posts for stream `i`. -/
def flushNotice (s : State) (p : Port) (i : StreamId) : Option Notice :=
  match s.sub i p with
  | some u =>
    if u.state = .active ∧ 0 < u.unannounced ∧ u.arrivalQueued = false then
      some { kind := .arrival, stream := i, sequence := (s.stream i).nextSeq - 1, count := BitVec.ofNat 16 u.unannounced, aux := 2 }
    else none
  | none => none

/-- R113: a subscription whose ARRIVAL is appended. -/
def announcedSub (u : Subscription) : Subscription := { u with unannounced := 0, arrivalQueued := true }

theorem flushNotice_congr {s t : State} {p : Port} {i : StreamId} (sub : t.sub i p = s.sub i p)
    (stream : t.stream i = s.stream i) : flushNotice t p i = flushNotice s p i := by
  unfold flushNotice
  rw [sub, stream]

theorem flushNotice_isSome_iff (s : State) (p : Port) (i : StreamId) :
    (flushNotice s p i).isSome = true ↔
      ∃ u, s.sub i p = some u ∧ u.state = .active ∧ 0 < u.unannounced ∧ u.arrivalQueued = false := by
  unfold flushNotice
  cases s.sub i p with
  | none => simp
  | some u =>
    by_cases pending : u.state = .active ∧ 0 < u.unannounced ∧ u.arrivalQueued = false
    · simp [pending]
    · simp [pending]

/-- A subscription that has been announced is not announced again. -/
theorem flushNotice_announced {s t : State} {p : Port} {i : StreamId} (h : t.sub i p = (s.sub i p).map announcedSub) :
    (flushNotice t p i).isSome = false := by
  rw [Bool.eq_false_iff, ne_eq, flushNotice_isSome_iff, h]
  rintro ⟨u, mapped, -, -, unqueued⟩
  obtain ⟨v, -, rfl⟩ := Option.map_eq_some_iff.mp mapped
  exact absurd unqueued (by simp [announcedSub])

theorem flushStream_none {s : State} {p : Port} {i : StreamId} (h : flushNotice s p i = none) : State.flushStream p s i = s := by
  unfold State.flushStream
  unfold flushNotice at h
  split
  · next u present =>
    simp only [present, ite_eq_right_iff, reduceCtorEq, imp_false] at h
    exact if_neg (by simpa [Subscription.isPending, and_assoc] using h)
  · rfl

/-- R117: the announcement of a pending subscription. -/
theorem flushStream_some {s : State} {p : Port} {i : StreamId} {n : Notice} (h : flushNotice s p i = some n) :
    State.flushStream p s i =
      if (s.queue p).records.length < 32 then (s.post p n).setSub i p ((s.sub i p).map announcedSub) else s.post p n := by
  unfold State.flushStream
  unfold flushNotice at h
  split
  · next u present =>
    simp only [present, Option.ite_none_right_eq_some, Option.some.injEq] at h
    obtain ⟨pending, rfl⟩ := h
    rw [if_pos (by simpa [Subscription.isPending, and_assoc] using pending), State.postArrival, present]
    by_cases room : (s.queue p).records.length < 32
    · rw [if_pos room]
      exact if_pos (decide_eq_true room)
    · rw [if_neg room]
      exact if_neg (fun h => room (of_decide_eq_true h))
  · next absent => simp [absent] at h

theorem flushStream_kept (s : State) (p : Port) (i : StreamId) :
    State.flushStream p s i =
      { s with queues := (State.flushStream p s i).queues, subs := (State.flushStream p s i).subs } := by
  unfold State.flushStream
  split
  · split
    · exact postArrival_kept _ _ _ _ _ _
    · rfl
  · rfl

/-! ### All streams -/

/-- R117: what the flush of a list of streams leaves, each decided on the state before. -/
theorem flushStreams_views (l : List StreamId) (once : l.Nodup) (p : Port) (s : State) :
    let t := l.foldl (State.flushStream p) s
    let served := (l.filter (fun i => (flushNotice s p i).isSome)).take (32 - (s.queue p).records.length)
    t.queue p = (l.filterMap (flushNotice s p)).foldl enqueue (s.queue p) ∧
      (∀ q, q ≠ p → t.queue q = s.queue q ∧ ∀ i, t.sub i q = s.sub i q) ∧
      (∀ i, i ∉ served → t.sub i p = s.sub i p) ∧ (∀ i, i ∈ served → t.sub i p = (s.sub i p).map announcedSub) := by
  induction l generalizing s with
  | nil => simp
  | cons i rest ih =>
    obtain ⟨out, rest_once⟩ := List.nodup_cons.mp once
    cases h : flushNotice s p i with
    | none =>
      simp only [List.foldl_cons, flushStream_none h, List.filter_cons, List.filterMap_cons, h, Option.isSome_none,
        Bool.false_eq_true, if_false]
      exact ih rest_once s
    | some n =>
      have step := flushStream_some h
      obtain ⟨queue, others, kept, served⟩ := ih rest_once (State.flushStream p s i)
      have first_queue : (State.flushStream p s i).queue p = enqueue (s.queue p) n := by
        rw [step]
        split
        · exact post_queue_self s p n
        · exact post_queue_self s p n
      have first_others (q : Port) (ne : q ≠ p) :
          (State.flushStream p s i).queue q = s.queue q ∧ ∀ j, (State.flushStream p s i).sub j q = s.sub j q := by
        rw [step]
        split
        · refine ⟨post_queue_ne s p q n ne, fun j => ?_⟩
          rw [State.setSub_sub, if_neg (fun x => ne x.2.symm), post_sub]
        · exact ⟨post_queue_ne s p q n ne, fun j => post_sub s p q n j⟩
      have first_sub (j : StreamId) (ne : j ≠ i) : (State.flushStream p s i).sub j p = s.sub j p := by
        rw [step]
        split
        · rw [State.setSub_sub, if_neg (fun x => ne x.1.symm), post_sub]
        · exact post_sub s p p n j
      have notices (j : StreamId) (mem : j ∈ rest) : flushNotice (State.flushStream p s i) p j = flushNotice s p j :=
        flushNotice_congr (first_sub j (fun e => out (e ▸ mem))) (by rw [flushStream_kept]; rfl)
      have same_notices : rest.filterMap (flushNotice (State.flushStream p s i) p) = rest.filterMap (flushNotice s p) :=
        List.filterMap_congr notices
      have same_filter : rest.filter (fun j => (flushNotice (State.flushStream p s i) p j).isSome) =
          rest.filter (fun j => (flushNotice s p j).isSome) := List.filter_congr (fun j mem => by rw [notices j mem])
      have unlisted : i ∉ rest.filter (fun j => (flushNotice s p j).isSome) := fun x => out (List.mem_of_mem_filter x)
      simp only [List.foldl_cons, List.filter_cons, List.filterMap_cons, h, Option.isSome_some, if_true]
      rw [same_notices, first_queue] at queue
      rw [same_filter, first_queue] at kept served
      refine ⟨queue, fun q ne => ?_, ?_⟩
      · obtain ⟨oq, os⟩ := others q ne
        obtain ⟨fq, fs⟩ := first_others q ne
        exact ⟨oq.trans fq, fun j => (os j).trans (fs j)⟩
      · by_cases room : (s.queue p).records.length < 32
        · have length : (enqueue (s.queue p) n).records.length = (s.queue p).records.length + 1 := by
            simp [enqueue, room]
          have here : (State.flushStream p s i).sub i p = (s.sub i p).map announcedSub := by
            rw [step, if_pos room, State.setSub_sub_self]
          rw [length] at kept served
          rw [show 32 - (s.queue p).records.length = 32 - ((s.queue p).records.length + 1) + 1 by omega,
            List.take_succ_cons]
          refine ⟨fun j x => ?_, fun j x => ?_⟩
          · obtain ⟨ne, x⟩ := not_or.mp (fun y => x (List.mem_cons.mpr y))
            rw [kept j x, first_sub j ne]
          · obtain rfl | x := List.mem_cons.mp x
            · rw [kept j (fun y => unlisted (List.mem_of_mem_take y)), here]
            · have ne : j ≠ i := fun e => unlisted (e ▸ List.mem_of_mem_take x)
              rw [served j x, first_sub j ne]
        · have length : (enqueue (s.queue p) n).records.length = (s.queue p).records.length := by
            simp [enqueue, room]
          have here : (State.flushStream p s i).sub i p = s.sub i p := by
            rw [step, if_neg room, post_sub]
          have none_free : 32 - (s.queue p).records.length = 0 := by omega
          rw [length, none_free, List.take_zero] at kept
          rw [none_free, List.take_zero]
          refine ⟨fun j _ => ?_, fun j x => absurd x List.not_mem_nil⟩
          rw [kept j List.not_mem_nil]
          by_cases e : j = i
          · rw [e, here]
          · exact first_sub j e

/-! ### The expiry -/

theorem length_filterMap_eq_filter {α β : Type} (f : α → Option β) (l : List α) :
    (l.filterMap f).length = (l.filter (fun x => (f x).isSome)).length := by
  rw [List.length_filterMap_eq_countP, List.countP_eq_length_filter]

/-- An element beyond the first `k` of a list without repetition. -/
theorem exists_mem_not_mem_take {l : List StreamId} (once : l.Nodup) (k : Nat) :
    (∃ i ∈ l, i ∉ l.take k) ↔ k < l.length := by
  constructor
  · rintro ⟨i, mem, out⟩
    by_contra h
    exact out ((List.take_of_length_le (Nat.not_lt.mp h)).symm ▸ mem)
  · intro lt
    have beyond : l[k] ∈ l.drop k := List.mem_of_getElem? (i := 0) (by rw [List.getElem?_drop]; simp [lt])
    exact ⟨l[k], List.getElem_mem lt, fun front => List.disjoint_take_drop once (Nat.le_refl k) front beyond⟩

/-- R117: a subscription is pending after the flush exactly when the queue was too short. -/
theorem anyPending_after_flush (s : State) (p : Port) :
    (allStreams.foldl (State.flushStream p) s).anyPending p = true ↔
      32 - (s.queue p).records.length < (allStreams.filterMap (flushNotice s p)).length := by
  obtain ⟨-, -, kept, served⟩ := flushStreams_views allStreams allStreams_nodup p s
  have stream (i : StreamId) : (allStreams.foldl (State.flushStream p) s).stream i = s.stream i := by
    rw [State.stream, foldl_keeps State.streams _ (fun w j => by rw [flushStream_kept])]
    rfl
  generalize allStreams.foldl (State.flushStream p) s = w at *
  rw [length_filterMap_eq_filter,
    ← exists_mem_not_mem_take (allStreams_nodup.filter (fun i => (flushNotice s p i).isSome)), anyPending_iff]
  simp only [← flushNotice_isSome_iff]
  refine exists_congr (fun i => ?_)
  by_cases x : i ∈ (allStreams.filter (fun i => (flushNotice s p i).isSome)).take (32 - (s.queue p).records.length)
  · simp only [flushNotice_announced (served i x), x, not_true, and_false, Bool.false_eq_true]
  · rw [flushNotice_congr (kept i x) (stream i), List.mem_filter]
    simp only [x, not_false_eq_true, and_true, mem_allStreams, true_and]

/-- R116, R117: the timer after the flush: it starts again when a subscription is still pending. -/
theorem restartFlush_session (w : State) (p q : Port) :
    ((w.stopFlush p).startFlushIfPending p).session q =
      if p = q then
        { w.session p with
          flushTimer := if w.anyPending p = true ∧ (w.session p).flushPeriod ≠ 0 then .running (w.session p).flushPeriod else .idle }
      else w.session q := by
  have pending : (w.stopFlush p).anyPending p = w.anyPending p := rfl
  have stopped : (w.stopFlush p).session p = { w.session p with flushTimer := .idle } := State.setSession_session_self _ _ _
  unfold State.startFlushIfPending State.startFlush
  rw [pending, stopped]
  by_cases asks : w.anyPending p = true
  · by_cases period : (w.session p).flushPeriod ≠ 0
    · simp [asks, period, State.stopFlush, State.setSession_session]
    · simp [asks, period, State.stopFlush, State.setSession_session]
  · simp [asks, State.stopFlush, State.setSession_session]

theorem restartFlush_kept (w : State) (p : Port) :
    (w.stopFlush p).startFlushIfPending p = { w with sessions := ((w.stopFlush p).startFlushIfPending p).sessions } := by
  unfold State.startFlushIfPending
  split
  · rw [startFlush_kept]
    rfl
  · rfl

theorem flushStreams_kept (l : List StreamId) (p : Port) (s : State) :
    l.foldl (State.flushStream p) s =
      { s with queues := (l.foldl (State.flushStream p) s).queues, subs := (l.foldl (State.flushStream p) s).subs } := by
  induction l generalizing s with
  | nil => rfl
  | cons i rest ih =>
    rw [List.foldl_cons, ih, flushStream_kept]

/-- Settles O53: the fold over the streams, then the timer. -/
theorem flushExpiryAnnounces : Obligations.FlushExpiryAnnounces := by
  unfold Obligations.FlushExpiryAnnounces
  intro s p announced notices free served full
  refine ⟨fun nothing => congrArg _ (if_neg (fun taken => ?_)), fun running away expired => ?_⟩
  · simp only [Bool.and_eq_true, decide_eq_true_eq] at taken
    obtain ⟨clocked, expired⟩ := taken
    obtain stopped | inReset | other := nothing
    · exact absurd (clocked.symm.trans (not_clocked (.inl stopped))) (by simp)
    · exact absurd (clocked.symm.trans (not_clocked (.inr inReset))) (by simp)
    · exact other expired
  · have taken : (s.clocked && (s.session p).flushTimer = .expired) = true := by simp [clocked_of running away, expired]
    obtain ⟨queue, others, unserved, announcedAll⟩ := flushStreams_views allStreams allStreams_nodup p s
    have pending : _ ↔ full := anyPending_after_flush s p
    have kept := flushStreams_kept allStreams p s
    generalize hw : allStreams.foldl (State.flushStream p) s = w at queue others unserved announcedAll pending kept
    have session (q : Port) : w.session q = s.session q := by rw [kept]; rfl
    obtain ⟨records, fits, spills⟩ := enqueues_spec notices (s.queue p)
    have flushed : s.flushPort p = (w.stopFlush p).startFlushIfPending p := by rw [← hw]; rfl
    have rest := restartFlush_kept w p
    have timer (q : Port) := restartFlush_session w p q
    generalize (w.stopFlush p).startFlushIfPending p = t at flushed rest timer
    have table_queue (q : Port) : t.queue q = w.queue q := by rw [rest]; rfl
    have table_sub (i : StreamId) (q : Port) : t.sub i q = w.sub i q := by rw [rest]; rfl
    have queue : t.queue p = notices.foldl enqueue (s.queue p) := (table_queue p).trans queue
    refine ⟨t, congrArg _ ((if_pos taken).trans flushed), ?_, ?_, ?_, ?_, fun q ne => ⟨?_, ?_, fun i => ?_⟩,
      fun i => ⟨fun out => ?_, fun mem => ?_⟩⟩
    · rw [rest, kept]
    · rw [queue]
      exact records
    · rw [queue]
      by_cases c : full
      · rw [if_pos c]
        exact spills c
      · rw [if_neg c]
        exact fits (Nat.not_lt.mp c)
    · rw [timer p, if_pos rfl, session]
      simp only [pending]
    · rw [timer q, if_neg (Ne.symm ne), session]
    · obtain ⟨oq, -⟩ := others q ne
      exact (table_queue q).trans oq
    · obtain ⟨-, os⟩ := others q ne
      exact (table_sub i q).trans (os i)
    · exact (table_sub i p).trans (unserved i out)
    · exact (table_sub i p).trans (announcedAll i mem)

end Sys2Proof.Proofs.Flush
end
